-- ==== Sys2Proof/Word.lean ====
section
/-! DEFINITION. The word types of the machine (R6, R10, R51): every register, address and instruction is 32 bits wide, a
memory cell is 8 bits, and the accumulator `hi ++ lo` is 64 bits. -/

namespace Sys2Proof

/-- One memory cell (R51). -/
abbrev Byte := BitVec 8

/-- A halfword (R51). -/
abbrev Half := BitVec 16

/-- A register, an address, an instruction word (R6, R10). -/
abbrev Word := BitVec 32

/-- The 64-bit value `hi ++ lo` (R30). -/
abbrev DWord := BitVec 64

/-- A register number: a 5-bit field of the instruction word (R20, R83). -/
abbrev Reg := BitVec 5

/-- The link register r31 (R22). -/
def linkReg : Reg := 31#5

end Sys2Proof
end

