-- ==== Sys2Proof/Config.lean ====
section
/-! DEFINITION. What the spec leaves open and the model leaves free: constants with no body, so that no proof can know what
they are. Each is applied to a counter that State carries (`free`), which gives a fresh value at every use. The parameters
that a launch gives as data (R7, R373) stand in `Platform` (Machine/State.lean), a field of State. -/

namespace Sys2Proof.Config

/-- The `any value` of R15, 32 bits wide: `hi` and `lo` after a division without a result (R151, R152, D11). Log entry 15. -/
opaque freeWord : Nat → Word

/-- The `any value` of R15, 8 bits wide: the bytes of a line that Create Dirty Exclusive makes (R299, R303). Log entry 16. -/
opaque freeByte : Nat → Byte

/-- How many writes leave a write buffer between two instructions: the source states no depth and no rate (R40, R64). Log
entry 14. -/
opaque drainCount : Nat → Nat

end Sys2Proof.Config
end

