-- ==== Sys2Proof/Syntax.lean ====
section
/-! DEFINITION. The instructions: one constructor for each of the 116 rows of the opcode table (R94). Operands stand in the
order of the assembler syntax (R102), destination first, but that `base` stands before `offset`; a field holds the bits the
encoding gives it (R83), nothing decoded further. -/

namespace Sys2Proof

/-- The 116 documented instructions (R4, R94). `nop` is the word 0x00000000, which is also `sll r0, r0, 0` (R95, R118): the
decoder reads that word as `nop`. -/
inductive Instr where
  -- Arithmetic, logic and compare (R110 to R129)
  /-- `add`, R111. -/
  | add (rd rs rt : Reg)
  /-- `addi`, R112. -/
  | addi (rt rs : Reg) (imm : BitVec 16)
  /-- `addiu`, R113. -/
  | addiu (rt rs : Reg) (imm : BitVec 16)
  /-- `addu`, R114. -/
  | addu (rd rs rt : Reg)
  /-- `and`, R115. -/
  | and (rd rs rt : Reg)
  /-- `andi`, R116. -/
  | andi (rt rs : Reg) (imm : BitVec 16)
  /-- `lui`, R117. -/
  | lui (rt : Reg) (imm : BitVec 16)
  /-- `nop`, R118. -/
  | nop
  /-- `nor`, R119. -/
  | nor (rd rs rt : Reg)
  /-- `or`, R120. -/
  | or (rd rs rt : Reg)
  /-- `ori`, R121. -/
  | ori (rt rs : Reg) (imm : BitVec 16)
  /-- `slt`, R122. -/
  | slt (rd rs rt : Reg)
  /-- `slti`, R123. -/
  | slti (rt rs : Reg) (imm : BitVec 16)
  /-- `sltiu`, R124. -/
  | sltiu (rt rs : Reg) (imm : BitVec 16)
  /-- `sltu`, R125. -/
  | sltu (rd rs rt : Reg)
  /-- `sub`, R126. -/
  | sub (rd rs rt : Reg)
  /-- `subu`, R127. -/
  | subu (rd rs rt : Reg)
  /-- `xor`, R128. -/
  | xor (rd rs rt : Reg)
  /-- `xori`, R129. -/
  | xori (rt rs : Reg) (imm : BitVec 16)
  -- Shifts (R140 to R146)
  /-- `sll`, R141. -/
  | sll (rd rt : Reg) (sa : BitVec 5)
  /-- `sllv`, R142. -/
  | sllv (rd rt rs : Reg)
  /-- `sra`, R143. -/
  | sra (rd rt : Reg) (sa : BitVec 5)
  /-- `srav`, R144. -/
  | srav (rd rt rs : Reg)
  /-- `srl`, R145. -/
  | srl (rd rt : Reg) (sa : BitVec 5)
  /-- `srlv`, R146. -/
  | srlv (rd rt rs : Reg)
  -- Multiply, divide, HI/LO moves (R150 to R158)
  /-- `div`, R151. -/
  | div (rs rt : Reg)
  /-- `divu`, R152. -/
  | divu (rs rt : Reg)
  /-- `mult`, R153. -/
  | mult (rs rt : Reg)
  /-- `multu`, R154. -/
  | multu (rs rt : Reg)
  /-- `mfhi`, R155. -/
  | mfhi (rd : Reg)
  /-- `mflo`, R156. -/
  | mflo (rd : Reg)
  /-- `mthi`, R157. -/
  | mthi (rs : Reg)
  /-- `mtlo`, R158. -/
  | mtlo (rs : Reg)
  -- Branches and jumps (R165 to R186)
  /-- `beq`, R167. -/
  | beq (rs rt : Reg) (offset : BitVec 16)
  /-- `beql`, R168. -/
  | beql (rs rt : Reg) (offset : BitVec 16)
  /-- `bgez`, R169. -/
  | bgez (rs : Reg) (offset : BitVec 16)
  /-- `bgezal`, R170. -/
  | bgezal (rs : Reg) (offset : BitVec 16)
  /-- `bgezall`, R171. -/
  | bgezall (rs : Reg) (offset : BitVec 16)
  /-- `bgezl`, R172. -/
  | bgezl (rs : Reg) (offset : BitVec 16)
  /-- `bgtz`, R173. -/
  | bgtz (rs : Reg) (offset : BitVec 16)
  /-- `bgtzl`, R174. -/
  | bgtzl (rs : Reg) (offset : BitVec 16)
  /-- `blez`, R175. -/
  | blez (rs : Reg) (offset : BitVec 16)
  /-- `blezl`, R176. -/
  | blezl (rs : Reg) (offset : BitVec 16)
  /-- `bltz`, R177. -/
  | bltz (rs : Reg) (offset : BitVec 16)
  /-- `bltzal`, R178. -/
  | bltzal (rs : Reg) (offset : BitVec 16)
  /-- `bltzall`, R179. -/
  | bltzall (rs : Reg) (offset : BitVec 16)
  /-- `bltzl`, R180. -/
  | bltzl (rs : Reg) (offset : BitVec 16)
  /-- `bne`, R181. -/
  | bne (rs rt : Reg) (offset : BitVec 16)
  /-- `bnel`, R182. -/
  | bnel (rs rt : Reg) (offset : BitVec 16)
  /-- `j`, R183. -/
  | j (target : BitVec 26)
  /-- `jal`, R184. -/
  | jal (target : BitVec 26)
  /-- `jalr`, R185. -/
  | jalr (rd rs : Reg)
  /-- `jr`, R186. -/
  | jr (rs : Reg)
  -- Loads and stores (R200 to R212)
  /-- `lb`, R201. -/
  | lb (rt base : Reg) (offset : BitVec 16)
  /-- `lbu`, R202. -/
  | lbu (rt base : Reg) (offset : BitVec 16)
  /-- `lh`, R203. -/
  | lh (rt base : Reg) (offset : BitVec 16)
  /-- `lhu`, R204. -/
  | lhu (rt base : Reg) (offset : BitVec 16)
  /-- `lw`, R205. -/
  | lw (rt base : Reg) (offset : BitVec 16)
  /-- `lwl`, R206. -/
  | lwl (rt base : Reg) (offset : BitVec 16)
  /-- `lwr`, R207. -/
  | lwr (rt base : Reg) (offset : BitVec 16)
  /-- `sb`, R208. -/
  | sb (rt base : Reg) (offset : BitVec 16)
  /-- `sh`, R209. -/
  | sh (rt base : Reg) (offset : BitVec 16)
  /-- `sw`, R210. -/
  | sw (rt base : Reg) (offset : BitVec 16)
  /-- `swl`, R211. -/
  | swl (rt base : Reg) (offset : BitVec 16)
  /-- `swr`, R212. -/
  | swr (rt base : Reg) (offset : BitVec 16)
  -- System and coprocessor 0 (R225 to R230)
  /-- `break`, R226. -/
  | brk (code : BitVec 20)
  /-- `syscall`, R227. -/
  | syscall (code : BitVec 20)
  /-- `eret`, R228. -/
  | eret
  /-- `mfc0`, R229. -/
  | mfc0 (rt rd : Reg)
  /-- `mtc0`, R230. -/
  | mtc0 (rt rd : Reg)
  -- FPU interface (R240 to R250)
  /-- `bc1f`, R241. -/
  | bc1f (offset : BitVec 16)
  /-- `bc1fl`, R242. -/
  | bc1fl (offset : BitVec 16)
  /-- `bc1t`, R243. -/
  | bc1t (offset : BitVec 16)
  /-- `bc1tl`, R244. -/
  | bc1tl (offset : BitVec 16)
  /-- `cfc1`, R245. -/
  | cfc1 (rt fs : Reg)
  /-- `ctc1`, R246. -/
  | ctc1 (rt fs : Reg)
  /-- `lwc1`, R247. -/
  | lwc1 (ft base : Reg) (offset : BitVec 16)
  /-- `mfc1`, R248. -/
  | mfc1 (rt fs : Reg)
  /-- `mtc1`, R249. -/
  | mtc1 (rt fs : Reg)
  /-- `swc1`, R250. -/
  | swc1 (ft base : Reg) (offset : BitVec 16)
  -- ALLEGREX arithmetic (R260 to R279)
  /-- `clo`, R261. -/
  | clo (rd rs : Reg)
  /-- `clz`, R262. -/
  | clz (rd rs : Reg)
  /-- `madd`, R263. -/
  | madd (rs rt : Reg)
  /-- `maddu`, R264. -/
  | maddu (rs rt : Reg)
  /-- `msub`, R265. -/
  | msub (rs rt : Reg)
  /-- `msubu`, R266. -/
  | msubu (rs rt : Reg)
  /-- `max`, R267. -/
  | max (rd rs rt : Reg)
  /-- `min`, R268. -/
  | min (rd rs rt : Reg)
  /-- `movn`, R269. -/
  | movn (rd rs rt : Reg)
  /-- `movz`, R270. -/
  | movz (rd rs rt : Reg)
  /-- `ext`, R271. -/
  | ext (rt rs : Reg) (msbd lsb : BitVec 5)
  /-- `ins`, R272. -/
  | ins (rt rs : Reg) (msb lsb : BitVec 5)
  /-- `seb`, R273. -/
  | seb (rd rt : Reg)
  /-- `seh`, R274. -/
  | seh (rd rt : Reg)
  /-- `bitrev`, R275. -/
  | bitrev (rd rt : Reg)
  /-- `rotr`, R276. -/
  | rotr (rd rt : Reg) (sa : BitVec 5)
  /-- `rotrv`, R277. -/
  | rotrv (rd rt rs : Reg)
  /-- `wsbh`, R278. -/
  | wsbh (rd rt : Reg)
  /-- `wsbw`, R279. -/
  | wsbw (rd rt : Reg)
  -- Cache functions and sync (R290 to R307)
  /-- `cache 0x04`, R292. -/
  | cacheIndexInvalidateI (base : Reg) (offset : BitVec 16)
  /-- `cache 0x06`, R293. -/
  | cacheIndexUnlockI (base : Reg) (offset : BitVec 16)
  /-- `cache 0x08`, R294. -/
  | cacheHitInvalidateI (base : Reg) (offset : BitVec 16)
  /-- `cache 0x0a`, R295. -/
  | cacheFillI (base : Reg) (offset : BitVec 16)
  /-- `cache 0x0b`, R296. -/
  | cacheFillLockI (base : Reg) (offset : BitVec 16)
  /-- `cache 0x14`, R297. -/
  | cacheIndexWritebackInvalidateD (base : Reg) (offset : BitVec 16)
  /-- `cache 0x16`, R298. -/
  | cacheIndexUnlockD (base : Reg) (offset : BitVec 16)
  /-- `cache 0x18`, R299. -/
  | cacheCreateDirtyD (base : Reg) (offset : BitVec 16)
  /-- `cache 0x19`, R300. -/
  | cacheHitInvalidateD (base : Reg) (offset : BitVec 16)
  /-- `cache 0x1a`, R301. -/
  | cacheHitWritebackD (base : Reg) (offset : BitVec 16)
  /-- `cache 0x1b`, R302. -/
  | cacheHitWritebackInvalidateD (base : Reg) (offset : BitVec 16)
  /-- `cache 0x1c`, R303. -/
  | cacheCreateDirtyLockD (base : Reg) (offset : BitVec 16)
  /-- `cache 0x1e`, R304. -/
  | cacheFillD (base : Reg) (offset : BitVec 16)
  /-- `cache 0x1f`, R305. -/
  | cacheFillLockD (base : Reg) (offset : BitVec 16)
  /-- `sync`, R307. -/
  | sync
  -- Load linked and store conditional (R320, R321)
  /-- `ll`, R320. -/
  | ll (rt base : Reg) (offset : BitVec 16)
  /-- `sc`, R321. -/
  | sc (rt base : Reg) (offset : BitVec 16)
deriving DecidableEq, Repr

/-- The restrictions of R380 to R382, by the letter of their row: what a program may not do, and what the spec refuses. -/
inductive Restriction where
  /-- a: a conditional branch in a delay slot. -/
  | a
  /-- a': `j jal jr jalr` in a delay slot, the spec's extension of a (D10). -/
  | a'
  /-- b: `eret` in a delay slot. -/
  | b
  /-- c: a link branch with `rs` = 31. -/
  | c
  /-- d: an instruction that writes r31 in the slot of a link branch or `jal`. -/
  | d
  /-- e: `jalr` with `rd` = `rs`. -/
  | e
  /-- f: an instruction that writes `jalr`'s `rd` or `rs` in its slot. -/
  | f
  /-- g: `eret` within two executed instructions of an `mtc0`. -/
  | g
  /-- h: `ext` with pos + size > 32 (UNPREDICTABLE, R271). -/
  | h
  /-- i: `ins` with size < 1 (UNPREDICTABLE, R272). -/
  | i
  /-- j: `cfc1` with `fs` neither 0 nor 31. -/
  | j
  /-- k: `ctc1` with `fs` other than 31. -/
  | k
  /-- l: `ctc1` in the slot of a `bc1x`. -/
  | l
  /-- m (R381): an instruction directly after a `cfc1` that names its `rt`. -/
  | m
  /-- n (R382 i, R383): `cfc1` of FCR31 or a `bc1x` directly after a `ctc1`. -/
  | n
  /-- o (R382 ii): a `ctc1` directly after a `ctc1` that raised FloatingPoint. -/
  | o
deriving DecidableEq, Repr

end Sys2Proof
end

