-- ==== Sys2Proof/WellFormed.lean ====
section
/-! DEFINITION. Which instructions are well formed: the restrictions the source states about ONE instruction's own fields
(R380 c, e, h, i, j, k), and the one spelling the decoder never answers (`sll r0, r0, 0`, whose word is `nop`'s, R95, R118).
Every field is as wide as its bits, so nothing else about a field can be wrong. -/

namespace Sys2Proof

/-- The restriction of R380 that the instruction's own fields break, if any. -/
def Instr.brokenByFields : Instr → Option Restriction
  | .bgezal rs _ | .bgezall rs _ | .bltzal rs _ | .bltzall rs _ => if rs = linkReg then some .c else none
  | .jalr rd rs => if rd = rs then some .e else none
  | .ext _ _ msbd lsb => if 32 < lsb.toNat + msbd.toNat + 1 then some .h else none
  | .ins _ _ msb lsb => if msb.toNat < lsb.toNat then some .i else none
  | .cfc1 _ fs => if fs = 0#5 ∨ fs = 31#5 then none else some .j
  | .ctc1 _ fs => if fs = 31#5 then none else some .k
  | _ => none

/-- `sll r0, r0, 0` is spelled `nop` (R118). -/
def Instr.isSpelledNop : Instr → Bool
  | .sll rd rt sa => rd == 0#5 && rt == 0#5 && sa == 0#5
  | _ => false

/-- An instruction a program may hold: no restriction on its fields is broken, and it has the decoder's spelling. -/
def Instr.wellFormed (i : Instr) : Bool :=
  i.brokenByFields.isNone && !i.isSpelledNop

end Sys2Proof
end

