-- ==== Sys2Proof/Decode.lean ====
section
/-! DEFINITION. From instruction words to instructions and back (R80 to R100). The decoder follows the code tables R85 to R92
cell by cell and answers every word: an instruction, a reserved cell (R97), or a word the spec gives no meaning (R96, R98).
The encoder writes the patterns of R93. -/

namespace Sys2Proof

/-! ### The fields of an instruction word (R83) -/

/-- `op`, bits 31..26. -/
def opF (w : Word) : BitVec 6 := w.extractLsb' 26 6
/-- `rs` or `base`, bits 25..21. -/
def rsF (w : Word) : BitVec 5 := w.extractLsb' 21 5
/-- `rt`, `ft` or `cfunc`, bits 20..16. -/
def rtF (w : Word) : BitVec 5 := w.extractLsb' 16 5
/-- `rd`, `fs`, `msbd` or `msb`, bits 15..11. -/
def rdF (w : Word) : BitVec 5 := w.extractLsb' 11 5
/-- `sa` or `lsb`, bits 10..6. -/
def saF (w : Word) : BitVec 5 := w.extractLsb' 6 5
/-- `func`, bits 5..0. -/
def funcF (w : Word) : BitVec 6 := w.extractLsb' 0 6
/-- `imm` or `offset`, bits 15..0. -/
def immF (w : Word) : BitVec 16 := w.extractLsb' 0 16
/-- `target`, bits 25..0. -/
def targetF (w : Word) : BitVec 26 := w.extractLsb' 0 26
/-- `code`, bits 25..6. -/
def codeF (w : Word) : BitVec 20 := w.extractLsb' 6 20

/-! ### Decoding -/

/-- Why a word is no instruction of R94. -/
inductive DecodeReject where
  /-- A cell the code tables print as `*` or "—" (R97, R306): the machine raises ReservedInstruction (R100 a). -/
  | reserved
  /-- An opcode the code table names and no page defines (R98): COP2, COP3, VFPU, SPECIAL2, FPU operations and so on. -/
  | namedOnly
  /-- A cell the code tables leave blank (R98). -/
  | blankCell
  /-- A non-zero value in a field that the figures print as zeros (R96). -/
  | nonzeroField
deriving DecidableEq, Repr

/-- What a word decodes to. -/
inductive Decoded where
  | instr (i : Instr)
  | reject (r : DecodeReject)
deriving DecidableEq, Repr

/-- The instruction, if the fields printed as zeros are zero (R96). -/
def ifZero (zero : Bool) (i : Instr) : Decoded :=
  if zero then .instr i else .reject .nonzeroField

/-- SPECIAL (R86, R87). -/
def decodeSpecial (w : Word) : Decoded :=
  let rs := rsF w; let rt := rtF w; let rd := rdF w; let sa := saF w
  let noSa := sa == 0#5
  let noRdSa := rd == 0#5 && noSa
  let noRtRdSa := rt == 0#5 && noRdSa
  match funcF w with
  | 0x00#6 =>
    if rs = 0#5 then (if rt = 0#5 ∧ rd = 0#5 ∧ sa = 0#5 then .instr .nop else .instr (.sll rd rt sa))
    else .reject .nonzeroField
  | 0x02#6 =>
    if rs = 0#5 then .instr (.srl rd rt sa) else if rs = 1#5 then .instr (.rotr rd rt sa) else .reject .blankCell
  | 0x03#6 => ifZero (rs == 0#5) (.sra rd rt sa)
  | 0x04#6 => ifZero noSa (.sllv rd rt rs)
  | 0x06#6 =>
    if sa = 0#5 then .instr (.srlv rd rt rs) else if sa = 1#5 then .instr (.rotrv rd rt rs) else .reject .blankCell
  | 0x07#6 => ifZero noSa (.srav rd rt rs)
  | 0x08#6 => ifZero noRtRdSa (.jr rs)
  | 0x09#6 => ifZero (rt == 0#5 && noSa) (.jalr rd rs)
  | 0x0a#6 => ifZero noSa (.movz rd rs rt)
  | 0x0b#6 => ifZero noSa (.movn rd rs rt)
  | 0x0c#6 => .instr (.syscall (codeF w))
  | 0x0d#6 => .instr (.brk (codeF w))
  | 0x0f#6 => ifZero (codeF w == 0#20) .sync
  | 0x10#6 => ifZero (rs == 0#5 && rt == 0#5 && noSa) (.mfhi rd)
  | 0x11#6 => ifZero noRtRdSa (.mthi rs)
  | 0x12#6 => ifZero (rs == 0#5 && rt == 0#5 && noSa) (.mflo rd)
  | 0x13#6 => ifZero noRtRdSa (.mtlo rs)
  | 0x16#6 => ifZero (rt == 0#5 && noSa) (.clz rd rs)
  | 0x17#6 => ifZero (rt == 0#5 && noSa) (.clo rd rs)
  | 0x18#6 => ifZero noRdSa (.mult rs rt)
  | 0x19#6 => ifZero noRdSa (.multu rs rt)
  | 0x1a#6 => ifZero noRdSa (.div rs rt)
  | 0x1b#6 => ifZero noRdSa (.divu rs rt)
  | 0x1c#6 => ifZero noRdSa (.madd rs rt)
  | 0x1d#6 => ifZero noRdSa (.maddu rs rt)
  | 0x20#6 => ifZero noSa (.add rd rs rt)
  | 0x21#6 => ifZero noSa (.addu rd rs rt)
  | 0x22#6 => ifZero noSa (.sub rd rs rt)
  | 0x23#6 => ifZero noSa (.subu rd rs rt)
  | 0x24#6 => ifZero noSa (.and rd rs rt)
  | 0x25#6 => ifZero noSa (.or rd rs rt)
  | 0x26#6 => ifZero noSa (.xor rd rs rt)
  | 0x27#6 => ifZero noSa (.nor rd rs rt)
  | 0x2a#6 => ifZero noSa (.slt rd rs rt)
  | 0x2b#6 => ifZero noSa (.sltu rd rs rt)
  | 0x2c#6 => ifZero noSa (.max rd rs rt)
  | 0x2d#6 => ifZero noSa (.min rd rs rt)
  | 0x2e#6 => ifZero noRdSa (.msub rs rt)
  | 0x2f#6 => ifZero noRdSa (.msubu rs rt)
  | 0x01#6 => .reject .blankCell
  | 0x05#6 => .reject .blankCell
  | _ => .reject .reserved

/-- REGIMM (R88). -/
def decodeRegimm (w : Word) : Decoded :=
  match rtF w with
  | 0#5 => .instr (.bltz (rsF w) (immF w))
  | 1#5 => .instr (.bgez (rsF w) (immF w))
  | 2#5 => .instr (.bltzl (rsF w) (immF w))
  | 3#5 => .instr (.bgezl (rsF w) (immF w))
  | 16#5 => .instr (.bltzal (rsF w) (immF w))
  | 17#5 => .instr (.bgezal (rsF w) (immF w))
  | 18#5 => .instr (.bltzall (rsF w) (immF w))
  | 19#5 => .instr (.bgezall (rsF w) (immF w))
  | _ => .reject .reserved

/-- COP0 (R90). -/
def decodeCop0 (w : Word) : Decoded :=
  let noSaFunc := saF w == 0#5 && funcF w == 0#6
  if 16#5 ≤ rsF w then
    match funcF w with
    | 0x18#6 => ifZero (rsF w == 16#5 && rtF w == 0#5 && rdF w == 0#5 && saF w == 0#5) .eret
    | 0x00#6 => .reject .reserved
    | 0x01#6 => .reject .reserved
    | 0x02#6 => .reject .reserved
    | 0x08#6 => .reject .reserved
    | 0x10#6 => .reject .reserved
    | _ => .reject .blankCell
  else
    match rsF w with
    | 0#5 => ifZero noSaFunc (.mfc0 (rtF w) (rdF w))
    | 4#5 => ifZero noSaFunc (.mtc0 (rtF w) (rdF w))
    | _ => .reject .blankCell

/-- COP1 (R89). -/
def decodeCop1 (w : Word) : Decoded :=
  let noSaFunc := saF w == 0#5 && funcF w == 0#6
  if 16#5 ≤ rsF w then .reject .namedOnly
  else
    match rsF w with
    | 0#5 => ifZero noSaFunc (.mfc1 (rtF w) (rdF w))
    | 2#5 => ifZero noSaFunc (.cfc1 (rtF w) (rdF w))
    | 3#5 => .reject .namedOnly
    | 4#5 => ifZero noSaFunc (.mtc1 (rtF w) (rdF w))
    | 6#5 => ifZero noSaFunc (.ctc1 (rtF w) (rdF w))
    | 7#5 => .reject .namedOnly
    | 8#5 =>
      match rtF w with
      | 0#5 => .instr (.bc1f (immF w))
      | 1#5 => .instr (.bc1t (immF w))
      | 2#5 => .instr (.bc1fl (immF w))
      | 3#5 => .instr (.bc1tl (immF w))
      | _ => .reject .blankCell
    | _ => .reject .blankCell

/-- SPECIAL3, and BSHFL under it (R91). -/
def decodeSpecial3 (w : Word) : Decoded :=
  match funcF w with
  | 0x00#6 => .instr (.ext (rtF w) (rsF w) (rdF w) (saF w))
  | 0x04#6 => .instr (.ins (rtF w) (rsF w) (rdF w) (saF w))
  | 0x20#6 =>
    if rsF w = 0#5 then
      match saF w with
      | 2#5 => .instr (.wsbh (rdF w) (rtF w))
      | 3#5 => .instr (.wsbw (rdF w) (rtF w))
      | 16#5 => .instr (.seb (rdF w) (rtF w))
      | 20#5 => .instr (.bitrev (rdF w) (rtF w))
      | 24#5 => .instr (.seh (rdF w) (rtF w))
      | _ => .reject .blankCell
    else .reject .blankCell
  | _ => .reject .blankCell

/-- CACHE (R92, R306). -/
def decodeCache (w : Word) : Decoded :=
  match rtF w with
  | 4#5 => .instr (.cacheIndexInvalidateI (rsF w) (immF w))
  | 6#5 => .instr (.cacheIndexUnlockI (rsF w) (immF w))
  | 8#5 => .instr (.cacheHitInvalidateI (rsF w) (immF w))
  | 10#5 => .instr (.cacheFillI (rsF w) (immF w))
  | 11#5 => .instr (.cacheFillLockI (rsF w) (immF w))
  | 20#5 => .instr (.cacheIndexWritebackInvalidateD (rsF w) (immF w))
  | 22#5 => .instr (.cacheIndexUnlockD (rsF w) (immF w))
  | 24#5 => .instr (.cacheCreateDirtyD (rsF w) (immF w))
  | 25#5 => .instr (.cacheHitInvalidateD (rsF w) (immF w))
  | 26#5 => .instr (.cacheHitWritebackD (rsF w) (immF w))
  | 27#5 => .instr (.cacheHitWritebackInvalidateD (rsF w) (immF w))
  | 28#5 => .instr (.cacheCreateDirtyLockD (rsF w) (immF w))
  | 30#5 => .instr (.cacheFillD (rsF w) (immF w))
  | 31#5 => .instr (.cacheFillLockD (rsF w) (immF w))
  | _ => .reject .reserved

/-- The instruction a word stands for: a function of the word alone (R85, R95). -/
def decode (w : Word) : Decoded :=
  let rs := rsF w; let rt := rtF w; let imm := immF w
  let noRt := rt == 0#5
  match opF w with
  | 0x00#6 => decodeSpecial w
  | 0x01#6 => decodeRegimm w
  | 0x02#6 => .instr (.j (targetF w))
  | 0x03#6 => .instr (.jal (targetF w))
  | 0x04#6 => .instr (.beq rs rt imm)
  | 0x05#6 => .instr (.bne rs rt imm)
  | 0x06#6 => ifZero noRt (.blez rs imm)
  | 0x07#6 => ifZero noRt (.bgtz rs imm)
  | 0x08#6 => .instr (.addi rt rs imm)
  | 0x09#6 => .instr (.addiu rt rs imm)
  | 0x0a#6 => .instr (.slti rt rs imm)
  | 0x0b#6 => .instr (.sltiu rt rs imm)
  | 0x0c#6 => .instr (.andi rt rs imm)
  | 0x0d#6 => .instr (.ori rt rs imm)
  | 0x0e#6 => .instr (.xori rt rs imm)
  | 0x0f#6 => ifZero (rs == 0#5) (.lui rt imm)
  | 0x10#6 => decodeCop0 w
  | 0x11#6 => decodeCop1 w
  | 0x14#6 => .instr (.beql rs rt imm)
  | 0x15#6 => .instr (.bnel rs rt imm)
  | 0x16#6 => ifZero noRt (.blezl rs imm)
  | 0x17#6 => ifZero noRt (.bgtzl rs imm)
  | 0x1f#6 => decodeSpecial3 w
  | 0x20#6 => .instr (.lb rt rs imm)
  | 0x21#6 => .instr (.lh rt rs imm)
  | 0x22#6 => .instr (.lwl rt rs imm)
  | 0x23#6 => .instr (.lw rt rs imm)
  | 0x24#6 => .instr (.lbu rt rs imm)
  | 0x25#6 => .instr (.lhu rt rs imm)
  | 0x26#6 => .instr (.lwr rt rs imm)
  | 0x28#6 => .instr (.sb rt rs imm)
  | 0x29#6 => .instr (.sh rt rs imm)
  | 0x2a#6 => .instr (.swl rt rs imm)
  | 0x2b#6 => .instr (.sw rt rs imm)
  | 0x2e#6 => .instr (.swr rt rs imm)
  | 0x2f#6 => decodeCache w
  | 0x30#6 => .instr (.ll rt rs imm)
  | 0x31#6 => .instr (.lwc1 rt rs imm)
  | 0x38#6 => .instr (.sc rt rs imm)
  | 0x39#6 => .instr (.swc1 rt rs imm)
  | 0x1a#6 => .reject .reserved
  | 0x1d#6 => .reject .reserved
  | 0x1e#6 => .reject .reserved
  | 0x27#6 => .reject .reserved
  | 0x2c#6 => .reject .reserved
  | 0x2d#6 => .reject .reserved
  | 0x33#6 => .reject .reserved
  | 0x3b#6 => .reject .reserved
  | _ => .reject .namedOnly

/-! ### Encoding (R93) -/

/-- Format R: `op rs rt rd sa func` (R81). -/
def encR (op : BitVec 6) (rs rt rd sa : BitVec 5) (func : BitVec 6) : Word :=
  op ++ (rs ++ (rt ++ (rd ++ (sa ++ func))))

/-- Format I: `op rs rt imm` (R81). -/
def encI (op : BitVec 6) (rs rt : BitVec 5) (imm : BitVec 16) : Word := op ++ (rs ++ (rt ++ imm))

/-- Format J: `op target` (R81). -/
def encJ (op : BitVec 6) (target : BitVec 26) : Word := op ++ target

/-- Format R with a 20-bit code (R81). -/
def encCode (code : BitVec 20) (func : BitVec 6) : Word := 0#6 ++ (code ++ func)

/-- The word of an instruction (R93). -/
def encode : Instr → Word
  | .add rd rs rt => encR 0x00#6 rs rt rd 0#5 0x20#6
  | .addi rt rs imm => encI 0x08#6 rs rt imm
  | .addiu rt rs imm => encI 0x09#6 rs rt imm
  | .addu rd rs rt => encR 0x00#6 rs rt rd 0#5 0x21#6
  | .and rd rs rt => encR 0x00#6 rs rt rd 0#5 0x24#6
  | .andi rt rs imm => encI 0x0c#6 rs rt imm
  | .lui rt imm => encI 0x0f#6 0#5 rt imm
  | .nop => encR 0x00#6 0#5 0#5 0#5 0#5 0x00#6
  | .nor rd rs rt => encR 0x00#6 rs rt rd 0#5 0x27#6
  | .or rd rs rt => encR 0x00#6 rs rt rd 0#5 0x25#6
  | .ori rt rs imm => encI 0x0d#6 rs rt imm
  | .slt rd rs rt => encR 0x00#6 rs rt rd 0#5 0x2a#6
  | .slti rt rs imm => encI 0x0a#6 rs rt imm
  | .sltiu rt rs imm => encI 0x0b#6 rs rt imm
  | .sltu rd rs rt => encR 0x00#6 rs rt rd 0#5 0x2b#6
  | .sub rd rs rt => encR 0x00#6 rs rt rd 0#5 0x22#6
  | .subu rd rs rt => encR 0x00#6 rs rt rd 0#5 0x23#6
  | .xor rd rs rt => encR 0x00#6 rs rt rd 0#5 0x26#6
  | .xori rt rs imm => encI 0x0e#6 rs rt imm
  | .sll rd rt sa => encR 0x00#6 0#5 rt rd sa 0x00#6
  | .sllv rd rt rs => encR 0x00#6 rs rt rd 0#5 0x04#6
  | .sra rd rt sa => encR 0x00#6 0#5 rt rd sa 0x03#6
  | .srav rd rt rs => encR 0x00#6 rs rt rd 0#5 0x07#6
  | .srl rd rt sa => encR 0x00#6 0#5 rt rd sa 0x02#6
  | .srlv rd rt rs => encR 0x00#6 rs rt rd 0#5 0x06#6
  | .div rs rt => encR 0x00#6 rs rt 0#5 0#5 0x1a#6
  | .divu rs rt => encR 0x00#6 rs rt 0#5 0#5 0x1b#6
  | .mult rs rt => encR 0x00#6 rs rt 0#5 0#5 0x18#6
  | .multu rs rt => encR 0x00#6 rs rt 0#5 0#5 0x19#6
  | .mfhi rd => encR 0x00#6 0#5 0#5 rd 0#5 0x10#6
  | .mflo rd => encR 0x00#6 0#5 0#5 rd 0#5 0x12#6
  | .mthi rs => encR 0x00#6 rs 0#5 0#5 0#5 0x11#6
  | .mtlo rs => encR 0x00#6 rs 0#5 0#5 0#5 0x13#6
  | .beq rs rt offset => encI 0x04#6 rs rt offset
  | .beql rs rt offset => encI 0x14#6 rs rt offset
  | .bgez rs offset => encI 0x01#6 rs 1#5 offset
  | .bgezal rs offset => encI 0x01#6 rs 17#5 offset
  | .bgezall rs offset => encI 0x01#6 rs 19#5 offset
  | .bgezl rs offset => encI 0x01#6 rs 3#5 offset
  | .bgtz rs offset => encI 0x07#6 rs 0#5 offset
  | .bgtzl rs offset => encI 0x17#6 rs 0#5 offset
  | .blez rs offset => encI 0x06#6 rs 0#5 offset
  | .blezl rs offset => encI 0x16#6 rs 0#5 offset
  | .bltz rs offset => encI 0x01#6 rs 0#5 offset
  | .bltzal rs offset => encI 0x01#6 rs 16#5 offset
  | .bltzall rs offset => encI 0x01#6 rs 18#5 offset
  | .bltzl rs offset => encI 0x01#6 rs 2#5 offset
  | .bne rs rt offset => encI 0x05#6 rs rt offset
  | .bnel rs rt offset => encI 0x15#6 rs rt offset
  | .j target => encJ 0x02#6 target
  | .jal target => encJ 0x03#6 target
  | .jalr rd rs => encR 0x00#6 rs 0#5 rd 0#5 0x09#6
  | .jr rs => encR 0x00#6 rs 0#5 0#5 0#5 0x08#6
  | .lb rt base offset => encI 0x20#6 base rt offset
  | .lbu rt base offset => encI 0x24#6 base rt offset
  | .lh rt base offset => encI 0x21#6 base rt offset
  | .lhu rt base offset => encI 0x25#6 base rt offset
  | .lw rt base offset => encI 0x23#6 base rt offset
  | .lwl rt base offset => encI 0x22#6 base rt offset
  | .lwr rt base offset => encI 0x26#6 base rt offset
  | .sb rt base offset => encI 0x28#6 base rt offset
  | .sh rt base offset => encI 0x29#6 base rt offset
  | .sw rt base offset => encI 0x2b#6 base rt offset
  | .swl rt base offset => encI 0x2a#6 base rt offset
  | .swr rt base offset => encI 0x2e#6 base rt offset
  | .brk code => encCode code 0x0d#6
  | .syscall code => encCode code 0x0c#6
  | .eret => encR 0x10#6 16#5 0#5 0#5 0#5 0x18#6
  | .mfc0 rt rd => encR 0x10#6 0#5 rt rd 0#5 0x00#6
  | .mtc0 rt rd => encR 0x10#6 4#5 rt rd 0#5 0x00#6
  | .bc1f offset => encI 0x11#6 8#5 0#5 offset
  | .bc1fl offset => encI 0x11#6 8#5 2#5 offset
  | .bc1t offset => encI 0x11#6 8#5 1#5 offset
  | .bc1tl offset => encI 0x11#6 8#5 3#5 offset
  | .cfc1 rt fs => encR 0x11#6 2#5 rt fs 0#5 0x00#6
  | .ctc1 rt fs => encR 0x11#6 6#5 rt fs 0#5 0x00#6
  | .lwc1 ft base offset => encI 0x31#6 base ft offset
  | .mfc1 rt fs => encR 0x11#6 0#5 rt fs 0#5 0x00#6
  | .mtc1 rt fs => encR 0x11#6 4#5 rt fs 0#5 0x00#6
  | .swc1 ft base offset => encI 0x39#6 base ft offset
  | .clo rd rs => encR 0x00#6 rs 0#5 rd 0#5 0x17#6
  | .clz rd rs => encR 0x00#6 rs 0#5 rd 0#5 0x16#6
  | .madd rs rt => encR 0x00#6 rs rt 0#5 0#5 0x1c#6
  | .maddu rs rt => encR 0x00#6 rs rt 0#5 0#5 0x1d#6
  | .msub rs rt => encR 0x00#6 rs rt 0#5 0#5 0x2e#6
  | .msubu rs rt => encR 0x00#6 rs rt 0#5 0#5 0x2f#6
  | .max rd rs rt => encR 0x00#6 rs rt rd 0#5 0x2c#6
  | .min rd rs rt => encR 0x00#6 rs rt rd 0#5 0x2d#6
  | .movn rd rs rt => encR 0x00#6 rs rt rd 0#5 0x0b#6
  | .movz rd rs rt => encR 0x00#6 rs rt rd 0#5 0x0a#6
  | .ext rt rs msbd lsb => encR 0x1f#6 rs rt msbd lsb 0x00#6
  | .ins rt rs msb lsb => encR 0x1f#6 rs rt msb lsb 0x04#6
  | .seb rd rt => encR 0x1f#6 0#5 rt rd 16#5 0x20#6
  | .seh rd rt => encR 0x1f#6 0#5 rt rd 24#5 0x20#6
  | .bitrev rd rt => encR 0x1f#6 0#5 rt rd 20#5 0x20#6
  | .rotr rd rt sa => encR 0x00#6 1#5 rt rd sa 0x02#6
  | .rotrv rd rt rs => encR 0x00#6 rs rt rd 1#5 0x06#6
  | .wsbh rd rt => encR 0x1f#6 0#5 rt rd 2#5 0x20#6
  | .wsbw rd rt => encR 0x1f#6 0#5 rt rd 3#5 0x20#6
  | .cacheIndexInvalidateI base offset => encI 0x2f#6 base 4#5 offset
  | .cacheIndexUnlockI base offset => encI 0x2f#6 base 6#5 offset
  | .cacheHitInvalidateI base offset => encI 0x2f#6 base 8#5 offset
  | .cacheFillI base offset => encI 0x2f#6 base 10#5 offset
  | .cacheFillLockI base offset => encI 0x2f#6 base 11#5 offset
  | .cacheIndexWritebackInvalidateD base offset => encI 0x2f#6 base 20#5 offset
  | .cacheIndexUnlockD base offset => encI 0x2f#6 base 22#5 offset
  | .cacheCreateDirtyD base offset => encI 0x2f#6 base 24#5 offset
  | .cacheHitInvalidateD base offset => encI 0x2f#6 base 25#5 offset
  | .cacheHitWritebackD base offset => encI 0x2f#6 base 26#5 offset
  | .cacheHitWritebackInvalidateD base offset => encI 0x2f#6 base 27#5 offset
  | .cacheCreateDirtyLockD base offset => encI 0x2f#6 base 28#5 offset
  | .cacheFillD base offset => encI 0x2f#6 base 30#5 offset
  | .cacheFillLockD base offset => encI 0x2f#6 base 31#5 offset
  | .sync => encR 0x00#6 0#5 0#5 0#5 0#5 0x0f#6
  | .ll rt base offset => encI 0x30#6 base rt offset
  | .sc rt base offset => encI 0x38#6 base rt offset

/-! ### Words in memory (R53, R80) -/

/-- The word whose bytes, lowest address first, are the four given: little-endian (R53). -/
def wordOfBytes (b0 b1 b2 b3 : Byte) : Word := b3 ++ (b2 ++ (b1 ++ b0))

/-- Byte `i` of a word (R14). -/
def byteOf (w : Word) (i : Nat) : Byte := w.extractLsb' (8 * i) 8

/-- The instruction the decoder reads from the opcode table's word `w` of `nbits` bits (every row has 32): the word is laid
out in memory order and read back as the fetch reads it. -/
def decodeTableWord (nbits w : Nat) : Option Instr :=
  let v : Word := BitVec.ofNat 32 (w % 2 ^ nbits)
  match decode (wordOfBytes (byteOf v 0) (byteOf v 1) (byteOf v 2) (byteOf v 3)) with
  | .instr i => some i
  | .reject _ => none

end Sys2Proof
end

