-- ==== Sys2Proof/Machine/State.lean ====
section
/-! DEFINITION. The machine's state (R20 to R44, R291, R373, R379) as plain data, the reasons a step can stop, and the state
after reset. -/

namespace Sys2Proof.Machine

/-! ### Small types -/

/-- The three privilege modes (R43, R355). -/
inductive Mode where
  | user | supervisor | kernel
deriving DecidableEq, Repr

/-- The kind of an access (R7, R56). -/
inductive Access where
  | fetch | load | store | cacheop
deriving DecidableEq, Repr

/-- The two caches (R41). -/
inductive CacheSide where
  | instruction | data
deriving DecidableEq, Repr

/-- The two entries of a set, WayA and WayB (R41, R291). -/
inductive Way where
  | A | B
deriving DecidableEq, Repr

/-- The exceptions (R330, R338) with what their raise knows (R13). -/
inductive Exc where
  /-- R331. -/
  | integerOverflow
  /-- R332. -/
  | addressError (vaddr : Word) (kind : Access)
  /-- R333; `side` tells an instruction-side bus error (ExcCode 6) from a data-side one (7), R339. -/
  | busError (paddr : Word) (kind : Access) (side : CacheSide)
  /-- R334, with the code the instruction carries (D28). -/
  | breakpoint (code : BitVec 20)
  /-- R335, with the code the instruction carries (D28). -/
  | systemCall (code : BitVec 20)
  /-- R338. -/
  | reservedInstruction
  /-- R336, with the coprocessor's number. -/
  | coprocessorUnusable (z : BitVec 2)
  /-- R337. -/
  | floatingPoint
deriving DecidableEq, Repr

/-! ### The caches (R41, R291) -/

/-- One cache entry. An entry of the instruction cache is never dirty. -/
structure Line where
  valid : Bool
  dirty : Bool
  tag : Nat
  /-- The line's bytes, lowest address first. -/
  data : List Byte
deriving DecidableEq, Repr

/-- An entry nothing has filled: not Valid, and tag 0 and no bytes, which R44 leaves open and nothing reads while the entry is
not Valid (DESIGN CHOICE, log entry 11). -/
def Line.empty : Line := { valid := false, dirty := false, tag := 0, data := [] }

/-- One set: a pair of entries, the LRU bit (the way it points to) and the Lock bit. -/
structure CacheSet where
  lru : Way
  lock : Bool
  wayA : Line
  wayB : Line
deriving DecidableEq, Repr

/-- A set nothing has touched (DESIGN CHOICE, log entry 11). -/
def CacheSet.empty : CacheSet := { lru := .A, lock := false, wayA := Line.empty, wayB := Line.empty }

/-! ### The platform: the parameters a launch gives (R7, R373) -/

/-- A range of addresses and what the platform says of it. -/
structure Region where
  base : Nat
  size : Nat
  /-- `AddrOK`: the modes that may access it. -/
  modes : List Mode
  /-- `AddrOK`: the kinds of access it permits. -/
  kinds : List Access
  /-- `Cacheable`. -/
  cached : Bool
  /-- `BusErr`: the kinds of access that end in a bus error. -/
  busErrors : List Access
deriving DecidableEq, Repr

/-- `ExcCode(E)` and `Vector(E)` of one exception (R7, D7). -/
structure Handler where
  /-- `ExcCode(E)` (R339). -/
  code : BitVec 5
  /-- `Vector(E)` when Status.BEV = 0 (R342). -/
  vector : Word
  /-- `Vector(E)` when Status.BEV = 1 (R342). -/
  bootVector : Word
deriving DecidableEq, Repr

/-- `ExcCode(E)` and `Vector(E)`, a field for each row of R339. -/
structure Handlers where
  integerOverflow : Handler
  /-- AddressError of kind FETCH, LOAD or CACHEOP. -/
  addressErrorLoad : Handler
  /-- AddressError of kind STORE. -/
  addressErrorStore : Handler
  /-- BusError of a fetch or of a fill of the instruction cache. -/
  busErrorFetch : Handler
  /-- BusError of a load or of a fill of the data cache. -/
  busErrorData : Handler
  systemCall : Handler
  breakpoint : Handler
  reservedInstruction : Handler
  coprocessorUnusable : Handler
  floatingPoint : Handler
deriving DecidableEq, Repr

/-- `CopUsable(z, state)` as data (R7, D18): what of the state decides it, the mode and the coprocessor's CU bit or that bit
alone (DESIGN CHOICE, log entry 34). -/
inductive CopRule where
  /-- Usable in the modes of the first list when the CU bit is 1, in those of the second when it is 0. -/
  | byMode (whenSet whenClear : List Mode)
  /-- Usable as the first says when the CU bit is 1, as the second says when it is 0; the mode does not matter. -/
  | byStatus (whenSet whenClear : Bool)
deriving DecidableEq, Repr

/-- The parameters of R7 and R373 that are neither register nor memory. No step changes them. -/
structure Platform where
  /-- `AddrOK`, `Cacheable`, `BusErr`. -/
  regions : List Region
  /-- `LINE` = 2 ^ lineBits bytes. -/
  lineBits : Nat
  /-- `ISETS` = 2 ^ iSetBits. -/
  iSetBits : Nat
  /-- `DSETS` = 2 ^ dSetBits. -/
  dSetBits : Nat
  /-- `ExcCode(E)`, `Vector(E)`. -/
  handlers : Handlers
  /-- `CopUsable(0, state)`. -/
  cop0 : CopRule
  /-- `CopUsable(1, state)`. -/
  cop1 : CopRule
  /-- The choice R34 gives for the CP0 registers outside its list of five, and for a write to BadVAddr: false, the access is
  refused (D24, R229, R230); true, they are storage without side effects. -/
  cp0Storage : Bool
  /-- `HaltPC` (R365), if the launch gives one. -/
  haltPC : Option Word
deriving DecidableEq, Repr

/-! ### The state -/

/-- What leaves a write buffer at once: the bytes of one store, or of one line written back (R61, R64; a store over several lines,
log entry 37). -/
abbrev BufferedWrite := List Host.Cell

/-- Everything the spec gives the machine. -/
structure State where
  /-- `x[0..31]` (R20); slot 0 is never read (R21). -/
  gpr : Vector Word 32
  /-- R30. -/
  hi : Word
  /-- R30. -/
  lo : Word
  /-- The address of the instruction being executed (R23). -/
  pc : Word
  /-- The address of the instruction after it (R24). -/
  npc : Word
  /-- The instruction at `pc` is in a delay slot (R27). -/
  inDs : Bool
  /-- The CP0 registers (R31 to R34): Status 12, Cause 13, EPC 14, ErrorEPC 30, BadVAddr 8, and the rest. -/
  cp0Regs : Vector Word 32
  /-- `f[0..31]` (R35). -/
  fpr : Vector Word 32
  /-- R36. -/
  fcr0 : Word
  /-- R37; COC1 is its bit 23 (R38). -/
  fcr31 : Word
  /-- The load-linked bit (R39). -/
  llbit : Bool
  /-- The instruction cache (R41): the sets touched so far, by index. -/
  icache : List (Nat × CacheSet)
  /-- The data cache (R41): the sets touched so far, by index. -/
  dcache : List (Nat × CacheSet)
  /-- The cache writeback buffer (R40): the lines waiting in it, oldest first. -/
  writebackBuf : List BufferedWrite
  /-- The non-cache write buffer (R40): the stores waiting in it, oldest first. -/
  nonCacheBuf : List BufferedWrite
  /-- Main memory (R50): addresses strictly rising, no byte equal to what an unlisted address reads as. -/
  mem : List Host.Cell
  /-- The branch or jump whose delay slot is executing (R379). -/
  owner : Option Instr
  /-- The instruction executed one step ago (R379). -/
  h1 : Option Instr
  /-- The instruction executed two steps ago (R379). -/
  h2 : Option Instr
  /-- `h1` is a `ctc1` that raised FloatingPoint (R379). -/
  h1FpTrap : Bool
  /-- The launch parameters (R7, R373). -/
  platform : Platform
  /-- The MODEL's own: how many free values have been drawn (Config). -/
  free : Nat
deriving DecidableEq, Repr

/-! ### Why a step can stop -/

/-- A step that has no next state because the run is over. -/
inductive Fault where
  /-- Raised by `step` when it would begin at `HaltPC` outside a delay slot: the run ended normally (R365). Safe: the spec
  defines no further step. -/
  | haltReached
deriving DecidableEq, Repr

/-- What the spec refuses: the program has no meaning from that step on (R15). -/
inductive Refusal where
  /-- Raised by an arm of `exec` whose instruction has no meaning yet. Safe. -/
  | notModelled (mnemonic : String)
  /-- Raised by `step` for a word in a blank cell of the code tables (R98, R100 b). Safe. -/
  | blankEncoding
  /-- Raised by `step` for a word whose opcode the code table names and no page defines (R98, R100 b). Safe. -/
  | namedOnlyEncoding
  /-- Raised by `step` for a word with a non-zero value in a field printed as zeros (R96, R100 b). Safe. -/
  | nonzeroFieldEncoding
  /-- Raised by `step`, and by the instructions whose own fields break one, for a restriction of R380 to R382. Safe. -/
  | restriction (r : Restriction)
  /-- Raised wherever the privilege mode is needed while Status.KSU = 11 and EXL = ERL = 0 (R355). Safe. -/
  | reservedMode
  /-- Raised by Create Dirty Exclusive on a non-cache address: "indeterminate behavior and is thus prohibited" (R299). Safe. -/
  | createOnNonCacheAddress
  /-- Raised by `mfc0` and `mtc0` of Count (9) and Compare (11), which R360 refuses. Safe. -/
  | timerRegister
  /-- Raised by `mfc0` and `mtc0` of a CP0 register that D24 does not list, where the launch takes D24's choice (R229, R230).
  Safe. -/
  | unlistedCp0Register
deriving DecidableEq, Repr

/-- What a meaning answers. -/
abbrev Result := Host.Outcome State Fault Refusal

/-! ### Reset -/

/-- The handler with this code at the default vectors of R342 (PRESUMED, log entry 3). -/
def Handler.general (code : BitVec 5) : Handler := { code := code, vector := 0x80000180#32, bootVector := 0xBFC00380#32 }

/-- The default codes of R339 (PRESUMED, log entry 2) at the default vectors of R342. -/
def Handlers.general : Handlers where
  integerOverflow := Handler.general 12#5
  addressErrorLoad := Handler.general 4#5
  addressErrorStore := Handler.general 5#5
  busErrorFetch := Handler.general 6#5
  busErrorData := Handler.general 7#5
  systemCall := Handler.general 8#5
  breakpoint := Handler.general 9#5
  reservedInstruction := Handler.general 10#5
  coprocessorUnusable := Handler.general 11#5
  floatingPoint := Handler.general 15#5

/-- CopUsable(0) by default (R355; PRESUMED, log entry 25): kernel mode, or CU0 = 1. -/
def CopRule.general0 : CopRule := .byMode [.user, .supervisor, .kernel] [.kernel]

/-- CopUsable(1) by default (R355; PRESUMED, log entry 25): CU1 = 1. -/
def CopRule.general1 : CopRule := .byStatus true false

/-- The platform of State.reset (DESIGN CHOICE, log entries 9, 10, 21; the handlers PRESUMED, log entries 2 and 3): all 2^32
addresses permitted to every mode and access, cacheable, without bus errors; 64-byte lines, 128 sets in each cache; the codes
of R339 and the vectors of R342; CopUsable by R355; the CP0 registers of D24; no HaltPC. -/
def Platform.reset : Platform where
  regions := [{ base := 0, size := 4294967296, modes := [.user, .supervisor, .kernel],
                kinds := [.fetch, .load, .store, .cacheop], cached := true, busErrors := [] }]
  lineBits := 6
  iSetBits := 7
  dSetBits := 7
  handlers := Handlers.general
  cop0 := CopRule.general0
  cop1 := CopRule.general1
  cp0Storage := false
  haltPC := none

/-- Status after reset (R371; PRESUMED, its CU bits DESIGN CHOICE, log entry 6): ERL = 1 and BEV = 1, so kernel mode; CU0 = CU1 = 1. -/
def resetStatus : Word := 0x30400004#32

/-- The machine right after reset (R44, R371): pc at ResetPC, memory with nothing listed, the write buffers empty, and the values
of log entries 6 (PRESUMED), 7, 8, 11 and 30 (DESIGN CHOICE) where the spec gives none. -/
def State.reset : State where
  gpr := Vector.replicate 32 0#32
  hi := 0#32
  lo := 0#32
  pc := 0xBFC00000#32
  npc := 0xBFC00004#32
  inDs := false
  cp0Regs := (Vector.replicate 32 0#32).set 12 resetStatus
  fpr := Vector.replicate 32 0#32
  fcr0 := 0#32
  fcr31 := 0#32
  llbit := false
  icache := []
  dcache := []
  writebackBuf := []
  nonCacheBuf := []
  mem := []
  owner := none
  h1 := none
  h2 := none
  h1FpTrap := false
  platform := Platform.reset
  free := 0

end Sys2Proof.Machine
end

