-- ==== Sys2Proof/Machine/Ops.lean ====
section
/-! DEFINITION. The named operations over registers, memory and control: the only readers and writers of State's fields that
the meanings use. Taking an exception (R341) and returning from one (R228) stand here, each as one operation. -/

namespace Sys2Proof.Machine

/-! ### Bits of a word -/

/-- `w` with its bits `lo + n - 1 .. lo` replaced by `v`. -/
def setField (w : Word) (lo n : Nat) (v : BitVec n) : Word :=
  (w &&& ~~~((BitVec.allOnes n).setWidth 32 <<< lo)) ||| (v.setWidth 32 <<< lo)

/-- `w` with its bit `i` replaced by `b`. -/
def setBit (w : Word) (i : Nat) (b : Bool) : Word := setField w i 1 (BitVec.ofBool b)

/-! ### General registers, HI and LO, FPU registers (R20, R21, R30, R35) -/

/-- A register number as an index. -/
def regIdx (r : Reg) : Fin 32 := r.toFin

/-- `x[r]`: register 0 reads as 0 (R21, D1; PRESUMED, log entry 4). -/
def State.x (s : State) (r : Reg) : Word := if r = 0#5 then 0#32 else s.gpr.get (regIdx r)

/-- `x[r] <- v`: a write to register 0 is discarded (R21, D1). -/
def State.setX (s : State) (r : Reg) (v : Word) : State :=
  { s with gpr := if r = 0#5 then s.gpr else s.gpr.set (regIdx r) v }

/-- `f[i]` (R35). -/
def State.f (s : State) (i : Reg) : Word := s.fpr.get (regIdx i)

/-- `f[i] <- v` (R35). -/
def State.setF (s : State) (i : Reg) (v : Word) : State := { s with fpr := s.fpr.set (regIdx i) v }

/-- The accumulator `hi ++ lo` (R30). -/
def State.hiLo (s : State) : DWord := s.hi ++ s.lo

/-- `hi <- v[63:32]`, `lo <- v[31:0]`. -/
def State.setHiLo (s : State) (v : DWord) : State := { s with hi := v.extractLsb' 32 32, lo := v.extractLsb' 0 32 }

/-- `hi <- v` (R157). -/
def State.setHi (s : State) (v : Word) : State := { s with hi := v }

/-- `lo <- v` (R158). -/
def State.setLo (s : State) (v : Word) : State := { s with lo := v }

/-- `fcr31 <- v`, and so COC1 (R37, R38). -/
def State.setFcr31 (s : State) (v : Word) : State := { s with fcr31 := v }

/-- `llbit <- b` (R39). -/
def State.setLlbit (s : State) (b : Bool) : State := { s with llbit := b }

/-- `hi` and `lo` both receive `any value` (R151, R152, D11): two free values are drawn. -/
def State.freeHiLo (s : State) : State :=
  { s with hi := Config.freeWord (s.free + 1), lo := Config.freeWord s.free, free := s.free + 2 }

/-! ### Coprocessor 0 (R31 to R34; numbers and bit positions PRESUMED, log entry 25) -/

/-- `cp0[n]`. -/
def State.cp0 (s : State) (n : Reg) : Word := s.cp0Regs.get (regIdx n)

/-- `cp0[n] <- v`: all 32 bits are stored (R230). -/
def State.setCp0 (s : State) (n : Reg) (v : Word) : State := { s with cp0Regs := s.cp0Regs.set (regIdx n) v }

/-- BadVAddr's number (R34). -/
def badVAddrReg : Reg := 8#5
/-- Count's number (R34, R360). -/
def countReg : Reg := 9#5
/-- Compare's number (R34, R360). -/
def compareReg : Reg := 11#5
/-- Status's number (R32, R34). -/
def statusReg : Reg := 12#5
/-- Cause's number (R34). -/
def causeReg : Reg := 13#5
/-- EPC's number (R33). -/
def epcReg : Reg := 14#5
/-- ErrorEPC's number (R33). -/
def errorEpcReg : Reg := 30#5

/-- Status.EXL, bit 1 (R32). -/
def State.exl (s : State) : Bool := (s.cp0 statusReg).getLsbD 1
/-- Status.ERL, bit 2 (R32). -/
def State.erl (s : State) : Bool := (s.cp0 statusReg).getLsbD 2
/-- Status.KSU, bits 4..3 (R34). -/
def State.ksu (s : State) : BitVec 2 := (s.cp0 statusReg).extractLsb' 3 2
/-- Status.BEV, bit 22 (R34). -/
def State.bev (s : State) : Bool := (s.cp0 statusReg).getLsbD 22
/-- Status.CU0, bit 28 (R34). -/
def State.cu0 (s : State) : Bool := (s.cp0 statusReg).getLsbD 28
/-- Status.CU1, bit 29 (R34). -/
def State.cu1 (s : State) : Bool := (s.cp0 statusReg).getLsbD 29

/-- The privilege mode (R43, R355); none when KSU is 11 and neither EXL nor ERL is set (log entry
18). -/
def State.mode (s : State) : Option Mode :=
  if s.exl || s.erl then some .kernel
  else if s.ksu = 0#2 then some .kernel
  else if s.ksu = 1#2 then some .supervisor
  else if s.ksu = 2#2 then some .user
  else none

/-! ### Sequencing (R25, R26) -/

/-- The ordinary end of an instruction: `pc <- npc`, `npc <- npc + 4`, and no delay slot follows (R25). -/
def State.seq (s : State) : State := { s with pc := s.npc, npc := s.npc + 4#32, inDs := false }

/-- `branch_to(T)` (R26): the delay slot executes next, the instruction at `t` after it. -/
def State.branchTo (s : State) (t : Word) : State := { s with pc := s.npc, npc := t, inDs := true }

/-- A branch that is not taken and not likely: its delay slot executes, then `cur + 8` (R165); `in_ds` holds in the slot (R25). -/
def State.fallThrough (s : State) : State := { s with pc := s.npc, npc := s.npc + 4#32, inDs := true }

/-- `nullify_slot()` (R26): the instruction in the slot is never executed. -/
def State.nullifySlot (s : State) : State := { s with pc := s.npc + 4#32, npc := s.npc + 8#32, inDs := false }

/-- `pc <- T` with no delay slot (R26): `eret` and the entry into a handler. -/
def State.jumpNow (s : State) (t : Word) : State := { s with pc := t, npc := t + 4#32, inDs := false }

/-- An instruction whose only effect is `x[r] <- v` (R110 c, d): the write, then the next instruction. -/
def State.finish (s : State) (r : Reg) (v : Word) : Result := .next (s.setX r v).seq

/-! ### Taking an exception (R339 to R350) -/

/-- The row of R339 that an exception belongs to. -/
def Handlers.find (h : Handlers) : Exc → Handler
  | .integerOverflow => h.integerOverflow
  | .addressError _ k => if k = .store then h.addressErrorStore else h.addressErrorLoad
  | .busError _ _ side => match side with
    | .instruction => h.busErrorFetch
    | .data => h.busErrorData
  | .systemCall _ => h.systemCall
  | .breakpoint _ => h.breakpoint
  | .reservedInstruction => h.reservedInstruction
  | .coprocessorUnusable _ => h.coprocessorUnusable
  | .floatingPoint => h.floatingPoint

/-- `ExcCode(E)` (R339), a parameter of the launch (D7). -/
def State.excCode (s : State) (e : Exc) : BitVec 5 := (s.platform.handlers.find e).code

/-- `Vector(E)` (R342), a parameter of the launch (D7), chosen by Status.BEV. -/
def State.vectorOf (s : State) (e : Exc) : Word :=
  if s.bev then (s.platform.handlers.find e).bootVector else (s.platform.handlers.find e).vector

/-- The restart address: the instruction that raised, or the branch before it in a delay slot (R343, R350; PRESUMED,
log entry 1). -/
def State.restartAddress (s : State) : Word := if s.inDs then s.pc - 4#32 else s.pc

/-- Cause after taking `e` (R341): BD only when EXL was 0, ExcCode always, CE for CoprocessorUnusable only. -/
def State.causeAfter (s : State) (e : Exc) : Word :=
  let c := s.cp0 causeReg
  let c := if s.exl then c else setBit c 31 s.inDs
  let c := setField c 2 5 (s.excCode e)
  match e with
  | .coprocessorUnusable z => setField c 28 2 z
  | _ => c

/-- TrapEntry (R341; PRESUMED, log entry 1) on the CP0 registers: EPC and Cause.BD are left as they are when EXL is already 1
(R349). -/
def State.trapCp0 (s : State) (e : Exc) : State :=
  let s1 := if s.exl then s else s.setCp0 epcReg s.restartAddress
  let s2 := s1.setCp0 causeReg (s.causeAfter e)
  let s3 := match e with
    | .addressError vaddr _ => s2.setCp0 badVAddrReg vaddr
    | _ => s2
  s3.setCp0 statusReg (setBit (s.cp0 statusReg) 1 true)

/-- TrapEntry (R341): the instruction at `pc` raised `e`. No general register, HI, LO, FPU register, LLbit or memory changes. -/
def State.trapEntry (s : State) (e : Exc) : State :=
  { s with cp0Regs := (s.trapCp0 e).cp0Regs, pc := s.vectorOf e, npc := s.vectorOf e + 4#32, inDs := false }

/-- `raise E(info)` (R13, R340): the instruction is abandoned and the exception is taken. -/
def raise (e : Exc) (s : State) : Result := .next (s.trapEntry e)

/-! ### Returning from an exception (R228, R348) -/

/-- Where `eret` returns to: ErrorEPC when ERL = 1, else EPC. -/
def State.eretTarget (s : State) : Word := if s.erl then s.cp0 errorEpcReg else s.cp0 epcReg

/-- Status after `eret`: ERL cleared when it was 1, else EXL cleared. -/
def State.eretStatus (s : State) : Word := setBit (s.cp0 statusReg) (if s.erl then 2 else 1) false

/-- The effect of `eret`: the level bit, LLbit, and the jump without a delay slot. -/
def State.eretReturn (s : State) : State :=
  ((s.setCp0 statusReg s.eretStatus).jumpNow s.eretTarget).setLlbit false

/-! ### What the mode and Status permit (R355) -/

/-- Go on in the present mode; KSU = 11 is refused. -/
def State.withMode (s : State) (k : Mode → Result) : Result :=
  match s.mode with
  | some m => k m
  | none => .refused .reservedMode

/-- What a rule of usability says for this CU bit and mode; none where it looks at the mode and KSU = 11 (R355, log entry
18). -/
def CopRule.usable (r : CopRule) (cu : Bool) (mode : Option Mode) : Option Bool :=
  match r with
  | .byStatus whenSet whenClear => some (if cu then whenSet else whenClear)
  | .byMode whenSet whenClear => mode.map fun m => (if cu then whenSet else whenClear).contains m

/-- `CopUsable(0, state)` (R225, R355). -/
def State.cop0Usable (s : State) : Option Bool := s.platform.cop0.usable s.cu0 s.mode

/-- `CopUsable(1, state)` (R240, R355). -/
def State.cop1Usable (s : State) : Option Bool := s.platform.cop1.usable s.cu1 s.mode

/-- Go on if coprocessor `z` is usable, else raise CoprocessorUnusable(z) (R225, R240); KSU = 11 is refused. -/
def State.withCop (s : State) (z : BitVec 2) (usable : Option Bool) (k : Result) : Result :=
  match usable with
  | some true => k
  | some false => raise (.coprocessorUnusable z) s
  | none => .refused .reservedMode

/-- Go on if coprocessor 0 is usable (R225). -/
def State.withCop0 (s : State) (k : Result) : Result := s.withCop 0#2 s.cop0Usable k

/-- Go on if coprocessor 1 is usable (R240). -/
def State.withCop1 (s : State) (k : Result) : Result := s.withCop 1#2 s.cop1Usable k

/-! ### Main memory (R50): the canonical list -/

/-- What an address that memory does not list reads as (DESIGN CHOICE, log entry 8). -/
def unlistedByte : Byte := 0#8

/-- The byte memory holds at address `a`. -/
def Memory.read : List Host.Cell → Nat → Byte
  | [], _ => unlistedByte
  | (k, v) :: m, a => if a = k then v else Memory.read m a

/-- Memory with the byte `b` at address `a`: addresses stay strictly rising, and a byte equal to what an unlisted address reads
as is taken out. -/
def Memory.write : List Host.Cell → Nat → Byte → List Host.Cell
  | [], a, b => if b = unlistedByte then [] else [(a, b)]
  | (k, v) :: m, a, b =>
    if a < k then (if b = unlistedByte then (k, v) :: m else (a, b) :: (k, v) :: m)
    else if a = k then (if b = unlistedByte then m else (a, b) :: m)
    else (k, v) :: Memory.write m a b

/-- Every address of the list is above `a`. -/
def Memory.above (a : Nat) : List Host.Cell → Bool
  | [] => true
  | (k, _) :: _ => decide (a < k)

/-- The canonical form: addresses strictly rising, no byte equal to what an unlisted address reads as. -/
def Memory.wf : List Host.Cell → Bool
  | [] => true
  | (k, v) :: m => decide (v ≠ unlistedByte) && Memory.above k m && Memory.wf m

/-- Memory after the bytes of `cells` have been written, first to last. -/
def Memory.writeCells (m : List Host.Cell) : List Host.Cell → List Host.Cell
  | [] => m
  | (a, b) :: cells => Memory.writeCells (Memory.write m a b) cells

end Sys2Proof.Machine
end

