-- ==== Sys2Proof/Machine/Flags.lean ====
section
/-! DEFINITION. Conditions. The integer unit has no flags (R29): overflow is a condition that raises, and a comparison writes
0 or 1 to a register. The one condition bit of the machine is COC1 (R38); FCR31's Cause and Enable bits decide whether `ctc1`
traps (R246). -/

namespace Sys2Proof.Machine

/-- The 33-bit sum of the sign-extended operands (R111, R112). -/
def sum33 (x y : Word) : BitVec 33 := x.signExtend 33 + y.signExtend 33

/-- The 33-bit difference of the sign-extended operands (R126). -/
def diff33 (x y : Word) : BitVec 33 := x.signExtend 33 - y.signExtend 33

/-- Bit 32 differs from bit 31 (R331). -/
def overflows (t : BitVec 33) : Bool := t.getLsbD 32 != t.getLsbD 31

/-- 1 if the condition holds, else 0 (R122 to R125, R159 d). -/
def boolWord (b : Bool) : Word := if b then 1#32 else 0#32

/-- `s(x) < s(y)`. -/
def signedLess (x y : Word) : Bool := decide (x.toInt < y.toInt)

/-- `u(x) < u(y)`. -/
def unsignedLess (x y : Word) : Bool := decide (x.toNat < y.toNat)

/-- COC1, the FPU condition: FCR31 bit 23 (R38). -/
def State.coc1 (s : State) : Bool := s.fcr31.getLsbD 23

/-- Some Cause bit and its Enable bit are both 1, or the Unimplemented Cause bit is 1 (R246, with the layout of R37;
PRESUMED, log entry 24). -/
def fpTrapPending (v : Word) : Bool :=
  (v.extractLsb' 12 5 &&& v.extractLsb' 7 5) != 0#5 || v.getLsbD 17

end Sys2Proof.Machine
end

