-- ==== Sys2Proof/Machine/Operands.lean ====
section
/-! DEFINITION. The operand forms (R84): what each immediate, address, target and field of an instruction stands for. -/

namespace Sys2Proof.Machine

/-- A sign-extended 16-bit immediate. -/
def signedImm (imm : BitVec 16) : Word := imm.signExtend 32

/-- A zero-extended 16-bit immediate. -/
def zeroImm (imm : BitVec 16) : Word := imm.setWidth 32

/-- The upper immediate of `lui`: `imm ++ rep(0,16)`. -/
def upperImm (imm : BitVec 16) : Word := imm ++ 0#16

/-- The effective address `x[base] + sext_32(offset)`, modulo 2^32 (R200). -/
def State.effAddr (s : State) (base : Reg) (offset : BitVec 16) : Word := s.x base + signedImm offset

/-- A branch's target: `cur + 4 + sext_32(offset ++ 00)` (R165). -/
def branchTarget (cur : Word) (offset : BitVec 16) : Word := cur + 4#32 + (offset ++ 0#2).signExtend 32

/-- A region jump's target: `(cur + 4)[31:28] ++ target ++ 00` (R183). -/
def jumpTarget (cur : Word) (target : BitVec 26) : Word := (cur + 4#32).extractLsb' 28 4 ++ (target ++ 0#2)

/-- The link value `cur + 8` (R165). -/
def linkValue (cur : Word) : Word := cur + 8#32

/-- The amount of a variable shift: the low five bits of `x[rs]` (R140). -/
def shiftAmount (v : Word) : Nat := (v.extractLsb' 0 5).toNat

/-- `ext`: bits `pos + size - 1 .. pos` of `v`, zero-extended (R271). -/
def extractField (v : Word) (pos size : Nat) : Word := (v.extractLsb' pos size).setWidth 32

/-- `ins`: `old` with its bits `pos + size - 1 .. pos` replaced by the low `size` bits of `v` (R272). -/
def insertField (old v : Word) (pos size : Nat) : Word := setField old pos size (v.extractLsb' 0 size)

/-- How many of the bits `n-1, n-2, ..` of `v` are 1 before the first 0. -/
def leadingOnes (v : Word) : Nat → Nat
  | 0 => 0
  | n + 1 => if v.getLsbD n then 1 + leadingOnes v n else 0

/-- The number of consecutive ones from the most significant bit (R261). -/
def countLeadingOnes (v : Word) : Word := BitVec.ofNat 32 (leadingOnes v 32)

/-- The number of consecutive zeros from the most significant bit (R262). -/
def countLeadingZeros (v : Word) : Word := countLeadingOnes (~~~v)

/-- Bit `i` of the result is bit `31 - i` of `v` (R275). -/
def bitReverse (v : Word) : Word := v.reverse

/-- The bytes swapped within each halfword (R278). -/
def swapBytesInHalves (v : Word) : Word :=
  v.extractLsb' 16 8 ++ (v.extractLsb' 24 8 ++ (v.extractLsb' 0 8 ++ v.extractLsb' 8 8))

/-- The bytes swapped within the word (R279). -/
def swapBytesInWord (v : Word) : Word :=
  v.extractLsb' 0 8 ++ (v.extractLsb' 8 8 ++ (v.extractLsb' 16 8 ++ v.extractLsb' 24 8))

/-- The exact signed product as a 64-bit value (R153). -/
def signedProduct (x y : Word) : DWord := BitVec.ofInt 64 (x.toInt * y.toInt)

/-- The exact unsigned product as a 64-bit value (R154). -/
def unsignedProduct (x y : Word) : DWord := BitVec.ofNat 64 (x.toNat * y.toNat)

/-- `lwl`'s merge (R206): the low `k + 1` bytes of the aligned memory word over the low end of the old register. -/
def mergeLeft (k : Nat) (memword old : Word) : Word :=
  match k with
  | 0 => memword.extractLsb' 0 8 ++ old.extractLsb' 0 24
  | 1 => memword.extractLsb' 0 16 ++ old.extractLsb' 0 16
  | 2 => memword.extractLsb' 0 24 ++ old.extractLsb' 0 8
  | _ => memword

/-- `lwr`'s merge (R207): the high `4 - k` bytes of the aligned memory word under the high end of the old register. -/
def mergeRight (k : Nat) (memword old : Word) : Word :=
  match k with
  | 0 => memword
  | 1 => old.extractLsb' 24 8 ++ memword.extractLsb' 8 24
  | 2 => old.extractLsb' 16 16 ++ memword.extractLsb' 16 16
  | _ => old.extractLsb' 8 24 ++ memword.extractLsb' 24 8

/-- The bytes `n` stored bytes of `v` take in memory, lowest address first, from byte `from_` of `v` up (R14, R53). -/
def bytesFrom (v : Word) (first n : Nat) : List Byte := (List.range n).map fun i => byteOf v (first + i)

end Sys2Proof.Machine
end

