-- ==== Sys2Proof/Machine/AllegrexAlu.lean ====
section
/-! DEFINITION. The ALLEGREX integer extensions (R260 to R279). -/

namespace Sys2Proof.Machine

/-- `clo`, R261. -/
def execClo (rd rs : Reg) (s : State) : Result :=
  s.finish rd (countLeadingOnes (s.x rs))

/-- `clz`, R262. -/
def execClz (rd rs : Reg) (s : State) : Result :=
  s.finish rd (countLeadingZeros (s.x rs))

/-- `madd`, R263. -/
def execMadd (rs rt : Reg) (s : State) : Result :=
  .next (s.setHiLo (s.hiLo + signedProduct (s.x rs) (s.x rt))).seq

/-- `maddu`, R264. -/
def execMaddu (rs rt : Reg) (s : State) : Result :=
  .next (s.setHiLo (s.hiLo + unsignedProduct (s.x rs) (s.x rt))).seq

/-- `msub`, R265. -/
def execMsub (rs rt : Reg) (s : State) : Result :=
  .next (s.setHiLo (s.hiLo - signedProduct (s.x rs) (s.x rt))).seq

/-- `msubu`, R266. -/
def execMsubu (rs rt : Reg) (s : State) : Result :=
  .next (s.setHiLo (s.hiLo - unsignedProduct (s.x rs) (s.x rt))).seq

/-- `max`, R267. -/
def execMax (rd rs rt : Reg) (s : State) : Result :=
  s.finish rd (if signedLess (s.x rs) (s.x rt) then s.x rt else s.x rs)

/-- `min`, R268. -/
def execMin (rd rs rt : Reg) (s : State) : Result :=
  s.finish rd (if signedLess (s.x rs) (s.x rt) then s.x rs else s.x rt)

/-- `movn`, R269. -/
def execMovn (rd rs rt : Reg) (s : State) : Result :=
  if s.x rt = 0#32 then .next s.seq else s.finish rd (s.x rs)

/-- `movz`, R270. -/
def execMovz (rd rs rt : Reg) (s : State) : Result :=
  if s.x rt = 0#32 then s.finish rd (s.x rs) else .next s.seq

/-- `ext`, R271: size = msbd + 1, pos = lsb; pos + size > 32 is UNPREDICTABLE and refused (R380 h). -/
def execExt (rt rs : Reg) (msbd lsb : BitVec 5) (s : State) : Result :=
  if 32 < lsb.toNat + msbd.toNat + 1 then .refused (.restriction .h)
  else s.finish rt (extractField (s.x rs) lsb.toNat (msbd.toNat + 1))

/-- `ins`, R272: pos = lsb, size = msb - lsb + 1; size < 1 is UNPREDICTABLE and refused (R380 i). -/
def execIns (rt rs : Reg) (msb lsb : BitVec 5) (s : State) : Result :=
  if msb.toNat < lsb.toNat then .refused (.restriction .i)
  else s.finish rt (insertField (s.x rt) (s.x rs) lsb.toNat (msb.toNat - lsb.toNat + 1))

/-- `seb`, R273. -/
def execSeb (rd rt : Reg) (s : State) : Result :=
  s.finish rd (((s.x rt).extractLsb' 0 8).signExtend 32)

/-- `seh`, R274. -/
def execSeh (rd rt : Reg) (s : State) : Result :=
  s.finish rd (((s.x rt).extractLsb' 0 16).signExtend 32)

/-- `bitrev`, R275. -/
def execBitrev (rd rt : Reg) (s : State) : Result :=
  s.finish rd (bitReverse (s.x rt))

/-- `rotr`, R276. -/
def execRotr (rd rt : Reg) (sa : BitVec 5) (s : State) : Result :=
  s.finish rd ((s.x rt).rotateRight sa.toNat)

/-- `rotrv`, R277. -/
def execRotrv (rd rt rs : Reg) (s : State) : Result :=
  s.finish rd ((s.x rt).rotateRight (shiftAmount (s.x rs)))

/-- `wsbh`, R278. -/
def execWsbh (rd rt : Reg) (s : State) : Result :=
  s.finish rd (swapBytesInHalves (s.x rt))

/-- `wsbw`, R279. -/
def execWsbw (rd rt : Reg) (s : State) : Result :=
  s.finish rd (swapBytesInWord (s.x rt))

end Sys2Proof.Machine
end

