-- ==== Sys2Proof/Machine/Arith.lean ====
section
/-! DEFINITION. Arithmetic, logical and compare instructions (R110 to R129). -/

namespace Sys2Proof.Machine

/-- `add`, R111. -/
def execAdd (rd rs rt : Reg) (s : State) : Result :=
  let t := sum33 (s.x rs) (s.x rt)
  if overflows t then raise .integerOverflow s else s.finish rd (t.setWidth 32)

/-- `addi`, R112. -/
def execAddi (rt rs : Reg) (imm : BitVec 16) (s : State) : Result :=
  let t := sum33 (s.x rs) (signedImm imm)
  if overflows t then raise .integerOverflow s else s.finish rt (t.setWidth 32)

/-- `addiu`, R113. -/
def execAddiu (rt rs : Reg) (imm : BitVec 16) (s : State) : Result :=
  s.finish rt (s.x rs + signedImm imm)

/-- `addu`, R114. -/
def execAddu (rd rs rt : Reg) (s : State) : Result :=
  s.finish rd (s.x rs + s.x rt)

/-- `and`, R115. -/
def execAnd (rd rs rt : Reg) (s : State) : Result :=
  s.finish rd (s.x rs &&& s.x rt)

/-- `andi`, R116. -/
def execAndi (rt rs : Reg) (imm : BitVec 16) (s : State) : Result :=
  s.finish rt (s.x rs &&& zeroImm imm)

/-- `lui`, R117. -/
def execLui (rt : Reg) (imm : BitVec 16) (s : State) : Result :=
  s.finish rt (upperImm imm)

/-- `nop`, R118: only the advance of `pc` and `npc`. -/
def execNop (s : State) : Result :=
  .next s.seq

/-- `nor`, R119. -/
def execNor (rd rs rt : Reg) (s : State) : Result :=
  s.finish rd (~~~(s.x rs ||| s.x rt))

/-- `or`, R120. -/
def execOr (rd rs rt : Reg) (s : State) : Result :=
  s.finish rd (s.x rs ||| s.x rt)

/-- `ori`, R121. -/
def execOri (rt rs : Reg) (imm : BitVec 16) (s : State) : Result :=
  s.finish rt (s.x rs ||| zeroImm imm)

/-- `slt`, R122. -/
def execSlt (rd rs rt : Reg) (s : State) : Result :=
  s.finish rd (boolWord (signedLess (s.x rs) (s.x rt)))

/-- `slti`, R123. -/
def execSlti (rt rs : Reg) (imm : BitVec 16) (s : State) : Result :=
  s.finish rt (boolWord (signedLess (s.x rs) (signedImm imm)))

/-- `sltiu`, R124: the immediate is sign-extended, the comparison unsigned. -/
def execSltiu (rt rs : Reg) (imm : BitVec 16) (s : State) : Result :=
  s.finish rt (boolWord (unsignedLess (s.x rs) (signedImm imm)))

/-- `sltu`, R125. -/
def execSltu (rd rs rt : Reg) (s : State) : Result :=
  s.finish rd (boolWord (unsignedLess (s.x rs) (s.x rt)))

/-- `sub`, R126. -/
def execSub (rd rs rt : Reg) (s : State) : Result :=
  let t := diff33 (s.x rs) (s.x rt)
  if overflows t then raise .integerOverflow s else s.finish rd (t.setWidth 32)

/-- `subu`, R127. -/
def execSubu (rd rs rt : Reg) (s : State) : Result :=
  s.finish rd (s.x rs - s.x rt)

/-- `xor`, R128. -/
def execXor (rd rs rt : Reg) (s : State) : Result :=
  s.finish rd (s.x rs ^^^ s.x rt)

/-- `xori`, R129. -/
def execXori (rt rs : Reg) (imm : BitVec 16) (s : State) : Result :=
  s.finish rt (s.x rs ^^^ zeroImm imm)

end Sys2Proof.Machine
end

