-- ==== Sys2Proof/Machine/Branch.lean ====
section
/-! DEFINITION. Branches and jumps (R165 to R186). -/

namespace Sys2Proof.Machine

/-- A conditional branch (R165): the delay slot executes whether or not it is taken. -/
def State.branch (s : State) (taken : Bool) (offset : BitVec 16) : Result :=
  .next (if taken then s.branchTo (branchTarget s.pc offset) else s.fallThrough)

/-- A Likely branch (R165): the delay slot is nullified when it is not taken. -/
def State.branchLikely (s : State) (taken : Bool) (offset : BitVec 16) : Result :=
  .next (if taken then s.branchTo (branchTarget s.pc offset) else s.nullifySlot)

/-- `x[r] <- cur + 8` (R165). -/
def State.link (s : State) (r : Reg) : State := s.setX r (linkValue s.pc)

/-- `s(v) >= 0`. -/
def atLeastZero (v : Word) : Bool := decide (0 ≤ v.toInt)
/-- `s(v) > 0`. -/
def aboveZero (v : Word) : Bool := decide (0 < v.toInt)
/-- `s(v) <= 0`. -/
def atMostZero (v : Word) : Bool := decide (v.toInt ≤ 0)
/-- `s(v) < 0`. -/
def belowZero (v : Word) : Bool := decide (v.toInt < 0)

/-- `beq`, R167. -/
def execBeq (rs rt : Reg) (offset : BitVec 16) (s : State) : Result :=
  s.branch (s.x rs == s.x rt) offset

/-- `beql`, R168. -/
def execBeql (rs rt : Reg) (offset : BitVec 16) (s : State) : Result :=
  s.branchLikely (s.x rs == s.x rt) offset

/-- `bgez`, R169. -/
def execBgez (rs : Reg) (offset : BitVec 16) (s : State) : Result :=
  s.branch (atLeastZero (s.x rs)) offset

/-- `bgezal`, R170: the condition is read before the link is written; `rs` = 31 is refused (R380 c). -/
def execBgezal (rs : Reg) (offset : BitVec 16) (s : State) : Result :=
  if rs = linkReg then .refused (.restriction .c)
  else (s.link linkReg).branch (atLeastZero (s.x rs)) offset

/-- `bgezall`, R171: the condition is read before the link is written; `rs` = 31 is refused (R380 c). -/
def execBgezall (rs : Reg) (offset : BitVec 16) (s : State) : Result :=
  if rs = linkReg then .refused (.restriction .c)
  else (s.link linkReg).branchLikely (atLeastZero (s.x rs)) offset

/-- `bgezl`, R172. -/
def execBgezl (rs : Reg) (offset : BitVec 16) (s : State) : Result :=
  s.branchLikely (atLeastZero (s.x rs)) offset

/-- `bgtz`, R173. -/
def execBgtz (rs : Reg) (offset : BitVec 16) (s : State) : Result :=
  s.branch (aboveZero (s.x rs)) offset

/-- `bgtzl`, R174. -/
def execBgtzl (rs : Reg) (offset : BitVec 16) (s : State) : Result :=
  s.branchLikely (aboveZero (s.x rs)) offset

/-- `blez`, R175. -/
def execBlez (rs : Reg) (offset : BitVec 16) (s : State) : Result :=
  s.branch (atMostZero (s.x rs)) offset

/-- `blezl`, R176. -/
def execBlezl (rs : Reg) (offset : BitVec 16) (s : State) : Result :=
  s.branchLikely (atMostZero (s.x rs)) offset

/-- `bltz`, R177. -/
def execBltz (rs : Reg) (offset : BitVec 16) (s : State) : Result :=
  s.branch (belowZero (s.x rs)) offset

/-- `bltzal`, R178: the condition is read before the link is written; `rs` = 31 is refused (R380 c). -/
def execBltzal (rs : Reg) (offset : BitVec 16) (s : State) : Result :=
  if rs = linkReg then .refused (.restriction .c)
  else (s.link linkReg).branch (belowZero (s.x rs)) offset

/-- `bltzall`, R179: the condition is read before the link is written; `rs` = 31 is refused (R380 c). -/
def execBltzall (rs : Reg) (offset : BitVec 16) (s : State) : Result :=
  if rs = linkReg then .refused (.restriction .c)
  else (s.link linkReg).branchLikely (belowZero (s.x rs)) offset

/-- `bltzl`, R180. -/
def execBltzl (rs : Reg) (offset : BitVec 16) (s : State) : Result :=
  s.branchLikely (belowZero (s.x rs)) offset

/-- `bne`, R181. -/
def execBne (rs rt : Reg) (offset : BitVec 16) (s : State) : Result :=
  s.branch (s.x rs != s.x rt) offset

/-- `bnel`, R182. -/
def execBnel (rs rt : Reg) (offset : BitVec 16) (s : State) : Result :=
  s.branchLikely (s.x rs != s.x rt) offset

/-- `j`, R183. -/
def execJ (target : BitVec 26) (s : State) : Result :=
  .next (s.branchTo (jumpTarget s.pc target))

/-- `jal`, R184. -/
def execJal (target : BitVec 26) (s : State) : Result :=
  .next ((s.link linkReg).branchTo (jumpTarget s.pc target))

/-- `jalr`, R185: the target is read before the link is written; `rd` = `rs` is refused (R380 e). -/
def execJalr (rd rs : Reg) (s : State) : Result :=
  if rd = rs then .refused (.restriction .e)
  else .next ((s.link rd).branchTo (s.x rs))

/-- `jr`, R186. -/
def execJr (rs : Reg) (s : State) : Result :=
  .next (s.branchTo (s.x rs))

end Sys2Proof.Machine
end

