-- ==== Sys2Proof/Machine/Cache.lean ====
section
/-! DEFINITION. The two caches, the two write buffers, and the accesses of loads, stores, fetches and cache functions through
them (R41, R56, R63 to R71, R290, R291). Addresses are natural numbers here, reached from the 32-bit address by `toNat`;
translation is the identity (R58, D4). -/

namespace Sys2Proof.Machine

/-! ### Ways, entries and sets (R291) -/

/-- `other(A) = B`, `other(B) = A`. -/
def Way.other : Way → Way
  | .A => .B
  | .B => .A

/-- The entry of a way. -/
def CacheSet.line (c : CacheSet) : Way → Line
  | .A => c.wayA
  | .B => c.wayB

/-- The set with the entry of way `w` replaced. -/
def CacheSet.setLine (c : CacheSet) (w : Way) (l : Line) : CacheSet :=
  match w with
  | .A => { c with wayA := l }
  | .B => { c with wayB := l }

/-- `Locked(s, w)`: the Lock bit is 1 and the LRU bit points to the other entry. -/
def CacheSet.locked (c : CacheSet) (w : Way) : Bool := c.lock && c.lru == w.other

/-- The way that holds `tag`, if one does. A launch may give a set that holds it in both (R372 c); R291 says only "the way w
with", and here it is WayA (DESIGN CHOICE, log entry 35). -/
def CacheSet.find (c : CacheSet) (tag : Nat) : Option Way :=
  if c.wayA.valid && c.wayA.tag == tag then some .A
  else if c.wayB.valid && c.wayB.tag == tag then some .B
  else none

/-- `Invalidate(s, w)`: Valid becomes 0, nothing else changes. -/
def CacheSet.invalidate (c : CacheSet) (w : Way) : CacheSet := c.setLine w { c.line w with valid := false }

/-- The entry of way `w` made clean (R301). -/
def CacheSet.clean (c : CacheSet) (w : Way) : CacheSet := c.setLine w { c.line w with dirty := false }

/-- `if Locked(s, w) then lock <- 0`. -/
def CacheSet.releaseLock (c : CacheSet) (w : Way) : CacheSet := { c with lock := c.lock && !c.locked w }

/-- The new line `l` placed in way `v`; the LRU bit is updated to point to the other way unless the set is locked; then the Lock
bit is set if `lockIt` (R295, R296, R299). -/
def CacheSet.place (c : CacheSet) (v : Way) (l : Line) (lockIt : Bool) : CacheSet :=
  { c.setLine v l with lru := if c.lock then c.lru else v.other, lock := c.lock || lockIt }

/-- `IndexSelect(s)`: the way, and the set with the Lock bit cleared when exactly one way is valid. -/
def CacheSet.indexSelect (c : CacheSet) : Option Way × CacheSet :=
  match c.wayA.valid, c.wayB.valid with
  | true, true => (some c.lru, c)
  | true, false => (some .A, { c with lock := false })
  | false, true => (some .B, { c with lock := false })
  | false, false => (none, c)

/-- The set at index `i`; a set nothing has touched is empty. -/
def Cache.get : List (Nat × CacheSet) → Nat → CacheSet
  | [], _ => CacheSet.empty
  | (k, v) :: c, i => if i = k then v else Cache.get c i

/-- The cache with the set at index `i` replaced. -/
def Cache.put : List (Nat × CacheSet) → Nat → CacheSet → List (Nat × CacheSet)
  | [], i, v => [(i, v)]
  | (k, w) :: c, i, v =>
    if i < k then (i, v) :: (k, w) :: c
    else if i = k then (i, v) :: c
    else (k, w) :: Cache.put c i v

/-! ### How an address is split (R291, D17) -/

/-- `LINE`. -/
def Platform.line (p : Platform) : Nat := 2 ^ p.lineBits
/-- `line(vAddr)`: the first byte of the line. -/
def Platform.lineOf (p : Platform) (a : Nat) : Nat := a - a % p.line
/-- The byte's place within its line. -/
def Platform.offsetOf (p : Platform) (a : Nat) : Nat := a % p.line
/-- `ISETS` or `DSETS`. -/
def Platform.sets (p : Platform) : CacheSide → Nat
  | .instruction => 2 ^ p.iSetBits
  | .data => 2 ^ p.dSetBits
/-- `set(vAddr)`. -/
def Platform.setOf (p : Platform) (c : CacheSide) (a : Nat) : Nat := a / p.line % p.sets c
/-- `tag(vAddr)`. -/
def Platform.tagOf (p : Platform) (c : CacheSide) (a : Nat) : Nat := a / (p.line * p.sets c)
/-- The first byte of the line that set `i` holds under `tag`. -/
def Platform.lineAddr (p : Platform) (c : CacheSide) (i tag : Nat) : Nat := (tag * p.sets c + i) * p.line

/-! ### What the platform says of an address (R56, D4, D5, D17) -/

/-- The region holds the address. -/
def Region.contains (r : Region) (a : Nat) : Bool := decide (r.base ≤ a) && decide (a < r.base + r.size)

/-- `AddrOK(vAddr, mode, kind)`. -/
def State.addrOK (s : State) (a : Word) (m : Mode) (k : Access) : Bool :=
  s.platform.regions.any fun r => r.contains a.toNat && r.modes.contains m && r.kinds.contains k

/-- `BusErr(pAddr, kind)`. -/
def State.busErr (s : State) (a : Nat) (k : Access) : Bool :=
  s.platform.regions.any fun r => r.contains a && r.busErrors.contains k

/-- `Cacheable(vAddr)`, decided for the whole line at its first byte (DESIGN CHOICE, log entry 32). -/
def Platform.cacheable (p : Platform) (a : Nat) : Bool :=
  p.regions.any fun r => r.contains (p.lineOf a) && r.cached

/-! ### Looking an address up -/

/-- The set of the data cache that the address selects. -/
def State.dset (s : State) (a : Nat) : CacheSet := Cache.get s.dcache (s.platform.setOf .data a)
/-- The set of the instruction cache that the address selects. -/
def State.iset (s : State) (a : Nat) : CacheSet := Cache.get s.icache (s.platform.setOf .instruction a)
/-- `Hit_D(vAddr)`. -/
def State.dHit (s : State) (a : Nat) : Option Way := (s.dset a).find (s.platform.tagOf .data a)
/-- `Hit_I(vAddr)`. -/
def State.iHit (s : State) (a : Nat) : Option Way := (s.iset a).find (s.platform.tagOf .instruction a)
/-- Replace the data-cache set that the address selects. -/
def State.putDset (s : State) (a : Nat) (c : CacheSet) : State :=
  { s with dcache := Cache.put s.dcache (s.platform.setOf .data a) c }
/-- Replace the instruction-cache set that the address selects. -/
def State.putIset (s : State) (a : Nat) (c : CacheSet) : State :=
  { s with icache := Cache.put s.icache (s.platform.setOf .instruction a) c }

/-- The newest byte a write buffer holds for the address. -/
def pending : List Host.Cell → Nat → Option Byte
  | [], _ => none
  | (k, b) :: q, a =>
    match pending q a with
    | some b' => some b'
    | none => if a = k then some b else none

/-- The byte beneath the data cache, as the processor's data side sees it: its own buffered writes, newest first, then memory
(R63, R64). R63 gives no order between the two buffers. The non-cache write buffer is looked at first (DESIGN CHOICE, log entry
36): both hold the byte only where a launch's data cache (R372 c) has a dirty line of a non-cache address, and the bytes of such
a line are the launch's, so the uncached store is the most recent store of the program. -/
def State.busByte (s : State) (a : Nat) : Byte :=
  match pending s.nonCacheBuf.flatten a with
  | some b => b
  | none =>
    match pending s.writebackBuf.flatten a with
    | some b => b
    | none => Memory.read s.mem a

/-- THE BYTE A LOAD SEES at address `a` (R63): the data cache's if the address is cacheable and present, else the bus's. -/
def State.dataByte (s : State) (a : Nat) : Byte :=
  if s.platform.cacheable a then
    match s.dHit a with
    | some w => (((s.dset a).line w).data).getD (s.platform.offsetOf a) 0#8
    | none => s.busByte a
  else s.busByte a

/-- THE BYTE AN INSTRUCTION FETCH SEES at address `a` (R67): the instruction cache's if the address is cacheable and present,
else main memory's. Neither the data cache nor the write buffers are looked at (DEDUCED, log entry 13). -/
def State.fetchByte (s : State) (a : Nat) : Byte :=
  if s.platform.cacheable a then
    match s.iHit a with
    | some w => (((s.iset a).line w).data).getD (s.platform.offsetOf a) 0#8
    | none => Memory.read s.mem a
  else Memory.read s.mem a

/-! ### Write buffers (R40, R64, R65) -/

/-- Bytes at rising addresses: a store's, or an entry's with the addresses they go back to. -/
def lineCells (first : Nat) : List Byte → List Host.Cell
  | [] => []
  | b :: bs => (first, b) :: lineCells (first + 1) bs

/-- `Writeback(s, w)`: the entry's bytes enter the cache writeback buffer, as one write. -/
def State.writeback (s : State) (a : Nat) (w : Way) : State :=
  let l := (s.dset a).line w
  { s with writebackBuf := s.writebackBuf ++
      [lineCells (s.platform.lineAddr .data (s.platform.setOf .data a) l.tag) l.data] }

/-- `Writeback(s, w)` if the entry is valid and dirty. -/
def State.writebackIfDirty (s : State) (a : Nat) (w : Way) : State :=
  let l := (s.dset a).line w
  { s with writebackBuf := if l.valid && l.dirty then (s.writeback a w).writebackBuf else s.writebackBuf }

/-- The first `n` writes of the cache writeback buffer and the first `m` of the other reach memory, each whole (R61). Where both
hold a byte that of the non-cache write buffer stays in memory (DESIGN CHOICE, log entry 36). -/
def State.drain (s : State) (n m : Nat) : State :=
  { s with
    mem := Memory.writeCells (Memory.writeCells s.mem (s.writebackBuf.take n).flatten) (s.nonCacheBuf.take m).flatten
    writebackBuf := s.writebackBuf.drop n
    nonCacheBuf := s.nonCacheBuf.drop m }

/-- What leaves the buffers between two instructions: a free number of writes from each, when there are any (DESIGN CHOICE,
log entry 14). -/
def State.drainSome (s : State) : State :=
  match s.writebackBuf, s.nonCacheBuf with
  | [], [] => s
  | _, _ => { s.drain (Config.drainCount s.free) (Config.drainCount (s.free + 1)) with free := s.free + 2 }

/-- `SyncOperation()`: both buffers have emptied (R65, R307). -/
def State.drainAll (s : State) : State := s.drain s.writebackBuf.length s.nonCacheBuf.length

/-! ### Filling and creating lines (R70, R295, R299, R304) -/

/-- The bytes of the line of `a`, read from beneath the data cache. -/
def State.busLine (s : State) (a : Nat) : List Byte :=
  (List.range s.platform.line).map fun j => s.busByte (s.platform.lineOf a + j)

/-- The bytes of the line of `a` in main memory. -/
def State.memLine (s : State) (a : Nat) : List Byte :=
  (List.range s.platform.line).map fun j => Memory.read s.mem (s.platform.lineOf a + j)

/-- Put the line of `a` into the data cache in way `v`, over a victim that is written back first if dirty (R291; for ordinary
accesses DEDUCED, log entry 12). -/
def State.installD (s : State) (a : Nat) (v : Way) (dirty : Bool) (data : List Byte) (lockIt : Bool) : State :=
  (s.writebackIfDirty a v).putDset a
    ((s.dset a).place v { valid := true, dirty := dirty, tag := s.platform.tagOf .data a, data := data } lockIt)

/-- Fill (D) (R304, R305): on a miss the line is read into the way the LRU points to; on a hit nothing happens. -/
def State.fillD (s : State) (a : Nat) (lockIt : Bool) : State :=
  match s.dHit a with
  | some _ => s
  | none => s.installD a (s.dset a).lru false ((s.writebackIfDirty a (s.dset a).lru).busLine a) lockIt

/-- Fill (I) (R295, R296). -/
def State.fillI (s : State) (a : Nat) (lockIt : Bool) : State :=
  match s.iHit a with
  | some _ => s
  | none =>
    s.putIset a ((s.iset a).place (s.iset a).lru
      { valid := true, dirty := false, tag := s.platform.tagOf .instruction a, data := s.memLine a } lockIt)

/-- `LINE` fresh free bytes (R299). -/
def State.freeLine (s : State) : List Byte :=
  (List.range s.platform.line).map fun j => Config.freeByte (s.free + j)

/-- Create Dirty Exclusive (R299, R303): the line in the hit way, or in the way the LRU points to, dirty, with any value in it. -/
def State.createD (s : State) (a : Nat) (lockIt : Bool) : State :=
  match s.dHit a with
  | some w =>
    { s.putDset a ((s.dset a).place w
        { valid := true, dirty := true, tag := s.platform.tagOf .data a, data := s.freeLine } lockIt) with
      free := s.free + s.platform.line }
  | none =>
    { s.installD a (s.dset a).lru true s.freeLine lockIt with free := s.free + s.platform.line }

/-! ### Ordinary accesses (R60, R70) -/

/-- What a data access at `a` does to the data cache: a cached one that misses fills the line (R70; no bus error of its own,
DESIGN CHOICE, log entry 33). A load comes here once, with its effective address, a store with each byte's (DESIGN CHOICE where
LINE is less than 4, log entry 10). -/
def State.touchD (s : State) (a : Nat) : State := if s.platform.cacheable a then s.fillD a false else s

/-- What a fetch does to the instruction cache. -/
def State.touchI (s : State) (a : Nat) : State := if s.platform.cacheable a then s.fillI a false else s

/-- A byte stored to a line that is present: Dirty is set and memory is not written (R70). -/
def State.pokeD (s : State) (a : Nat) (b : Byte) : State :=
  match s.dHit a with
  | some w =>
    let l := (s.dset a).line w
    s.putDset a ((s.dset a).setLine w { l with dirty := true, data := l.data.set (s.platform.offsetOf a) b })
  | none => s

/-- A store enters the non-cache write buffer, as one write (R40, R61, R64). -/
def State.bufferWrite (s : State) (w : BufferedWrite) : State :=
  { s with nonCacheBuf := if w.isEmpty then s.nonCacheBuf else s.nonCacheBuf ++ [w] }

/-- One byte of a store at a cache address goes through the data cache (R70); at another address nothing happens here. -/
def State.storeCached (s : State) (a : Nat) (b : Byte) : State :=
  if s.platform.cacheable a then (s.touchD a).pokeD a b else s

/-- The bytes of a store that lie at cache addresses, lowest first. -/
def State.storeAllCached (s : State) (a : Nat) : List Byte → State
  | [] => s
  | b :: bs => (s.storeCached a b).storeAllCached (a + 1) bs

/-- The bytes of a store that lie at no cache address: an access lies in one line, so these are all of them or none, unless
LINE is less than 4. -/
def Platform.uncachedCells (p : Platform) (a : Nat) (bytes : List Byte) : BufferedWrite :=
  (lineCells a bytes).filter fun c => !p.cacheable c.1

/-- A store of `bytes` at rising addresses (R69, R70): those at cache addresses through the data cache, the others as one write
into the non-cache write buffer. Where LINE is less than 4 the bytes can lie in two or more lines, which are written back line by
line (R291), and some of them at cache addresses and some not: then memory can hold a part of the store, and R61, by which a
store is atomic for any other agent, is not kept (DESIGN CHOICE, log entry 37). -/
def State.storeBytes (s : State) (a : Nat) (bytes : List Byte) : State :=
  (s.storeAllCached a bytes).bufferWrite (s.platform.uncachedCells a bytes)

/-- `MemRead(addr, 1)` (R14, R53). -/
def State.readByte (s : State) (a : Word) : Byte := s.dataByte a.toNat
/-- `MemRead(addr, 2)`, little-endian. -/
def State.readHalf (s : State) (a : Word) : Half := s.dataByte (a.toNat + 1) ++ s.dataByte a.toNat
/-- `MemRead(addr, 4)`, little-endian. -/
def State.readWord (s : State) (a : Word) : Word :=
  wordOfBytes (s.dataByte a.toNat) (s.dataByte (a.toNat + 1)) (s.dataByte (a.toNat + 2)) (s.dataByte (a.toNat + 3))

/-- The aligned word address `vAddr - vAddr[1:0]` (R206). -/
def wordBase (a : Word) : Word := a &&& ~~~3#32

/-- `vAddr[1:0]`. -/
def byteLane (a : Word) : Nat := (a.extractLsb' 0 2).toNat

/-! ### The checks of an access (R55, R56) -/

/-- The steps 1 to 4 of R56 for a data access: alignment, AddrOK, and for a load BusErr; then the access. -/
def State.checkedAccess (s : State) (a : Word) (k : Access) (align : Nat) (access : Result) : Result :=
  if a.toNat % align ≠ 0 then raise (.addressError a k) s
  else s.withMode fun m =>
    if !s.addrOK a m k then raise (.addressError a k) s
    else if k == .load && s.busErr a.toNat .load then raise (.busError a .load .data) s
    else access

/-- What every load does: the checks, the access to the cache, then the register write from the bytes found (R200). The line
filled is that of the effective address `a`, which is the last byte loaded for `lwl` and the first for every other load (DESIGN
CHOICE where LINE is less than 4 and the bytes lie in two lines, log entry 10). -/
def State.load (s : State) (a : Word) (align : Nat) (write : State → State) : Result :=
  s.checkedAccess a .load align (.next (write (s.touchD a.toNat)).seq)

/-- What every store does: the checks, then the bytes written from address `at_` up (R200). -/
def State.store (s : State) (a : Word) (align : Nat) (first : Word) (bytes : List Byte) : Result :=
  s.checkedAccess a .store align (.next (s.storeBytes first.toNat bytes).seq)

/-- What every `cache` function does first: the AddrOK check (R290), then the operation on the line. -/
def State.cacheOp (s : State) (base : Reg) (offset : BitVec 16) (op : Nat → Result) : Result :=
  let a := s.effAddr base offset
  s.withMode fun m =>
    if !s.addrOK a m .cacheop then raise (.addressError a .cacheop) s
    else op a.toNat

end Sys2Proof.Machine
end

