-- ==== Sys2Proof/Machine/CacheOps.lean ====
section
/-! DEFINITION. The cache functions and `sync` (R290 to R307). -/

namespace Sys2Proof.Machine

/-- A Fill on a miss (R295, R304): a bus error at the line raises, else the line is filled; on a hit nothing happens. -/
def State.fillOp (s : State) (a : Nat) (side : CacheSide) (hit : Bool) (filled : State) : Result :=
  if hit then .next s.seq
  else if s.busErr (s.platform.lineOf a) .cacheop then
    raise (.busError (BitVec.ofNat 32 (s.platform.lineOf a)) .cacheop side) s
  else .next filled.seq

/-- Create Dirty Exclusive (R299, R303): prohibited, so refused, on a non-cache address. -/
def State.createOp (s : State) (a : Nat) (lockIt : Bool) : Result :=
  if s.platform.cacheable a then .next (s.createD a lockIt).seq else .refused .createOnNonCacheAddress

/-- `cache 0x04` Index Invalidate (I), R292. -/
def execCacheIndexInvalidateI (base : Reg) (offset : BitVec 16) (s : State) : Result :=
  s.cacheOp base offset fun a =>
    match (s.iset a).indexSelect with
    | (some w, c) => .next (s.putIset a (c.invalidate w)).seq
    | (none, _) => .next s.seq

/-- `cache 0x06` Index Unlock (I), R293. -/
def execCacheIndexUnlockI (base : Reg) (offset : BitVec 16) (s : State) : Result :=
  s.cacheOp base offset fun a => .next (s.putIset a { s.iset a with lock := false }).seq

/-- `cache 0x08` Hit Invalidate (I), R294. -/
def execCacheHitInvalidateI (base : Reg) (offset : BitVec 16) (s : State) : Result :=
  s.cacheOp base offset fun a =>
    match s.iHit a with
    | some w => .next (s.putIset a (((s.iset a).releaseLock w).invalidate w)).seq
    | none => .next s.seq

/-- `cache 0x0a` Fill (I), R295. -/
def execCacheFillI (base : Reg) (offset : BitVec 16) (s : State) : Result :=
  s.cacheOp base offset fun a => s.fillOp a .instruction (s.iHit a).isSome (s.fillI a false)

/-- `cache 0x0b` Fill with Lock (I), R296. -/
def execCacheFillLockI (base : Reg) (offset : BitVec 16) (s : State) : Result :=
  s.cacheOp base offset fun a => s.fillOp a .instruction (s.iHit a).isSome (s.fillI a true)

/-- `cache 0x14` Index Writeback Invalidate (D), R297. -/
def execCacheIndexWritebackInvalidateD (base : Reg) (offset : BitVec 16) (s : State) : Result :=
  s.cacheOp base offset fun a =>
    match (s.dset a).indexSelect with
    | (some w, c) => .next ((s.writebackIfDirty a w).putDset a (c.invalidate w)).seq
    | (none, _) => .next s.seq

/-- `cache 0x16` Index Unlock (D), R298. -/
def execCacheIndexUnlockD (base : Reg) (offset : BitVec 16) (s : State) : Result :=
  s.cacheOp base offset fun a => .next (s.putDset a { s.dset a with lock := false }).seq

/-- `cache 0x18` Create Dirty Exclusive (D), R299. -/
def execCacheCreateDirtyD (base : Reg) (offset : BitVec 16) (s : State) : Result :=
  s.cacheOp base offset fun a => s.createOp a false

/-- `cache 0x19` Hit Invalidate (D), R300: no writeback, even of a dirty line. -/
def execCacheHitInvalidateD (base : Reg) (offset : BitVec 16) (s : State) : Result :=
  s.cacheOp base offset fun a =>
    match s.dHit a with
    | some w => .next (s.putDset a (((s.dset a).releaseLock w).invalidate w)).seq
    | none => .next s.seq

/-- `cache 0x1a` Hit WriteBack (D), R301. -/
def execCacheHitWritebackD (base : Reg) (offset : BitVec 16) (s : State) : Result :=
  s.cacheOp base offset fun a =>
    match s.dHit a with
    | some w =>
      if ((s.dset a).line w).dirty then .next ((s.writeback a w).putDset a ((s.dset a).clean w)).seq
      else .next s.seq
    | none => .next s.seq

/-- `cache 0x1b` Hit WriteBack Invalidate (D), R302. -/
def execCacheHitWritebackInvalidateD (base : Reg) (offset : BitVec 16) (s : State) : Result :=
  s.cacheOp base offset fun a =>
    match s.dHit a with
    | some w => .next ((s.writebackIfDirty a w).putDset a (((s.dset a).releaseLock w).invalidate w)).seq
    | none => .next s.seq

/-- `cache 0x1c` Create Dirty Exclusive with Lock (D), R303. -/
def execCacheCreateDirtyLockD (base : Reg) (offset : BitVec 16) (s : State) : Result :=
  s.cacheOp base offset fun a => s.createOp a true

/-- `cache 0x1e` Fill (D), R304. -/
def execCacheFillD (base : Reg) (offset : BitVec 16) (s : State) : Result :=
  s.cacheOp base offset fun a => s.fillOp a .data (s.dHit a).isSome (s.fillD a false)

/-- `cache 0x1f` Fill with Lock (D), R305. -/
def execCacheFillLockD (base : Reg) (offset : BitVec 16) (s : State) : Result :=
  s.cacheOp base offset fun a => s.fillOp a .data (s.dHit a).isSome (s.fillD a true)

/-- `sync`, R307: both write buffers have emptied into memory (R65). -/
def execSync (s : State) : Result :=
  .next s.drainAll.seq

end Sys2Proof.Machine
end

