-- ==== Sys2Proof/Machine/Fpu.lean ====
section
/-! DEFINITION. The FPU interface (R240 to R250). -/

namespace Sys2Proof.Machine

/-- `bc1f`, R241. -/
def execBc1f (offset : BitVec 16) (s : State) : Result :=
  s.withCop1 (s.branch (!s.coc1) offset)

/-- `bc1fl`, R242. -/
def execBc1fl (offset : BitVec 16) (s : State) : Result :=
  s.withCop1 (s.branchLikely (!s.coc1) offset)

/-- `bc1t`, R243. -/
def execBc1t (offset : BitVec 16) (s : State) : Result :=
  s.withCop1 (s.branch s.coc1 offset)

/-- `bc1tl`, R244. -/
def execBc1tl (offset : BitVec 16) (s : State) : Result :=
  s.withCop1 (s.branchLikely s.coc1 offset)

/-- `cfc1`, R245: `fs` other than 0 and 31 is refused before anything else (R380 j). -/
def execCfc1 (rt fs : Reg) (s : State) : Result :=
  if fs = 0#5 then s.withCop1 (s.finish rt s.fcr0)
  else if fs = 31#5 then s.withCop1 (s.finish rt s.fcr31)
  else .refused (.restriction .j)

/-- `ctc1`, R246: FCR31 is written before FloatingPoint is raised (R345); `fs` other than 31 is refused (R380 k). -/
def execCtc1 (rt fs : Reg) (s : State) : Result :=
  if fs = 31#5 then
    s.withCop1 (if fpTrapPending (s.x rt) then raise .floatingPoint (s.setFcr31 (s.x rt))
      else .next (s.setFcr31 (s.x rt)).seq)
  else .refused (.restriction .k)

/-- `lwc1`, R247. -/
def execLwc1 (ft base : Reg) (offset : BitVec 16) (s : State) : Result :=
  let a := s.effAddr base offset
  s.withCop1 (s.load a 4 fun t => t.setF ft (s.readWord a))

/-- `mfc1`, R248. -/
def execMfc1 (rt fs : Reg) (s : State) : Result :=
  s.withCop1 (s.finish rt (s.f fs))

/-- `mtc1`, R249. -/
def execMtc1 (rt fs : Reg) (s : State) : Result :=
  s.withCop1 (.next (s.setF fs (s.x rt)).seq)

/-- `swc1`, R250. -/
def execSwc1 (ft base : Reg) (offset : BitVec 16) (s : State) : Result :=
  let a := s.effAddr base offset
  s.withCop1 (s.store a 4 a (bytesFrom (s.f ft) 0 4))

end Sys2Proof.Machine
end

