-- ==== Sys2Proof/Machine/Linked.lean ====
section
/-! DEFINITION. Load linked and store conditional (R320, R321). -/

namespace Sys2Proof.Machine

/-- `ll`, R320. -/
def execLl (rt base : Reg) (offset : BitVec 16) (s : State) : Result :=
  let a := s.effAddr base offset
  s.load a 4 fun t => (t.setX rt (s.readWord a)).setLlbit true

/-- What `sc` stores: the bytes of `x[rt]` when LLbit is 1, nothing when it is 0. -/
def State.storeIfLinked (s : State) (a v : Word) : State :=
  if s.llbit then s.storeBytes a.toNat (bytesFrom v 0 4) else s

/-- `sc`, R321: the checks are made whether or not LLbit is 1; LLbit is not changed. -/
def execSc (rt base : Reg) (offset : BitVec 16) (s : State) : Result :=
  let a := s.effAddr base offset
  s.checkedAccess a .store 4
    (.next (((s.storeIfLinked a (s.x rt)).setX rt (boolWord s.llbit)).seq))

end Sys2Proof.Machine
end

