-- ==== Sys2Proof/Machine/LoadStore.lean ====
section
/-! DEFINITION. Loads and stores (R200 to R212). -/

namespace Sys2Proof.Machine

/-- `lb`, R201. -/
def execLb (rt base : Reg) (offset : BitVec 16) (s : State) : Result :=
  let a := s.effAddr base offset
  s.load a 1 fun t => t.setX rt ((s.readByte a).signExtend 32)

/-- `lbu`, R202. -/
def execLbu (rt base : Reg) (offset : BitVec 16) (s : State) : Result :=
  let a := s.effAddr base offset
  s.load a 1 fun t => t.setX rt ((s.readByte a).setWidth 32)

/-- `lh`, R203. -/
def execLh (rt base : Reg) (offset : BitVec 16) (s : State) : Result :=
  let a := s.effAddr base offset
  s.load a 2 fun t => t.setX rt ((s.readHalf a).signExtend 32)

/-- `lhu`, R204. -/
def execLhu (rt base : Reg) (offset : BitVec 16) (s : State) : Result :=
  let a := s.effAddr base offset
  s.load a 2 fun t => t.setX rt ((s.readHalf a).setWidth 32)

/-- `lw`, R205. -/
def execLw (rt base : Reg) (offset : BitVec 16) (s : State) : Result :=
  let a := s.effAddr base offset
  s.load a 4 fun t => t.setX rt (s.readWord a)

/-- `lwl`, R206. It fills the line of its effective address, which is the last byte it loads; where LINE is less than 4 its other
bytes may lie in another line, which is not filled (DESIGN CHOICE, log entry 10). -/
def execLwl (rt base : Reg) (offset : BitVec 16) (s : State) : Result :=
  let a := s.effAddr base offset
  s.load a 1 fun t => t.setX rt (mergeLeft (byteLane a) (s.readWord (wordBase a)) (s.x rt))

/-- `lwr`, R207. -/
def execLwr (rt base : Reg) (offset : BitVec 16) (s : State) : Result :=
  let a := s.effAddr base offset
  s.load a 1 fun t => t.setX rt (mergeRight (byteLane a) (s.readWord (wordBase a)) (s.x rt))

/-- `sb`, R208. -/
def execSb (rt base : Reg) (offset : BitVec 16) (s : State) : Result :=
  let a := s.effAddr base offset
  s.store a 1 a (bytesFrom (s.x rt) 0 1)

/-- `sh`, R209. -/
def execSh (rt base : Reg) (offset : BitVec 16) (s : State) : Result :=
  let a := s.effAddr base offset
  s.store a 2 a (bytesFrom (s.x rt) 0 2)

/-- `sw`, R210. -/
def execSw (rt base : Reg) (offset : BitVec 16) (s : State) : Result :=
  let a := s.effAddr base offset
  s.store a 4 a (bytesFrom (s.x rt) 0 4)

/-- `swl`, R211. -/
def execSwl (rt base : Reg) (offset : BitVec 16) (s : State) : Result :=
  let a := s.effAddr base offset
  s.store a 1 (wordBase a) (bytesFrom (s.x rt) (3 - byteLane a) (byteLane a + 1))

/-- `swr`, R212. -/
def execSwr (rt base : Reg) (offset : BitVec 16) (s : State) : Result :=
  let a := s.effAddr base offset
  s.store a 1 a (bytesFrom (s.x rt) 0 (4 - byteLane a))

end Sys2Proof.Machine
end

