-- ==== Sys2Proof/Machine/MulDiv.lean ====
section
/-! DEFINITION. Multiply, divide and the HI/LO moves (R150 to R159). -/

namespace Sys2Proof.Machine

/-- The quotient and the remainder of `div` (R151; PRESUMED, log entry 26): toward zero, the remainder with the dividend's sign. -/
def signedQuotRem (x y : Word) : DWord := BitVec.ofInt 32 (x.toInt.tmod y.toInt) ++ BitVec.ofInt 32 (x.toInt.tdiv y.toInt)

/-- The quotient and the remainder of `divu` (R152). -/
def unsignedQuotRem (x y : Word) : DWord := BitVec.ofNat 32 (x.toNat % y.toNat) ++ BitVec.ofNat 32 (x.toNat / y.toNat)

/-- The operands for which `div` has no stated result (R151, D11). -/
def divUndefined (x y : Word) : Bool := y == 0#32 || (x == 0x80000000#32 && y == 0xFFFFFFFF#32)

/-- `div`, R151: never a trap; `any value` in HI and LO where no result is stated. -/
def execDiv (rs rt : Reg) (s : State) : Result :=
  if divUndefined (s.x rs) (s.x rt) then .next s.freeHiLo.seq
  else .next (s.setHiLo (signedQuotRem (s.x rs) (s.x rt))).seq

/-- `divu`, R152. -/
def execDivu (rs rt : Reg) (s : State) : Result :=
  if s.x rt = 0#32 then .next s.freeHiLo.seq
  else .next (s.setHiLo (unsignedQuotRem (s.x rs) (s.x rt))).seq

/-- `mult`, R153. -/
def execMult (rs rt : Reg) (s : State) : Result :=
  .next (s.setHiLo (signedProduct (s.x rs) (s.x rt))).seq

/-- `multu`, R154. -/
def execMultu (rs rt : Reg) (s : State) : Result :=
  .next (s.setHiLo (unsignedProduct (s.x rs) (s.x rt))).seq

/-- `mfhi`, R155. -/
def execMfhi (rd : Reg) (s : State) : Result :=
  s.finish rd s.hi

/-- `mflo`, R156. -/
def execMflo (rd : Reg) (s : State) : Result :=
  s.finish rd s.lo

/-- `mthi`, R157. -/
def execMthi (rs : Reg) (s : State) : Result :=
  .next (s.setHi (s.x rs)).seq

/-- `mtlo`, R158. -/
def execMtlo (rs : Reg) (s : State) : Result :=
  .next (s.setLo (s.x rs)).seq

end Sys2Proof.Machine
end

