-- ==== Sys2Proof/Machine/Shift.lean ====
section
/-! DEFINITION. Shifts (R140 to R146); the rotates stand in AllegrexAlu.lean. -/

namespace Sys2Proof.Machine

/-- `sll`, R141. -/
def execSll (rd rt : Reg) (sa : BitVec 5) (s : State) : Result :=
  s.finish rd (s.x rt <<< sa.toNat)

/-- `sllv`, R142. -/
def execSllv (rd rt rs : Reg) (s : State) : Result :=
  s.finish rd (s.x rt <<< shiftAmount (s.x rs))

/-- `sra`, R143. -/
def execSra (rd rt : Reg) (sa : BitVec 5) (s : State) : Result :=
  s.finish rd ((s.x rt).sshiftRight sa.toNat)

/-- `srav`, R144. -/
def execSrav (rd rt rs : Reg) (s : State) : Result :=
  s.finish rd ((s.x rt).sshiftRight (shiftAmount (s.x rs)))

/-- `srl`, R145. -/
def execSrl (rd rt : Reg) (sa : BitVec 5) (s : State) : Result :=
  s.finish rd (s.x rt >>> sa.toNat)

/-- `srlv`, R146. -/
def execSrlv (rd rt rs : Reg) (s : State) : Result :=
  s.finish rd (s.x rt >>> shiftAmount (s.x rs))

end Sys2Proof.Machine
end

