-- ==== Sys2Proof/Machine/System.lean ====
section
/-! DEFINITION. System and coprocessor 0 instructions (R225 to R230). -/

namespace Sys2Proof.Machine

/-- `break`, R226. -/
def execBrk (code : BitVec 20) (s : State) : Result :=
  raise (.breakpoint code) s

/-- `syscall`, R227. -/
def execSyscall (code : BitVec 20) (s : State) : Result :=
  raise (.systemCall code) s

/-- `eret`, R228. -/
def execEret (s : State) : Result :=
  s.withCop0 (.next s.eretReturn)

/-- Count and Compare, which R360 refuses. -/
def isTimerReg (n : Reg) : Bool := n == countReg || n == compareReg

/-- The CP0 registers that D24 lets `mtc0` write: Status, Cause, EPC, ErrorEPC (R230). -/
def writableCp0 (n : Reg) : Bool := n == statusReg || n == causeReg || n == epcReg || n == errorEpcReg

/-- The CP0 registers that D24 lets `mfc0` read: those and BadVAddr (R229). -/
def readableCp0 (n : Reg) : Bool := n == badVAddrReg || writableCp0 n

/-- Go on with an access to CP0 register `n`: refused for Count and Compare (R360), and for a register that is not `listed`
unless the launch makes the others storage (R34, D24; log entry 17). -/
def State.withCp0Reg (s : State) (n : Reg) (listed : Bool) (k : Result) : Result :=
  if isTimerReg n then .refused .timerRegister
  else if listed || s.platform.cp0Storage then k
  else .refused .unlistedCp0Register

/-- `mfc0`, R229. -/
def execMfc0 (rt rd : Reg) (s : State) : Result :=
  s.withCop0 (s.withCp0Reg rd (readableCp0 rd) (s.finish rt (s.cp0 rd)))

/-- `mtc0`, R230. -/
def execMtc0 (rt rd : Reg) (s : State) : Result :=
  s.withCop0 (s.withCp0Reg rd (writableCp0 rd) (.next (s.setCp0 rd (s.x rt)).seq))

end Sys2Proof.Machine
end

