-- ==== Sys2Proof/Machine/Dispatch.lean ====
section
/-! DEFINITION. `exec`: each instruction's meaning, one arm per constructor of `Instr`. -/

namespace Sys2Proof.Machine

def exec (i : Instr) (s : State) : Host.Outcome State Fault Refusal :=
  match i with
  | .add rd rs rt => Sys2Proof.Machine.execAdd rd rs rt s
  | .addi rt rs imm => Sys2Proof.Machine.execAddi rt rs imm s
  | .addiu rt rs imm => Sys2Proof.Machine.execAddiu rt rs imm s
  | .addu rd rs rt => Sys2Proof.Machine.execAddu rd rs rt s
  | .and rd rs rt => Sys2Proof.Machine.execAnd rd rs rt s
  | .andi rt rs imm => Sys2Proof.Machine.execAndi rt rs imm s
  | .lui rt imm => Sys2Proof.Machine.execLui rt imm s
  | .nop => Sys2Proof.Machine.execNop s
  | .nor rd rs rt => Sys2Proof.Machine.execNor rd rs rt s
  | .or rd rs rt => Sys2Proof.Machine.execOr rd rs rt s
  | .ori rt rs imm => Sys2Proof.Machine.execOri rt rs imm s
  | .slt rd rs rt => Sys2Proof.Machine.execSlt rd rs rt s
  | .slti rt rs imm => Sys2Proof.Machine.execSlti rt rs imm s
  | .sltiu rt rs imm => Sys2Proof.Machine.execSltiu rt rs imm s
  | .sltu rd rs rt => Sys2Proof.Machine.execSltu rd rs rt s
  | .sub rd rs rt => Sys2Proof.Machine.execSub rd rs rt s
  | .subu rd rs rt => Sys2Proof.Machine.execSubu rd rs rt s
  | .xor rd rs rt => Sys2Proof.Machine.execXor rd rs rt s
  | .xori rt rs imm => Sys2Proof.Machine.execXori rt rs imm s
  | .sll rd rt sa => Sys2Proof.Machine.execSll rd rt sa s
  | .sllv rd rt rs => Sys2Proof.Machine.execSllv rd rt rs s
  | .sra rd rt sa => Sys2Proof.Machine.execSra rd rt sa s
  | .srav rd rt rs => Sys2Proof.Machine.execSrav rd rt rs s
  | .srl rd rt sa => Sys2Proof.Machine.execSrl rd rt sa s
  | .srlv rd rt rs => Sys2Proof.Machine.execSrlv rd rt rs s
  | .div rs rt => Sys2Proof.Machine.execDiv rs rt s
  | .divu rs rt => Sys2Proof.Machine.execDivu rs rt s
  | .mult rs rt => Sys2Proof.Machine.execMult rs rt s
  | .multu rs rt => Sys2Proof.Machine.execMultu rs rt s
  | .mfhi rd => Sys2Proof.Machine.execMfhi rd s
  | .mflo rd => Sys2Proof.Machine.execMflo rd s
  | .mthi rs => Sys2Proof.Machine.execMthi rs s
  | .mtlo rs => Sys2Proof.Machine.execMtlo rs s
  | .beq rs rt offset => Sys2Proof.Machine.execBeq rs rt offset s
  | .beql rs rt offset => Sys2Proof.Machine.execBeql rs rt offset s
  | .bgez rs offset => Sys2Proof.Machine.execBgez rs offset s
  | .bgezal rs offset => Sys2Proof.Machine.execBgezal rs offset s
  | .bgezall rs offset => Sys2Proof.Machine.execBgezall rs offset s
  | .bgezl rs offset => Sys2Proof.Machine.execBgezl rs offset s
  | .bgtz rs offset => Sys2Proof.Machine.execBgtz rs offset s
  | .bgtzl rs offset => Sys2Proof.Machine.execBgtzl rs offset s
  | .blez rs offset => Sys2Proof.Machine.execBlez rs offset s
  | .blezl rs offset => Sys2Proof.Machine.execBlezl rs offset s
  | .bltz rs offset => Sys2Proof.Machine.execBltz rs offset s
  | .bltzal rs offset => Sys2Proof.Machine.execBltzal rs offset s
  | .bltzall rs offset => Sys2Proof.Machine.execBltzall rs offset s
  | .bltzl rs offset => Sys2Proof.Machine.execBltzl rs offset s
  | .bne rs rt offset => Sys2Proof.Machine.execBne rs rt offset s
  | .bnel rs rt offset => Sys2Proof.Machine.execBnel rs rt offset s
  | .j target => Sys2Proof.Machine.execJ target s
  | .jal target => Sys2Proof.Machine.execJal target s
  | .jalr rd rs => Sys2Proof.Machine.execJalr rd rs s
  | .jr rs => Sys2Proof.Machine.execJr rs s
  | .lb rt base offset => Sys2Proof.Machine.execLb rt base offset s
  | .lbu rt base offset => Sys2Proof.Machine.execLbu rt base offset s
  | .lh rt base offset => Sys2Proof.Machine.execLh rt base offset s
  | .lhu rt base offset => Sys2Proof.Machine.execLhu rt base offset s
  | .lw rt base offset => Sys2Proof.Machine.execLw rt base offset s
  | .lwl rt base offset => Sys2Proof.Machine.execLwl rt base offset s
  | .lwr rt base offset => Sys2Proof.Machine.execLwr rt base offset s
  | .sb rt base offset => Sys2Proof.Machine.execSb rt base offset s
  | .sh rt base offset => Sys2Proof.Machine.execSh rt base offset s
  | .sw rt base offset => Sys2Proof.Machine.execSw rt base offset s
  | .swl rt base offset => Sys2Proof.Machine.execSwl rt base offset s
  | .swr rt base offset => Sys2Proof.Machine.execSwr rt base offset s
  | .brk code => Sys2Proof.Machine.execBrk code s
  | .syscall code => Sys2Proof.Machine.execSyscall code s
  | .eret => Sys2Proof.Machine.execEret s
  | .mfc0 rt rd => Sys2Proof.Machine.execMfc0 rt rd s
  | .mtc0 rt rd => Sys2Proof.Machine.execMtc0 rt rd s
  | .bc1f offset => Sys2Proof.Machine.execBc1f offset s
  | .bc1fl offset => Sys2Proof.Machine.execBc1fl offset s
  | .bc1t offset => Sys2Proof.Machine.execBc1t offset s
  | .bc1tl offset => Sys2Proof.Machine.execBc1tl offset s
  | .cfc1 rt fs => Sys2Proof.Machine.execCfc1 rt fs s
  | .ctc1 rt fs => Sys2Proof.Machine.execCtc1 rt fs s
  | .lwc1 ft base offset => Sys2Proof.Machine.execLwc1 ft base offset s
  | .mfc1 rt fs => Sys2Proof.Machine.execMfc1 rt fs s
  | .mtc1 rt fs => Sys2Proof.Machine.execMtc1 rt fs s
  | .swc1 ft base offset => Sys2Proof.Machine.execSwc1 ft base offset s
  | .clo rd rs => Sys2Proof.Machine.execClo rd rs s
  | .clz rd rs => Sys2Proof.Machine.execClz rd rs s
  | .madd rs rt => Sys2Proof.Machine.execMadd rs rt s
  | .maddu rs rt => Sys2Proof.Machine.execMaddu rs rt s
  | .msub rs rt => Sys2Proof.Machine.execMsub rs rt s
  | .msubu rs rt => Sys2Proof.Machine.execMsubu rs rt s
  | .max rd rs rt => Sys2Proof.Machine.execMax rd rs rt s
  | .min rd rs rt => Sys2Proof.Machine.execMin rd rs rt s
  | .movn rd rs rt => Sys2Proof.Machine.execMovn rd rs rt s
  | .movz rd rs rt => Sys2Proof.Machine.execMovz rd rs rt s
  | .ext rt rs msbd lsb => Sys2Proof.Machine.execExt rt rs msbd lsb s
  | .ins rt rs msb lsb => Sys2Proof.Machine.execIns rt rs msb lsb s
  | .seb rd rt => Sys2Proof.Machine.execSeb rd rt s
  | .seh rd rt => Sys2Proof.Machine.execSeh rd rt s
  | .bitrev rd rt => Sys2Proof.Machine.execBitrev rd rt s
  | .rotr rd rt sa => Sys2Proof.Machine.execRotr rd rt sa s
  | .rotrv rd rt rs => Sys2Proof.Machine.execRotrv rd rt rs s
  | .wsbh rd rt => Sys2Proof.Machine.execWsbh rd rt s
  | .wsbw rd rt => Sys2Proof.Machine.execWsbw rd rt s
  | .cacheIndexInvalidateI base offset => Sys2Proof.Machine.execCacheIndexInvalidateI base offset s
  | .cacheIndexUnlockI base offset => Sys2Proof.Machine.execCacheIndexUnlockI base offset s
  | .cacheHitInvalidateI base offset => Sys2Proof.Machine.execCacheHitInvalidateI base offset s
  | .cacheFillI base offset => Sys2Proof.Machine.execCacheFillI base offset s
  | .cacheFillLockI base offset => Sys2Proof.Machine.execCacheFillLockI base offset s
  | .cacheIndexWritebackInvalidateD base offset => Sys2Proof.Machine.execCacheIndexWritebackInvalidateD base offset s
  | .cacheIndexUnlockD base offset => Sys2Proof.Machine.execCacheIndexUnlockD base offset s
  | .cacheCreateDirtyD base offset => Sys2Proof.Machine.execCacheCreateDirtyD base offset s
  | .cacheHitInvalidateD base offset => Sys2Proof.Machine.execCacheHitInvalidateD base offset s
  | .cacheHitWritebackD base offset => Sys2Proof.Machine.execCacheHitWritebackD base offset s
  | .cacheHitWritebackInvalidateD base offset => Sys2Proof.Machine.execCacheHitWritebackInvalidateD base offset s
  | .cacheCreateDirtyLockD base offset => Sys2Proof.Machine.execCacheCreateDirtyLockD base offset s
  | .cacheFillD base offset => Sys2Proof.Machine.execCacheFillD base offset s
  | .cacheFillLockD base offset => Sys2Proof.Machine.execCacheFillLockD base offset s
  | .sync => Sys2Proof.Machine.execSync s
  | .ll rt base offset => Sys2Proof.Machine.execLl rt base offset s
  | .sc rt base offset => Sys2Proof.Machine.execSc rt base offset s

end Sys2Proof.Machine
end

