-- ==== Sys2Proof/Machine/Restrictions.lean ====
section
/-! DEFINITION. The restrictions that look at neighbouring instructions (R379 to R383), and the history they need. The ones
about an instruction's own fields (R380 c, e, h, i, j, k) stand in the meanings of those instructions. -/

namespace Sys2Proof.Machine

/-- `Src`: the general registers an instruction reads (R379). -/
def srcRegs : Instr → List Reg
  | .add _ rs rt | .addu _ rs rt | .sub _ rs rt | .subu _ rs rt | .and _ rs rt | .or _ rs rt | .xor _ rs rt | .nor _ rs rt
  | .slt _ rs rt | .sltu _ rs rt | .max _ rs rt | .min _ rs rt | .movn _ rs rt | .movz _ rs rt => [rs, rt]
  | .sllv _ rt rs | .srlv _ rt rs | .srav _ rt rs | .rotrv _ rt rs => [rs, rt]
  | .sll _ rt _ | .srl _ rt _ | .sra _ rt _ | .rotr _ rt _ => [rt]
  | .seb _ rt | .seh _ rt | .bitrev _ rt | .wsbh _ rt | .wsbw _ rt => [rt]
  | .addi _ rs _ | .addiu _ rs _ | .slti _ rs _ | .sltiu _ rs _ | .andi _ rs _ | .ori _ rs _ | .xori _ rs _ => [rs]
  | .lui _ _ => []
  | .clz _ rs | .clo _ rs => [rs]
  | .ext _ rs _ _ => [rs]
  | .ins rt rs _ _ => [rs, rt]
  | .mult rs rt | .multu rs rt | .div rs rt | .divu rs rt | .madd rs rt | .maddu rs rt | .msub rs rt | .msubu rs rt => [rs, rt]
  | .mfhi _ | .mflo _ => []
  | .mthi rs | .mtlo rs => [rs]
  | .lb _ base _ | .lbu _ base _ | .lh _ base _ | .lhu _ base _ | .lw _ base _ | .ll _ base _ => [base]
  | .lwl rt base _ | .lwr rt base _ => [base, rt]
  | .sb rt base _ | .sh rt base _ | .sw rt base _ | .swl rt base _ | .swr rt base _ | .sc rt base _ => [base, rt]
  | .lwc1 _ base _ | .swc1 _ base _ => [base]
  | .cacheIndexInvalidateI base _ | .cacheIndexUnlockI base _ | .cacheHitInvalidateI base _ | .cacheFillI base _
  | .cacheFillLockI base _ | .cacheIndexWritebackInvalidateD base _ | .cacheIndexUnlockD base _ | .cacheCreateDirtyD base _
  | .cacheHitInvalidateD base _ | .cacheHitWritebackD base _ | .cacheHitWritebackInvalidateD base _
  | .cacheCreateDirtyLockD base _ | .cacheFillD base _ | .cacheFillLockD base _ => [base]
  | .mfc0 _ _ | .mfc1 _ _ | .cfc1 _ _ => []
  | .mtc0 rt _ | .mtc1 rt _ | .ctc1 rt _ => [rt]
  | .beq rs rt _ | .bne rs rt _ | .beql rs rt _ | .bnel rs rt _ => [rs, rt]
  | .bgez rs _ | .bgtz rs _ | .blez rs _ | .bltz rs _ | .bgezl rs _ | .bgtzl rs _ | .blezl rs _ | .bltzl rs _ => [rs]
  | .bgezal rs _ | .bltzal rs _ | .bgezall rs _ | .bltzall rs _ => [rs]
  | .j _ | .jal _ => []
  | .jr rs => [rs]
  | .jalr _ rs => [rs]
  | .bc1f _ | .bc1fl _ | .bc1t _ | .bc1tl _ | .brk _ | .syscall _ | .eret | .sync | .nop => []

/-- The destination field, before register 0 is removed (R379). -/
def dstField : Instr → Option Reg
  | .add rd _ _ | .addu rd _ _ | .sub rd _ _ | .subu rd _ _ | .and rd _ _ | .or rd _ _ | .xor rd _ _ | .nor rd _ _
  | .slt rd _ _ | .sltu rd _ _ | .max rd _ _ | .min rd _ _ | .movn rd _ _ | .movz rd _ _ => some rd
  | .sllv rd _ _ | .srlv rd _ _ | .srav rd _ _ | .rotrv rd _ _ => some rd
  | .sll rd _ _ | .srl rd _ _ | .sra rd _ _ | .rotr rd _ _ => some rd
  | .seb rd _ | .seh rd _ | .bitrev rd _ | .wsbh rd _ | .wsbw rd _ => some rd
  | .addi rt _ _ | .addiu rt _ _ | .slti rt _ _ | .sltiu rt _ _ | .andi rt _ _ | .ori rt _ _ | .xori rt _ _ => some rt
  | .lui rt _ => some rt
  | .clz rd _ | .clo rd _ => some rd
  | .ext rt _ _ _ | .ins rt _ _ _ => some rt
  | .mult _ _ | .multu _ _ | .div _ _ | .divu _ _ | .madd _ _ | .maddu _ _ | .msub _ _ | .msubu _ _ => none
  | .mfhi rd | .mflo rd => some rd
  | .mthi _ | .mtlo _ => none
  | .lb rt _ _ | .lbu rt _ _ | .lh rt _ _ | .lhu rt _ _ | .lw rt _ _ | .ll rt _ _ | .lwl rt _ _ | .lwr rt _ _ => some rt
  | .sb _ _ _ | .sh _ _ _ | .sw _ _ _ | .swl _ _ _ | .swr _ _ _ => none
  | .sc rt _ _ => some rt
  | .lwc1 _ _ _ | .swc1 _ _ _ => none
  | .cacheIndexInvalidateI _ _ | .cacheIndexUnlockI _ _ | .cacheHitInvalidateI _ _ | .cacheFillI _ _
  | .cacheFillLockI _ _ | .cacheIndexWritebackInvalidateD _ _ | .cacheIndexUnlockD _ _ | .cacheCreateDirtyD _ _
  | .cacheHitInvalidateD _ _ | .cacheHitWritebackD _ _ | .cacheHitWritebackInvalidateD _ _
  | .cacheCreateDirtyLockD _ _ | .cacheFillD _ _ | .cacheFillLockD _ _ => none
  | .mfc0 rt _ | .mfc1 rt _ | .cfc1 rt _ => some rt
  | .mtc0 _ _ | .mtc1 _ _ | .ctc1 _ _ => none
  | .beq _ _ _ | .bne _ _ _ | .beql _ _ _ | .bnel _ _ _ => none
  | .bgez _ _ | .bgtz _ _ | .blez _ _ | .bltz _ _ | .bgezl _ _ | .bgtzl _ _ | .blezl _ _ | .bltzl _ _ => none
  | .bgezal _ _ | .bltzal _ _ | .bgezall _ _ | .bltzall _ _ => some linkReg
  | .j _ => none
  | .jal _ => some linkReg
  | .jr _ => none
  | .jalr rd _ => some rd
  | .bc1f _ | .bc1fl _ | .bc1t _ | .bc1tl _ | .brk _ | .syscall _ | .eret | .sync | .nop => none

/-- `Dst`: the general register an instruction writes; register 0 is removed (R379). -/
def dstReg (i : Instr) : Option Reg :=
  match dstField i with
  | some r => if r = 0#5 then none else some r
  | none => none

/-- The sixteen compare-and-branch instructions (R165). -/
def isCompareBranch : Instr → Bool
  | .beq _ _ _ | .beql _ _ _ | .bne _ _ _ | .bnel _ _ _ | .bgez _ _ | .bgezl _ _ | .bgtz _ _ | .bgtzl _ _ | .blez _ _
  | .blezl _ _ | .bltz _ _ | .bltzl _ _ | .bgezal _ _ | .bgezall _ _ | .bltzal _ _ | .bltzall _ _ => true
  | _ => false

/-- The four FPU condition branches (R241 to R244). -/
def isFpuBranch : Instr → Bool
  | .bc1f _ | .bc1fl _ | .bc1t _ | .bc1tl _ => true
  | _ => false

/-- `j jal jr jalr`. -/
def isJump : Instr → Bool
  | .j _ | .jal _ | .jr _ | .jalr _ _ => true
  | _ => false

/-- The four link branches and `jal` (R380 d). -/
def writesLink : Instr → Bool
  | .bgezal _ _ | .bgezall _ _ | .bltzal _ _ | .bltzall _ _ | .jal _ => true
  | _ => false

/-- `mtc0`. -/
def isMtc0 : Instr → Bool
  | .mtc0 _ _ => true
  | _ => false

/-- `ctc1`. -/
def isCtc1 : Instr → Bool
  | .ctc1 _ _ => true
  | _ => false

/-- "Refers to FCR31" (R382): `cfc1` of 31, or a branch on the condition. -/
def refersToFcr31 : Instr → Bool
  | .cfc1 _ fs => fs == 31#5
  | i => isFpuBranch i

/-- R380 a, a', b, d, f, l: what may not stand in the delay slot it stands in. -/
def slotRestriction (i : Instr) (s : State) : Option Restriction :=
  if !s.inDs then none
  else if isCompareBranch i || isFpuBranch i then some .a
  else if isJump i then some .a'
  else if i == .eret then some .b
  else match s.owner with
    | some o =>
      if writesLink o && dstReg i == some linkReg then some .d
      else if isFpuBranch o && isCtc1 i then some .l
      else match o with
        | .jalr rd rs => if dstReg i ≠ none ∧ (dstReg i = some rd ∨ dstReg i = some rs) then some .f else none
        | _ => none
    | none => none

/-- R380 g, R381, R382: what may not follow the one or two instructions executed before it. -/
def historyRestriction (i : Instr) (s : State) : Option Restriction :=
  if i == .eret && (s.h1.any isMtc0 || s.h2.any isMtc0) then some .g
  else match s.h1 with
    | some (.cfc1 rt _) => if rt ≠ 0#5 ∧ (rt ∈ srcRegs i ∨ dstReg i = some rt) then some .m else none
    | some (.ctc1 _ _) =>
      if refersToFcr31 i then some .n else if isCtc1 i && s.h1FpTrap then some .o else none
    | _ => none

/-- The restriction that the instruction breaks where it stands, if any: looked at before any effect (R380). -/
def State.restrictionAt (s : State) (i : Instr) : Option Restriction :=
  match slotRestriction i s with
  | some r => some r
  | none => historyRestriction i s

/-- The instruction is a `ctc1` that raises FloatingPoint in this state (R379, R246). -/
def State.ctc1Traps (s : State) : Instr → Bool
  | .ctc1 rt fs => fs == 31#5 && s.cop1Usable == some true && fpTrapPending (s.x rt)
  | _ => false

/-- The history after an instruction of state `before` has led to this state (R379). -/
def State.recordInstr (s before : State) (i : Instr) : State :=
  { s with owner := if s.inDs then some i else none, h1 := some i, h2 := before.h1, h1FpTrap := before.ctc1Traps i }

/-- The history after a step in which no instruction was executed: a fetch that raised, a reserved word (DESIGN CHOICE, log entry 20). -/
def State.recordNone (s before : State) : State :=
  { s with owner := none, h1 := none, h2 := before.h1, h1FpTrap := false }

end Sys2Proof.Machine
end

