-- ==== Sys2Proof/Machine/Fetch.lean ====
section
/-! DEFINITION. What a step does before its instruction runs (R25, R57, R67): the buffers drain, the fetch is checked, and the
word is read through the instruction cache. -/

namespace Sys2Proof.Machine

/-- The word that a fetch at `a` returns (R57). -/
def State.fetchWord (s : State) (a : Word) : Word :=
  wordOfBytes (s.fetchByte a.toNat) (s.fetchByte (a.toNat + 1)) (s.fetchByte (a.toNat + 2)) (s.fetchByte (a.toNat + 3))

/-- A fetch that raises: the exception is taken and no instruction has executed. -/
def State.fetchRaise (s : State) (e : Exc) : Result := .next ((s.trapEntry e).recordNone s)

/-- The checks of a fetch at `pc`, in the order of R25 and R56; `go` follows when they pass. -/
def State.fetchChecked (s : State) (go : Result) : Result :=
  if s.pc.toNat % 4 ≠ 0 then s.fetchRaise (.addressError s.pc .fetch)
  else s.withMode fun m =>
    if !s.addrOK s.pc m .fetch then s.fetchRaise (.addressError s.pc .fetch)
    else if s.busErr s.pc.toNat .fetch then s.fetchRaise (.busError s.pc .fetch .instruction)
    else go

/-- The word fetched at `pc`. -/
def State.fetchedWord (s : State) : Word := s.fetchWord s.pc

/-- The state after the fetch at `pc`: a cached fetch that misses has filled a line (R70). -/
def State.fetched (s : State) : State := s.touchI s.pc.toNat

/-- The run has ended: the step would begin at `HaltPC` outside a delay slot (R365). -/
def State.halted (s : State) : Bool := s.platform.haltPC == some s.pc && !s.inDs

/-- What a word without an instruction does: ReservedInstruction for a reserved cell, a refusal otherwise (R100). -/
def State.runRejected (s : State) : DecodeReject → Result
  | .reserved => .next ((s.trapEntry .reservedInstruction).recordNone s)
  | .namedOnly => .refused .namedOnlyEncoding
  | .blankCell => .refused .blankEncoding
  | .nonzeroField => .refused .nonzeroFieldEncoding

/-- The history written after an instruction that has a next state. One that its own exception abandoned counts as executed, as
R379 has it for a `ctc1` that raised FloatingPoint; for the others R379 does not say (DESIGN CHOICE, log entry 20). -/
def recordResult (before : State) (i : Instr) : Result → Result
  | .next t => .next (t.recordInstr before i)
  | .fault f => .fault f
  | .refused r => .refused r

/-- The four bytes of `w` written to main memory at `a`. -/
def putWordInMemory (m : List Host.Cell) (a : Nat) (w : Word) : List Host.Cell :=
  Memory.writeCells m [(a, byteOf w 0), (a + 1, byteOf w 1), (a + 2, byteOf w 2), (a + 3, byteOf w 3)]

/-- A write buffer without the bytes of the word at `a`. -/
def dropWordCells (q : List BufferedWrite) (a : Nat) : List BufferedWrite :=
  q.map fun w => w.filter fun c => decide (c.1 < a) || decide (a + 4 ≤ c.1)

/-- The word `w` placed where the next fetch reads: in main memory at `pc`; an instruction-cache line that holds `pc` is
dropped, and so are bytes of that word still waiting in a write buffer. -/
def State.placeAtPc (s : State) (w : Word) : State :=
  { s with
    mem := putWordInMemory s.mem s.pc.toNat w
    writebackBuf := dropWordCells s.writebackBuf s.pc.toNat
    nonCacheBuf := dropWordCells s.nonCacheBuf s.pc.toNat
    icache := match s.iHit s.pc.toNat with
      | some way => Cache.put s.icache (s.platform.setOf .instruction s.pc.toNat) ((s.iset s.pc.toNat).invalidate way)
      | none => s.icache }

end Sys2Proof.Machine
end

