-- ==== Sys2Proof/Machine/Step.lean ====
section
/-! DEFINITION. One step of the processor (R25), and the placing of a word where the next step fetches. -/

namespace Sys2Proof.Machine

/-- The instruction `i` at `pc`: refused if it breaks a restriction where it stands (R380), else executed, and recorded in the
history (R379). -/
def State.runInstr (s : State) (i : Instr) : Result :=
  match s.restrictionAt i with
  | some r => .refused (.restriction r)
  | none => recordResult s i (exec i s)

/-- What the fetched word decides. -/
def State.runDecoded (s : State) : Decoded → Result
  | .instr i => s.runInstr i
  | .reject r => s.runRejected r

/-- One step (R25): the run is over at `HaltPC` (R365); else something may leave the write buffers (R64), the fetch is checked
(R56, R57), and the word it returns is decoded and executed. -/
def step (s : State) : Host.Outcome State Fault Refusal :=
  if s.halted then .fault .haltReached
  else s.drainSome.fetchChecked (s.drainSome.fetched.runDecoded (decode s.drainSome.fetchedWord))

/-- `s` with an instruction of `nbits` bits `w` where `step` fetches next (log entry 29). -/
def State.withFetchWord (s : State) (nbits w : Nat) : State := s.placeAtPc (BitVec.ofNat 32 (w % 2 ^ nbits))

end Sys2Proof.Machine
end

