-- ==== Sys2Proof/Machine/Launch.lean ====
section
/-! DEFINITION. The launch state of R373: what a run is a function of when it starts from a launch and not from hardware reset
(State.reset, R371). Each field has the default of the spec where the spec gives one; a parameter that R7 or R373 leaves open
without a default is a field without one. -/

namespace Sys2Proof.Machine

/-- Status at launch by default (R373): EXL = ERL = 0, KSU = 00, BEV = 0, IE = 0, CU0 = CU1 = 1. -/
def launchStatus : Word := 0x30000000#32

/-- The `L` and `P` items of R373 and the parameters of R7. Where R373 gives a register no value (a partial map, R44) it has the
value of log entry 7. -/
structure Launch where
  /-- `L.mem`: the bytes from each address on; where two of these overlap the later one holds. -/
  image : List (Nat × List Byte)
  /-- `L.pc`. -/
  pc : Word
  /-- `L.HaltPC`. -/
  haltPC : Word
  /-- `L.fcr0`, a parameter without a default. -/
  fcr0 : Word
  /-- `L.llbit`, a free input. -/
  llbit : Bool
  /-- `LINE` (R7, R291) = 2 ^ lineBits bytes; open, so without a default. That it is a power of two is DESIGN CHOICE, log
  entry 10. -/
  lineBits : Nat
  /-- `ISETS` (R7, R291) = 2 ^ iSetBits; open, so without a default (log entry 10). -/
  iSetBits : Nat
  /-- `DSETS` (R7, R291) = 2 ^ dSetBits; open, so without a default (log entry 10). -/
  dSetBits : Nat
  /-- `P.AddrOK`, `P.BusErr` and `Cacheable` (R7, R373), if the launch gives them; `none` is the default, `Launch.domainRegions`. -/
  regions : Option (List Region) := none
  /-- `ExcCode(E)` and `Vector(E)` (R7); by default those of R339 and R342 (PRESUMED, log entries 2 and 3). -/
  handlers : Handlers := Handlers.general
  /-- `CopUsable(0, state)` (R7); by default that of R355 (PRESUMED, log entry 25). -/
  cop0 : CopRule := CopRule.general0
  /-- `CopUsable(1, state)` (R7); by default that of R355 (PRESUMED, log entry 25). -/
  cop1 : CopRule := CopRule.general1
  /-- R34's choice for the CP0 registers outside D24's lists; by default D24's, the access is refused (log entry 17). -/
  cp0Storage : Bool := false
  /-- `L.x`. -/
  gpr : Vector Word 32 := Vector.replicate 32 0#32
  /-- `L.hi`. -/
  hi : Word := 0#32
  /-- `L.lo`. -/
  lo : Word := 0#32
  /-- `L.f`. -/
  fpr : Vector Word 32 := Vector.replicate 32 0#32
  /-- `L.fcr31`. -/
  fcr31 : Word := 0#32
  /-- `L.cp0`: Status. -/
  status : Word := launchStatus
  /-- `L.cp0`: Cause. -/
  cause : Word := 0#32
  /-- `L.cp0`: EPC. -/
  epc : Word := 0#32
  /-- `L.cp0`: ErrorEPC. -/
  errorEpc : Word := 0#32
  /-- `L.cp0`: BadVAddr. -/
  badVAddr : Word := 0#32
  /-- The instruction cache at launch, a parameter (R44, R372); by default nothing in it (DESIGN CHOICE, log entry 11). -/
  icache : List (Nat × CacheSet) := []
  /-- The data cache at launch, a parameter (R44, R372); by default nothing in it (DESIGN CHOICE, log entry 11). -/
  dcache : List (Nat × CacheSet) := []
deriving DecidableEq, Repr

/-- The bytes of `L.mem` with their addresses. -/
def Launch.cells (l : Launch) : List Host.Cell := l.image.flatMap fun part => lineCells part.1 part.2

/-- The address is in the domain of `L.mem`. -/
def Launch.inDomain (l : Launch) (a : Nat) : Bool :=
  l.image.any fun part => decide (part.1 ≤ a) && decide (a < part.1 + part.2.length)

/-- `P.AddrOK` and `P.BusErr` by default (R373): the domain of `L.mem` is permitted to every mode and every kind of access, and
nothing else is; no bus errors. That it is cacheable by default is the model's (DESIGN CHOICE, log entry 9). -/
def Launch.domainRegions (l : Launch) : List Region :=
  l.image.map fun part =>
    { base := part.1, size := part.2.length, modes := [.user, .supervisor, .kernel],
      kinds := [.fetch, .load, .store, .cacheop], cached := true, busErrors := [] }

/-- The parameters of R7 and R373 that stand in `platform`: what the launch gives, and the defaults for the rest. -/
def Launch.platform (l : Launch) : Platform where
  regions := l.regions.getD l.domainRegions
  lineBits := l.lineBits
  iSetBits := l.iSetBits
  dSetBits := l.dSetBits
  handlers := l.handlers
  cop0 := l.cop0
  cop1 := l.cop1
  cp0Storage := l.cp0Storage
  haltPC := some l.haltPC

/-- The CP0 registers at launch. -/
def Launch.cp0Regs (l : Launch) : Vector Word 32 :=
  ((((State.reset.cp0Regs.set 12 l.status).set 13 l.cause).set 14 l.epc).set 30 l.errorEpc).set 8 l.badVAddr

/-- The launch state (R373): the write buffers are empty (R44), and so is the history (`P.History`); every parameter of R7 is the
launch's. -/
def State.launch (l : Launch) : State :=
  { State.reset with
    gpr := l.gpr
    hi := l.hi
    lo := l.lo
    pc := l.pc
    npc := l.pc + 4#32
    cp0Regs := l.cp0Regs
    fpr := l.fpr
    fcr0 := l.fcr0
    fcr31 := l.fcr31
    llbit := l.llbit
    icache := l.icache
    dcache := l.dcache
    mem := Memory.writeCells [] l.cells
    platform := l.platform }

end Sys2Proof.Machine
end

