-- ==== Sys2Proof/Safety.lean ====
section
/-! DEFINITION. The terms in which statements speak of states: what a step leaves alone, and what holds of every state the
machine can be in. -/

namespace Sys2Proof.Machine

/-! ### What a step leaves alone -/

/-- The ordinary advance to the next instruction (R25). -/
def Advanced (s t : State) : Prop := t.pc = s.npc ∧ t.npc = s.npc + 4#32 ∧ t.inDs = false

/-- Every byte reads as before, for a load and for a fetch. -/
def SameMemory (s t : State) : Prop := ∀ a, t.dataByte a = s.dataByte a ∧ t.fetchByte a = s.fetchByte a

/-- Every byte reads as before for a load. -/
def SameData (s t : State) : Prop := ∀ a, t.dataByte a = s.dataByte a

/-- No general register changes but `r`. -/
def OtherRegsSame (s t : State) (r : Reg) : Prop := ∀ q, q ≠ r → t.x q = s.x q

/-- Nothing but the general registers and the program counter changes. -/
def OnlyGprAndPc (s t : State) : Prop :=
  t = { s with gpr := t.gpr, pc := t.pc, npc := t.npc, inDs := t.inDs }

/-- Nothing but the program counter changes. -/
def OnlyPc (s t : State) : Prop := t = { s with pc := t.pc, npc := t.npc, inDs := t.inDs }

/-- The whole effect of an instruction that writes `v` to `x[r]` and nothing else (R21, R110). -/
def Writes (s t : State) (r : Reg) (v : Word) : Prop :=
  t.x r = (if r = 0#5 then 0#32 else v) ∧ OtherRegsSame s t r ∧ OnlyGprAndPc s t ∧ SameMemory s t ∧ Advanced s t

/-- The whole effect of an instruction that writes HI and LO and nothing else (R150). -/
def WritesHiLo (s t : State) (hi lo : Word) : Prop :=
  t.hi = hi ∧ t.lo = lo ∧ t = { s with hi := t.hi, lo := t.lo, pc := t.pc, npc := t.npc, inDs := t.inDs } ∧
  SameMemory s t ∧ Advanced s t

/-- The whole effect of taking exception `e` at the instruction of `s` (R340, R341): the CP0 registers of TrapEntry, the
program counter at the vector, and nothing else. -/
def Takes (s t : State) (e : Exc) : Prop :=
  t = { s with cp0Regs := (s.trapCp0 e).cp0Regs, pc := s.vectorOf e, npc := s.vectorOf e + 4#32, inDs := false }

/-- The row of R339 that an exception belongs to is `h`. -/
def HandledBy (p : Handlers) (e : Exc) (h : Handler) : Prop :=
  (e = .integerOverflow ∧ h = p.integerOverflow) ∨
  (∃ v k, e = .addressError v k ∧ (k = .fetch ∨ k = .load ∨ k = .cacheop) ∧ h = p.addressErrorLoad) ∨
  (∃ v, e = .addressError v .store ∧ h = p.addressErrorStore) ∨
  (∃ v k, e = .busError v k .instruction ∧ h = p.busErrorFetch) ∨
  (∃ v k, e = .busError v k .data ∧ h = p.busErrorData) ∨
  (∃ c, e = .systemCall c ∧ h = p.systemCall) ∨
  (∃ c, e = .breakpoint c ∧ h = p.breakpoint) ∨
  (e = .reservedInstruction ∧ h = p.reservedInstruction) ∨
  (∃ z, e = .coprocessorUnusable z ∧ h = p.coprocessorUnusable) ∨
  (e = .floatingPoint ∧ h = p.floatingPoint)

/-- `c` is the number that R339 gives the exception by default. -/
def GeneralCode (e : Exc) (c : BitVec 5) : Prop :=
  (e = .integerOverflow → c = 12#5) ∧
  (∀ v, (e = .addressError v .fetch ∨ e = .addressError v .load ∨ e = .addressError v .cacheop) → c = 4#5) ∧
  (∀ v, e = .addressError v .store → c = 5#5) ∧
  (∀ v k, e = .busError v k .instruction → c = 6#5) ∧
  (∀ v k, e = .busError v k .data → c = 7#5) ∧
  (∀ n, e = .systemCall n → c = 8#5) ∧
  (∀ n, e = .breakpoint n → c = 9#5) ∧
  (e = .reservedInstruction → c = 10#5) ∧
  (∀ z, e = .coprocessorUnusable z → c = 11#5) ∧
  (e = .floatingPoint → c = 15#5)

/-- The whole effect of a branch that is not likely (R165): the delay slot executes next, and after it the target or the
instruction after the slot. -/
def Branches (s t : State) (taken : Prop) (target : Word) : Prop :=
  OnlyPc s t ∧ SameMemory s t ∧ t.pc = s.npc ∧ t.inDs = true ∧
  (taken → t.npc = target) ∧ (¬ taken → t.npc = s.npc + 4#32)

/-- The program counter after a Likely branch (R165): taken, as another branch; not taken, the slot is passed over. -/
def LikelyPc (s t : State) (taken : Prop) (target : Word) : Prop :=
  (taken → t.pc = s.npc ∧ t.npc = target ∧ t.inDs = true) ∧
  (¬ taken → t.pc = s.npc + 4#32 ∧ t.npc = s.npc + 8#32 ∧ t.inDs = false)

/-- `x[r]` receives `cur + 8`; no other register, and nothing but the program counter besides, changes (R165). -/
def Links (s t : State) (r : Reg) : Prop :=
  t.x r = (if r = 0#5 then 0#32 else s.pc + 8#32) ∧ OtherRegsSame s t r ∧ OnlyGprAndPc s t ∧ SameMemory s t

/-- The target of a branch with this offset (R165): the address of the delay slot plus four times the signed offset. -/
def targetOf (s : State) (offset : BitVec 16) : Word := BitVec.ofInt 32 (s.pc.toNat + 4 + 4 * offset.toInt)

/-- The line `l`, whose first byte is at `first`, has entered the cache writeback buffer as one write if it was dirty, and
nothing else has (R291, R297, R301). -/
def WrittenBack (s t : State) (first : Nat) (l : Line) : Prop :=
  t.writebackBuf = if l.dirty then s.writebackBuf ++ [lineCells first l.data] else s.writebackBuf

/-- What way `w` of the data-cache set of `a` held makes room for another line: it is written back if it was valid and dirty
(R291), and nothing else enters the writeback buffer. -/
def Displaces (s t : State) (a : Nat) (w : Way) : Prop :=
  (((s.dset a).line w).valid = true →
    WrittenBack s t (s.platform.lineAddr .data (s.platform.setOf .data a) ((s.dset a).line w).tag) ((s.dset a).line w)) ∧
  (((s.dset a).line w).valid = false → t.writebackBuf = s.writebackBuf)

/-- The rest of a set after a new line has been placed in way `v` (R295, R296, R299): the other way is as before; the LRU bit
points to it unless the set was locked; the Lock bit is set if `lockIt`. -/
def Placed (c c' : CacheSet) (v : Way) (lockIt : Bool) : Prop :=
  c'.line v.other = c.line v.other ∧ c'.lru = (if c.lock then c.lru else v.other) ∧ c'.lock = (c.lock || lockIt)

/-- The line of `a` has been filled into the data cache (R70, R291, R304): into the way the LRU bit points to, whose line is
displaced; clean, with the bytes beneath the cache; no other set changes. -/
def FillsD (s t : State) (a : Nat) (lockIt : Bool) : Prop :=
  (t.dset a).line (s.dset a).lru =
    { valid := true, dirty := false, tag := s.platform.tagOf .data a, data := s.busLine a } ∧
  Placed (s.dset a) (t.dset a) (s.dset a).lru lockIt ∧ Displaces s t a (s.dset a).lru ∧
  ∀ b, s.platform.setOf .data b ≠ s.platform.setOf .data a → t.dset b = s.dset b

/-- The line of `a` has been filled into the instruction cache (R70, R295): into the way the LRU bit points to, with the bytes
of main memory; no other set changes. -/
def FillsI (s t : State) (a : Nat) (lockIt : Bool) : Prop :=
  (t.iset a).line (s.iset a).lru =
    { valid := true, dirty := false, tag := s.platform.tagOf .instruction a, data := s.memLine a } ∧
  Placed (s.iset a) (t.iset a) (s.iset a).lru lockIt ∧
  ∀ b, s.platform.setOf .instruction b ≠ s.platform.setOf .instruction a → t.iset b = s.iset b

/-- What a load at `a` does to the data cache (R70; DEDUCED, log entry 12): one at a cache address that misses fills the line,
and any other changes nothing in it, the LRU bit included. -/
def LoadsThrough (s t : State) (a : Nat) : Prop :=
  (s.platform.cacheable a = true → s.dHit a = none → FillsD s t a false) ∧
  (s.platform.cacheable a = false ∨ (s.dHit a).isSome = true → t.dcache = s.dcache ∧ t.writebackBuf = s.writebackBuf)

/-- What a fetch at `a` does to the instruction cache (R70; DEDUCED, log entry 12): one at a cache address that misses fills the
line, and any other changes nothing. -/
def FetchesThrough (s t : State) (a : Nat) : Prop :=
  (s.platform.cacheable a = true → s.iHit a = none → FillsI s t a false) ∧
  (s.platform.cacheable a = false ∨ (s.iHit a).isSome = true → t = s)

/-- What a store within the line of the cache address `a` does to the data cache (R70; DEDUCED, log entry 12): the line is
present and dirty afterwards, in the way that held it, with LRU and Lock bit and the writeback buffer as before, or else in the
way the LRU bit points to, as a fill places it; no other set changes. -/
def Dirties (s t : State) (a : Nat) : Prop :=
  (∀ w, s.dHit a = some w → t.dHit a = some w ∧ ((t.dset a).line w).dirty = true ∧
    (t.dset a).line w.other = (s.dset a).line w.other ∧ (t.dset a).lru = (s.dset a).lru ∧
    (t.dset a).lock = (s.dset a).lock ∧ t.writebackBuf = s.writebackBuf) ∧
  (s.dHit a = none → t.dHit a = some (s.dset a).lru ∧ ((t.dset a).line (s.dset a).lru).dirty = true ∧
    Placed (s.dset a) (t.dset a) (s.dset a).lru false ∧ Displaces s t a (s.dset a).lru) ∧
  ∀ b, s.platform.setOf .data b ≠ s.platform.setOf .data a → t.dset b = s.dset b

/-- Where a store of `bytes` at `a` goes: at cache addresses into the data cache, whose line it dirties (R70; bytes that leave
the line of the first one are there only where LINE is less than 4, log entry 10), and at others into the non-cache write
buffer, as one write (R61, R69). -/
def StoresThrough (s t : State) (a : Nat) (bytes : List Byte) : Prop :=
  ((∀ i, i < bytes.length → s.platform.cacheable (a + i) = true) → t.nonCacheBuf = s.nonCacheBuf ∧
    ((∀ i, i < bytes.length → s.platform.lineOf (a + i) = s.platform.lineOf a) → Dirties s t a)) ∧
  ((∀ i, i < bytes.length → s.platform.cacheable (a + i) = false) →
    t.dcache = s.dcache ∧ t.writebackBuf = s.writebackBuf ∧ t.nonCacheBuf = s.nonCacheBuf ++ [lineCells a bytes])

/-- The whole effect of a load of `v` at `a` to `x[rt]` (R200): the data cache and its writeback buffer change as R70 says,
every byte reads as before. -/
def Loads (s t : State) (a : Nat) (rt : Reg) (v : Word) : Prop :=
  t.x rt = (if rt = 0#5 then 0#32 else v) ∧ OtherRegsSame s t rt ∧
  t = { s with gpr := t.gpr, dcache := t.dcache, writebackBuf := t.writebackBuf, pc := t.pc, npc := t.npc, inDs := t.inDs } ∧
  LoadsThrough s t a ∧ SameMemory s t ∧ Advanced s t

/-- The bytes stored at `a`, `a + 1`, .. are `bytes`, and every other byte reads as before for a load. -/
def Stored (s t : State) (a : Nat) (bytes : List Byte) : Prop :=
  (∀ i, i < bytes.length → t.dataByte (a + i) = bytes.getD i 0#8) ∧
  (∀ b, b < a ∨ a + bytes.length ≤ b → t.dataByte b = s.dataByte b)

/-- The whole effect of a store of `bytes` at `a` (R200): the data cache and the write buffers change; a load sees exactly the
bytes stored, a fetch sees none of them (R67). -/
def Stores (s t : State) (a : Nat) (bytes : List Byte) : Prop :=
  Stored s t a bytes ∧ (∀ b, t.fetchByte b = s.fetchByte b) ∧
  t = { s with dcache := t.dcache, writebackBuf := t.writebackBuf, nonCacheBuf := t.nonCacheBuf,
               pc := t.pc, npc := t.npc, inDs := t.inDs } ∧
  StoresThrough s t a bytes ∧ Advanced s t

/-- Nothing but the instruction cache and the program counter changes, and of the cache only the set of `a`. -/
def OnlyIset (s t : State) (a : Nat) : Prop :=
  t = { s with icache := t.icache, pc := t.pc, npc := t.npc, inDs := t.inDs } ∧ Advanced s t ∧
  ∀ b, s.platform.setOf .instruction b ≠ s.platform.setOf .instruction a → t.iset b = s.iset b

/-- Nothing but the data cache, its writeback buffer and the program counter changes, and of the cache only the set of `a`. -/
def OnlyDset (s t : State) (a : Nat) : Prop :=
  t = { s with dcache := t.dcache, writebackBuf := t.writebackBuf, pc := t.pc, npc := t.npc, inDs := t.inDs } ∧ Advanced s t ∧
  ∀ b, s.platform.setOf .data b ≠ s.platform.setOf .data a → t.dset b = s.dset b

/-! ### When an access is performed (R55, R56) -/

/-- Every check of R56 passes for a load at `a` in the present mode. -/
def LoadOK (s : State) (a : Word) (align : Nat) : Prop :=
  a.toNat % align = 0 ∧ ∃ m, s.mode = some m ∧ s.addrOK a m .load = true ∧ s.busErr a.toNat .load = false

/-- Every check of R56 passes for a store at `a` in the present mode. -/
def StoreOK (s : State) (a : Word) (align : Nat) : Prop :=
  a.toNat % align = 0 ∧ ∃ m, s.mode = some m ∧ s.addrOK a m .store = true

/-- The check of R290 passes for a cache function at `a` in the present mode. -/
def CacheOK (s : State) (a : Word) : Prop := ∃ m, s.mode = some m ∧ s.addrOK a m .cacheop = true

/-- Coprocessor 0 is usable (R225, R355). -/
def Cop0OK (s : State) : Prop := s.cop0Usable = some true

/-- Coprocessor 1 is usable (R240, R355). -/
def Cop1OK (s : State) : Prop := s.cop1Usable = some true

/-- Status.KSU is 11 and neither EXL nor ERL is set: no privilege mode (R355). -/
def ReservedMode (s : State) : Prop := s.exl = false ∧ s.erl = false ∧ s.ksu = 3#2

/-- The CP0 register can be read by `mfc0`: one of D24's five, or any but Count and Compare where the launch makes the others
storage (R34, R229, R360). -/
def Cp0Readable (s : State) (r : Reg) : Prop :=
  r = badVAddrReg ∨ r = statusReg ∨ r = causeReg ∨ r = epcReg ∨ r = errorEpcReg ∨
  (s.platform.cp0Storage = true ∧ r ≠ countReg ∧ r ≠ compareReg)

/-- The CP0 register can be written by `mtc0`: one of D24's four, or any but Count and Compare where the launch makes the others
storage (R34, R230, R360). -/
def Cp0Writable (s : State) (r : Reg) : Prop :=
  r = statusReg ∨ r = causeReg ∨ r = epcReg ∨ r = errorEpcReg ∨
  (s.platform.cp0Storage = true ∧ r ≠ countReg ∧ r ≠ compareReg)

/-- No bus error at the line a Fill would read (R295). -/
def FillOK (s : State) (a : Nat) : Prop := s.busErr (s.platform.lineOf a) .cacheop = false

/-- Every check of R56 passes for the fetch at `pc`, and the run is not over (R365). -/
def FetchOK (s : State) : Prop :=
  s.halted = false ∧ s.pc.toNat % 4 = 0 ∧
  ∃ m, s.mode = some m ∧ s.addrOK s.pc m .fetch = true ∧ s.busErr s.pc.toNat .fetch = false

/-- The loads and stores of R60: kind, alignment (R55), base register and offset. -/
def dataAccess : Instr → Option (Access × Nat × Reg × BitVec 16)
  | .lb _ b o | .lbu _ b o => some (.load, 1, b, o)
  | .lwl _ b o | .lwr _ b o => some (.load, 1, b, o)
  | .lh _ b o | .lhu _ b o => some (.load, 2, b, o)
  | .lw _ b o | .ll _ b o | .lwc1 _ b o => some (.load, 4, b, o)
  | .sb _ b o => some (.store, 1, b, o)
  | .swl _ b o | .swr _ b o => some (.store, 1, b, o)
  | .sh _ b o => some (.store, 2, b, o)
  | .sw _ b o | .sc _ b o | .swc1 _ b o => some (.store, 4, b, o)
  | _ => none

/-- The fourteen cache functions: base register and offset (R290). -/
def cacheAccess : Instr → Option (Reg × BitVec 16)
  | .cacheIndexInvalidateI b o | .cacheIndexUnlockI b o | .cacheHitInvalidateI b o | .cacheFillI b o | .cacheFillLockI b o
  | .cacheIndexWritebackInvalidateD b o | .cacheIndexUnlockD b o | .cacheCreateDirtyD b o | .cacheHitInvalidateD b o
  | .cacheHitWritebackD b o | .cacheHitWritebackInvalidateD b o | .cacheCreateDirtyLockD b o | .cacheFillD b o
  | .cacheFillLockD b o => some (b, o)
  | _ => none

/-- The instructions of coprocessor 1 (R240). -/
def usesCop1 : Instr → Bool
  | .bc1f _ | .bc1fl _ | .bc1t _ | .bc1tl _ | .cfc1 _ _ | .ctc1 _ _ | .lwc1 _ _ _ | .mfc1 _ _ | .mtc1 _ _ | .swc1 _ _ _ => true
  | _ => false

/-- The instructions of coprocessor 0 (R225). -/
def usesCop0 : Instr → Bool
  | .mfc0 _ _ | .mtc0 _ _ | .eret => true
  | _ => false

/-- The instructions after which a load can see another byte than before: the stores, and the `cache` functions that R71 calls
not transparent. -/
def changesData : Instr → Bool
  | .sb _ _ _ | .sh _ _ _ | .sw _ _ _ | .swl _ _ _ | .swr _ _ _ | .sc _ _ _ | .swc1 _ _ _ | .cacheCreateDirtyD _ _
  | .cacheCreateDirtyLockD _ _ | .cacheHitInvalidateD _ _ => true
  | _ => false

/-- The instructions that write HI or LO (R30). -/
def writesHiLo : Instr → Bool
  | .mult _ _ | .multu _ _ | .div _ _ | .divu _ _ | .madd _ _ | .maddu _ _ | .msub _ _ | .msubu _ _ | .mthi _ | .mtlo _ => true
  | _ => false

/-- The restrictions of R380 to R382 that look at neighbouring instructions, as one condition on the state and the
instruction about to execute. -/
def Violates (s : State) (i : Instr) : Prop :=
  (s.inDs = true ∧ (isCompareBranch i = true ∨ isFpuBranch i = true ∨ isJump i = true ∨ i = .eret)) ∨
  (s.inDs = true ∧ ∃ o, s.owner = some o ∧
    ((writesLink o = true ∧ dstReg i = some linkReg) ∨ (isFpuBranch o = true ∧ isCtc1 i = true) ∨
      ∃ rd rs, o = .jalr rd rs ∧ (dstReg i = some rd ∨ dstReg i = some rs))) ∨
  (i = .eret ∧ ∃ rt rd, s.h1 = some (.mtc0 rt rd) ∨ s.h2 = some (.mtc0 rt rd)) ∨
  (∃ rt fs, s.h1 = some (.cfc1 rt fs) ∧ rt ≠ 0#5 ∧ (rt ∈ srcRegs i ∨ dstReg i = some rt)) ∨
  (∃ rt fs, s.h1 = some (.ctc1 rt fs) ∧ (refersToFcr31 i = true ∨ (isCtc1 i = true ∧ s.h1FpTrap = true)))

/-- The row of R94 an instruction has: its fixed bits, and that its word decodes to it (R93; the word of `sll r0, r0, 0` is
`nop`'s, R118). -/
def HasRow (i : Instr) (mask bits : Word) : Prop :=
  encode i &&& mask = bits ∧ (i.isSpelledNop = false → decode (encode i) = .instr i)

/-- The instruction is a `ctc1` that raises FloatingPoint in `s` (R246, R379): it writes FCR31, coprocessor 1 is usable, and of
the word written a Cause bit and its Enable bit are both 1 or the Unimplemented Cause bit is (R37; log entry 24). -/
def RaisesFloat (s : State) (i : Instr) : Prop :=
  ∃ rt, i = .ctc1 rt 31#5 ∧ Cop1OK s ∧
    ((s.x rt).getLsbD 17 = true ∨ ∃ b, b < 5 ∧ (s.x rt).getLsbD (12 + b) = true ∧ (s.x rt).getLsbD (7 + b) = true)

/-- The hazard history of R379 after a step that executed `i` in `s`: `t` is `u`, what `i` led to, with `i` as the last
instruction, the one before it next, `i` as the owner exactly when a delay slot executes next, and the mark of a `ctc1` that
raised FloatingPoint. -/
def Recorded (s u t : State) (i : Instr) : Prop :=
  t.h1 = some i ∧ t.h2 = s.h1 ∧ (t.inDs = true → t.owner = some i) ∧ (t.inDs = false → t.owner = none) ∧
  (t.h1FpTrap = true ↔ RaisesFloat s i) ∧
  t = { u with owner := t.owner, h1 := t.h1, h2 := t.h2, h1FpTrap := t.h1FpTrap }

/-- The hazard history after a step of `s` that executed no instruction (log entry 20). -/
def RecordedNone (s u t : State) : Prop :=
  t = { u with owner := none, h1 := none, h2 := s.h1, h1FpTrap := false }

/-- Each instruction of the list has the row beside it: mask and match. -/
def HasRows (rows : List (Instr × Word × Word)) : Prop := ∀ r ∈ rows, HasRow r.1 r.2.1 r.2.2

/-! ### Words that are no instruction (R96, R97, R98, R306) -/

/-- A cell of R97 or R306: the code tables print `*` or "—" there. -/
def ReservedCell (w : Word) : Prop :=
  opF w ∈ [0x1a#6, 0x1d#6, 0x1e#6, 0x27#6, 0x2c#6, 0x2d#6, 0x33#6, 0x3b#6] ∨
  (opF w = 0x00#6 ∧ (funcF w ∈ [0x0e#6, 0x14#6, 0x15#6, 0x1e#6, 0x1f#6, 0x28#6, 0x29#6] ∨ 0x30 ≤ (funcF w).toNat)) ∨
  (opF w = 0x01#6 ∧ (4 ≤ (rtF w).toNat ∧ (rtF w).toNat ≤ 15 ∨ 20 ≤ (rtF w).toNat)) ∨
  (opF w = 0x10#6 ∧ 16 ≤ (rsF w).toNat ∧ funcF w ∈ [0x00#6, 0x01#6, 0x02#6, 0x08#6, 0x10#6]) ∨
  (opF w = 0x2f#6 ∧ (rtF w).toNat ∈ [0, 1, 2, 3, 5, 7, 9, 12, 13, 14, 15, 16, 17, 18, 19, 21, 23, 29])

/-- An opcode of R98 that the code table names and no page defines; in COP1, MFHC1, MTHC1 and the FPU operations. -/
def NamedOnly (w : Word) : Prop :=
  opF w ∈ [0x12#6, 0x13#6, 0x18#6, 0x19#6, 0x1b#6, 0x1c#6, 0x32#6, 0x34#6, 0x35#6, 0x36#6, 0x37#6, 0x3a#6, 0x3c#6, 0x3d#6,
    0x3e#6, 0x3f#6] ∨
  (opF w = 0x11#6 ∧ ((rsF w).toNat = 3 ∨ (rsF w).toNat = 7 ∨ 16 ≤ (rsF w).toNat))

/-- A cell of R98 that the code tables leave blank. -/
def BlankCell (w : Word) : Prop :=
  (opF w = 0x00#6 ∧ (funcF w = 0x01#6 ∨ funcF w = 0x05#6 ∨ (funcF w = 0x02#6 ∧ 1 < (rsF w).toNat) ∨
    (funcF w = 0x06#6 ∧ 1 < (saF w).toNat))) ∨
  (opF w = 0x10#6 ∧ ((rsF w).toNat < 16 ∧ rsF w ≠ 0#5 ∧ rsF w ≠ 4#5 ∨
    16 ≤ (rsF w).toNat ∧ funcF w ∉ [0x00#6, 0x01#6, 0x02#6, 0x08#6, 0x10#6, 0x18#6])) ∨
  (opF w = 0x11#6 ∧ ((rsF w).toNat ∈ [1, 5, 9, 10, 11, 12, 13, 14, 15] ∨ ((rsF w).toNat = 8 ∧ 3 < (rtF w).toNat))) ∨
  (opF w = 0x1f#6 ∧ (funcF w ∉ [0x00#6, 0x04#6, 0x20#6] ∨
    (funcF w = 0x20#6 ∧ (rsF w ≠ 0#5 ∨ (saF w).toNat ∉ [2, 3, 16, 20, 24]))))

/-- R96 within SPECIAL, function by function: a field that the figure prints as zeros is not zero. -/
def NonzeroSpecial (w : Word) : Prop :=
  (funcF w ∈ [0x00#6, 0x03#6] ∧ rsF w ≠ 0#5) ∨
  (funcF w ∈ [0x04#6, 0x07#6, 0x0a#6, 0x0b#6, 0x20#6, 0x21#6, 0x22#6, 0x23#6, 0x24#6, 0x25#6, 0x26#6, 0x27#6, 0x2a#6, 0x2b#6,
    0x2c#6, 0x2d#6] ∧ saF w ≠ 0#5) ∨
  (funcF w ∈ [0x08#6, 0x11#6, 0x13#6] ∧ (rtF w ≠ 0#5 ∨ rdF w ≠ 0#5 ∨ saF w ≠ 0#5)) ∨
  (funcF w ∈ [0x09#6, 0x16#6, 0x17#6] ∧ (rtF w ≠ 0#5 ∨ saF w ≠ 0#5)) ∨
  (funcF w ∈ [0x10#6, 0x12#6] ∧ (rsF w ≠ 0#5 ∨ rtF w ≠ 0#5 ∨ saF w ≠ 0#5)) ∨
  (funcF w ∈ [0x18#6, 0x19#6, 0x1a#6, 0x1b#6, 0x1c#6, 0x1d#6, 0x2e#6, 0x2f#6] ∧ (rdF w ≠ 0#5 ∨ saF w ≠ 0#5)) ∨
  (funcF w = 0x0f#6 ∧ codeF w ≠ 0#20)

/-- A word of R96: its opcode and function are an instruction's, and a field that the figure prints as zeros is not zero. -/
def NonzeroField (w : Word) : Prop :=
  (opF w = 0x00#6 ∧ NonzeroSpecial w) ∨
  (opF w ∈ [0x06#6, 0x07#6, 0x16#6, 0x17#6] ∧ rtF w ≠ 0#5) ∨
  (opF w = 0x0f#6 ∧ rsF w ≠ 0#5) ∨
  (opF w = 0x10#6 ∧ rsF w ∈ [0#5, 4#5] ∧ (saF w ≠ 0#5 ∨ funcF w ≠ 0#6)) ∨
  (opF w = 0x10#6 ∧ 16 ≤ (rsF w).toNat ∧ funcF w = 0x18#6 ∧
    (rsF w ≠ 16#5 ∨ rtF w ≠ 0#5 ∨ rdF w ≠ 0#5 ∨ saF w ≠ 0#5)) ∨
  (opF w = 0x11#6 ∧ rsF w ∈ [0#5, 2#5, 4#5, 6#5] ∧ (saF w ≠ 0#5 ∨ funcF w ≠ 0#6))

/-! ### What holds of every state the machine can be in -/

/-- The instruction is a branch or jump of R25: it has a delay slot. -/
def hasDelaySlot (i : Instr) : Bool := isCompareBranch i || isFpuBranch i || isJump i

/-- The ways of a set hold different lines. -/
def CacheSet.Distinct (c : CacheSet) : Prop := c.wayA.valid = true → c.wayB.valid = true → c.wayA.tag ≠ c.wayB.tag

/-- Memory is canonical; `npc` is the next word outside a delay slot (R27); the machine is in a delay slot exactly when `owner`
says whose, and the owner is the branch or jump executed one step ago (R379); no line is in both ways of the instruction
cache (R291). -/
structure State.Inv (s : State) : Prop where
  memory : Memory.wf s.mem = true
  sequence : s.inDs = false → s.npc = s.pc + 4#32
  owned : s.inDs = s.owner.isSome
  slot : ∀ i, s.owner = some i → hasDelaySlot i = true ∧ s.h1 = some i
  trapped : s.h1FpTrap = true → ∃ rt fs, s.h1 = some (.ctc1 rt fs)
  fetchDistinct : ∀ i, (Cache.get s.icache i).Distinct

/-- One set, with index `i`, of a data cache that agrees with what lies beneath it (`beneath`): every valid line is whole; a
clean line of a cache address holds the bytes beneath it; only lines of cache addresses are dirty; and no line is in both ways. -/
structure CacheSet.Coherent (p : Platform) (beneath : Nat → Byte) (i : Nat) (c : CacheSet) : Prop where
  whole : ∀ w, (c.line w).valid = true → (c.line w).data.length = p.line
  clean : ∀ w, (c.line w).valid = true → (c.line w).dirty = false →
    p.cacheable (p.lineAddr .data i (c.line w).tag) = true →
    ∀ o, o < p.line → (c.line w).data.getD o 0#8 = beneath (p.lineAddr .data i (c.line w).tag + o)
  dirtyCached : ∀ w, (c.line w).valid = true → (c.line w).dirty = true →
    p.cacheable (p.lineAddr .data i (c.line w).tag) = true
  distinct : c.Distinct

/-- The data cache and what lies beneath it agree (R41, R63, R69, R70), set by set; and the cache writeback buffer holds bytes
of cache addresses only, the non-cache write buffer none of them (R40, R69). -/
structure State.Coherent (s : State) : Prop where
  sets : ∀ i, i < s.platform.sets .data → (Cache.get s.dcache i).Coherent s.platform s.busByte i
  writebacks : ∀ c ∈ s.writebackBuf.flatten, s.platform.cacheable c.1 = true
  others : ∀ c ∈ s.nonCacheBuf.flatten, s.platform.cacheable c.1 = false

/-- The refusals that a rule of the spec states. -/
def statedRefusal : Refusal → Bool
  | .blankEncoding | .namedOnlyEncoding | .nonzeroFieldEncoding | .restriction _ | .reservedMode | .createOnNonCacheAddress
  | .timerRegister | .unlistedCp0Register => true
  | _ => false

/-- A step that stops has stopped for a reason the spec gives: the run was over (R365), or the program broke a rule (R15). -/
def SafeOutcome : Result → Prop
  | .next _ => True
  | .fault f => f = .haltReached
  | .refused r => statedRefusal r = true

end Sys2Proof.Machine
end

