-- ==== Sys2Proof/Certificates/Slice0/Obligations.lean ====
section
/-! DEFINITION. The statements for the provers. A statement about an instruction says that it answers a next state and what that
state is; `Writes`, `Branches`, `Loads`, `Stores` and the other terms of Safety.lean say in full what changes and what does not. -/

open Sys2Proof Sys2Proof.Machine

/-! ### Encoding -/

/-- R81, R83, R93: the word written for an instruction decodes to that instruction, every field kept. The one spelling left out
is `sll r0, r0, 0`, whose word is `nop`'s (R118). -/
def Obligations.DecodeOfEncode : Prop := ∀ i : Instr, i.isSpelledNop = false → decode (encode i) = .instr i

/-- R85, R95, R96: a word that decodes to an instruction is the word written for it: no bit of it is ignored. -/
def Obligations.EncodeOfDecode : Prop := ∀ (w : Word) (i : Instr), decode w = .instr i → encode i = w

/-- Words of the spec's examples decode to the instructions they stand for (R111, R141, R153, R168, R185, R206, R228, R246,
R272, R301, R321). -/
def Obligations.ExampleWordsDecode : Prop :=
  decode 0x00221820#32 = .instr (.add 3#5 1#5 2#5) ∧
  decode 0x00011100#32 = .instr (.sll 2#5 1#5 4#5) ∧
  decode 0x00220018#32 = .instr (.mult 1#5 2#5) ∧
  decode 0x50220003#32 = .instr (.beql 1#5 2#5 3#16) ∧
  decode 0x0040F809#32 = .instr (.jalr 31#5 2#5) ∧
  decode 0x88220005#32 = .instr (.lwl 2#5 1#5 5#16) ∧
  decode 0x42000018#32 = .instr .eret ∧
  decode 0x44C2F800#32 = .instr (.ctc1 2#5 31#5) ∧
  decode 0x7C225A04#32 = .instr (.ins 2#5 1#5 11#5 8#5) ∧
  decode 0xBC9A0000#32 = .instr (.cacheHitWritebackD 4#5 0#16) ∧
  decode 0xE0220000#32 = .instr (.sc 2#5 1#5 0#16)

/-- R96, R97, R98, R306: which words decode rejects, cell by cell; and R100, R338: what a step does with each: a reserved cell
raises ReservedInstruction; a blank cell, an opcode the code table only names and a non-zero field are refused. THE MODEL'S
CHOICES: that a reserved cell raises, where R100 and R338 let a model refuse it, is log entry 22 (PRESUMED); how the exception
is delivered, log entry 1 (PRESUMED); that the history has no instruction for such a step (`RecordedNone`), log entry 20 (DESIGN
CHOICE). -/
def Obligations.RejectedWords : Prop :=
  (∀ w : Word, (decode w = .reject .reserved ↔ ReservedCell w) ∧ (decode w = .reject .namedOnly ↔ NamedOnly w) ∧
    (decode w = .reject .blankCell ↔ BlankCell w) ∧ (decode w = .reject .nonzeroField ↔ NonzeroField w)) ∧
  ∀ s : State, FetchOK s.drainSome →
    (ReservedCell s.drainSome.fetchedWord →
      step s = .next ((s.drainSome.fetched.trapEntry .reservedInstruction).recordNone s.drainSome.fetched) ∧
      RecordedNone s.drainSome.fetched (s.drainSome.fetched.trapEntry .reservedInstruction)
        ((s.drainSome.fetched.trapEntry .reservedInstruction).recordNone s.drainSome.fetched)) ∧
    (NamedOnly s.drainSome.fetchedWord → step s = .refused .namedOnlyEncoding) ∧
    (BlankCell s.drainSome.fetchedWord → step s = .refused .blankEncoding) ∧
    (NonzeroField s.drainSome.fetchedWord → step s = .refused .nonzeroFieldEncoding)

/-! ### A step -/

/-- R25, R53, R57, R70: a step runs the instruction its fetch decodes. The word fetched has the four bytes that a fetch sees
from `pc` on, the lowest in its bits 7 to 0. `fetched` adds a line to the instruction cache and nothing else, only where it
misses at a cache address, and in the way the LRU bit points to (log entry 12, DEDUCED), with the bytes of main memory (log
entry 13, DEDUCED). A refusal of the instruction is the step's, and a next state is the step's with the history of
R379 written (`Recorded`): the last two instructions, the owner of a delay slot, and whether a `ctc1` raised FloatingPoint
(the layout of FCR31: log entry 24, PRESUMED).
`drainSome` is what may leave the write buffers first: some of their oldest writes, each whole (R61), and nothing when they are
empty. THE MODEL'S CHOICES: that an instruction which its own exception abandoned stands in the history as executed, where R379
shows it of `ctc1` with FloatingPoint alone, is log entry 20 (DESIGN CHOICE); that writes leave the buffers before the fetch of
a step and at no other time, `sync` apart, and that nothing is drawn when both are empty, is log entry 14 (DESIGN CHOICE; R40
and R64 give no time and no rate); that, where writes of both buffers hold one byte, those of the cache writeback buffer go
first and the byte of the non-cache write buffer stays in memory, is log entry 36 (DESIGN CHOICE; R63 and R64 give no order
between the two). -/
def Obligations.StepRunsDecoded : Prop := ∀ (s : State) (i : Instr), FetchOK s.drainSome →
  decode s.drainSome.fetchedWord = .instr i → s.drainSome.fetched.restrictionAt i = none →
  step s = recordResult s.drainSome.fetched i (exec i s.drainSome.fetched) ∧
  (∀ u, exec i s.drainSome.fetched = .next u → ∃ t, step s = .next t ∧ Recorded s.drainSome.fetched u t i) ∧
  (∀ r, exec i s.drainSome.fetched = .refused r → step s = .refused r) ∧
  (∀ b, b < 4 → byteOf s.drainSome.fetchedWord b = s.drainSome.fetchByte (s.pc.toNat + b)) ∧
  s.drainSome.fetched = { s.drainSome with icache := s.drainSome.fetched.icache } ∧
  FetchesThrough s.drainSome s.drainSome.fetched s.pc.toNat ∧
  (∃ n m, s.drainSome =
    { s with mem := Memory.writeCells (Memory.writeCells s.mem (s.writebackBuf.take n).flatten) (s.nonCacheBuf.take m).flatten,
             writebackBuf := s.writebackBuf.drop n, nonCacheBuf := s.nonCacheBuf.drop m, free := s.drainSome.free }) ∧
  (s.writebackBuf = [] → s.nonCacheBuf = [] → s.drainSome = s)

/-- R379 to R383: an instruction that breaks a restriction on its neighbours is refused before any of its effects. -/
def Obligations.RestrictionsRefused : Prop := ∀ (s : State) (i : Instr), FetchOK s.drainSome →
  decode s.drainSome.fetchedWord = .instr i →
  (Violates s.drainSome.fetched i → ∃ r, step s = .refused (.restriction r)) ∧
  (¬ Violates s.drainSome.fetched i → s.drainSome.fetched.restrictionAt i = none)

/-- R380 c, e, h, i, j, k: an instruction whose own fields break a restriction is refused in every state. -/
def Obligations.FieldRestrictionsRefused : Prop := ∀ (i : Instr) (r : Restriction) (s : State), i.brokenByFields = some r →
  exec i s = .refused (.restriction r)

/-- R15, R365: a step faults only because the run is over, and it is over exactly at `HaltPC` outside a delay slot; and a step
is refused only for a reason the spec gives. -/
def Obligations.StepStopsOnlyAsStated : Prop := ∀ s : State, SafeOutcome (step s) ∧
  (step s = .fault .haltReached ↔ s.platform.haltPC = some s.pc ∧ s.inDs = false)

/-- R25, R56, R57, R332, R333, R346: the exceptions of a fetch, in their order: misaligned, forbidden, bus error; and R355, log
entry 18: an aligned fetch while KSU = 11 and EXL = ERL = 0 is refused. THE MODEL'S CHOICES: the delivery of the exception is
log entry 1 (PRESUMED); that the history has no instruction for such a step (`RecordedNone`) is log entry 20 (DESIGN CHOICE). -/
def Obligations.FetchExceptions : Prop := ∀ s : State, s.halted = false →
  (∀ u : State, RecordedNone s.drainSome u (u.recordNone s.drainSome)) ∧
  (s.pc.toNat % 4 = 0 → ReservedMode s → step s = .refused .reservedMode) ∧
  (s.pc.toNat % 4 ≠ 0 → step s = .next ((s.drainSome.trapEntry (.addressError s.pc .fetch)).recordNone s.drainSome)) ∧
  (∀ m, s.pc.toNat % 4 = 0 → s.mode = some m → s.addrOK s.pc m .fetch = false →
    step s = .next ((s.drainSome.trapEntry (.addressError s.pc .fetch)).recordNone s.drainSome)) ∧
  (∀ m, s.pc.toNat % 4 = 0 → s.mode = some m → s.addrOK s.pc m .fetch = true → s.busErr s.pc.toNat .fetch = true →
    step s = .next ((s.drainSome.trapEntry (.busError s.pc .fetch .instruction)).recordNone s.drainSome))

/-! ### Arithmetic, logic, shifts -/

/-- R111, R112, R126, R331: `add`, `addi` and `sub` write the exact signed result when it is representable, and otherwise take
IntegerOverflow with no register written. -/
def Obligations.AddSubTrapOnOverflow : Prop := ∀ (rd rs rt : Reg) (imm : BitVec 16) (s : State),
  HasRows [(.add rd rs rt, 0xfc0007ff#32, 0x00000020#32), (.addi rt rs imm, 0xfc000000#32, 0x20000000#32),
    (.sub rd rs rt, 0xfc0007ff#32, 0x00000022#32)] ∧
  ((-2147483648 ≤ (s.x rs).toInt + (s.x rt).toInt ∧ (s.x rs).toInt + (s.x rt).toInt ≤ 2147483647 →
      ∃ t, exec (.add rd rs rt) s = .next t ∧ Writes s t rd (BitVec.ofInt 32 ((s.x rs).toInt + (s.x rt).toInt))) ∧
   (¬ (-2147483648 ≤ (s.x rs).toInt + (s.x rt).toInt ∧ (s.x rs).toInt + (s.x rt).toInt ≤ 2147483647) →
      ∃ t, exec (.add rd rs rt) s = .next t ∧ Takes s t .integerOverflow)) ∧
  ((-2147483648 ≤ (s.x rs).toInt + imm.toInt ∧ (s.x rs).toInt + imm.toInt ≤ 2147483647 →
      ∃ t, exec (.addi rt rs imm) s = .next t ∧ Writes s t rt (BitVec.ofInt 32 ((s.x rs).toInt + imm.toInt))) ∧
   (¬ (-2147483648 ≤ (s.x rs).toInt + imm.toInt ∧ (s.x rs).toInt + imm.toInt ≤ 2147483647) →
      ∃ t, exec (.addi rt rs imm) s = .next t ∧ Takes s t .integerOverflow)) ∧
  ((-2147483648 ≤ (s.x rs).toInt - (s.x rt).toInt ∧ (s.x rs).toInt - (s.x rt).toInt ≤ 2147483647 →
      ∃ t, exec (.sub rd rs rt) s = .next t ∧ Writes s t rd (BitVec.ofInt 32 ((s.x rs).toInt - (s.x rt).toInt))) ∧
   (¬ (-2147483648 ≤ (s.x rs).toInt - (s.x rt).toInt ∧ (s.x rs).toInt - (s.x rt).toInt ≤ 2147483647) →
      ∃ t, exec (.sub rd rs rt) s = .next t ∧ Takes s t .integerOverflow))

/-- R113 to R121, R127 to R129: the arithmetic and logic instructions that never trap: their words, their results modulo
2^32, and that nothing else changes; `nop` changes nothing but the program counter. -/
def Obligations.ArithLogic : Prop := ∀ (rd rs rt : Reg) (imm : BitVec 16) (s : State),
  (HasRow (.addiu rt rs imm) 0xfc000000#32 0x24000000#32 ∧ ∃ t, exec (.addiu rt rs imm) s = .next t ∧
    Writes s t rt (BitVec.ofInt 32 ((s.x rs).toInt + imm.toInt))) ∧
  (HasRow (.addu rd rs rt) 0xfc0007ff#32 0x00000021#32 ∧ ∃ t, exec (.addu rd rs rt) s = .next t ∧
    Writes s t rd (BitVec.ofNat 32 ((s.x rs).toNat + (s.x rt).toNat))) ∧
  (HasRow (.subu rd rs rt) 0xfc0007ff#32 0x00000023#32 ∧ ∃ t, exec (.subu rd rs rt) s = .next t ∧
    Writes s t rd (BitVec.ofInt 32 ((s.x rs).toInt - (s.x rt).toInt))) ∧
  (HasRow (.and rd rs rt) 0xfc0007ff#32 0x00000024#32 ∧ ∃ t, exec (.and rd rs rt) s = .next t ∧
    Writes s t rd (s.x rs &&& s.x rt)) ∧
  (HasRow (.or rd rs rt) 0xfc0007ff#32 0x00000025#32 ∧ ∃ t, exec (.or rd rs rt) s = .next t ∧
    Writes s t rd (s.x rs ||| s.x rt)) ∧
  (HasRow (.xor rd rs rt) 0xfc0007ff#32 0x00000026#32 ∧ ∃ t, exec (.xor rd rs rt) s = .next t ∧
    Writes s t rd (s.x rs ^^^ s.x rt)) ∧
  (HasRow (.nor rd rs rt) 0xfc0007ff#32 0x00000027#32 ∧ ∃ t, exec (.nor rd rs rt) s = .next t ∧
    Writes s t rd (~~~(s.x rs ||| s.x rt))) ∧
  (HasRow (.andi rt rs imm) 0xfc000000#32 0x30000000#32 ∧ ∃ t, exec (.andi rt rs imm) s = .next t ∧
    Writes s t rt (s.x rs &&& BitVec.ofNat 32 imm.toNat)) ∧
  (HasRow (.ori rt rs imm) 0xfc000000#32 0x34000000#32 ∧ ∃ t, exec (.ori rt rs imm) s = .next t ∧
    Writes s t rt (s.x rs ||| BitVec.ofNat 32 imm.toNat)) ∧
  (HasRow (.xori rt rs imm) 0xfc000000#32 0x38000000#32 ∧ ∃ t, exec (.xori rt rs imm) s = .next t ∧
    Writes s t rt (s.x rs ^^^ BitVec.ofNat 32 imm.toNat)) ∧
  (HasRow (.lui rt imm) 0xffe00000#32 0x3c000000#32 ∧ ∃ t, exec (.lui rt imm) s = .next t ∧
    Writes s t rt (BitVec.ofNat 32 (imm.toNat * 65536))) ∧
  (HasRow .nop 0xffffffff#32 0x00000000#32 ∧ ∃ t, exec .nop s = .next t ∧
    OnlyPc s t ∧ SameMemory s t ∧ Advanced s t)

/-- R122 to R125: the comparisons write exactly 1 or 0; `sltiu` extends its immediate with the sign and compares unsigned. -/
def Obligations.Comparisons : Prop := ∀ (rd rs rt : Reg) (imm : BitVec 16) (s : State),
  (HasRow (.slt rd rs rt) 0xfc0007ff#32 0x0000002a#32 ∧ ∃ t, exec (.slt rd rs rt) s = .next t ∧
    Writes s t rd (if (s.x rs).toInt < (s.x rt).toInt then 1#32 else 0#32)) ∧
  (HasRow (.slti rt rs imm) 0xfc000000#32 0x28000000#32 ∧ ∃ t, exec (.slti rt rs imm) s = .next t ∧
    Writes s t rt (if (s.x rs).toInt < imm.toInt then 1#32 else 0#32)) ∧
  (HasRow (.sltiu rt rs imm) 0xfc000000#32 0x2c000000#32 ∧ ∃ t, exec (.sltiu rt rs imm) s = .next t ∧
    Writes s t rt (if (s.x rs).toNat < (if imm.toNat < 32768 then imm.toNat else imm.toNat + 4294901760)
      then 1#32 else 0#32)) ∧
  (HasRow (.sltu rd rs rt) 0xfc0007ff#32 0x0000002b#32 ∧ ∃ t, exec (.sltu rd rs rt) s = .next t ∧
    Writes s t rd (if (s.x rs).toNat < (s.x rt).toNat then 1#32 else 0#32))

/-- R141 to R146: the shifts as multiplication and division by powers of two; the variable amount is `x[rs]` modulo 32. -/
def Obligations.Shifts : Prop := ∀ (rd rs rt : Reg) (sa : BitVec 5) (s : State),
  (HasRow (.sll rd rt sa) 0xffe0003f#32 0x00000000#32 ∧ ∃ t, exec (.sll rd rt sa) s = .next t ∧
    Writes s t rd (BitVec.ofNat 32 ((s.x rt).toNat * 2 ^ sa.toNat))) ∧
  (HasRow (.srl rd rt sa) 0xffe0003f#32 0x00000002#32 ∧ ∃ t, exec (.srl rd rt sa) s = .next t ∧
    Writes s t rd (BitVec.ofNat 32 ((s.x rt).toNat / 2 ^ sa.toNat))) ∧
  (HasRow (.sra rd rt sa) 0xffe0003f#32 0x00000003#32 ∧ ∃ t, exec (.sra rd rt sa) s = .next t ∧
    Writes s t rd (BitVec.ofInt 32 ((s.x rt).toInt / 2 ^ sa.toNat))) ∧
  (HasRow (.sllv rd rt rs) 0xfc0007ff#32 0x00000004#32 ∧ ∃ t, exec (.sllv rd rt rs) s = .next t ∧
    Writes s t rd (BitVec.ofNat 32 ((s.x rt).toNat * 2 ^ ((s.x rs).toNat % 32)))) ∧
  (HasRow (.srlv rd rt rs) 0xfc0007ff#32 0x00000006#32 ∧ ∃ t, exec (.srlv rd rt rs) s = .next t ∧
    Writes s t rd (BitVec.ofNat 32 ((s.x rt).toNat / 2 ^ ((s.x rs).toNat % 32)))) ∧
  (HasRow (.srav rd rt rs) 0xfc0007ff#32 0x00000007#32 ∧ ∃ t, exec (.srav rd rt rs) s = .next t ∧
    Writes s t rd (BitVec.ofInt 32 ((s.x rt).toInt / 2 ^ ((s.x rs).toNat % 32))))

/-- R276, R277: bit `i` of a rotated word is bit `(i + s) mod 32` of the operand. -/
def Obligations.Rotates : Prop := ∀ (rd rs rt : Reg) (sa : BitVec 5) (s : State),
  (HasRow (.rotr rd rt sa) 0xffe0003f#32 0x00200002#32 ∧ ∃ t v, exec (.rotr rd rt sa) s = .next t ∧ Writes s t rd v ∧
    ∀ i, i < 32 → v.getLsbD i = (s.x rt).getLsbD ((i + sa.toNat) % 32)) ∧
  (HasRow (.rotrv rd rt rs) 0xfc0007ff#32 0x00000046#32 ∧ ∃ t v, exec (.rotrv rd rt rs) s = .next t ∧ Writes s t rd v ∧
    ∀ i, i < 32 → v.getLsbD i = (s.x rt).getLsbD ((i + (s.x rs).toNat % 32) % 32))

/-- R261, R262: the count of leading ones or zeros: that many bits from bit 31 down are 1 (0), and the next one is not. -/
def Obligations.CountLeading : Prop := ∀ (rd rs : Reg) (s : State),
  (HasRow (.clo rd rs) 0xfc1f07ff#32 0x00000017#32 ∧ ∃ t n, exec (.clo rd rs) s = .next t ∧
    Writes s t rd (BitVec.ofNat 32 n) ∧ n ≤ 32 ∧ (∀ j, j < n → (s.x rs).getLsbD (31 - j) = true) ∧
    (n < 32 → (s.x rs).getLsbD (31 - n) = false)) ∧
  (HasRow (.clz rd rs) 0xfc1f07ff#32 0x00000016#32 ∧ ∃ t n, exec (.clz rd rs) s = .next t ∧
    Writes s t rd (BitVec.ofNat 32 n) ∧ n ≤ 32 ∧ (∀ j, j < n → (s.x rs).getLsbD (31 - j) = false) ∧
    (n < 32 → (s.x rs).getLsbD (31 - n) = true))

/-- R273, R274, R275, R278, R279: sign extension, bit reversal and the byte swaps. -/
def Obligations.BitAndByteMoves : Prop := ∀ (rd rt : Reg) (s : State),
  (HasRow (.seb rd rt) 0xffe007ff#32 0x7c000420#32 ∧ ∃ t v, exec (.seb rd rt) s = .next t ∧ Writes s t rd v ∧
    ∀ i, i < 32 → v.getLsbD i = (s.x rt).getLsbD (if i < 8 then i else 7)) ∧
  (HasRow (.seh rd rt) 0xffe007ff#32 0x7c000620#32 ∧ ∃ t v, exec (.seh rd rt) s = .next t ∧ Writes s t rd v ∧
    ∀ i, i < 32 → v.getLsbD i = (s.x rt).getLsbD (if i < 16 then i else 15)) ∧
  (HasRow (.bitrev rd rt) 0xffe007ff#32 0x7c000520#32 ∧ ∃ t v, exec (.bitrev rd rt) s = .next t ∧ Writes s t rd v ∧
    ∀ i, i < 32 → v.getLsbD i = (s.x rt).getLsbD (31 - i)) ∧
  (HasRow (.wsbh rd rt) 0xffe007ff#32 0x7c0000a0#32 ∧ ∃ t v, exec (.wsbh rd rt) s = .next t ∧ Writes s t rd v ∧
    byteOf v 0 = byteOf (s.x rt) 1 ∧ byteOf v 1 = byteOf (s.x rt) 0 ∧
    byteOf v 2 = byteOf (s.x rt) 3 ∧ byteOf v 3 = byteOf (s.x rt) 2) ∧
  (HasRow (.wsbw rd rt) 0xffe007ff#32 0x7c0000e0#32 ∧ ∃ t v, exec (.wsbw rd rt) s = .next t ∧ Writes s t rd v ∧
    byteOf v 0 = byteOf (s.x rt) 3 ∧ byteOf v 1 = byteOf (s.x rt) 2 ∧
    byteOf v 2 = byteOf (s.x rt) 1 ∧ byteOf v 3 = byteOf (s.x rt) 0)

/-- R271, R272: `ext` and `ins`, bit by bit, where their fields are as the source requires; elsewhere they are refused. -/
def Obligations.BitFields : Prop := ∀ (rt rs : Reg) (msb lsb : BitVec 5) (s : State),
  HasRow (.ext rt rs msb lsb) 0xfc00003f#32 0x7c000000#32 ∧
  (lsb.toNat + (msb.toNat + 1) ≤ 32 → ∃ t v, exec (.ext rt rs msb lsb) s = .next t ∧ Writes s t rt v ∧
    ∀ i, i < 32 → v.getLsbD i = (decide (i < msb.toNat + 1) && (s.x rs).getLsbD (lsb.toNat + i))) ∧
  (32 < lsb.toNat + (msb.toNat + 1) → exec (.ext rt rs msb lsb) s = .refused (.restriction .h)) ∧
  HasRow (.ins rt rs msb lsb) 0xfc00003f#32 0x7c000004#32 ∧
  (lsb.toNat ≤ msb.toNat → ∃ t v, exec (.ins rt rs msb lsb) s = .next t ∧ Writes s t rt v ∧
    ∀ i, i < 32 → v.getLsbD i =
      if lsb.toNat ≤ i ∧ i ≤ msb.toNat then (s.x rs).getLsbD (i - lsb.toNat) else (s.x rt).getLsbD i) ∧
  (msb.toNat < lsb.toNat → exec (.ins rt rs msb lsb) s = .refused (.restriction .i))

/-- R267 to R270: the signed maximum and minimum, and the conditional moves. -/
def Obligations.SelectAndMove : Prop := ∀ (rd rs rt : Reg) (s : State),
  (HasRow (.max rd rs rt) 0xfc0007ff#32 0x0000002c#32 ∧ ∃ t, exec (.max rd rs rt) s = .next t ∧
    Writes s t rd (BitVec.ofInt 32 (max (s.x rs).toInt (s.x rt).toInt))) ∧
  (HasRow (.min rd rs rt) 0xfc0007ff#32 0x0000002d#32 ∧ ∃ t, exec (.min rd rs rt) s = .next t ∧
    Writes s t rd (BitVec.ofInt 32 (min (s.x rs).toInt (s.x rt).toInt))) ∧
  (HasRow (.movn rd rs rt) 0xfc0007ff#32 0x0000000b#32 ∧ ∃ t, exec (.movn rd rs rt) s = .next t ∧
    (s.x rt ≠ 0#32 → Writes s t rd (s.x rs)) ∧ (s.x rt = 0#32 → OnlyPc s t ∧ SameMemory s t ∧ Advanced s t)) ∧
  (HasRow (.movz rd rs rt) 0xfc0007ff#32 0x0000000a#32 ∧ ∃ t, exec (.movz rd rs rt) s = .next t ∧
    (s.x rt = 0#32 → Writes s t rd (s.x rs)) ∧ (s.x rt ≠ 0#32 → OnlyPc s t ∧ SameMemory s t ∧ Advanced s t))

/-! ### Multiply, divide, HI and LO -/

/-- R153, R154: HI and LO together are the exact product, signed or unsigned. -/
def Obligations.Multiply : Prop := ∀ (rs rt : Reg) (s : State),
  (HasRow (.mult rs rt) 0xfc00ffff#32 0x00000018#32 ∧ ∃ t hi lo, exec (.mult rs rt) s = .next t ∧ WritesHiLo s t hi lo ∧
    hi.toInt * 4294967296 + lo.toNat = (s.x rs).toInt * (s.x rt).toInt) ∧
  (HasRow (.multu rs rt) 0xfc00ffff#32 0x00000019#32 ∧ ∃ t hi lo, exec (.multu rs rt) s = .next t ∧ WritesHiLo s t hi lo ∧
    hi.toNat * 4294967296 + lo.toNat = (s.x rs).toNat * (s.x rt).toNat)

/-- R263 to R266: the product added to or taken from HI and LO, modulo 2^64. -/
def Obligations.MultiplyAccumulate : Prop := ∀ (rs rt : Reg) (s : State),
  (HasRow (.madd rs rt) 0xfc00ffff#32 0x0000001c#32 ∧ ∃ t hi lo, exec (.madd rs rt) s = .next t ∧ WritesHiLo s t hi lo ∧
    ((hi.toNat * 4294967296 + lo.toNat : Nat) : Int) =
      (((s.hi.toNat * 4294967296 + s.lo.toNat : Nat) : Int) + (s.x rs).toInt * (s.x rt).toInt) % 18446744073709551616) ∧
  (HasRow (.maddu rs rt) 0xfc00ffff#32 0x0000001d#32 ∧ ∃ t hi lo, exec (.maddu rs rt) s = .next t ∧ WritesHiLo s t hi lo ∧
    ((hi.toNat * 4294967296 + lo.toNat : Nat) : Int) =
      (((s.hi.toNat * 4294967296 + s.lo.toNat : Nat) : Int) + (s.x rs).toNat * (s.x rt).toNat) % 18446744073709551616) ∧
  (HasRow (.msub rs rt) 0xfc00ffff#32 0x0000002e#32 ∧ ∃ t hi lo, exec (.msub rs rt) s = .next t ∧ WritesHiLo s t hi lo ∧
    ((hi.toNat * 4294967296 + lo.toNat : Nat) : Int) =
      (((s.hi.toNat * 4294967296 + s.lo.toNat : Nat) : Int) - (s.x rs).toInt * (s.x rt).toInt) % 18446744073709551616) ∧
  (HasRow (.msubu rs rt) 0xfc00ffff#32 0x0000002f#32 ∧ ∃ t hi lo, exec (.msubu rs rt) s = .next t ∧ WritesHiLo s t hi lo ∧
    ((hi.toNat * 4294967296 + lo.toNat : Nat) : Int) =
      (((s.hi.toNat * 4294967296 + s.lo.toNat : Nat) : Int) - (s.x rs).toNat * (s.x rt).toNat) % 18446744073709551616)

/-- R151, R152, R159 g: LO is the quotient and HI the remainder; the signed remainder is 0 or has the dividend's sign, which
is truncation toward zero (log entry 26). -/
def Obligations.Divide : Prop := ∀ (rs rt : Reg) (s : State),
  HasRows [(.div rs rt, 0xfc00ffff#32, 0x0000001a#32), (.divu rs rt, 0xfc00ffff#32, 0x0000001b#32)] ∧
  (s.x rt ≠ 0#32 → ¬ (s.x rs = 0x80000000#32 ∧ s.x rt = 0xFFFFFFFF#32) →
    ∃ t hi lo, exec (.div rs rt) s = .next t ∧ WritesHiLo s t hi lo ∧
      (s.x rs).toInt = lo.toInt * (s.x rt).toInt + hi.toInt ∧ hi.toInt.natAbs < (s.x rt).toInt.natAbs ∧
      (hi.toInt = 0 ∨ (hi.toInt < 0 ↔ (s.x rs).toInt < 0))) ∧
  (s.x rt ≠ 0#32 → ∃ t hi lo, exec (.divu rs rt) s = .next t ∧ WritesHiLo s t hi lo ∧
      (s.x rs).toNat = lo.toNat * (s.x rt).toNat + hi.toNat ∧ hi.toNat < (s.x rt).toNat)

/-- R151, R152, D11: a division without a stated result completes: HI and LO receive values nothing is said of (log entry 15),
and nothing else changes. -/
def Obligations.DivideOpenResult : Prop := ∀ (rs rt : Reg) (s : State),
  ((s.x rt = 0#32 ∨ (s.x rs = 0x80000000#32 ∧ s.x rt = 0xFFFFFFFF#32)) → ∃ t, exec (.div rs rt) s = .next t ∧
    t = { s with hi := t.hi, lo := t.lo, free := t.free, pc := t.pc, npc := t.npc, inDs := t.inDs } ∧
    SameMemory s t ∧ Advanced s t) ∧
  (s.x rt = 0#32 → ∃ t, exec (.divu rs rt) s = .next t ∧
    t = { s with hi := t.hi, lo := t.lo, free := t.free, pc := t.pc, npc := t.npc, inDs := t.inDs } ∧
    SameMemory s t ∧ Advanced s t)

/-- R155 to R158: the moves from and to HI and LO; `mthi` leaves LO and `mtlo` leaves HI. -/
def Obligations.HiLoMoves : Prop := ∀ (r : Reg) (s : State),
  HasRows [(.mfhi r, 0xffff07ff#32, 0x00000010#32), (.mflo r, 0xffff07ff#32, 0x00000012#32)] ∧
  (∃ t, exec (.mfhi r) s = .next t ∧ Writes s t r s.hi) ∧
  (∃ t, exec (.mflo r) s = .next t ∧ Writes s t r s.lo) ∧
  (HasRow (.mthi r) 0xfc1fffff#32 0x00000011#32 ∧ ∃ t, exec (.mthi r) s = .next t ∧ WritesHiLo s t (s.x r) s.lo) ∧
  (HasRow (.mtlo r) 0xfc1fffff#32 0x00000013#32 ∧ ∃ t, exec (.mtlo r) s = .next t ∧ WritesHiLo s t s.hi (s.x r))

/-! ### Branches and jumps -/

/-- R165, R167, R169, R173, R175, R177, R181: the conditional branches whose delay slot always executes. -/
def Obligations.ConditionalBranches : Prop := ∀ (rs rt : Reg) (offset : BitVec 16) (s : State),
  HasRows [(.beq rs rt offset, 0xfc000000#32, 0x10000000#32), (.bne rs rt offset, 0xfc000000#32, 0x14000000#32),
    (.bgez rs offset, 0xfc1f0000#32, 0x04010000#32), (.bgtz rs offset, 0xfc1f0000#32, 0x1c000000#32),
    (.blez rs offset, 0xfc1f0000#32, 0x18000000#32), (.bltz rs offset, 0xfc1f0000#32, 0x04000000#32)] ∧
  (∃ t, exec (.beq rs rt offset) s = .next t ∧ Branches s t (s.x rs = s.x rt) (targetOf s offset)) ∧
  (∃ t, exec (.bne rs rt offset) s = .next t ∧ Branches s t (s.x rs ≠ s.x rt) (targetOf s offset)) ∧
  (∃ t, exec (.bgez rs offset) s = .next t ∧ Branches s t (0 ≤ (s.x rs).toInt) (targetOf s offset)) ∧
  (∃ t, exec (.bgtz rs offset) s = .next t ∧ Branches s t (0 < (s.x rs).toInt) (targetOf s offset)) ∧
  (∃ t, exec (.blez rs offset) s = .next t ∧ Branches s t ((s.x rs).toInt ≤ 0) (targetOf s offset)) ∧
  (∃ t, exec (.bltz rs offset) s = .next t ∧ Branches s t ((s.x rs).toInt < 0) (targetOf s offset))

/-- R26, R165, R168, R172, R174, R176, R180, R182: the Likely branches pass over their delay slot when not taken. -/
def Obligations.LikelyBranches : Prop := ∀ (rs rt : Reg) (offset : BitVec 16) (s : State),
  HasRows [(.beql rs rt offset, 0xfc000000#32, 0x50000000#32), (.bnel rs rt offset, 0xfc000000#32, 0x54000000#32),
    (.bgezl rs offset, 0xfc1f0000#32, 0x04030000#32), (.bgtzl rs offset, 0xfc1f0000#32, 0x5c000000#32),
    (.blezl rs offset, 0xfc1f0000#32, 0x58000000#32), (.bltzl rs offset, 0xfc1f0000#32, 0x04020000#32)] ∧
  (∃ t, exec (.beql rs rt offset) s = .next t ∧ OnlyPc s t ∧ SameMemory s t ∧
    LikelyPc s t (s.x rs = s.x rt) (targetOf s offset)) ∧
  (∃ t, exec (.bnel rs rt offset) s = .next t ∧ OnlyPc s t ∧ SameMemory s t ∧
    LikelyPc s t (s.x rs ≠ s.x rt) (targetOf s offset)) ∧
  (∃ t, exec (.bgezl rs offset) s = .next t ∧ OnlyPc s t ∧ SameMemory s t ∧
    LikelyPc s t (0 ≤ (s.x rs).toInt) (targetOf s offset)) ∧
  (∃ t, exec (.bgtzl rs offset) s = .next t ∧ OnlyPc s t ∧ SameMemory s t ∧
    LikelyPc s t (0 < (s.x rs).toInt) (targetOf s offset)) ∧
  (∃ t, exec (.blezl rs offset) s = .next t ∧ OnlyPc s t ∧ SameMemory s t ∧
    LikelyPc s t ((s.x rs).toInt ≤ 0) (targetOf s offset)) ∧
  (∃ t, exec (.bltzl rs offset) s = .next t ∧ OnlyPc s t ∧ SameMemory s t ∧
    LikelyPc s t ((s.x rs).toInt < 0) (targetOf s offset))

/-- R165, R170, R171, R178, R179, R380 c: the link branches write r31 whether or not they are taken; `rs` = 31 is refused. -/
def Obligations.LinkBranches : Prop := ∀ (rs : Reg) (offset : BitVec 16) (s : State),
  HasRows [(.bgezal rs offset, 0xfc1f0000#32, 0x04110000#32), (.bltzal rs offset, 0xfc1f0000#32, 0x04100000#32),
    (.bgezall rs offset, 0xfc1f0000#32, 0x04130000#32), (.bltzall rs offset, 0xfc1f0000#32, 0x04120000#32)] ∧
  (rs ≠ 31#5 → ∃ t, exec (.bgezal rs offset) s = .next t ∧ Links s t 31#5 ∧ t.pc = s.npc ∧ t.inDs = true ∧
    t.npc = (if 0 ≤ (s.x rs).toInt then targetOf s offset else s.npc + 4#32)) ∧
  (rs ≠ 31#5 → ∃ t, exec (.bltzal rs offset) s = .next t ∧ Links s t 31#5 ∧ t.pc = s.npc ∧ t.inDs = true ∧
    t.npc = (if (s.x rs).toInt < 0 then targetOf s offset else s.npc + 4#32)) ∧
  (rs ≠ 31#5 → ∃ t, exec (.bgezall rs offset) s = .next t ∧ Links s t 31#5 ∧
    LikelyPc s t (0 ≤ (s.x rs).toInt) (targetOf s offset)) ∧
  (rs ≠ 31#5 → ∃ t, exec (.bltzall rs offset) s = .next t ∧ Links s t 31#5 ∧
    LikelyPc s t ((s.x rs).toInt < 0) (targetOf s offset)) ∧
  (rs = 31#5 → exec (.bgezal rs offset) s = .refused (.restriction .c) ∧
    exec (.bltzal rs offset) s = .refused (.restriction .c) ∧ exec (.bgezall rs offset) s = .refused (.restriction .c) ∧
    exec (.bltzall rs offset) s = .refused (.restriction .c))

/-- R26, R183 to R186, R380 e: the jumps; the region of `j` and `jal` is the delay slot's, and `jalr` reads its target before it
writes its link; `jalr` with `rd` = `rs` is refused. -/
def Obligations.Jumps : Prop := ∀ (rd rs : Reg) (target : BitVec 26) (s : State),
  HasRows [(.j target, 0xfc000000#32, 0x08000000#32), (.jal target, 0xfc000000#32, 0x0c000000#32),
    (.jr rs, 0xfc1fffff#32, 0x00000008#32), (.jalr rd rs, 0xfc1f07ff#32, 0x00000009#32)] ∧
  (∃ t, exec (.j target) s = .next t ∧ OnlyPc s t ∧ SameMemory s t ∧ t.pc = s.npc ∧ t.inDs = true ∧
    t.npc.toNat = (s.pc + 4#32).toNat / 268435456 * 268435456 + 4 * target.toNat) ∧
  (∃ t, exec (.jal target) s = .next t ∧ Links s t 31#5 ∧ t.pc = s.npc ∧ t.inDs = true ∧
    t.npc.toNat = (s.pc + 4#32).toNat / 268435456 * 268435456 + 4 * target.toNat) ∧
  (∃ t, exec (.jr rs) s = .next t ∧ OnlyPc s t ∧ SameMemory s t ∧ t.pc = s.npc ∧ t.inDs = true ∧ t.npc = s.x rs) ∧
  (rd ≠ rs → ∃ t, exec (.jalr rd rs) s = .next t ∧ Links s t rd ∧ t.pc = s.npc ∧ t.inDs = true ∧ t.npc = s.x rs) ∧
  (rd = rs → exec (.jalr rd rs) s = .refused (.restriction .e))

/-! ### Loads and stores -/

/-- R200 to R205: a load whose checks pass writes the bytes at its address, extended; every byte of memory reads as before; at
a cache address a miss fills the way the LRU bit points to, and a hit leaves the cache as it is (R70; log entry 12, DEDUCED). -/
def Obligations.AlignedLoads : Prop := ∀ (rt base : Reg) (offset : BitVec 16) (s : State),
  HasRows [(.lb rt base offset, 0xfc000000#32, 0x80000000#32), (.lbu rt base offset, 0xfc000000#32, 0x90000000#32),
    (.lh rt base offset, 0xfc000000#32, 0x84000000#32), (.lhu rt base offset, 0xfc000000#32, 0x94000000#32),
    (.lw rt base offset, 0xfc000000#32, 0x8c000000#32)] ∧ (s.Coherent →
  (LoadOK s (s.effAddr base offset) 1 → ∃ t, exec (.lb rt base offset) s = .next t ∧
    Loads s t (s.effAddr base offset).toNat rt (BitVec.ofInt 32 (s.dataByte (s.effAddr base offset).toNat).toInt)) ∧
  (LoadOK s (s.effAddr base offset) 1 → ∃ t, exec (.lbu rt base offset) s = .next t ∧
    Loads s t (s.effAddr base offset).toNat rt (BitVec.ofNat 32 (s.dataByte (s.effAddr base offset).toNat).toNat)) ∧
  (LoadOK s (s.effAddr base offset) 2 → ∃ t, exec (.lh rt base offset) s = .next t ∧
    Loads s t (s.effAddr base offset).toNat rt (BitVec.ofInt 32 ((s.dataByte ((s.effAddr base offset).toNat + 1)).toInt * 256 +
      (s.dataByte (s.effAddr base offset).toNat).toNat))) ∧
  (LoadOK s (s.effAddr base offset) 2 → ∃ t, exec (.lhu rt base offset) s = .next t ∧
    Loads s t (s.effAddr base offset).toNat rt (BitVec.ofNat 32 ((s.dataByte ((s.effAddr base offset).toNat + 1)).toNat * 256 +
      (s.dataByte (s.effAddr base offset).toNat).toNat))) ∧
  (LoadOK s (s.effAddr base offset) 4 → ∃ t v, exec (.lw rt base offset) s = .next t ∧
    Loads s t (s.effAddr base offset).toNat rt v ∧
    ∀ i, i < 4 → byteOf v i = s.dataByte ((s.effAddr base offset).toNat + i)))

/-- R206, R207: `lwl` and `lwr` byte by byte, for every place `k` of the address in its word: the bytes read, and those of the
old register that are kept; the data cache as for the other loads (R70; log entry 12, DEDUCED). -/
def Obligations.UnalignedLoads : Prop := ∀ (rt base : Reg) (offset : BitVec 16) (s : State),
  HasRows [(.lwl rt base offset, 0xfc000000#32, 0x88000000#32), (.lwr rt base offset, 0xfc000000#32, 0x98000000#32)] ∧
  (s.Coherent → LoadOK s (s.effAddr base offset) 1 →
  (∃ t v, exec (.lwl rt base offset) s = .next t ∧ Loads s t (s.effAddr base offset).toNat rt v ∧
    ∀ i, i < 4 → byteOf v i =
      if 3 - (s.effAddr base offset).toNat % 4 ≤ i then s.dataByte ((s.effAddr base offset).toNat + i - 3)
      else byteOf (s.x rt) i) ∧
  (∃ t v, exec (.lwr rt base offset) s = .next t ∧ Loads s t (s.effAddr base offset).toNat rt v ∧
    ∀ i, i < 4 → byteOf v i =
      if i < 4 - (s.effAddr base offset).toNat % 4 then s.dataByte ((s.effAddr base offset).toNat + i)
      else byteOf (s.x rt) i))

/-- R207: `lwr` at A and then `lwl` at A + 3 load the word at A, aligned or not, whatever the register held. -/
def Obligations.UnalignedWordLoadPair : Prop := ∀ (rt base : Reg) (o1 o2 : BitVec 16) (s t u : State), s.Coherent →
  rt ≠ base → rt ≠ 0#5 → (s.effAddr base o1).toNat + 3 < 4294967296 →
  s.effAddr base o2 = s.effAddr base o1 + 3#32 →
  LoadOK s (s.effAddr base o1) 1 → LoadOK t (s.effAddr base o2) 1 →
  exec (.lwr rt base o1) s = .next t → exec (.lwl rt base o2) t = .next u →
  (∀ i, i < 4 → byteOf (u.x rt) i = s.dataByte ((s.effAddr base o1).toNat + i)) ∧
  OtherRegsSame s u rt ∧ SameMemory s u

/-- R200, R208 to R210: a store whose checks pass stores the low bytes of `x[rt]`, lowest first, and nothing else; at a cache
address its line is present and dirty afterwards, filled first where it missed (R70; log entry 12, DEDUCED). -/
def Obligations.AlignedStores : Prop := ∀ (rt base : Reg) (offset : BitVec 16) (s : State),
  HasRows [(.sb rt base offset, 0xfc000000#32, 0xa0000000#32), (.sh rt base offset, 0xfc000000#32, 0xa4000000#32),
    (.sw rt base offset, 0xfc000000#32, 0xac000000#32)] ∧ (s.Coherent →
  (StoreOK s (s.effAddr base offset) 1 → ∃ t, exec (.sb rt base offset) s = .next t ∧
    Stores s t (s.effAddr base offset).toNat [byteOf (s.x rt) 0]) ∧
  (StoreOK s (s.effAddr base offset) 2 → ∃ t, exec (.sh rt base offset) s = .next t ∧
    Stores s t (s.effAddr base offset).toNat [byteOf (s.x rt) 0, byteOf (s.x rt) 1]) ∧
  (StoreOK s (s.effAddr base offset) 4 → ∃ t, exec (.sw rt base offset) s = .next t ∧
    Stores s t (s.effAddr base offset).toNat
      [byteOf (s.x rt) 0, byteOf (s.x rt) 1, byteOf (s.x rt) 2, byteOf (s.x rt) 3]))

/-- R211, R212: `swl` and `swr`: with `k` the place of the address in its word, `swl` stores the high `k + 1` bytes of `x[rt]`
from the word's first byte up, `swr` the low `4 - k` bytes from the address up; the data cache as for the other stores (R70;
log entry 12, DEDUCED). -/
def Obligations.UnalignedStores : Prop := ∀ (rt base : Reg) (offset : BitVec 16) (s : State),
  HasRows [(.swl rt base offset, 0xfc000000#32, 0xa8000000#32), (.swr rt base offset, 0xfc000000#32, 0xb8000000#32)] ∧
  (s.Coherent → StoreOK s (s.effAddr base offset) 1 →
  (∃ t, exec (.swl rt base offset) s = .next t ∧
    Stores s t ((s.effAddr base offset).toNat - (s.effAddr base offset).toNat % 4)
      ((List.range ((s.effAddr base offset).toNat % 4 + 1)).map fun i =>
        byteOf (s.x rt) (3 - (s.effAddr base offset).toNat % 4 + i))) ∧
  (∃ t, exec (.swr rt base offset) s = .next t ∧
    Stores s t (s.effAddr base offset).toNat
      ((List.range (4 - (s.effAddr base offset).toNat % 4)).map fun i => byteOf (s.x rt) i)))

/-- R212: `swr` at A and then `swl` at A + 3 store the word at A, aligned or not, and no other byte. -/
def Obligations.UnalignedWordStorePair : Prop := ∀ (rt base : Reg) (o1 o2 : BitVec 16) (s t u : State), s.Coherent →
  (s.effAddr base o1).toNat + 3 < 4294967296 → s.effAddr base o2 = s.effAddr base o1 + 3#32 →
  StoreOK s (s.effAddr base o1) 1 → StoreOK t (s.effAddr base o2) 1 →
  exec (.swr rt base o1) s = .next t → exec (.swl rt base o2) t = .next u →
  Stored s u (s.effAddr base o1).toNat
    [byteOf (s.x rt) 0, byteOf (s.x rt) 1, byteOf (s.x rt) 2, byteOf (s.x rt) 3]

/-- R55, R56, R200, R332, R333, R346: the exceptions of every load and store, in their order: misaligned, forbidden, and for
loads a bus error; R290: the exception of every cache function at a forbidden address; R355, log entry 18: all of them refuse
while KSU = 11 and EXL = ERL = 0. -/
def Obligations.AccessExceptions : Prop := ∀ (i : Instr) (base : Reg) (offset : BitVec 16) (s : State),
  (∀ k n, dataAccess i = some (k, n, base, offset) → (usesCop1 i = true → Cop1OK s) →
    ((s.effAddr base offset).toNat % n ≠ 0 →
      ∃ t, exec i s = .next t ∧ Takes s t (.addressError (s.effAddr base offset) k)) ∧
    ((s.effAddr base offset).toNat % n = 0 → ReservedMode s → exec i s = .refused .reservedMode) ∧
    (∀ m, (s.effAddr base offset).toNat % n = 0 → s.mode = some m → s.addrOK (s.effAddr base offset) m k = false →
      ∃ t, exec i s = .next t ∧ Takes s t (.addressError (s.effAddr base offset) k)) ∧
    (∀ m, (s.effAddr base offset).toNat % n = 0 → s.mode = some m → s.addrOK (s.effAddr base offset) m k = true →
      k = .load → s.busErr (s.effAddr base offset).toNat .load = true →
      ∃ t, exec i s = .next t ∧ Takes s t (.busError (s.effAddr base offset) .load .data))) ∧
  (cacheAccess i = some (base, offset) →
    (ReservedMode s → exec i s = .refused .reservedMode) ∧
    (∀ m, s.mode = some m → s.addrOK (s.effAddr base offset) m .cacheop = false →
      ∃ t, exec i s = .next t ∧ Takes s t (.addressError (s.effAddr base offset) .cacheop)))

/-- R320, R321, R66: `ll` loads and sets LLbit; `sc` stores when LLbit is 1, stores nothing when it is 0, writes LLbit to
`x[rt]` and leaves LLbit as it is; the data cache as for the other loads and stores (R70; log entry 12, DEDUCED). -/
def Obligations.LoadLinkedStoreConditional : Prop := ∀ (rt base : Reg) (offset : BitVec 16) (s : State),
  HasRows [(.ll rt base offset, 0xfc000000#32, 0xc0000000#32), (.sc rt base offset, 0xfc000000#32, 0xe0000000#32)] ∧
  (s.Coherent →
  (LoadOK s (s.effAddr base offset) 4 → ∃ t v, exec (.ll rt base offset) s = .next t ∧ t.llbit = true ∧
    t.x rt = (if rt = 0#5 then 0#32 else v) ∧ (∀ i, i < 4 → byteOf v i = s.dataByte ((s.effAddr base offset).toNat + i)) ∧
    OtherRegsSame s t rt ∧ LoadsThrough s t (s.effAddr base offset).toNat ∧ SameMemory s t ∧ Advanced s t ∧
    t = { s with gpr := t.gpr, llbit := t.llbit, dcache := t.dcache, writebackBuf := t.writebackBuf,
                 pc := t.pc, npc := t.npc, inDs := t.inDs }) ∧
  (StoreOK s (s.effAddr base offset) 4 → ∃ t, exec (.sc rt base offset) s = .next t ∧
    t.x rt = (if rt = 0#5 then 0#32 else if s.llbit then 1#32 else 0#32) ∧ OtherRegsSame s t rt ∧ Advanced s t ∧
    (s.llbit = true →
      Stored s t (s.effAddr base offset).toNat
        [byteOf (s.x rt) 0, byteOf (s.x rt) 1, byteOf (s.x rt) 2, byteOf (s.x rt) 3] ∧
      StoresThrough s t (s.effAddr base offset).toNat
        [byteOf (s.x rt) 0, byteOf (s.x rt) 1, byteOf (s.x rt) 2, byteOf (s.x rt) 3]) ∧
    (s.llbit = false → SameMemory s t ∧ t.dcache = s.dcache ∧ t.writebackBuf = s.writebackBuf ∧
      t.nonCacheBuf = s.nonCacheBuf) ∧ (∀ b, t.fetchByte b = s.fetchByte b) ∧
    t = { s with gpr := t.gpr, dcache := t.dcache, writebackBuf := t.writebackBuf, nonCacheBuf := t.nonCacheBuf,
                 pc := t.pc, npc := t.npc, inDs := t.inDs }))

/-! ### Exceptions and coprocessor 0 -/

/-- R226, R227, R334, R335: `break` and `syscall` take their exception, in every mode, whatever their code. -/
def Obligations.BreakAndSyscall : Prop := ∀ (code : BitVec 20) (s : State),
  HasRows [(.brk code, 0xfc00003f#32, 0x0000000d#32), (.syscall code, 0xfc00003f#32, 0x0000000c#32)] ∧
  (∃ t, exec (.brk code) s = .next t ∧ Takes s t (.breakpoint code)) ∧
  (∃ t, exec (.syscall code) s = .next t ∧ Takes s t (.systemCall code))

/-- R339, R341, R342, R343, R350, R355 (all of it the MIPS III sequence, log entries 1, 2, 3, 25): what taking an exception does
to each CP0 register, and the mode and the program counter after it; the exception's code and vector are the launch's (R7), and
with the launch's default the numbers of R339 and the two addresses of R342. -/
def Obligations.TrapEntry : Prop := ∀ (s t : State) (e : Exc), Takes s t e →
  t.mode = some .kernel ∧ t.npc = t.pc + 4#32 ∧
  t.inDs = false ∧ SameMemory s t ∧ (∀ r, t.x r = s.x r) ∧
  (∀ h, HandledBy s.platform.handlers e h →
    t.pc = (if s.bev then h.bootVector else h.vector) ∧ (t.cp0 causeReg).extractLsb' 2 5 = h.code) ∧
  (s.platform.handlers = Handlers.general →
    t.pc = (if s.bev then 0xBFC00380#32 else 0x80000180#32) ∧ GeneralCode e ((t.cp0 causeReg).extractLsb' 2 5)) ∧
  (∀ i, i < 32 → (t.cp0 statusReg).getLsbD i = if i = 1 then true else (s.cp0 statusReg).getLsbD i) ∧
  (s.exl = false → t.cp0 epcReg = (if s.inDs then s.pc - 4#32 else s.pc) ∧
    (t.cp0 causeReg).getLsbD 31 = s.inDs) ∧
  (∀ z, e = .coprocessorUnusable z → (t.cp0 causeReg).extractLsb' 28 2 = z) ∧
  ((∀ z, e ≠ .coprocessorUnusable z) → (t.cp0 causeReg).extractLsb' 28 2 = (s.cp0 causeReg).extractLsb' 28 2) ∧
  (∀ i, i < 28 → ¬ (2 ≤ i ∧ i < 7) → (t.cp0 causeReg).getLsbD i = (s.cp0 causeReg).getLsbD i) ∧
  (t.cp0 causeReg).getLsbD 30 = (s.cp0 causeReg).getLsbD 30 ∧
  (∀ v k, e = .addressError v k → t.cp0 badVAddrReg = v) ∧
  ((∀ v k, e ≠ .addressError v k) → t.cp0 badVAddrReg = s.cp0 badVAddrReg) ∧
  (∀ r, r ≠ statusReg → r ≠ causeReg → r ≠ epcReg → r ≠ badVAddrReg → t.cp0 r = s.cp0 r)

/-- R349 (under R341, log entries 1 and 2): an exception raised while EXL is 1 leaves EPC and Cause.BD, writes its code and goes
to the same vector. -/
def Obligations.NestedException : Prop := ∀ (s t : State) (e : Exc), Takes s t e → s.exl = true →
  t.cp0 epcReg = s.cp0 epcReg ∧ (t.cp0 causeReg).getLsbD 31 = (s.cp0 causeReg).getLsbD 31 ∧
  (∀ h, HandledBy s.platform.handlers e h →
    (t.cp0 causeReg).extractLsb' 2 5 = h.code ∧ t.pc = if s.bev then h.bootVector else h.vector) ∧
  (s.platform.handlers = Handlers.general → GeneralCode e ((t.cp0 causeReg).extractLsb' 2 5)) ∧ t.exl = true

/-- R341, R343, R348, R350 (log entries 1, 2, 3): `eret` after an exception taken from outside any exception level goes back to
the instruction that raised, or to the branch before its slot, with Status as it was, LLbit 0, and nothing else changed but EPC,
Cause and BadVAddr; by the default of R355 coprocessor 0 is usable in the handler. -/
def Obligations.ReturnFromException : Prop := ∀ (s t : State) (e : Exc), Takes s t e → s.exl = false → s.erl = false →
  (s.platform.cop0 = CopRule.general0 → Cop0OK t) ∧
  (Cop0OK t →
  ∃ u, exec .eret t = .next u ∧ u.pc = (if s.inDs then s.pc - 4#32 else s.pc) ∧ u.npc = u.pc + 4#32 ∧ u.inDs = false ∧
    u.cp0 statusReg = s.cp0 statusReg ∧ u.mode = s.mode ∧ u.llbit = false ∧
    (∀ r, r ≠ epcReg → r ≠ causeReg → r ≠ badVAddrReg → u.cp0 r = s.cp0 r) ∧
    u = { s with cp0Regs := u.cp0Regs, llbit := u.llbit, pc := u.pc, npc := u.npc, inDs := u.inDs } ∧ SameMemory s u)

/-- R26, R228, R348: `eret` where coprocessor 0 is usable: through ErrorEPC clearing ERL, or through EPC clearing EXL; LLbit is
cleared, no delay slot follows, and nothing else changes. -/
def Obligations.ExceptionReturn : Prop :=
  HasRow .eret 0xffffffff#32 0x42000018#32 ∧ ∀ s : State, Cop0OK s → ∃ t, exec .eret s = .next t ∧
  t = { s with cp0Regs := t.cp0Regs, llbit := t.llbit, pc := t.pc, npc := t.npc, inDs := t.inDs } ∧ SameMemory s t ∧
  t.llbit = false ∧ t.pc = (if s.erl then s.cp0 errorEpcReg else s.cp0 epcReg) ∧ t.npc = t.pc + 4#32 ∧ t.inDs = false ∧
  (∀ i, i < 32 → (t.cp0 statusReg).getLsbD i =
    if i = (if s.erl then 2 else 1) then false else (s.cp0 statusReg).getLsbD i) ∧
  (∀ r, r ≠ statusReg → t.cp0 r = s.cp0 r)

/-- R229, R230, R360: where coprocessor 0 is usable, `mfc0` reads and `mtc0` writes all 32 bits of the CP0 registers that D24
lists; the others are refused, or are storage where the launch makes them so (R34; log entry 17); Count and Compare are refused
always. -/
def Obligations.Cp0Moves : Prop := ∀ (rt rd : Reg) (s : State),
  HasRows [(.mfc0 rt rd, 0xffe007ff#32, 0x40000000#32), (.mtc0 rt rd, 0xffe007ff#32, 0x40800000#32)] ∧ (Cop0OK s →
  (Cp0Readable s rd → ∃ t, exec (.mfc0 rt rd) s = .next t ∧ Writes s t rt (s.cp0 rd)) ∧
  (Cp0Writable s rd → ∃ t, exec (.mtc0 rt rd) s = .next t ∧ t.cp0 rd = s.x rt ∧ (∀ r, r ≠ rd → t.cp0 r = s.cp0 r) ∧
    t = { s with cp0Regs := t.cp0Regs, pc := t.pc, npc := t.npc, inDs := t.inDs } ∧ SameMemory s t ∧ Advanced s t) ∧
  (rd = 9#5 ∨ rd = 11#5 → exec (.mfc0 rt rd) s = .refused .timerRegister ∧ exec (.mtc0 rt rd) s = .refused .timerRegister) ∧
  (¬ Cp0Readable s rd → rd ≠ 9#5 → rd ≠ 11#5 → exec (.mfc0 rt rd) s = .refused .unlistedCp0Register) ∧
  (¬ Cp0Writable s rd → rd ≠ 9#5 → rd ≠ 11#5 → exec (.mtc0 rt rd) s = .refused .unlistedCp0Register))

/-- R225, R240, R336, R355: an instruction of a coprocessor that is not usable takes CoprocessorUnusable with the coprocessor's
number, and is refused where usability needs a mode that KSU = 11 does not give (log entry 18); the modes, and CopUsable by its
default: coprocessor 0 in kernel mode or with CU0, coprocessor 1 with CU1. -/
def Obligations.CoprocessorUnusable : Prop := ∀ (i : Instr) (s : State),
  (i.brokenByFields = none →
    (usesCop0 i = true → s.cop0Usable = some false → ∃ t, exec i s = .next t ∧ Takes s t (.coprocessorUnusable 0#2)) ∧
    (usesCop0 i = true → s.cop0Usable = none → exec i s = .refused .reservedMode) ∧
    (usesCop1 i = true → s.cop1Usable = some false → ∃ t, exec i s = .next t ∧ Takes s t (.coprocessorUnusable 1#2)) ∧
    (usesCop1 i = true → s.cop1Usable = none → exec i s = .refused .reservedMode)) ∧
  ((s.exl = true ∨ s.erl = true ∨ s.ksu = 0#2) → s.mode = some .kernel) ∧
  (s.exl = false → s.erl = false → (s.ksu = 1#2 → s.mode = some .supervisor) ∧ (s.ksu = 2#2 → s.mode = some .user)) ∧
  (ReservedMode s → s.mode = none) ∧
  (s.platform.cop0 = CopRule.general0 →
    (s.mode = some .kernel → s.cop0Usable = some true) ∧
    ((s.mode = some .user ∨ s.mode = some .supervisor) → s.cop0Usable = some s.cu0) ∧
    (ReservedMode s → s.cop0Usable = none)) ∧
  (s.platform.cop1 = CopRule.general1 → s.cop1Usable = some s.cu1)

/-- R225, R341, R357: the CP0 registers change only by taking an exception, by `mtc0` and by `eret`; and where coprocessor 0 is
not usable (by default: outside kernel mode without CU0) only by taking an exception. -/
def Obligations.Cp0ChangesOnlyAsStated : Prop := ∀ (i : Instr) (s t : State), exec i s = .next t →
  (t.cp0Regs = s.cp0Regs ∨ (∃ e, t.cp0Regs = (s.trapCp0 e).cp0Regs) ∨ (∃ rt rd, i = .mtc0 rt rd) ∨ i = .eret) ∧
  (¬ Cop0OK s → t.cp0Regs = s.cp0Regs ∨ ∃ e, t.cp0Regs = (s.trapCp0 e).cp0Regs)

/-! ### The FPU interface -/

/-- R241 to R244, R38: where coprocessor 1 is usable, the branches on the FPU condition, FCR31 bit 23. -/
def Obligations.FpuBranches : Prop := ∀ (offset : BitVec 16) (s : State),
  HasRows [(.bc1f offset, 0xffff0000#32, 0x45000000#32), (.bc1t offset, 0xffff0000#32, 0x45010000#32),
    (.bc1fl offset, 0xffff0000#32, 0x45020000#32), (.bc1tl offset, 0xffff0000#32, 0x45030000#32)] ∧ (Cop1OK s →
  (∃ t, exec (.bc1f offset) s = .next t ∧ Branches s t (s.fcr31.getLsbD 23 = false) (targetOf s offset)) ∧
  (∃ t, exec (.bc1t offset) s = .next t ∧ Branches s t (s.fcr31.getLsbD 23 = true) (targetOf s offset)) ∧
  (∃ t, exec (.bc1fl offset) s = .next t ∧ OnlyPc s t ∧ SameMemory s t ∧
    LikelyPc s t (s.fcr31.getLsbD 23 = false) (targetOf s offset)) ∧
  (∃ t, exec (.bc1tl offset) s = .next t ∧ OnlyPc s t ∧ SameMemory s t ∧
    LikelyPc s t (s.fcr31.getLsbD 23 = true) (targetOf s offset)))

/-- R36, R37, R245, R246, R337, R345 (the layout of FCR31: log entry 24): `cfc1` reads FCR0 and FCR31; `ctc1` writes FCR31, and
then takes FloatingPoint exactly when a Cause bit and its Enable bit are both 1 or the Unimplemented Cause bit is. -/
def Obligations.FpuControlMoves : Prop := ∀ (rt fs : Reg) (s : State),
  HasRows [(.cfc1 rt fs, 0xffe007ff#32, 0x44400000#32), (.ctc1 rt fs, 0xffe007ff#32, 0x44c00000#32)] ∧ (Cop1OK s →
  (∃ t, exec (.cfc1 rt 0#5) s = .next t ∧ Writes s t rt s.fcr0) ∧
  (∃ t, exec (.cfc1 rt 31#5) s = .next t ∧ Writes s t rt s.fcr31) ∧
  ((s.x rt).getLsbD 17 = false → (∀ i, i < 5 → ¬ ((s.x rt).getLsbD (12 + i) = true ∧ (s.x rt).getLsbD (7 + i) = true)) →
    ∃ t, exec (.ctc1 rt 31#5) s = .next t ∧ t.fcr31 = s.x rt ∧
      t = { s with fcr31 := t.fcr31, pc := t.pc, npc := t.npc, inDs := t.inDs } ∧ SameMemory s t ∧ Advanced s t) ∧
  (((s.x rt).getLsbD 17 = true ∨ ∃ i, i < 5 ∧ (s.x rt).getLsbD (12 + i) = true ∧ (s.x rt).getLsbD (7 + i) = true) →
    ∃ t, exec (.ctc1 rt 31#5) s = .next t ∧ Takes { s with fcr31 := s.x rt } t .floatingPoint))

/-- R35, R247 to R250: where coprocessor 1 is usable, the moves, the load and the store of FPU registers; the data
cache as for the other loads and stores (R70; log entry 12, DEDUCED). -/
def Obligations.FpuDataMoves : Prop := ∀ (r fs base : Reg) (offset : BitVec 16) (s : State),
  HasRows [(.mfc1 r fs, 0xffe007ff#32, 0x44000000#32), (.mtc1 r fs, 0xffe007ff#32, 0x44800000#32),
    (.lwc1 fs base offset, 0xfc000000#32, 0xc4000000#32), (.swc1 fs base offset, 0xfc000000#32, 0xe4000000#32)] ∧
  (s.Coherent → Cop1OK s →
  (∃ t, exec (.mfc1 r fs) s = .next t ∧ Writes s t r (s.f fs)) ∧
  (∃ t, exec (.mtc1 r fs) s = .next t ∧ t.f fs = s.x r ∧ (∀ q, q ≠ fs → t.f q = s.f q) ∧
    t = { s with fpr := t.fpr, pc := t.pc, npc := t.npc, inDs := t.inDs } ∧ SameMemory s t ∧ Advanced s t) ∧
  (LoadOK s (s.effAddr base offset) 4 → ∃ t, exec (.lwc1 fs base offset) s = .next t ∧
    (∀ i, i < 4 → byteOf (t.f fs) i = s.dataByte ((s.effAddr base offset).toNat + i)) ∧ (∀ q, q ≠ fs → t.f q = s.f q) ∧
    t = { s with fpr := t.fpr, dcache := t.dcache, writebackBuf := t.writebackBuf,
                 pc := t.pc, npc := t.npc, inDs := t.inDs } ∧
    LoadsThrough s t (s.effAddr base offset).toNat ∧ SameMemory s t ∧ Advanced s t) ∧
  (StoreOK s (s.effAddr base offset) 4 → ∃ t, exec (.swc1 fs base offset) s = .next t ∧
    Stores s t (s.effAddr base offset).toNat
      [byteOf (s.f fs) 0, byteOf (s.f fs) 1, byteOf (s.f fs) 2, byteOf (s.f fs) 3]))

/-! ### What no other instruction changes -/

/-- R30, R35 to R39, R36, D23: which instructions change LLbit, HI, LO, the FPU registers and FCR31; none changes FCR0, and none
the launch parameters. -/
def Obligations.SpecialRegisterWriters : Prop := ∀ (i : Instr) (s t : State), exec i s = .next t →
  (t.llbit = s.llbit ∨ (∃ rt b o, i = .ll rt b o) ∨ i = .eret) ∧
  ((t.hi = s.hi ∧ t.lo = s.lo) ∨ writesHiLo i = true) ∧
  (t.fpr = s.fpr ∨ (∃ rt fs, i = .mtc1 rt fs) ∨ ∃ ft b o, i = .lwc1 ft b o) ∧
  (t.fcr31 = s.fcr31 ∨ ∃ rt fs, i = .ctc1 rt fs) ∧ t.fcr0 = s.fcr0 ∧ t.platform = s.platform

/-- R21, R379: no instruction changes a general register other than the one its row of R379 names as written; and register 0
reads as 0 in every state. -/
def Obligations.GeneralRegisterFrame : Prop := ∀ (i : Instr) (s t : State), exec i s = .next t →
  (∀ r, dstReg i ≠ some r → t.x r = s.x r) ∧ t.x 0#5 = 0#32

/-- R63, R70, R71, R307: an instruction that is no store, no Create Dirty Exclusive and no Hit Invalidate (D) changes no byte a
load sees, whatever it does to the caches and the buffers. -/
def Obligations.DataFrame : Prop := ∀ (i : Instr) (s t : State), s.Coherent → Memory.wf s.mem = true →
  changesData i = false → exec i s = .next t → SameData s t

/-! ### Cache functions and `sync` -/

/-- R290, R292 to R296: the five instruction-cache functions where the address is permitted; a Fill that hits does nothing, also
where a bus error stands at its line. -/
def Obligations.InstructionCacheFunctions : Prop := ∀ (base : Reg) (offset : BitVec 16) (s : State),
  let a := (s.effAddr base offset).toNat
  let c := s.iset a
  HasRows [(.cacheIndexInvalidateI base offset, 0xfc1f0000#32, 0xbc040000#32),
    (.cacheIndexUnlockI base offset, 0xfc1f0000#32, 0xbc060000#32),
    (.cacheHitInvalidateI base offset, 0xfc1f0000#32, 0xbc080000#32),
    (.cacheFillI base offset, 0xfc1f0000#32, 0xbc0a0000#32),
    (.cacheFillLockI base offset, 0xfc1f0000#32, 0xbc0b0000#32)] ∧ (CacheOK s (s.effAddr base offset) →
  (∃ t, exec (.cacheIndexInvalidateI base offset) s = .next t ∧ OnlyIset s t a ∧
    t.iset a =
      match c.wayA.valid, c.wayB.valid with
      | true, true => c.invalidate c.lru
      | true, false => { c.invalidate .A with lock := false }
      | false, true => { c.invalidate .B with lock := false }
      | false, false => c) ∧
  (∃ t, exec (.cacheIndexUnlockI base offset) s = .next t ∧ OnlyIset s t a ∧ t.iset a = { c with lock := false }) ∧
  (∃ t, exec (.cacheHitInvalidateI base offset) s = .next t ∧ OnlyIset s t a ∧
    (s.iHit a = none → t.icache = s.icache) ∧
    (∀ w, s.iHit a = some w →
      ((t.iset a).line w).valid = false ∧
      (t.iset a).line w.other = c.line w.other ∧
      (t.iset a).lru = c.lru ∧
      (t.iset a).lock = (c.lock && !c.locked w))) ∧
  (∀ k : Bool,
    ((s.iHit a).isSome = true → ∃ t, exec (if k then .cacheFillLockI base offset else .cacheFillI base offset) s = .next t ∧
      OnlyPc s t ∧ SameMemory s t ∧ Advanced s t) ∧
    (s.iHit a = none → FillOK s a →
      ∃ t, exec (if k then .cacheFillLockI base offset else .cacheFillI base offset) s = .next t ∧ OnlyIset s t a ∧
        FillsI s t a k)))

/-- R71, R290, R297, R298, R301, R302: the data-cache functions that write back, invalidate after writing back, or unlock: what
each does to its set, that the bytes of a dirty line enter the writeback buffer as one write and those of a clean line do not,
and that no byte a load or a fetch sees changes. -/
def Obligations.DataCacheMaintenance : Prop := ∀ (base : Reg) (offset : BitVec 16) (s : State),
  let a := (s.effAddr base offset).toNat
  let c := s.dset a
  HasRows [(.cacheIndexWritebackInvalidateD base offset, 0xfc1f0000#32, 0xbc140000#32),
    (.cacheIndexUnlockD base offset, 0xfc1f0000#32, 0xbc160000#32),
    (.cacheHitWritebackD base offset, 0xfc1f0000#32, 0xbc1a0000#32),
    (.cacheHitWritebackInvalidateD base offset, 0xfc1f0000#32, 0xbc1b0000#32)] ∧
  (s.Coherent → CacheOK s (s.effAddr base offset) →
  (∃ t, exec (.cacheIndexWritebackInvalidateD base offset) s = .next t ∧ OnlyDset s t a ∧ SameMemory s t ∧
    (∀ w, (c.line w).valid = true → ((c.line w.other).valid = true → c.lru = w) →
      WrittenBack s t (s.platform.lineAddr .data (s.platform.setOf .data a) (c.line w).tag) (c.line w)) ∧
    (c.wayA.valid = false → c.wayB.valid = false → t.writebackBuf = s.writebackBuf) ∧
    t.dset a =
      match c.wayA.valid, c.wayB.valid with
      | true, true => c.invalidate c.lru
      | true, false => { c.invalidate .A with lock := false }
      | false, true => { c.invalidate .B with lock := false }
      | false, false => c) ∧
  (∃ t, exec (.cacheIndexUnlockD base offset) s = .next t ∧ OnlyDset s t a ∧ SameMemory s t ∧
    t.writebackBuf = s.writebackBuf ∧ t.dset a = { c with lock := false }) ∧
  (∃ t, exec (.cacheHitWritebackD base offset) s = .next t ∧ OnlyDset s t a ∧ SameMemory s t ∧
    (s.dHit a = none → t.dcache = s.dcache ∧ t.writebackBuf = s.writebackBuf) ∧
    (∀ w, s.dHit a = some w →
      WrittenBack s t (s.platform.lineOf a) (c.line w) ∧
      t.dset a = c.setLine w { c.line w with dirty := false })) ∧
  (∃ t, exec (.cacheHitWritebackInvalidateD base offset) s = .next t ∧ OnlyDset s t a ∧ SameMemory s t ∧ t.dHit a = none ∧
    (s.dHit a = none → t.dcache = s.dcache ∧ t.writebackBuf = s.writebackBuf) ∧
    (∀ w, s.dHit a = some w →
      WrittenBack s t (s.platform.lineOf a) (c.line w) ∧
      (t.dset a).lru = c.lru ∧
      (t.dset a).line w.other = c.line w.other ∧
      (t.dset a).lock = (c.lock && !c.locked w))))

/-- R291, R295, R296, R304, R305, R333: Fill and Fill with Lock (D): nothing on a hit, also where a bus error stands at the
line; on a miss a clean line in the way the LRU points to, and the other way as before; no byte a load or a fetch sees
changes; a bus error at the line is taken, for the instruction cache's fills too. -/
def Obligations.DataCacheFills : Prop := ∀ (base : Reg) (offset : BitVec 16) (s : State),
  let a := (s.effAddr base offset).toNat
  HasRows [(.cacheFillD base offset, 0xfc1f0000#32, 0xbc1e0000#32),
    (.cacheFillLockD base offset, 0xfc1f0000#32, 0xbc1f0000#32)] ∧
  (s.Coherent → CacheOK s (s.effAddr base offset) → ∀ k : Bool,
  ((s.dHit a).isSome = true → ∃ t, exec (if k then .cacheFillLockD base offset else .cacheFillD base offset) s = .next t ∧
    OnlyPc s t ∧ SameMemory s t ∧ Advanced s t) ∧
  (s.dHit a = none → FillOK s a →
    ∃ t, exec (if k then .cacheFillLockD base offset else .cacheFillD base offset) s = .next t ∧
      OnlyDset s t a ∧ SameMemory s t ∧ FillsD s t a k) ∧
  (s.busErr (s.platform.lineOf a) .cacheop = true →
    (s.dHit a = none →
      ∃ t, exec (if k then .cacheFillLockD base offset else .cacheFillD base offset) s = .next t ∧
        Takes s t (.busError (BitVec.ofNat 32 (s.platform.lineOf a)) .cacheop .data)) ∧
    (s.iHit a = none →
      ∃ t, exec (if k then .cacheFillLockI base offset else .cacheFillI base offset) s = .next t ∧
        Takes s t (.busError (BitVec.ofNat 32 (s.platform.lineOf a)) .cacheop .instruction))))

/-- R299, R303: Create Dirty Exclusive, with and without Lock: on a cache address the line is present and dirty, in the way that
held it or else in the way the LRU points to, whose dirty line is written back; the LRU bit then points to the other way unless
the set was locked, and with Lock the set is locked, so that the new line of a set that was not is locked; no byte of another
line changes (nothing is said of its own bytes, log entry 16); on a non-cache address it is refused. -/
def Obligations.CreateDirtyExclusive : Prop := ∀ (base : Reg) (offset : BitVec 16) (s : State),
  let a := (s.effAddr base offset).toNat
  let c := s.dset a
  HasRows [(.cacheCreateDirtyD base offset, 0xfc1f0000#32, 0xbc180000#32),
    (.cacheCreateDirtyLockD base offset, 0xfc1f0000#32, 0xbc1c0000#32)] ∧
  (s.Coherent → CacheOK s (s.effAddr base offset) → ∀ k : Bool,
  (s.platform.cacheable a = true →
    ∃ t w, exec (if k then .cacheCreateDirtyLockD base offset else .cacheCreateDirtyD base offset) s = .next t ∧
    t = { s with dcache := t.dcache, writebackBuf := t.writebackBuf, free := t.free,
                 pc := t.pc, npc := t.npc, inDs := t.inDs } ∧ Advanced s t ∧
    (∀ v, s.dHit a = some v → w = v ∧ t.writebackBuf = s.writebackBuf) ∧
    (s.dHit a = none → w = c.lru ∧ Displaces s t a w) ∧
    t.dHit a = some w ∧ ((t.dset a).line w).dirty = true ∧ Placed c (t.dset a) w k ∧
    (∀ b, s.platform.setOf .data b ≠ s.platform.setOf .data a → t.dset b = s.dset b) ∧
    (k = true → c.lock = false → (t.dset a).locked w = true) ∧
    (∀ b, s.platform.lineOf b ≠ s.platform.lineOf a → t.dataByte b = s.dataByte b) ∧
    (∀ b, t.fetchByte b = s.fetchByte b)) ∧
  (s.platform.cacheable a = false →
    exec (if k then .cacheCreateDirtyLockD base offset else .cacheCreateDirtyD base offset) s =
      .refused .createOnNonCacheAddress))

/-- R71, R300: Hit Invalidate (D) drops the line without a writeback: its bytes read as what lies beneath the cache, and every
other byte as before; the Lock bit is cleared if the line was locked and kept otherwise; a miss changes no cache. -/
def Obligations.HitInvalidateDropsLine : Prop := ∀ (base : Reg) (offset : BitVec 16) (s : State),
  let a := (s.effAddr base offset).toNat
  let c := s.dset a
  HasRows [(.cacheHitInvalidateD base offset, 0xfc1f0000#32, 0xbc190000#32)] ∧
  (s.Coherent → CacheOK s (s.effAddr base offset) →
  ∃ t, exec (.cacheHitInvalidateD base offset) s = .next t ∧ OnlyDset s t a ∧
    t.writebackBuf = s.writebackBuf ∧ t.dHit a = none ∧ (∀ b, t.fetchByte b = s.fetchByte b) ∧
    (s.dHit a = none → t.dcache = s.dcache) ∧
    (∀ w, s.dHit a = some w →
      (t.dset a).line w.other = c.line w.other ∧
      (t.dset a).lru = c.lru ∧
      (c.locked w = true → (t.dset a).lock = false) ∧
      (c.locked w = false → (t.dset a).lock = c.lock)) ∧
    ∀ b, t.dataByte b =
      if s.platform.lineOf b = s.platform.lineOf a then s.busByte b else s.dataByte b)

/-- R65, R307: after `sync` both write buffers are empty, memory holds what the processor saw beneath its data cache, and no
register, no cache and no byte a load sees has changed. -/
def Obligations.SyncEmptiesBuffers : Prop := HasRow .sync 0xffffffff#32 0x0000000f#32 ∧
  ∀ s : State, s.Coherent → Memory.wf s.mem = true → ∃ t, exec .sync s = .next t ∧
    t.writebackBuf = [] ∧ t.nonCacheBuf = [] ∧ (∀ b, Memory.read t.mem b = s.busByte b) ∧ SameData s t ∧ Advanced s t ∧
    t = { s with mem := t.mem, writebackBuf := t.writebackBuf, nonCacheBuf := t.nonCacheBuf,
                 pc := t.pc, npc := t.npc, inDs := t.inDs }

/-- R65, R67, R294, R301, R388: Hit WriteBack (D), `sync` and Hit Invalidate (I) of one line complete, and after them memory and
the instruction fetch see, in every byte of the line, what a load saw before. The sequence is R388's from general knowledge;
that a fetch sees the instruction cache and memory, and neither the data cache nor the write buffers, is the model's reading
(log entry 13, DEDUCED). -/
def Obligations.NewCodeBecomesVisible : Prop := ∀ (base : Reg) (offset : BitVec 16) (s : State), s.Inv → s.Coherent →
  CacheOK s (s.effAddr base offset) →
  ∃ t u v, exec (.cacheHitWritebackD base offset) s = .next t ∧ exec .sync t = .next u ∧
    exec (.cacheHitInvalidateI base offset) u = .next v ∧
    ∀ b, s.platform.lineOf b = s.platform.lineOf (s.effAddr base offset).toNat →
      Memory.read v.mem b = s.dataByte b ∧ v.fetchByte b = s.dataByte b ∧ v.dataByte b = s.dataByte b

/-- R41, R70, R291, R295, R296, R299, R303, R304, R305: no load, store, Fill or Create of the data cache, no Fill of the
instruction cache and no fill of a fetch replaces a locked line by another: its way keeps its line and stays locked. -/
def Obligations.LockedLineStays : Prop := ∀ (i : Instr) (s t : State) (a : Nat) (w : Way), s.Coherent →
  (((dataAccess i).isSome = true ∨ (∃ b o, i = .cacheFillD b o) ∨ (∃ b o, i = .cacheFillLockD b o) ∨
      (∃ b o, i = .cacheCreateDirtyD b o) ∨ ∃ b o, i = .cacheCreateDirtyLockD b o) →
    exec i s = .next t → (s.dset a).locked w = true → ((s.dset a).line w).valid = true →
    (t.dset a).locked w = true ∧ ((t.dset a).line w).valid = true ∧ ((t.dset a).line w).tag = ((s.dset a).line w).tag) ∧
  (((∃ b o, i = .cacheFillI b o) ∨ ∃ b o, i = .cacheFillLockI b o) →
    exec i s = .next t → (s.iset a).locked w = true → ((s.iset a).line w).valid = true →
    (t.iset a).locked w = true ∧ (t.iset a).line w = (s.iset a).line w) ∧
  ((s.iset a).locked w = true → ((s.iset a).line w).valid = true →
    (s.fetched.iset a).locked w = true ∧ (s.fetched.iset a).line w = (s.iset a).line w)

/-! ### What holds of every state -/

/-- R27, R50, R291, R379: every step keeps the invariant of Safety.lean: memory in its canonical form, `npc` the next word outside
a delay slot, the owner of a delay slot the branch executed before it, no line in both ways of the instruction cache. -/
def Obligations.StepKeepsInv : Prop := ∀ s t : State, s.Inv → step s = .next t → t.Inv

/-- R41, R63, R70: every step keeps the data cache in agreement with what lies beneath it. -/
def Obligations.StepKeepsCoherent : Prop := ∀ s t : State, s.Inv → s.Coherent → step s = .next t → t.Coherent

/-- R44, R371: the state after reset meets both invariants, in kernel mode with ERL and BEV set, at the reset vector; its open
values are the model's choice (log entries 6, 7, 9, 11). R373: so does every launch state whose caches are empty, at its own
address, with the registers and every byte of memory the launch gives (of parts that overlap the later one's) and an empty
history, and with the parameters of R7 that the launch gives; where the launch leaves AddrOK and BusErr to R373's default, what
it permits is the domain of its memory, there are no bus errors, and running past that domain takes AddressError; its Status by
default is kernel mode with EXL = ERL = BEV = 0 and CU0 = CU1 = 1. THE MODEL'S CHOICES: that LINE, ISETS and DSETS are powers of
two is log entry 10 (DESIGN CHOICE); in the last clause, the delivery of that AddressError is log entry 1 (PRESUMED), and that
the history has no instruction for such a step (`recordNone`) is log entry 20 (DESIGN CHOICE). -/
def Obligations.ResetState : Prop :=
  (State.reset.Inv ∧ State.reset.Coherent ∧ State.reset.mode = some .kernel ∧ State.reset.erl = true ∧
  State.reset.bev = true ∧ State.reset.exl = false ∧ State.reset.pc = 0xBFC00000#32 ∧
  State.reset.npc = State.reset.pc + 4#32 ∧ State.reset.inDs = false ∧ (∀ r, State.reset.x r = 0#32) ∧
  State.reset.llbit = false ∧ State.reset.writebackBuf = [] ∧ State.reset.nonCacheBuf = []) ∧
  ∀ l : Launch, (l.icache = [] → (State.launch l).Inv) ∧ (l.dcache = [] → (State.launch l).Coherent) ∧
    (State.launch l).pc = l.pc ∧ (State.launch l).npc = l.pc + 4#32 ∧ (State.launch l).inDs = false ∧
    (State.launch l).x 0#5 = 0#32 ∧ (∀ r, r ≠ 0#5 → (State.launch l).x r = l.gpr.get r.toFin) ∧
    (∀ r, (State.launch l).f r = l.fpr.get r.toFin) ∧
    (State.launch l).hi = l.hi ∧ (State.launch l).lo = l.lo ∧ (State.launch l).llbit = l.llbit ∧
    (State.launch l).fcr0 = l.fcr0 ∧ (State.launch l).fcr31 = l.fcr31 ∧
    (State.launch l).cp0 statusReg = l.status ∧ (State.launch l).cp0 causeReg = l.cause ∧
    (State.launch l).cp0 epcReg = l.epc ∧ (State.launch l).cp0 errorEpcReg = l.errorEpc ∧
    (State.launch l).cp0 badVAddrReg = l.badVAddr ∧
    (State.launch l).icache = l.icache ∧ (State.launch l).dcache = l.dcache ∧
    (State.launch l).writebackBuf = [] ∧ (State.launch l).nonCacheBuf = [] ∧
    (State.launch l).owner = none ∧ (State.launch l).h1 = none ∧ (State.launch l).h2 = none ∧
    (State.launch l).h1FpTrap = false ∧ (State.launch l).platform.haltPC = some l.haltPC ∧
    (∀ rs, l.regions = some rs → (State.launch l).platform.regions = rs) ∧
    (State.launch l).platform.line = 2 ^ l.lineBits ∧ (State.launch l).platform.sets .instruction = 2 ^ l.iSetBits ∧
    (State.launch l).platform.sets .data = 2 ^ l.dSetBits ∧ (State.launch l).platform.handlers = l.handlers ∧
    (State.launch l).platform.cop0 = l.cop0 ∧ (State.launch l).platform.cop1 = l.cop1 ∧
    (State.launch l).platform.cp0Storage = l.cp0Storage ∧
    (l.regions = none → (∀ a m k, (State.launch l).addrOK a m k = true ↔
        ∃ part ∈ l.image, part.1 ≤ a.toNat ∧ a.toNat < part.1 + part.2.length) ∧
      ∀ a k, (State.launch l).busErr a k = false) ∧
    (∀ before base bytes after i, l.image = before ++ (base, bytes) :: after → i < bytes.length →
      (∀ part ∈ after, ¬ (part.1 ≤ base + i ∧ base + i < part.1 + part.2.length)) →
      Memory.read (State.launch l).mem (base + i) = bytes.getD i 0#8 ∧
      (l.dcache = [] → (State.launch l).dataByte (base + i) = bytes.getD i 0#8) ∧
      (l.icache = [] → (State.launch l).fetchByte (base + i) = bytes.getD i 0#8)) ∧
    (l.status = launchStatus → (State.launch l).mode = some .kernel ∧ (State.launch l).exl = false ∧
      (State.launch l).erl = false ∧ (State.launch l).bev = false ∧ (State.launch l).cu0 = true ∧
      (State.launch l).cu1 = true) ∧
    (∀ m, (State.launch l).mode = some m → l.regions = none → l.pc ≠ l.haltPC → l.pc.toNat % 4 = 0 →
      l.inDomain l.pc.toNat = false →
      step (State.launch l) =
        .next (((State.launch l).trapEntry (.addressError l.pc .fetch)).recordNone (State.launch l)))
end

