-- ==== Sys2Proof/Laws/Address.lean ====
section
/-! SUPPORT. How an address splits into line, set, tag and offset (R291), and which addresses share a line. -/

namespace Sys2Proof.Machine

theorem Platform.line_pos (p : Platform) : 0 < p.line := Nat.two_pow_pos _

theorem Platform.sets_pos (p : Platform) (c : CacheSide) : 0 < p.sets c := by
  cases c <;> exact Nat.two_pow_pos _

theorem Platform.offsetOf_lt (p : Platform) (a : Nat) : p.offsetOf a < p.line := Nat.mod_lt _ p.line_pos

theorem Platform.setOf_lt (p : Platform) (c : CacheSide) (a : Nat) : p.setOf c a < p.sets c := Nat.mod_lt _ (p.sets_pos c)

theorem Platform.lineOf_add_offsetOf (p : Platform) (a : Nat) : p.lineOf a + p.offsetOf a = a := by
  have := Nat.mod_le a p.line
  unfold Platform.lineOf Platform.offsetOf; omega

theorem Platform.lineOf_eq (p : Platform) (a : Nat) : p.lineOf a = a / p.line * p.line := by
  have := Nat.div_add_mod a p.line
  unfold Platform.lineOf
  rw [Nat.mul_comm] at this; omega

/-- The line that an address's set and tag name is the address's own. -/
theorem Platform.lineAddr_setOf_tagOf (p : Platform) (c : CacheSide) (a : Nat) :
    p.lineAddr c (p.setOf c a) (p.tagOf c a) = p.lineOf a := by
  unfold Platform.lineAddr Platform.setOf Platform.tagOf
  rw [p.lineOf_eq, ← Nat.div_div_eq_div_mul, Nat.mul_comm (a / p.line / p.sets c), Nat.div_add_mod]

/-- An address within a named line has that line's set and tag. -/
theorem Platform.split_lineAddr (p : Platform) (c : CacheSide) {i tag o : Nat} (hi : i < p.sets c) (ho : o < p.line) :
    p.setOf c (p.lineAddr c i tag + o) = i ∧ p.tagOf c (p.lineAddr c i tag + o) = tag ∧
      p.offsetOf (p.lineAddr c i tag + o) = o := by
  have hd : (p.lineAddr c i tag + o) / p.line = tag * p.sets c + i := by
    unfold Platform.lineAddr
    rw [Nat.add_comm, Nat.add_mul_div_right _ _ p.line_pos, Nat.div_eq_of_lt ho, Nat.zero_add]
  refine ⟨?_, ?_, ?_⟩
  · unfold Platform.setOf
    rw [hd, Nat.add_comm, Nat.add_mul_mod_self_right, Nat.mod_eq_of_lt hi]
  · unfold Platform.tagOf
    rw [← Nat.div_div_eq_div_mul, hd, Nat.add_comm, Nat.add_mul_div_right _ _ (p.sets_pos c), Nat.div_eq_of_lt hi, Nat.zero_add]
  · unfold Platform.offsetOf Platform.lineAddr
    rw [Nat.add_comm, Nat.add_mul_mod_self_right, Nat.mod_eq_of_lt ho]

/-- Two addresses share a line exactly when they share set and tag. -/
theorem Platform.lineOf_eq_iff (p : Platform) (c : CacheSide) (a b : Nat) :
    p.lineOf a = p.lineOf b ↔ p.setOf c a = p.setOf c b ∧ p.tagOf c a = p.tagOf c b := by
  constructor
  · intro h
    have ha := p.split_lineAddr c (p.setOf_lt c a) (p.offsetOf_lt a) (tag := p.tagOf c a)
    have hb := p.split_lineAddr c (p.setOf_lt c b) (p.offsetOf_lt b) (tag := p.tagOf c b)
    have h0 : a / p.line = b / p.line := by
      rw [p.lineOf_eq, p.lineOf_eq] at h
      exact Nat.eq_of_mul_eq_mul_right p.line_pos h
    unfold Platform.setOf Platform.tagOf
    rw [← Nat.div_div_eq_div_mul, ← Nat.div_div_eq_div_mul, h0]; exact ⟨rfl, rfl⟩
  · rintro ⟨h1, h2⟩
    rw [← p.lineAddr_setOf_tagOf c a, ← p.lineAddr_setOf_tagOf c b, h1, h2]

/-- An address lies in a named line exactly when it has that set and tag. -/
theorem Platform.mem_line_iff (p : Platform) (c : CacheSide) {i tag : Nat} (hi : i < p.sets c) (a : Nat) :
    (p.lineAddr c i tag ≤ a ∧ a < p.lineAddr c i tag + p.line) ↔ p.setOf c a = i ∧ p.tagOf c a = tag := by
  constructor
  · rintro ⟨h1, h2⟩
    obtain ⟨o, rfl⟩ : ∃ o, a = p.lineAddr c i tag + o := ⟨a - p.lineAddr c i tag, by omega⟩
    have := p.split_lineAddr c hi (show o < p.line by omega) (tag := tag)
    exact ⟨this.1, this.2.1⟩
  · rintro ⟨rfl, rfl⟩
    rw [p.lineAddr_setOf_tagOf]
    have h1 := p.lineOf_add_offsetOf a
    have h2 := p.offsetOf_lt a
    omega

theorem Platform.lineOf_lineOf (p : Platform) (a : Nat) : p.lineOf (p.lineOf a) = p.lineOf a := by
  rw [p.lineOf_eq a]
  unfold Platform.lineOf
  rw [Nat.mul_mod_left]; rfl

theorem Platform.lineOf_add (p : Platform) (a : Nat) {o : Nat} (ho : o < p.line) : p.lineOf (p.lineOf a + o) = p.lineOf a := by
  rw [← p.lineAddr_setOf_tagOf .data a]
  have h := p.split_lineAddr .data (p.setOf_lt .data a) ho (tag := p.tagOf .data a)
  rw [← p.lineAddr_setOf_tagOf .data (p.lineAddr .data (p.setOf .data a) (p.tagOf .data a) + o), h.1, h.2.1]

/-- Whether an address is a cache address is decided for its whole line. -/
theorem Platform.cacheable_congr (p : Platform) {a b : Nat} (h : p.lineOf a = p.lineOf b) : p.cacheable a = p.cacheable b := by
  unfold Platform.cacheable; rw [h]

theorem Platform.cacheable_lineOf (p : Platform) (a : Nat) : p.cacheable (p.lineOf a) = p.cacheable a :=
  p.cacheable_congr (p.lineOf_lineOf a)

theorem Platform.cacheable_lineAddr_add (p : Platform) {i tag o : Nat} (hi : i < p.sets .data) (ho : o < p.line) :
    p.cacheable (p.lineAddr .data i tag + o) = p.cacheable (p.lineAddr .data i tag) := by
  apply p.cacheable_congr
  rw [p.lineOf_eq_iff .data]
  have h1 := p.split_lineAddr .data hi ho (tag := tag)
  have h2 := p.split_lineAddr .data hi p.line_pos (tag := tag)
  rw [Nat.add_zero] at h2
  exact ⟨h1.1.trans h2.1.symm, h1.2.1.trans h2.2.1.symm⟩

/-! ### The sets of a cache -/

/-- Reading a set after one has been put. -/
theorem Cache.get_put {i j : Nat} {v : CacheSet} : ∀ {c : List (Nat × CacheSet)},
    Cache.get (Cache.put c i v) j = if j = i then v else Cache.get c j
  | [] => by simp [Cache.put, Cache.get]
  | (k, w) :: c => by
    simp only [Cache.put]
    by_cases h1 : i < k
    · rw [if_pos h1]; simp [Cache.get]
    · rw [if_neg h1]
      by_cases h2 : i = k
      · subst h2
        rw [if_pos rfl]
        by_cases hj : j = i
        · simp [Cache.get, hj]
        · simp [Cache.get, hj]
      · rw [if_neg h2]
        simp only [Cache.get]
        by_cases hj : j = k
        · subst hj; simp [Ne.symm h2]
        · rw [if_neg hj, if_neg hj, Cache.get_put]

end Sys2Proof.Machine
end

