-- ==== Sys2Proof/Laws/State.lean ====
section
/-! SUPPORT. One lemma per field and per accessor for each update of State: none of the later proofs unfolds an update. -/

namespace Sys2Proof.Machine

/-! ### setX -/

@[simp] theorem State.setX_hi (s : State) (r : Reg) (v : Word) : (s.setX r v).hi = s.hi := rfl
@[simp] theorem State.setX_lo (s : State) (r : Reg) (v : Word) : (s.setX r v).lo = s.lo := rfl
@[simp] theorem State.setX_pc (s : State) (r : Reg) (v : Word) : (s.setX r v).pc = s.pc := rfl
@[simp] theorem State.setX_npc (s : State) (r : Reg) (v : Word) : (s.setX r v).npc = s.npc := rfl
@[simp] theorem State.setX_inDs (s : State) (r : Reg) (v : Word) : (s.setX r v).inDs = s.inDs := rfl
@[simp] theorem State.setX_cp0Regs (s : State) (r : Reg) (v : Word) : (s.setX r v).cp0Regs = s.cp0Regs := rfl
@[simp] theorem State.setX_fpr (s : State) (r : Reg) (v : Word) : (s.setX r v).fpr = s.fpr := rfl
@[simp] theorem State.setX_fcr0 (s : State) (r : Reg) (v : Word) : (s.setX r v).fcr0 = s.fcr0 := rfl
@[simp] theorem State.setX_fcr31 (s : State) (r : Reg) (v : Word) : (s.setX r v).fcr31 = s.fcr31 := rfl
@[simp] theorem State.setX_llbit (s : State) (r : Reg) (v : Word) : (s.setX r v).llbit = s.llbit := rfl
@[simp] theorem State.setX_icache (s : State) (r : Reg) (v : Word) : (s.setX r v).icache = s.icache := rfl
@[simp] theorem State.setX_dcache (s : State) (r : Reg) (v : Word) : (s.setX r v).dcache = s.dcache := rfl
@[simp] theorem State.setX_writebackBuf (s : State) (r : Reg) (v : Word) : (s.setX r v).writebackBuf = s.writebackBuf := rfl
@[simp] theorem State.setX_nonCacheBuf (s : State) (r : Reg) (v : Word) : (s.setX r v).nonCacheBuf = s.nonCacheBuf := rfl
@[simp] theorem State.setX_mem (s : State) (r : Reg) (v : Word) : (s.setX r v).mem = s.mem := rfl
@[simp] theorem State.setX_owner (s : State) (r : Reg) (v : Word) : (s.setX r v).owner = s.owner := rfl
@[simp] theorem State.setX_h1 (s : State) (r : Reg) (v : Word) : (s.setX r v).h1 = s.h1 := rfl
@[simp] theorem State.setX_h2 (s : State) (r : Reg) (v : Word) : (s.setX r v).h2 = s.h2 := rfl
@[simp] theorem State.setX_h1FpTrap (s : State) (r : Reg) (v : Word) : (s.setX r v).h1FpTrap = s.h1FpTrap := rfl
@[simp] theorem State.setX_platform (s : State) (r : Reg) (v : Word) : (s.setX r v).platform = s.platform := rfl
@[simp] theorem State.setX_free (s : State) (r : Reg) (v : Word) : (s.setX r v).free = s.free := rfl
@[simp] theorem State.setX_f (s : State) (r : Reg) (v : Word) (q : Reg) : (s.setX r v).f q = s.f q := rfl
@[simp] theorem State.setX_cp0 (s : State) (r : Reg) (v : Word) (q : Reg) : (s.setX r v).cp0 q = s.cp0 q := rfl
@[simp] theorem State.setX_hiLo (s : State) (r : Reg) (v : Word) : (s.setX r v).hiLo = s.hiLo := rfl
@[simp] theorem State.setX_mode (s : State) (r : Reg) (v : Word) : (s.setX r v).mode = s.mode := rfl
@[simp] theorem State.setX_exl (s : State) (r : Reg) (v : Word) : (s.setX r v).exl = s.exl := rfl
@[simp] theorem State.setX_erl (s : State) (r : Reg) (v : Word) : (s.setX r v).erl = s.erl := rfl
@[simp] theorem State.setX_bev (s : State) (r : Reg) (v : Word) : (s.setX r v).bev = s.bev := rfl
@[simp] theorem State.setX_cu0 (s : State) (r : Reg) (v : Word) : (s.setX r v).cu0 = s.cu0 := rfl
@[simp] theorem State.setX_cu1 (s : State) (r : Reg) (v : Word) : (s.setX r v).cu1 = s.cu1 := rfl
@[simp] theorem State.setX_coc1 (s : State) (r : Reg) (v : Word) : (s.setX r v).coc1 = s.coc1 := rfl
@[simp] theorem State.setX_cop0Usable (s : State) (r : Reg) (v : Word) : (s.setX r v).cop0Usable = s.cop0Usable := rfl
@[simp] theorem State.setX_cop1Usable (s : State) (r : Reg) (v : Word) : (s.setX r v).cop1Usable = s.cop1Usable := rfl
@[simp] theorem State.setX_dataByte (s : State) (r : Reg) (v : Word) (q : Nat) : (s.setX r v).dataByte q = s.dataByte q := rfl
@[simp] theorem State.setX_busByte (s : State) (r : Reg) (v : Word) (q : Nat) : (s.setX r v).busByte q = s.busByte q := rfl
@[simp] theorem State.setX_fetchByte (s : State) (r : Reg) (v : Word) (q : Nat) : (s.setX r v).fetchByte q = s.fetchByte q := rfl
@[simp] theorem State.setX_dset (s : State) (r : Reg) (v : Word) (q : Nat) : (s.setX r v).dset q = s.dset q := rfl
@[simp] theorem State.setX_iset (s : State) (r : Reg) (v : Word) (q : Nat) : (s.setX r v).iset q = s.iset q := rfl
@[simp] theorem State.setX_dHit (s : State) (r : Reg) (v : Word) (q : Nat) : (s.setX r v).dHit q = s.dHit q := rfl
@[simp] theorem State.setX_iHit (s : State) (r : Reg) (v : Word) (q : Nat) : (s.setX r v).iHit q = s.iHit q := rfl
@[simp] theorem State.setX_addrOK (s : State) (r : Reg) (v : Word) (q : Word) (md : Mode) (k : Access) : (s.setX r v).addrOK q md k = s.addrOK q md k := rfl
@[simp] theorem State.setX_busErr (s : State) (r : Reg) (v : Word) (q : Nat) (k : Access) : (s.setX r v).busErr q k = s.busErr q k := rfl

/-! ### setF -/

@[simp] theorem State.setF_gpr (s : State) (r : Reg) (v : Word) : (s.setF r v).gpr = s.gpr := rfl
@[simp] theorem State.setF_hi (s : State) (r : Reg) (v : Word) : (s.setF r v).hi = s.hi := rfl
@[simp] theorem State.setF_lo (s : State) (r : Reg) (v : Word) : (s.setF r v).lo = s.lo := rfl
@[simp] theorem State.setF_pc (s : State) (r : Reg) (v : Word) : (s.setF r v).pc = s.pc := rfl
@[simp] theorem State.setF_npc (s : State) (r : Reg) (v : Word) : (s.setF r v).npc = s.npc := rfl
@[simp] theorem State.setF_inDs (s : State) (r : Reg) (v : Word) : (s.setF r v).inDs = s.inDs := rfl
@[simp] theorem State.setF_cp0Regs (s : State) (r : Reg) (v : Word) : (s.setF r v).cp0Regs = s.cp0Regs := rfl
@[simp] theorem State.setF_fcr0 (s : State) (r : Reg) (v : Word) : (s.setF r v).fcr0 = s.fcr0 := rfl
@[simp] theorem State.setF_fcr31 (s : State) (r : Reg) (v : Word) : (s.setF r v).fcr31 = s.fcr31 := rfl
@[simp] theorem State.setF_llbit (s : State) (r : Reg) (v : Word) : (s.setF r v).llbit = s.llbit := rfl
@[simp] theorem State.setF_icache (s : State) (r : Reg) (v : Word) : (s.setF r v).icache = s.icache := rfl
@[simp] theorem State.setF_dcache (s : State) (r : Reg) (v : Word) : (s.setF r v).dcache = s.dcache := rfl
@[simp] theorem State.setF_writebackBuf (s : State) (r : Reg) (v : Word) : (s.setF r v).writebackBuf = s.writebackBuf := rfl
@[simp] theorem State.setF_nonCacheBuf (s : State) (r : Reg) (v : Word) : (s.setF r v).nonCacheBuf = s.nonCacheBuf := rfl
@[simp] theorem State.setF_mem (s : State) (r : Reg) (v : Word) : (s.setF r v).mem = s.mem := rfl
@[simp] theorem State.setF_owner (s : State) (r : Reg) (v : Word) : (s.setF r v).owner = s.owner := rfl
@[simp] theorem State.setF_h1 (s : State) (r : Reg) (v : Word) : (s.setF r v).h1 = s.h1 := rfl
@[simp] theorem State.setF_h2 (s : State) (r : Reg) (v : Word) : (s.setF r v).h2 = s.h2 := rfl
@[simp] theorem State.setF_h1FpTrap (s : State) (r : Reg) (v : Word) : (s.setF r v).h1FpTrap = s.h1FpTrap := rfl
@[simp] theorem State.setF_platform (s : State) (r : Reg) (v : Word) : (s.setF r v).platform = s.platform := rfl
@[simp] theorem State.setF_free (s : State) (r : Reg) (v : Word) : (s.setF r v).free = s.free := rfl
@[simp] theorem State.setF_x (s : State) (r : Reg) (v : Word) (q : Reg) : (s.setF r v).x q = s.x q := rfl
@[simp] theorem State.setF_cp0 (s : State) (r : Reg) (v : Word) (q : Reg) : (s.setF r v).cp0 q = s.cp0 q := rfl
@[simp] theorem State.setF_hiLo (s : State) (r : Reg) (v : Word) : (s.setF r v).hiLo = s.hiLo := rfl
@[simp] theorem State.setF_mode (s : State) (r : Reg) (v : Word) : (s.setF r v).mode = s.mode := rfl
@[simp] theorem State.setF_exl (s : State) (r : Reg) (v : Word) : (s.setF r v).exl = s.exl := rfl
@[simp] theorem State.setF_erl (s : State) (r : Reg) (v : Word) : (s.setF r v).erl = s.erl := rfl
@[simp] theorem State.setF_bev (s : State) (r : Reg) (v : Word) : (s.setF r v).bev = s.bev := rfl
@[simp] theorem State.setF_cu0 (s : State) (r : Reg) (v : Word) : (s.setF r v).cu0 = s.cu0 := rfl
@[simp] theorem State.setF_cu1 (s : State) (r : Reg) (v : Word) : (s.setF r v).cu1 = s.cu1 := rfl
@[simp] theorem State.setF_coc1 (s : State) (r : Reg) (v : Word) : (s.setF r v).coc1 = s.coc1 := rfl
@[simp] theorem State.setF_cop0Usable (s : State) (r : Reg) (v : Word) : (s.setF r v).cop0Usable = s.cop0Usable := rfl
@[simp] theorem State.setF_cop1Usable (s : State) (r : Reg) (v : Word) : (s.setF r v).cop1Usable = s.cop1Usable := rfl
@[simp] theorem State.setF_dataByte (s : State) (r : Reg) (v : Word) (q : Nat) : (s.setF r v).dataByte q = s.dataByte q := rfl
@[simp] theorem State.setF_busByte (s : State) (r : Reg) (v : Word) (q : Nat) : (s.setF r v).busByte q = s.busByte q := rfl
@[simp] theorem State.setF_fetchByte (s : State) (r : Reg) (v : Word) (q : Nat) : (s.setF r v).fetchByte q = s.fetchByte q := rfl
@[simp] theorem State.setF_dset (s : State) (r : Reg) (v : Word) (q : Nat) : (s.setF r v).dset q = s.dset q := rfl
@[simp] theorem State.setF_iset (s : State) (r : Reg) (v : Word) (q : Nat) : (s.setF r v).iset q = s.iset q := rfl
@[simp] theorem State.setF_dHit (s : State) (r : Reg) (v : Word) (q : Nat) : (s.setF r v).dHit q = s.dHit q := rfl
@[simp] theorem State.setF_iHit (s : State) (r : Reg) (v : Word) (q : Nat) : (s.setF r v).iHit q = s.iHit q := rfl
@[simp] theorem State.setF_addrOK (s : State) (r : Reg) (v : Word) (q : Word) (md : Mode) (k : Access) : (s.setF r v).addrOK q md k = s.addrOK q md k := rfl
@[simp] theorem State.setF_busErr (s : State) (r : Reg) (v : Word) (q : Nat) (k : Access) : (s.setF r v).busErr q k = s.busErr q k := rfl

/-! ### setHi -/

@[simp] theorem State.setHi_gpr (s : State) (v : Word) : (s.setHi v).gpr = s.gpr := rfl
@[simp] theorem State.setHi_hi (s : State) (v : Word) : (s.setHi v).hi = v := rfl
@[simp] theorem State.setHi_lo (s : State) (v : Word) : (s.setHi v).lo = s.lo := rfl
@[simp] theorem State.setHi_pc (s : State) (v : Word) : (s.setHi v).pc = s.pc := rfl
@[simp] theorem State.setHi_npc (s : State) (v : Word) : (s.setHi v).npc = s.npc := rfl
@[simp] theorem State.setHi_inDs (s : State) (v : Word) : (s.setHi v).inDs = s.inDs := rfl
@[simp] theorem State.setHi_cp0Regs (s : State) (v : Word) : (s.setHi v).cp0Regs = s.cp0Regs := rfl
@[simp] theorem State.setHi_fpr (s : State) (v : Word) : (s.setHi v).fpr = s.fpr := rfl
@[simp] theorem State.setHi_fcr0 (s : State) (v : Word) : (s.setHi v).fcr0 = s.fcr0 := rfl
@[simp] theorem State.setHi_fcr31 (s : State) (v : Word) : (s.setHi v).fcr31 = s.fcr31 := rfl
@[simp] theorem State.setHi_llbit (s : State) (v : Word) : (s.setHi v).llbit = s.llbit := rfl
@[simp] theorem State.setHi_icache (s : State) (v : Word) : (s.setHi v).icache = s.icache := rfl
@[simp] theorem State.setHi_dcache (s : State) (v : Word) : (s.setHi v).dcache = s.dcache := rfl
@[simp] theorem State.setHi_writebackBuf (s : State) (v : Word) : (s.setHi v).writebackBuf = s.writebackBuf := rfl
@[simp] theorem State.setHi_nonCacheBuf (s : State) (v : Word) : (s.setHi v).nonCacheBuf = s.nonCacheBuf := rfl
@[simp] theorem State.setHi_mem (s : State) (v : Word) : (s.setHi v).mem = s.mem := rfl
@[simp] theorem State.setHi_owner (s : State) (v : Word) : (s.setHi v).owner = s.owner := rfl
@[simp] theorem State.setHi_h1 (s : State) (v : Word) : (s.setHi v).h1 = s.h1 := rfl
@[simp] theorem State.setHi_h2 (s : State) (v : Word) : (s.setHi v).h2 = s.h2 := rfl
@[simp] theorem State.setHi_h1FpTrap (s : State) (v : Word) : (s.setHi v).h1FpTrap = s.h1FpTrap := rfl
@[simp] theorem State.setHi_platform (s : State) (v : Word) : (s.setHi v).platform = s.platform := rfl
@[simp] theorem State.setHi_free (s : State) (v : Word) : (s.setHi v).free = s.free := rfl
@[simp] theorem State.setHi_x (s : State) (v : Word) (q : Reg) : (s.setHi v).x q = s.x q := rfl
@[simp] theorem State.setHi_f (s : State) (v : Word) (q : Reg) : (s.setHi v).f q = s.f q := rfl
@[simp] theorem State.setHi_cp0 (s : State) (v : Word) (q : Reg) : (s.setHi v).cp0 q = s.cp0 q := rfl
@[simp] theorem State.setHi_mode (s : State) (v : Word) : (s.setHi v).mode = s.mode := rfl
@[simp] theorem State.setHi_exl (s : State) (v : Word) : (s.setHi v).exl = s.exl := rfl
@[simp] theorem State.setHi_erl (s : State) (v : Word) : (s.setHi v).erl = s.erl := rfl
@[simp] theorem State.setHi_bev (s : State) (v : Word) : (s.setHi v).bev = s.bev := rfl
@[simp] theorem State.setHi_cu0 (s : State) (v : Word) : (s.setHi v).cu0 = s.cu0 := rfl
@[simp] theorem State.setHi_cu1 (s : State) (v : Word) : (s.setHi v).cu1 = s.cu1 := rfl
@[simp] theorem State.setHi_coc1 (s : State) (v : Word) : (s.setHi v).coc1 = s.coc1 := rfl
@[simp] theorem State.setHi_cop0Usable (s : State) (v : Word) : (s.setHi v).cop0Usable = s.cop0Usable := rfl
@[simp] theorem State.setHi_cop1Usable (s : State) (v : Word) : (s.setHi v).cop1Usable = s.cop1Usable := rfl
@[simp] theorem State.setHi_dataByte (s : State) (v : Word) (q : Nat) : (s.setHi v).dataByte q = s.dataByte q := rfl
@[simp] theorem State.setHi_busByte (s : State) (v : Word) (q : Nat) : (s.setHi v).busByte q = s.busByte q := rfl
@[simp] theorem State.setHi_fetchByte (s : State) (v : Word) (q : Nat) : (s.setHi v).fetchByte q = s.fetchByte q := rfl
@[simp] theorem State.setHi_dset (s : State) (v : Word) (q : Nat) : (s.setHi v).dset q = s.dset q := rfl
@[simp] theorem State.setHi_iset (s : State) (v : Word) (q : Nat) : (s.setHi v).iset q = s.iset q := rfl
@[simp] theorem State.setHi_dHit (s : State) (v : Word) (q : Nat) : (s.setHi v).dHit q = s.dHit q := rfl
@[simp] theorem State.setHi_iHit (s : State) (v : Word) (q : Nat) : (s.setHi v).iHit q = s.iHit q := rfl
@[simp] theorem State.setHi_addrOK (s : State) (v : Word) (q : Word) (md : Mode) (k : Access) : (s.setHi v).addrOK q md k = s.addrOK q md k := rfl
@[simp] theorem State.setHi_busErr (s : State) (v : Word) (q : Nat) (k : Access) : (s.setHi v).busErr q k = s.busErr q k := rfl

/-! ### setLo -/

@[simp] theorem State.setLo_gpr (s : State) (v : Word) : (s.setLo v).gpr = s.gpr := rfl
@[simp] theorem State.setLo_hi (s : State) (v : Word) : (s.setLo v).hi = s.hi := rfl
@[simp] theorem State.setLo_lo (s : State) (v : Word) : (s.setLo v).lo = v := rfl
@[simp] theorem State.setLo_pc (s : State) (v : Word) : (s.setLo v).pc = s.pc := rfl
@[simp] theorem State.setLo_npc (s : State) (v : Word) : (s.setLo v).npc = s.npc := rfl
@[simp] theorem State.setLo_inDs (s : State) (v : Word) : (s.setLo v).inDs = s.inDs := rfl
@[simp] theorem State.setLo_cp0Regs (s : State) (v : Word) : (s.setLo v).cp0Regs = s.cp0Regs := rfl
@[simp] theorem State.setLo_fpr (s : State) (v : Word) : (s.setLo v).fpr = s.fpr := rfl
@[simp] theorem State.setLo_fcr0 (s : State) (v : Word) : (s.setLo v).fcr0 = s.fcr0 := rfl
@[simp] theorem State.setLo_fcr31 (s : State) (v : Word) : (s.setLo v).fcr31 = s.fcr31 := rfl
@[simp] theorem State.setLo_llbit (s : State) (v : Word) : (s.setLo v).llbit = s.llbit := rfl
@[simp] theorem State.setLo_icache (s : State) (v : Word) : (s.setLo v).icache = s.icache := rfl
@[simp] theorem State.setLo_dcache (s : State) (v : Word) : (s.setLo v).dcache = s.dcache := rfl
@[simp] theorem State.setLo_writebackBuf (s : State) (v : Word) : (s.setLo v).writebackBuf = s.writebackBuf := rfl
@[simp] theorem State.setLo_nonCacheBuf (s : State) (v : Word) : (s.setLo v).nonCacheBuf = s.nonCacheBuf := rfl
@[simp] theorem State.setLo_mem (s : State) (v : Word) : (s.setLo v).mem = s.mem := rfl
@[simp] theorem State.setLo_owner (s : State) (v : Word) : (s.setLo v).owner = s.owner := rfl
@[simp] theorem State.setLo_h1 (s : State) (v : Word) : (s.setLo v).h1 = s.h1 := rfl
@[simp] theorem State.setLo_h2 (s : State) (v : Word) : (s.setLo v).h2 = s.h2 := rfl
@[simp] theorem State.setLo_h1FpTrap (s : State) (v : Word) : (s.setLo v).h1FpTrap = s.h1FpTrap := rfl
@[simp] theorem State.setLo_platform (s : State) (v : Word) : (s.setLo v).platform = s.platform := rfl
@[simp] theorem State.setLo_free (s : State) (v : Word) : (s.setLo v).free = s.free := rfl
@[simp] theorem State.setLo_x (s : State) (v : Word) (q : Reg) : (s.setLo v).x q = s.x q := rfl
@[simp] theorem State.setLo_f (s : State) (v : Word) (q : Reg) : (s.setLo v).f q = s.f q := rfl
@[simp] theorem State.setLo_cp0 (s : State) (v : Word) (q : Reg) : (s.setLo v).cp0 q = s.cp0 q := rfl
@[simp] theorem State.setLo_mode (s : State) (v : Word) : (s.setLo v).mode = s.mode := rfl
@[simp] theorem State.setLo_exl (s : State) (v : Word) : (s.setLo v).exl = s.exl := rfl
@[simp] theorem State.setLo_erl (s : State) (v : Word) : (s.setLo v).erl = s.erl := rfl
@[simp] theorem State.setLo_bev (s : State) (v : Word) : (s.setLo v).bev = s.bev := rfl
@[simp] theorem State.setLo_cu0 (s : State) (v : Word) : (s.setLo v).cu0 = s.cu0 := rfl
@[simp] theorem State.setLo_cu1 (s : State) (v : Word) : (s.setLo v).cu1 = s.cu1 := rfl
@[simp] theorem State.setLo_coc1 (s : State) (v : Word) : (s.setLo v).coc1 = s.coc1 := rfl
@[simp] theorem State.setLo_cop0Usable (s : State) (v : Word) : (s.setLo v).cop0Usable = s.cop0Usable := rfl
@[simp] theorem State.setLo_cop1Usable (s : State) (v : Word) : (s.setLo v).cop1Usable = s.cop1Usable := rfl
@[simp] theorem State.setLo_dataByte (s : State) (v : Word) (q : Nat) : (s.setLo v).dataByte q = s.dataByte q := rfl
@[simp] theorem State.setLo_busByte (s : State) (v : Word) (q : Nat) : (s.setLo v).busByte q = s.busByte q := rfl
@[simp] theorem State.setLo_fetchByte (s : State) (v : Word) (q : Nat) : (s.setLo v).fetchByte q = s.fetchByte q := rfl
@[simp] theorem State.setLo_dset (s : State) (v : Word) (q : Nat) : (s.setLo v).dset q = s.dset q := rfl
@[simp] theorem State.setLo_iset (s : State) (v : Word) (q : Nat) : (s.setLo v).iset q = s.iset q := rfl
@[simp] theorem State.setLo_dHit (s : State) (v : Word) (q : Nat) : (s.setLo v).dHit q = s.dHit q := rfl
@[simp] theorem State.setLo_iHit (s : State) (v : Word) (q : Nat) : (s.setLo v).iHit q = s.iHit q := rfl
@[simp] theorem State.setLo_addrOK (s : State) (v : Word) (q : Word) (md : Mode) (k : Access) : (s.setLo v).addrOK q md k = s.addrOK q md k := rfl
@[simp] theorem State.setLo_busErr (s : State) (v : Word) (q : Nat) (k : Access) : (s.setLo v).busErr q k = s.busErr q k := rfl

/-! ### setHiLo -/

@[simp] theorem State.setHiLo_gpr (s : State) (v : DWord) : (s.setHiLo v).gpr = s.gpr := rfl
@[simp] theorem State.setHiLo_hi (s : State) (v : DWord) : (s.setHiLo v).hi = v.extractLsb' 32 32 := rfl
@[simp] theorem State.setHiLo_lo (s : State) (v : DWord) : (s.setHiLo v).lo = v.extractLsb' 0 32 := rfl
@[simp] theorem State.setHiLo_pc (s : State) (v : DWord) : (s.setHiLo v).pc = s.pc := rfl
@[simp] theorem State.setHiLo_npc (s : State) (v : DWord) : (s.setHiLo v).npc = s.npc := rfl
@[simp] theorem State.setHiLo_inDs (s : State) (v : DWord) : (s.setHiLo v).inDs = s.inDs := rfl
@[simp] theorem State.setHiLo_cp0Regs (s : State) (v : DWord) : (s.setHiLo v).cp0Regs = s.cp0Regs := rfl
@[simp] theorem State.setHiLo_fpr (s : State) (v : DWord) : (s.setHiLo v).fpr = s.fpr := rfl
@[simp] theorem State.setHiLo_fcr0 (s : State) (v : DWord) : (s.setHiLo v).fcr0 = s.fcr0 := rfl
@[simp] theorem State.setHiLo_fcr31 (s : State) (v : DWord) : (s.setHiLo v).fcr31 = s.fcr31 := rfl
@[simp] theorem State.setHiLo_llbit (s : State) (v : DWord) : (s.setHiLo v).llbit = s.llbit := rfl
@[simp] theorem State.setHiLo_icache (s : State) (v : DWord) : (s.setHiLo v).icache = s.icache := rfl
@[simp] theorem State.setHiLo_dcache (s : State) (v : DWord) : (s.setHiLo v).dcache = s.dcache := rfl
@[simp] theorem State.setHiLo_writebackBuf (s : State) (v : DWord) : (s.setHiLo v).writebackBuf = s.writebackBuf := rfl
@[simp] theorem State.setHiLo_nonCacheBuf (s : State) (v : DWord) : (s.setHiLo v).nonCacheBuf = s.nonCacheBuf := rfl
@[simp] theorem State.setHiLo_mem (s : State) (v : DWord) : (s.setHiLo v).mem = s.mem := rfl
@[simp] theorem State.setHiLo_owner (s : State) (v : DWord) : (s.setHiLo v).owner = s.owner := rfl
@[simp] theorem State.setHiLo_h1 (s : State) (v : DWord) : (s.setHiLo v).h1 = s.h1 := rfl
@[simp] theorem State.setHiLo_h2 (s : State) (v : DWord) : (s.setHiLo v).h2 = s.h2 := rfl
@[simp] theorem State.setHiLo_h1FpTrap (s : State) (v : DWord) : (s.setHiLo v).h1FpTrap = s.h1FpTrap := rfl
@[simp] theorem State.setHiLo_platform (s : State) (v : DWord) : (s.setHiLo v).platform = s.platform := rfl
@[simp] theorem State.setHiLo_free (s : State) (v : DWord) : (s.setHiLo v).free = s.free := rfl
@[simp] theorem State.setHiLo_x (s : State) (v : DWord) (q : Reg) : (s.setHiLo v).x q = s.x q := rfl
@[simp] theorem State.setHiLo_f (s : State) (v : DWord) (q : Reg) : (s.setHiLo v).f q = s.f q := rfl
@[simp] theorem State.setHiLo_cp0 (s : State) (v : DWord) (q : Reg) : (s.setHiLo v).cp0 q = s.cp0 q := rfl
@[simp] theorem State.setHiLo_mode (s : State) (v : DWord) : (s.setHiLo v).mode = s.mode := rfl
@[simp] theorem State.setHiLo_exl (s : State) (v : DWord) : (s.setHiLo v).exl = s.exl := rfl
@[simp] theorem State.setHiLo_erl (s : State) (v : DWord) : (s.setHiLo v).erl = s.erl := rfl
@[simp] theorem State.setHiLo_bev (s : State) (v : DWord) : (s.setHiLo v).bev = s.bev := rfl
@[simp] theorem State.setHiLo_cu0 (s : State) (v : DWord) : (s.setHiLo v).cu0 = s.cu0 := rfl
@[simp] theorem State.setHiLo_cu1 (s : State) (v : DWord) : (s.setHiLo v).cu1 = s.cu1 := rfl
@[simp] theorem State.setHiLo_coc1 (s : State) (v : DWord) : (s.setHiLo v).coc1 = s.coc1 := rfl
@[simp] theorem State.setHiLo_cop0Usable (s : State) (v : DWord) : (s.setHiLo v).cop0Usable = s.cop0Usable := rfl
@[simp] theorem State.setHiLo_cop1Usable (s : State) (v : DWord) : (s.setHiLo v).cop1Usable = s.cop1Usable := rfl
@[simp] theorem State.setHiLo_dataByte (s : State) (v : DWord) (q : Nat) : (s.setHiLo v).dataByte q = s.dataByte q := rfl
@[simp] theorem State.setHiLo_busByte (s : State) (v : DWord) (q : Nat) : (s.setHiLo v).busByte q = s.busByte q := rfl
@[simp] theorem State.setHiLo_fetchByte (s : State) (v : DWord) (q : Nat) : (s.setHiLo v).fetchByte q = s.fetchByte q := rfl
@[simp] theorem State.setHiLo_dset (s : State) (v : DWord) (q : Nat) : (s.setHiLo v).dset q = s.dset q := rfl
@[simp] theorem State.setHiLo_iset (s : State) (v : DWord) (q : Nat) : (s.setHiLo v).iset q = s.iset q := rfl
@[simp] theorem State.setHiLo_dHit (s : State) (v : DWord) (q : Nat) : (s.setHiLo v).dHit q = s.dHit q := rfl
@[simp] theorem State.setHiLo_iHit (s : State) (v : DWord) (q : Nat) : (s.setHiLo v).iHit q = s.iHit q := rfl
@[simp] theorem State.setHiLo_addrOK (s : State) (v : DWord) (q : Word) (md : Mode) (k : Access) : (s.setHiLo v).addrOK q md k = s.addrOK q md k := rfl
@[simp] theorem State.setHiLo_busErr (s : State) (v : DWord) (q : Nat) (k : Access) : (s.setHiLo v).busErr q k = s.busErr q k := rfl

/-! ### freeHiLo -/

@[simp] theorem State.freeHiLo_gpr (s : State) : s.freeHiLo.gpr = s.gpr := rfl
@[simp] theorem State.freeHiLo_hi (s : State) : s.freeHiLo.hi = Config.freeWord (s.free + 1) := rfl
@[simp] theorem State.freeHiLo_lo (s : State) : s.freeHiLo.lo = Config.freeWord s.free := rfl
@[simp] theorem State.freeHiLo_pc (s : State) : s.freeHiLo.pc = s.pc := rfl
@[simp] theorem State.freeHiLo_npc (s : State) : s.freeHiLo.npc = s.npc := rfl
@[simp] theorem State.freeHiLo_inDs (s : State) : s.freeHiLo.inDs = s.inDs := rfl
@[simp] theorem State.freeHiLo_cp0Regs (s : State) : s.freeHiLo.cp0Regs = s.cp0Regs := rfl
@[simp] theorem State.freeHiLo_fpr (s : State) : s.freeHiLo.fpr = s.fpr := rfl
@[simp] theorem State.freeHiLo_fcr0 (s : State) : s.freeHiLo.fcr0 = s.fcr0 := rfl
@[simp] theorem State.freeHiLo_fcr31 (s : State) : s.freeHiLo.fcr31 = s.fcr31 := rfl
@[simp] theorem State.freeHiLo_llbit (s : State) : s.freeHiLo.llbit = s.llbit := rfl
@[simp] theorem State.freeHiLo_icache (s : State) : s.freeHiLo.icache = s.icache := rfl
@[simp] theorem State.freeHiLo_dcache (s : State) : s.freeHiLo.dcache = s.dcache := rfl
@[simp] theorem State.freeHiLo_writebackBuf (s : State) : s.freeHiLo.writebackBuf = s.writebackBuf := rfl
@[simp] theorem State.freeHiLo_nonCacheBuf (s : State) : s.freeHiLo.nonCacheBuf = s.nonCacheBuf := rfl
@[simp] theorem State.freeHiLo_mem (s : State) : s.freeHiLo.mem = s.mem := rfl
@[simp] theorem State.freeHiLo_owner (s : State) : s.freeHiLo.owner = s.owner := rfl
@[simp] theorem State.freeHiLo_h1 (s : State) : s.freeHiLo.h1 = s.h1 := rfl
@[simp] theorem State.freeHiLo_h2 (s : State) : s.freeHiLo.h2 = s.h2 := rfl
@[simp] theorem State.freeHiLo_h1FpTrap (s : State) : s.freeHiLo.h1FpTrap = s.h1FpTrap := rfl
@[simp] theorem State.freeHiLo_platform (s : State) : s.freeHiLo.platform = s.platform := rfl
@[simp] theorem State.freeHiLo_free (s : State) : s.freeHiLo.free = s.free + 2 := rfl
@[simp] theorem State.freeHiLo_x (s : State) (q : Reg) : s.freeHiLo.x q = s.x q := rfl
@[simp] theorem State.freeHiLo_f (s : State) (q : Reg) : s.freeHiLo.f q = s.f q := rfl
@[simp] theorem State.freeHiLo_cp0 (s : State) (q : Reg) : s.freeHiLo.cp0 q = s.cp0 q := rfl
@[simp] theorem State.freeHiLo_mode (s : State) : s.freeHiLo.mode = s.mode := rfl
@[simp] theorem State.freeHiLo_exl (s : State) : s.freeHiLo.exl = s.exl := rfl
@[simp] theorem State.freeHiLo_erl (s : State) : s.freeHiLo.erl = s.erl := rfl
@[simp] theorem State.freeHiLo_bev (s : State) : s.freeHiLo.bev = s.bev := rfl
@[simp] theorem State.freeHiLo_cu0 (s : State) : s.freeHiLo.cu0 = s.cu0 := rfl
@[simp] theorem State.freeHiLo_cu1 (s : State) : s.freeHiLo.cu1 = s.cu1 := rfl
@[simp] theorem State.freeHiLo_coc1 (s : State) : s.freeHiLo.coc1 = s.coc1 := rfl
@[simp] theorem State.freeHiLo_cop0Usable (s : State) : s.freeHiLo.cop0Usable = s.cop0Usable := rfl
@[simp] theorem State.freeHiLo_cop1Usable (s : State) : s.freeHiLo.cop1Usable = s.cop1Usable := rfl
@[simp] theorem State.freeHiLo_dataByte (s : State) (q : Nat) : s.freeHiLo.dataByte q = s.dataByte q := rfl
@[simp] theorem State.freeHiLo_busByte (s : State) (q : Nat) : s.freeHiLo.busByte q = s.busByte q := rfl
@[simp] theorem State.freeHiLo_fetchByte (s : State) (q : Nat) : s.freeHiLo.fetchByte q = s.fetchByte q := rfl
@[simp] theorem State.freeHiLo_dset (s : State) (q : Nat) : s.freeHiLo.dset q = s.dset q := rfl
@[simp] theorem State.freeHiLo_iset (s : State) (q : Nat) : s.freeHiLo.iset q = s.iset q := rfl
@[simp] theorem State.freeHiLo_dHit (s : State) (q : Nat) : s.freeHiLo.dHit q = s.dHit q := rfl
@[simp] theorem State.freeHiLo_iHit (s : State) (q : Nat) : s.freeHiLo.iHit q = s.iHit q := rfl
@[simp] theorem State.freeHiLo_addrOK (s : State) (q : Word) (md : Mode) (k : Access) : s.freeHiLo.addrOK q md k = s.addrOK q md k := rfl
@[simp] theorem State.freeHiLo_busErr (s : State) (q : Nat) (k : Access) : s.freeHiLo.busErr q k = s.busErr q k := rfl

/-! ### setCp0 -/

@[simp] theorem State.setCp0_gpr (s : State) (r : Reg) (v : Word) : (s.setCp0 r v).gpr = s.gpr := rfl
@[simp] theorem State.setCp0_hi (s : State) (r : Reg) (v : Word) : (s.setCp0 r v).hi = s.hi := rfl
@[simp] theorem State.setCp0_lo (s : State) (r : Reg) (v : Word) : (s.setCp0 r v).lo = s.lo := rfl
@[simp] theorem State.setCp0_pc (s : State) (r : Reg) (v : Word) : (s.setCp0 r v).pc = s.pc := rfl
@[simp] theorem State.setCp0_npc (s : State) (r : Reg) (v : Word) : (s.setCp0 r v).npc = s.npc := rfl
@[simp] theorem State.setCp0_inDs (s : State) (r : Reg) (v : Word) : (s.setCp0 r v).inDs = s.inDs := rfl
@[simp] theorem State.setCp0_fpr (s : State) (r : Reg) (v : Word) : (s.setCp0 r v).fpr = s.fpr := rfl
@[simp] theorem State.setCp0_fcr0 (s : State) (r : Reg) (v : Word) : (s.setCp0 r v).fcr0 = s.fcr0 := rfl
@[simp] theorem State.setCp0_fcr31 (s : State) (r : Reg) (v : Word) : (s.setCp0 r v).fcr31 = s.fcr31 := rfl
@[simp] theorem State.setCp0_llbit (s : State) (r : Reg) (v : Word) : (s.setCp0 r v).llbit = s.llbit := rfl
@[simp] theorem State.setCp0_icache (s : State) (r : Reg) (v : Word) : (s.setCp0 r v).icache = s.icache := rfl
@[simp] theorem State.setCp0_dcache (s : State) (r : Reg) (v : Word) : (s.setCp0 r v).dcache = s.dcache := rfl
@[simp] theorem State.setCp0_writebackBuf (s : State) (r : Reg) (v : Word) : (s.setCp0 r v).writebackBuf = s.writebackBuf := rfl
@[simp] theorem State.setCp0_nonCacheBuf (s : State) (r : Reg) (v : Word) : (s.setCp0 r v).nonCacheBuf = s.nonCacheBuf := rfl
@[simp] theorem State.setCp0_mem (s : State) (r : Reg) (v : Word) : (s.setCp0 r v).mem = s.mem := rfl
@[simp] theorem State.setCp0_owner (s : State) (r : Reg) (v : Word) : (s.setCp0 r v).owner = s.owner := rfl
@[simp] theorem State.setCp0_h1 (s : State) (r : Reg) (v : Word) : (s.setCp0 r v).h1 = s.h1 := rfl
@[simp] theorem State.setCp0_h2 (s : State) (r : Reg) (v : Word) : (s.setCp0 r v).h2 = s.h2 := rfl
@[simp] theorem State.setCp0_h1FpTrap (s : State) (r : Reg) (v : Word) : (s.setCp0 r v).h1FpTrap = s.h1FpTrap := rfl
@[simp] theorem State.setCp0_platform (s : State) (r : Reg) (v : Word) : (s.setCp0 r v).platform = s.platform := rfl
@[simp] theorem State.setCp0_free (s : State) (r : Reg) (v : Word) : (s.setCp0 r v).free = s.free := rfl
@[simp] theorem State.setCp0_x (s : State) (r : Reg) (v : Word) (q : Reg) : (s.setCp0 r v).x q = s.x q := rfl
@[simp] theorem State.setCp0_f (s : State) (r : Reg) (v : Word) (q : Reg) : (s.setCp0 r v).f q = s.f q := rfl
@[simp] theorem State.setCp0_hiLo (s : State) (r : Reg) (v : Word) : (s.setCp0 r v).hiLo = s.hiLo := rfl
@[simp] theorem State.setCp0_coc1 (s : State) (r : Reg) (v : Word) : (s.setCp0 r v).coc1 = s.coc1 := rfl
@[simp] theorem State.setCp0_dataByte (s : State) (r : Reg) (v : Word) (q : Nat) : (s.setCp0 r v).dataByte q = s.dataByte q := rfl
@[simp] theorem State.setCp0_busByte (s : State) (r : Reg) (v : Word) (q : Nat) : (s.setCp0 r v).busByte q = s.busByte q := rfl
@[simp] theorem State.setCp0_fetchByte (s : State) (r : Reg) (v : Word) (q : Nat) : (s.setCp0 r v).fetchByte q = s.fetchByte q := rfl
@[simp] theorem State.setCp0_dset (s : State) (r : Reg) (v : Word) (q : Nat) : (s.setCp0 r v).dset q = s.dset q := rfl
@[simp] theorem State.setCp0_iset (s : State) (r : Reg) (v : Word) (q : Nat) : (s.setCp0 r v).iset q = s.iset q := rfl
@[simp] theorem State.setCp0_dHit (s : State) (r : Reg) (v : Word) (q : Nat) : (s.setCp0 r v).dHit q = s.dHit q := rfl
@[simp] theorem State.setCp0_iHit (s : State) (r : Reg) (v : Word) (q : Nat) : (s.setCp0 r v).iHit q = s.iHit q := rfl
@[simp] theorem State.setCp0_addrOK (s : State) (r : Reg) (v : Word) (q : Word) (md : Mode) (k : Access) : (s.setCp0 r v).addrOK q md k = s.addrOK q md k := rfl
@[simp] theorem State.setCp0_busErr (s : State) (r : Reg) (v : Word) (q : Nat) (k : Access) : (s.setCp0 r v).busErr q k = s.busErr q k := rfl

/-! ### setFcr31 -/

@[simp] theorem State.setFcr31_gpr (s : State) (v : Word) : (s.setFcr31 v).gpr = s.gpr := rfl
@[simp] theorem State.setFcr31_hi (s : State) (v : Word) : (s.setFcr31 v).hi = s.hi := rfl
@[simp] theorem State.setFcr31_lo (s : State) (v : Word) : (s.setFcr31 v).lo = s.lo := rfl
@[simp] theorem State.setFcr31_pc (s : State) (v : Word) : (s.setFcr31 v).pc = s.pc := rfl
@[simp] theorem State.setFcr31_npc (s : State) (v : Word) : (s.setFcr31 v).npc = s.npc := rfl
@[simp] theorem State.setFcr31_inDs (s : State) (v : Word) : (s.setFcr31 v).inDs = s.inDs := rfl
@[simp] theorem State.setFcr31_cp0Regs (s : State) (v : Word) : (s.setFcr31 v).cp0Regs = s.cp0Regs := rfl
@[simp] theorem State.setFcr31_fpr (s : State) (v : Word) : (s.setFcr31 v).fpr = s.fpr := rfl
@[simp] theorem State.setFcr31_fcr0 (s : State) (v : Word) : (s.setFcr31 v).fcr0 = s.fcr0 := rfl
@[simp] theorem State.setFcr31_fcr31 (s : State) (v : Word) : (s.setFcr31 v).fcr31 = v := rfl
@[simp] theorem State.setFcr31_llbit (s : State) (v : Word) : (s.setFcr31 v).llbit = s.llbit := rfl
@[simp] theorem State.setFcr31_icache (s : State) (v : Word) : (s.setFcr31 v).icache = s.icache := rfl
@[simp] theorem State.setFcr31_dcache (s : State) (v : Word) : (s.setFcr31 v).dcache = s.dcache := rfl
@[simp] theorem State.setFcr31_writebackBuf (s : State) (v : Word) : (s.setFcr31 v).writebackBuf = s.writebackBuf := rfl
@[simp] theorem State.setFcr31_nonCacheBuf (s : State) (v : Word) : (s.setFcr31 v).nonCacheBuf = s.nonCacheBuf := rfl
@[simp] theorem State.setFcr31_mem (s : State) (v : Word) : (s.setFcr31 v).mem = s.mem := rfl
@[simp] theorem State.setFcr31_owner (s : State) (v : Word) : (s.setFcr31 v).owner = s.owner := rfl
@[simp] theorem State.setFcr31_h1 (s : State) (v : Word) : (s.setFcr31 v).h1 = s.h1 := rfl
@[simp] theorem State.setFcr31_h2 (s : State) (v : Word) : (s.setFcr31 v).h2 = s.h2 := rfl
@[simp] theorem State.setFcr31_h1FpTrap (s : State) (v : Word) : (s.setFcr31 v).h1FpTrap = s.h1FpTrap := rfl
@[simp] theorem State.setFcr31_platform (s : State) (v : Word) : (s.setFcr31 v).platform = s.platform := rfl
@[simp] theorem State.setFcr31_free (s : State) (v : Word) : (s.setFcr31 v).free = s.free := rfl
@[simp] theorem State.setFcr31_x (s : State) (v : Word) (q : Reg) : (s.setFcr31 v).x q = s.x q := rfl
@[simp] theorem State.setFcr31_f (s : State) (v : Word) (q : Reg) : (s.setFcr31 v).f q = s.f q := rfl
@[simp] theorem State.setFcr31_cp0 (s : State) (v : Word) (q : Reg) : (s.setFcr31 v).cp0 q = s.cp0 q := rfl
@[simp] theorem State.setFcr31_hiLo (s : State) (v : Word) : (s.setFcr31 v).hiLo = s.hiLo := rfl
@[simp] theorem State.setFcr31_mode (s : State) (v : Word) : (s.setFcr31 v).mode = s.mode := rfl
@[simp] theorem State.setFcr31_exl (s : State) (v : Word) : (s.setFcr31 v).exl = s.exl := rfl
@[simp] theorem State.setFcr31_erl (s : State) (v : Word) : (s.setFcr31 v).erl = s.erl := rfl
@[simp] theorem State.setFcr31_bev (s : State) (v : Word) : (s.setFcr31 v).bev = s.bev := rfl
@[simp] theorem State.setFcr31_cu0 (s : State) (v : Word) : (s.setFcr31 v).cu0 = s.cu0 := rfl
@[simp] theorem State.setFcr31_cu1 (s : State) (v : Word) : (s.setFcr31 v).cu1 = s.cu1 := rfl
@[simp] theorem State.setFcr31_cop0Usable (s : State) (v : Word) : (s.setFcr31 v).cop0Usable = s.cop0Usable := rfl
@[simp] theorem State.setFcr31_cop1Usable (s : State) (v : Word) : (s.setFcr31 v).cop1Usable = s.cop1Usable := rfl
@[simp] theorem State.setFcr31_dataByte (s : State) (v : Word) (q : Nat) : (s.setFcr31 v).dataByte q = s.dataByte q := rfl
@[simp] theorem State.setFcr31_busByte (s : State) (v : Word) (q : Nat) : (s.setFcr31 v).busByte q = s.busByte q := rfl
@[simp] theorem State.setFcr31_fetchByte (s : State) (v : Word) (q : Nat) : (s.setFcr31 v).fetchByte q = s.fetchByte q := rfl
@[simp] theorem State.setFcr31_dset (s : State) (v : Word) (q : Nat) : (s.setFcr31 v).dset q = s.dset q := rfl
@[simp] theorem State.setFcr31_iset (s : State) (v : Word) (q : Nat) : (s.setFcr31 v).iset q = s.iset q := rfl
@[simp] theorem State.setFcr31_dHit (s : State) (v : Word) (q : Nat) : (s.setFcr31 v).dHit q = s.dHit q := rfl
@[simp] theorem State.setFcr31_iHit (s : State) (v : Word) (q : Nat) : (s.setFcr31 v).iHit q = s.iHit q := rfl
@[simp] theorem State.setFcr31_addrOK (s : State) (v : Word) (q : Word) (md : Mode) (k : Access) : (s.setFcr31 v).addrOK q md k = s.addrOK q md k := rfl
@[simp] theorem State.setFcr31_busErr (s : State) (v : Word) (q : Nat) (k : Access) : (s.setFcr31 v).busErr q k = s.busErr q k := rfl

/-! ### setLlbit -/

@[simp] theorem State.setLlbit_gpr (s : State) (b : Bool) : (s.setLlbit b).gpr = s.gpr := rfl
@[simp] theorem State.setLlbit_hi (s : State) (b : Bool) : (s.setLlbit b).hi = s.hi := rfl
@[simp] theorem State.setLlbit_lo (s : State) (b : Bool) : (s.setLlbit b).lo = s.lo := rfl
@[simp] theorem State.setLlbit_pc (s : State) (b : Bool) : (s.setLlbit b).pc = s.pc := rfl
@[simp] theorem State.setLlbit_npc (s : State) (b : Bool) : (s.setLlbit b).npc = s.npc := rfl
@[simp] theorem State.setLlbit_inDs (s : State) (b : Bool) : (s.setLlbit b).inDs = s.inDs := rfl
@[simp] theorem State.setLlbit_cp0Regs (s : State) (b : Bool) : (s.setLlbit b).cp0Regs = s.cp0Regs := rfl
@[simp] theorem State.setLlbit_fpr (s : State) (b : Bool) : (s.setLlbit b).fpr = s.fpr := rfl
@[simp] theorem State.setLlbit_fcr0 (s : State) (b : Bool) : (s.setLlbit b).fcr0 = s.fcr0 := rfl
@[simp] theorem State.setLlbit_fcr31 (s : State) (b : Bool) : (s.setLlbit b).fcr31 = s.fcr31 := rfl
@[simp] theorem State.setLlbit_llbit (s : State) (b : Bool) : (s.setLlbit b).llbit = b := rfl
@[simp] theorem State.setLlbit_icache (s : State) (b : Bool) : (s.setLlbit b).icache = s.icache := rfl
@[simp] theorem State.setLlbit_dcache (s : State) (b : Bool) : (s.setLlbit b).dcache = s.dcache := rfl
@[simp] theorem State.setLlbit_writebackBuf (s : State) (b : Bool) : (s.setLlbit b).writebackBuf = s.writebackBuf := rfl
@[simp] theorem State.setLlbit_nonCacheBuf (s : State) (b : Bool) : (s.setLlbit b).nonCacheBuf = s.nonCacheBuf := rfl
@[simp] theorem State.setLlbit_mem (s : State) (b : Bool) : (s.setLlbit b).mem = s.mem := rfl
@[simp] theorem State.setLlbit_owner (s : State) (b : Bool) : (s.setLlbit b).owner = s.owner := rfl
@[simp] theorem State.setLlbit_h1 (s : State) (b : Bool) : (s.setLlbit b).h1 = s.h1 := rfl
@[simp] theorem State.setLlbit_h2 (s : State) (b : Bool) : (s.setLlbit b).h2 = s.h2 := rfl
@[simp] theorem State.setLlbit_h1FpTrap (s : State) (b : Bool) : (s.setLlbit b).h1FpTrap = s.h1FpTrap := rfl
@[simp] theorem State.setLlbit_platform (s : State) (b : Bool) : (s.setLlbit b).platform = s.platform := rfl
@[simp] theorem State.setLlbit_free (s : State) (b : Bool) : (s.setLlbit b).free = s.free := rfl
@[simp] theorem State.setLlbit_x (s : State) (b : Bool) (q : Reg) : (s.setLlbit b).x q = s.x q := rfl
@[simp] theorem State.setLlbit_f (s : State) (b : Bool) (q : Reg) : (s.setLlbit b).f q = s.f q := rfl
@[simp] theorem State.setLlbit_cp0 (s : State) (b : Bool) (q : Reg) : (s.setLlbit b).cp0 q = s.cp0 q := rfl
@[simp] theorem State.setLlbit_hiLo (s : State) (b : Bool) : (s.setLlbit b).hiLo = s.hiLo := rfl
@[simp] theorem State.setLlbit_mode (s : State) (b : Bool) : (s.setLlbit b).mode = s.mode := rfl
@[simp] theorem State.setLlbit_exl (s : State) (b : Bool) : (s.setLlbit b).exl = s.exl := rfl
@[simp] theorem State.setLlbit_erl (s : State) (b : Bool) : (s.setLlbit b).erl = s.erl := rfl
@[simp] theorem State.setLlbit_bev (s : State) (b : Bool) : (s.setLlbit b).bev = s.bev := rfl
@[simp] theorem State.setLlbit_cu0 (s : State) (b : Bool) : (s.setLlbit b).cu0 = s.cu0 := rfl
@[simp] theorem State.setLlbit_cu1 (s : State) (b : Bool) : (s.setLlbit b).cu1 = s.cu1 := rfl
@[simp] theorem State.setLlbit_coc1 (s : State) (b : Bool) : (s.setLlbit b).coc1 = s.coc1 := rfl
@[simp] theorem State.setLlbit_cop0Usable (s : State) (b : Bool) : (s.setLlbit b).cop0Usable = s.cop0Usable := rfl
@[simp] theorem State.setLlbit_cop1Usable (s : State) (b : Bool) : (s.setLlbit b).cop1Usable = s.cop1Usable := rfl
@[simp] theorem State.setLlbit_dataByte (s : State) (b : Bool) (q : Nat) : (s.setLlbit b).dataByte q = s.dataByte q := rfl
@[simp] theorem State.setLlbit_busByte (s : State) (b : Bool) (q : Nat) : (s.setLlbit b).busByte q = s.busByte q := rfl
@[simp] theorem State.setLlbit_fetchByte (s : State) (b : Bool) (q : Nat) : (s.setLlbit b).fetchByte q = s.fetchByte q := rfl
@[simp] theorem State.setLlbit_dset (s : State) (b : Bool) (q : Nat) : (s.setLlbit b).dset q = s.dset q := rfl
@[simp] theorem State.setLlbit_iset (s : State) (b : Bool) (q : Nat) : (s.setLlbit b).iset q = s.iset q := rfl
@[simp] theorem State.setLlbit_dHit (s : State) (b : Bool) (q : Nat) : (s.setLlbit b).dHit q = s.dHit q := rfl
@[simp] theorem State.setLlbit_iHit (s : State) (b : Bool) (q : Nat) : (s.setLlbit b).iHit q = s.iHit q := rfl
@[simp] theorem State.setLlbit_addrOK (s : State) (b : Bool) (q : Word) (md : Mode) (k : Access) : (s.setLlbit b).addrOK q md k = s.addrOK q md k := rfl
@[simp] theorem State.setLlbit_busErr (s : State) (b : Bool) (q : Nat) (k : Access) : (s.setLlbit b).busErr q k = s.busErr q k := rfl

/-! ### seq -/

@[simp] theorem State.seq_gpr (s : State) : s.seq.gpr = s.gpr := rfl
@[simp] theorem State.seq_hi (s : State) : s.seq.hi = s.hi := rfl
@[simp] theorem State.seq_lo (s : State) : s.seq.lo = s.lo := rfl
@[simp] theorem State.seq_pc (s : State) : s.seq.pc = s.npc := rfl
@[simp] theorem State.seq_npc (s : State) : s.seq.npc = s.npc + 4#32 := rfl
@[simp] theorem State.seq_inDs (s : State) : s.seq.inDs = false := rfl
@[simp] theorem State.seq_cp0Regs (s : State) : s.seq.cp0Regs = s.cp0Regs := rfl
@[simp] theorem State.seq_fpr (s : State) : s.seq.fpr = s.fpr := rfl
@[simp] theorem State.seq_fcr0 (s : State) : s.seq.fcr0 = s.fcr0 := rfl
@[simp] theorem State.seq_fcr31 (s : State) : s.seq.fcr31 = s.fcr31 := rfl
@[simp] theorem State.seq_llbit (s : State) : s.seq.llbit = s.llbit := rfl
@[simp] theorem State.seq_icache (s : State) : s.seq.icache = s.icache := rfl
@[simp] theorem State.seq_dcache (s : State) : s.seq.dcache = s.dcache := rfl
@[simp] theorem State.seq_writebackBuf (s : State) : s.seq.writebackBuf = s.writebackBuf := rfl
@[simp] theorem State.seq_nonCacheBuf (s : State) : s.seq.nonCacheBuf = s.nonCacheBuf := rfl
@[simp] theorem State.seq_mem (s : State) : s.seq.mem = s.mem := rfl
@[simp] theorem State.seq_owner (s : State) : s.seq.owner = s.owner := rfl
@[simp] theorem State.seq_h1 (s : State) : s.seq.h1 = s.h1 := rfl
@[simp] theorem State.seq_h2 (s : State) : s.seq.h2 = s.h2 := rfl
@[simp] theorem State.seq_h1FpTrap (s : State) : s.seq.h1FpTrap = s.h1FpTrap := rfl
@[simp] theorem State.seq_platform (s : State) : s.seq.platform = s.platform := rfl
@[simp] theorem State.seq_free (s : State) : s.seq.free = s.free := rfl
@[simp] theorem State.seq_x (s : State) (q : Reg) : s.seq.x q = s.x q := rfl
@[simp] theorem State.seq_f (s : State) (q : Reg) : s.seq.f q = s.f q := rfl
@[simp] theorem State.seq_cp0 (s : State) (q : Reg) : s.seq.cp0 q = s.cp0 q := rfl
@[simp] theorem State.seq_hiLo (s : State) : s.seq.hiLo = s.hiLo := rfl
@[simp] theorem State.seq_mode (s : State) : s.seq.mode = s.mode := rfl
@[simp] theorem State.seq_exl (s : State) : s.seq.exl = s.exl := rfl
@[simp] theorem State.seq_erl (s : State) : s.seq.erl = s.erl := rfl
@[simp] theorem State.seq_bev (s : State) : s.seq.bev = s.bev := rfl
@[simp] theorem State.seq_cu0 (s : State) : s.seq.cu0 = s.cu0 := rfl
@[simp] theorem State.seq_cu1 (s : State) : s.seq.cu1 = s.cu1 := rfl
@[simp] theorem State.seq_coc1 (s : State) : s.seq.coc1 = s.coc1 := rfl
@[simp] theorem State.seq_cop0Usable (s : State) : s.seq.cop0Usable = s.cop0Usable := rfl
@[simp] theorem State.seq_cop1Usable (s : State) : s.seq.cop1Usable = s.cop1Usable := rfl
@[simp] theorem State.seq_dataByte (s : State) (q : Nat) : s.seq.dataByte q = s.dataByte q := rfl
@[simp] theorem State.seq_busByte (s : State) (q : Nat) : s.seq.busByte q = s.busByte q := rfl
@[simp] theorem State.seq_fetchByte (s : State) (q : Nat) : s.seq.fetchByte q = s.fetchByte q := rfl
@[simp] theorem State.seq_dset (s : State) (q : Nat) : s.seq.dset q = s.dset q := rfl
@[simp] theorem State.seq_iset (s : State) (q : Nat) : s.seq.iset q = s.iset q := rfl
@[simp] theorem State.seq_dHit (s : State) (q : Nat) : s.seq.dHit q = s.dHit q := rfl
@[simp] theorem State.seq_iHit (s : State) (q : Nat) : s.seq.iHit q = s.iHit q := rfl
@[simp] theorem State.seq_addrOK (s : State) (q : Word) (md : Mode) (k : Access) : s.seq.addrOK q md k = s.addrOK q md k := rfl
@[simp] theorem State.seq_busErr (s : State) (q : Nat) (k : Access) : s.seq.busErr q k = s.busErr q k := rfl

/-! ### branchTo -/

@[simp] theorem State.branchTo_gpr (s : State) (t : Word) : (s.branchTo t).gpr = s.gpr := rfl
@[simp] theorem State.branchTo_hi (s : State) (t : Word) : (s.branchTo t).hi = s.hi := rfl
@[simp] theorem State.branchTo_lo (s : State) (t : Word) : (s.branchTo t).lo = s.lo := rfl
@[simp] theorem State.branchTo_pc (s : State) (t : Word) : (s.branchTo t).pc = s.npc := rfl
@[simp] theorem State.branchTo_npc (s : State) (t : Word) : (s.branchTo t).npc = t := rfl
@[simp] theorem State.branchTo_inDs (s : State) (t : Word) : (s.branchTo t).inDs = true := rfl
@[simp] theorem State.branchTo_cp0Regs (s : State) (t : Word) : (s.branchTo t).cp0Regs = s.cp0Regs := rfl
@[simp] theorem State.branchTo_fpr (s : State) (t : Word) : (s.branchTo t).fpr = s.fpr := rfl
@[simp] theorem State.branchTo_fcr0 (s : State) (t : Word) : (s.branchTo t).fcr0 = s.fcr0 := rfl
@[simp] theorem State.branchTo_fcr31 (s : State) (t : Word) : (s.branchTo t).fcr31 = s.fcr31 := rfl
@[simp] theorem State.branchTo_llbit (s : State) (t : Word) : (s.branchTo t).llbit = s.llbit := rfl
@[simp] theorem State.branchTo_icache (s : State) (t : Word) : (s.branchTo t).icache = s.icache := rfl
@[simp] theorem State.branchTo_dcache (s : State) (t : Word) : (s.branchTo t).dcache = s.dcache := rfl
@[simp] theorem State.branchTo_writebackBuf (s : State) (t : Word) : (s.branchTo t).writebackBuf = s.writebackBuf := rfl
@[simp] theorem State.branchTo_nonCacheBuf (s : State) (t : Word) : (s.branchTo t).nonCacheBuf = s.nonCacheBuf := rfl
@[simp] theorem State.branchTo_mem (s : State) (t : Word) : (s.branchTo t).mem = s.mem := rfl
@[simp] theorem State.branchTo_owner (s : State) (t : Word) : (s.branchTo t).owner = s.owner := rfl
@[simp] theorem State.branchTo_h1 (s : State) (t : Word) : (s.branchTo t).h1 = s.h1 := rfl
@[simp] theorem State.branchTo_h2 (s : State) (t : Word) : (s.branchTo t).h2 = s.h2 := rfl
@[simp] theorem State.branchTo_h1FpTrap (s : State) (t : Word) : (s.branchTo t).h1FpTrap = s.h1FpTrap := rfl
@[simp] theorem State.branchTo_platform (s : State) (t : Word) : (s.branchTo t).platform = s.platform := rfl
@[simp] theorem State.branchTo_free (s : State) (t : Word) : (s.branchTo t).free = s.free := rfl
@[simp] theorem State.branchTo_x (s : State) (t : Word) (q : Reg) : (s.branchTo t).x q = s.x q := rfl
@[simp] theorem State.branchTo_f (s : State) (t : Word) (q : Reg) : (s.branchTo t).f q = s.f q := rfl
@[simp] theorem State.branchTo_cp0 (s : State) (t : Word) (q : Reg) : (s.branchTo t).cp0 q = s.cp0 q := rfl
@[simp] theorem State.branchTo_hiLo (s : State) (t : Word) : (s.branchTo t).hiLo = s.hiLo := rfl
@[simp] theorem State.branchTo_mode (s : State) (t : Word) : (s.branchTo t).mode = s.mode := rfl
@[simp] theorem State.branchTo_exl (s : State) (t : Word) : (s.branchTo t).exl = s.exl := rfl
@[simp] theorem State.branchTo_erl (s : State) (t : Word) : (s.branchTo t).erl = s.erl := rfl
@[simp] theorem State.branchTo_bev (s : State) (t : Word) : (s.branchTo t).bev = s.bev := rfl
@[simp] theorem State.branchTo_cu0 (s : State) (t : Word) : (s.branchTo t).cu0 = s.cu0 := rfl
@[simp] theorem State.branchTo_cu1 (s : State) (t : Word) : (s.branchTo t).cu1 = s.cu1 := rfl
@[simp] theorem State.branchTo_coc1 (s : State) (t : Word) : (s.branchTo t).coc1 = s.coc1 := rfl
@[simp] theorem State.branchTo_cop0Usable (s : State) (t : Word) : (s.branchTo t).cop0Usable = s.cop0Usable := rfl
@[simp] theorem State.branchTo_cop1Usable (s : State) (t : Word) : (s.branchTo t).cop1Usable = s.cop1Usable := rfl
@[simp] theorem State.branchTo_dataByte (s : State) (t : Word) (q : Nat) : (s.branchTo t).dataByte q = s.dataByte q := rfl
@[simp] theorem State.branchTo_busByte (s : State) (t : Word) (q : Nat) : (s.branchTo t).busByte q = s.busByte q := rfl
@[simp] theorem State.branchTo_fetchByte (s : State) (t : Word) (q : Nat) : (s.branchTo t).fetchByte q = s.fetchByte q := rfl
@[simp] theorem State.branchTo_dset (s : State) (t : Word) (q : Nat) : (s.branchTo t).dset q = s.dset q := rfl
@[simp] theorem State.branchTo_iset (s : State) (t : Word) (q : Nat) : (s.branchTo t).iset q = s.iset q := rfl
@[simp] theorem State.branchTo_dHit (s : State) (t : Word) (q : Nat) : (s.branchTo t).dHit q = s.dHit q := rfl
@[simp] theorem State.branchTo_iHit (s : State) (t : Word) (q : Nat) : (s.branchTo t).iHit q = s.iHit q := rfl
@[simp] theorem State.branchTo_addrOK (s : State) (t : Word) (q : Word) (md : Mode) (k : Access) : (s.branchTo t).addrOK q md k = s.addrOK q md k := rfl
@[simp] theorem State.branchTo_busErr (s : State) (t : Word) (q : Nat) (k : Access) : (s.branchTo t).busErr q k = s.busErr q k := rfl

/-! ### fallThrough -/

@[simp] theorem State.fallThrough_gpr (s : State) : s.fallThrough.gpr = s.gpr := rfl
@[simp] theorem State.fallThrough_hi (s : State) : s.fallThrough.hi = s.hi := rfl
@[simp] theorem State.fallThrough_lo (s : State) : s.fallThrough.lo = s.lo := rfl
@[simp] theorem State.fallThrough_pc (s : State) : s.fallThrough.pc = s.npc := rfl
@[simp] theorem State.fallThrough_npc (s : State) : s.fallThrough.npc = s.npc + 4#32 := rfl
@[simp] theorem State.fallThrough_inDs (s : State) : s.fallThrough.inDs = true := rfl
@[simp] theorem State.fallThrough_cp0Regs (s : State) : s.fallThrough.cp0Regs = s.cp0Regs := rfl
@[simp] theorem State.fallThrough_fpr (s : State) : s.fallThrough.fpr = s.fpr := rfl
@[simp] theorem State.fallThrough_fcr0 (s : State) : s.fallThrough.fcr0 = s.fcr0 := rfl
@[simp] theorem State.fallThrough_fcr31 (s : State) : s.fallThrough.fcr31 = s.fcr31 := rfl
@[simp] theorem State.fallThrough_llbit (s : State) : s.fallThrough.llbit = s.llbit := rfl
@[simp] theorem State.fallThrough_icache (s : State) : s.fallThrough.icache = s.icache := rfl
@[simp] theorem State.fallThrough_dcache (s : State) : s.fallThrough.dcache = s.dcache := rfl
@[simp] theorem State.fallThrough_writebackBuf (s : State) : s.fallThrough.writebackBuf = s.writebackBuf := rfl
@[simp] theorem State.fallThrough_nonCacheBuf (s : State) : s.fallThrough.nonCacheBuf = s.nonCacheBuf := rfl
@[simp] theorem State.fallThrough_mem (s : State) : s.fallThrough.mem = s.mem := rfl
@[simp] theorem State.fallThrough_owner (s : State) : s.fallThrough.owner = s.owner := rfl
@[simp] theorem State.fallThrough_h1 (s : State) : s.fallThrough.h1 = s.h1 := rfl
@[simp] theorem State.fallThrough_h2 (s : State) : s.fallThrough.h2 = s.h2 := rfl
@[simp] theorem State.fallThrough_h1FpTrap (s : State) : s.fallThrough.h1FpTrap = s.h1FpTrap := rfl
@[simp] theorem State.fallThrough_platform (s : State) : s.fallThrough.platform = s.platform := rfl
@[simp] theorem State.fallThrough_free (s : State) : s.fallThrough.free = s.free := rfl
@[simp] theorem State.fallThrough_x (s : State) (q : Reg) : s.fallThrough.x q = s.x q := rfl
@[simp] theorem State.fallThrough_f (s : State) (q : Reg) : s.fallThrough.f q = s.f q := rfl
@[simp] theorem State.fallThrough_cp0 (s : State) (q : Reg) : s.fallThrough.cp0 q = s.cp0 q := rfl
@[simp] theorem State.fallThrough_hiLo (s : State) : s.fallThrough.hiLo = s.hiLo := rfl
@[simp] theorem State.fallThrough_mode (s : State) : s.fallThrough.mode = s.mode := rfl
@[simp] theorem State.fallThrough_exl (s : State) : s.fallThrough.exl = s.exl := rfl
@[simp] theorem State.fallThrough_erl (s : State) : s.fallThrough.erl = s.erl := rfl
@[simp] theorem State.fallThrough_bev (s : State) : s.fallThrough.bev = s.bev := rfl
@[simp] theorem State.fallThrough_cu0 (s : State) : s.fallThrough.cu0 = s.cu0 := rfl
@[simp] theorem State.fallThrough_cu1 (s : State) : s.fallThrough.cu1 = s.cu1 := rfl
@[simp] theorem State.fallThrough_coc1 (s : State) : s.fallThrough.coc1 = s.coc1 := rfl
@[simp] theorem State.fallThrough_cop0Usable (s : State) : s.fallThrough.cop0Usable = s.cop0Usable := rfl
@[simp] theorem State.fallThrough_cop1Usable (s : State) : s.fallThrough.cop1Usable = s.cop1Usable := rfl
@[simp] theorem State.fallThrough_dataByte (s : State) (q : Nat) : s.fallThrough.dataByte q = s.dataByte q := rfl
@[simp] theorem State.fallThrough_busByte (s : State) (q : Nat) : s.fallThrough.busByte q = s.busByte q := rfl
@[simp] theorem State.fallThrough_fetchByte (s : State) (q : Nat) : s.fallThrough.fetchByte q = s.fetchByte q := rfl
@[simp] theorem State.fallThrough_dset (s : State) (q : Nat) : s.fallThrough.dset q = s.dset q := rfl
@[simp] theorem State.fallThrough_iset (s : State) (q : Nat) : s.fallThrough.iset q = s.iset q := rfl
@[simp] theorem State.fallThrough_dHit (s : State) (q : Nat) : s.fallThrough.dHit q = s.dHit q := rfl
@[simp] theorem State.fallThrough_iHit (s : State) (q : Nat) : s.fallThrough.iHit q = s.iHit q := rfl
@[simp] theorem State.fallThrough_addrOK (s : State) (q : Word) (md : Mode) (k : Access) : s.fallThrough.addrOK q md k = s.addrOK q md k := rfl
@[simp] theorem State.fallThrough_busErr (s : State) (q : Nat) (k : Access) : s.fallThrough.busErr q k = s.busErr q k := rfl

/-! ### nullifySlot -/

@[simp] theorem State.nullifySlot_gpr (s : State) : s.nullifySlot.gpr = s.gpr := rfl
@[simp] theorem State.nullifySlot_hi (s : State) : s.nullifySlot.hi = s.hi := rfl
@[simp] theorem State.nullifySlot_lo (s : State) : s.nullifySlot.lo = s.lo := rfl
@[simp] theorem State.nullifySlot_pc (s : State) : s.nullifySlot.pc = s.npc + 4#32 := rfl
@[simp] theorem State.nullifySlot_npc (s : State) : s.nullifySlot.npc = s.npc + 8#32 := rfl
@[simp] theorem State.nullifySlot_inDs (s : State) : s.nullifySlot.inDs = false := rfl
@[simp] theorem State.nullifySlot_cp0Regs (s : State) : s.nullifySlot.cp0Regs = s.cp0Regs := rfl
@[simp] theorem State.nullifySlot_fpr (s : State) : s.nullifySlot.fpr = s.fpr := rfl
@[simp] theorem State.nullifySlot_fcr0 (s : State) : s.nullifySlot.fcr0 = s.fcr0 := rfl
@[simp] theorem State.nullifySlot_fcr31 (s : State) : s.nullifySlot.fcr31 = s.fcr31 := rfl
@[simp] theorem State.nullifySlot_llbit (s : State) : s.nullifySlot.llbit = s.llbit := rfl
@[simp] theorem State.nullifySlot_icache (s : State) : s.nullifySlot.icache = s.icache := rfl
@[simp] theorem State.nullifySlot_dcache (s : State) : s.nullifySlot.dcache = s.dcache := rfl
@[simp] theorem State.nullifySlot_writebackBuf (s : State) : s.nullifySlot.writebackBuf = s.writebackBuf := rfl
@[simp] theorem State.nullifySlot_nonCacheBuf (s : State) : s.nullifySlot.nonCacheBuf = s.nonCacheBuf := rfl
@[simp] theorem State.nullifySlot_mem (s : State) : s.nullifySlot.mem = s.mem := rfl
@[simp] theorem State.nullifySlot_owner (s : State) : s.nullifySlot.owner = s.owner := rfl
@[simp] theorem State.nullifySlot_h1 (s : State) : s.nullifySlot.h1 = s.h1 := rfl
@[simp] theorem State.nullifySlot_h2 (s : State) : s.nullifySlot.h2 = s.h2 := rfl
@[simp] theorem State.nullifySlot_h1FpTrap (s : State) : s.nullifySlot.h1FpTrap = s.h1FpTrap := rfl
@[simp] theorem State.nullifySlot_platform (s : State) : s.nullifySlot.platform = s.platform := rfl
@[simp] theorem State.nullifySlot_free (s : State) : s.nullifySlot.free = s.free := rfl
@[simp] theorem State.nullifySlot_x (s : State) (q : Reg) : s.nullifySlot.x q = s.x q := rfl
@[simp] theorem State.nullifySlot_f (s : State) (q : Reg) : s.nullifySlot.f q = s.f q := rfl
@[simp] theorem State.nullifySlot_cp0 (s : State) (q : Reg) : s.nullifySlot.cp0 q = s.cp0 q := rfl
@[simp] theorem State.nullifySlot_hiLo (s : State) : s.nullifySlot.hiLo = s.hiLo := rfl
@[simp] theorem State.nullifySlot_mode (s : State) : s.nullifySlot.mode = s.mode := rfl
@[simp] theorem State.nullifySlot_exl (s : State) : s.nullifySlot.exl = s.exl := rfl
@[simp] theorem State.nullifySlot_erl (s : State) : s.nullifySlot.erl = s.erl := rfl
@[simp] theorem State.nullifySlot_bev (s : State) : s.nullifySlot.bev = s.bev := rfl
@[simp] theorem State.nullifySlot_cu0 (s : State) : s.nullifySlot.cu0 = s.cu0 := rfl
@[simp] theorem State.nullifySlot_cu1 (s : State) : s.nullifySlot.cu1 = s.cu1 := rfl
@[simp] theorem State.nullifySlot_coc1 (s : State) : s.nullifySlot.coc1 = s.coc1 := rfl
@[simp] theorem State.nullifySlot_cop0Usable (s : State) : s.nullifySlot.cop0Usable = s.cop0Usable := rfl
@[simp] theorem State.nullifySlot_cop1Usable (s : State) : s.nullifySlot.cop1Usable = s.cop1Usable := rfl
@[simp] theorem State.nullifySlot_dataByte (s : State) (q : Nat) : s.nullifySlot.dataByte q = s.dataByte q := rfl
@[simp] theorem State.nullifySlot_busByte (s : State) (q : Nat) : s.nullifySlot.busByte q = s.busByte q := rfl
@[simp] theorem State.nullifySlot_fetchByte (s : State) (q : Nat) : s.nullifySlot.fetchByte q = s.fetchByte q := rfl
@[simp] theorem State.nullifySlot_dset (s : State) (q : Nat) : s.nullifySlot.dset q = s.dset q := rfl
@[simp] theorem State.nullifySlot_iset (s : State) (q : Nat) : s.nullifySlot.iset q = s.iset q := rfl
@[simp] theorem State.nullifySlot_dHit (s : State) (q : Nat) : s.nullifySlot.dHit q = s.dHit q := rfl
@[simp] theorem State.nullifySlot_iHit (s : State) (q : Nat) : s.nullifySlot.iHit q = s.iHit q := rfl
@[simp] theorem State.nullifySlot_addrOK (s : State) (q : Word) (md : Mode) (k : Access) : s.nullifySlot.addrOK q md k = s.addrOK q md k := rfl
@[simp] theorem State.nullifySlot_busErr (s : State) (q : Nat) (k : Access) : s.nullifySlot.busErr q k = s.busErr q k := rfl

/-! ### jumpNow -/

@[simp] theorem State.jumpNow_gpr (s : State) (t : Word) : (s.jumpNow t).gpr = s.gpr := rfl
@[simp] theorem State.jumpNow_hi (s : State) (t : Word) : (s.jumpNow t).hi = s.hi := rfl
@[simp] theorem State.jumpNow_lo (s : State) (t : Word) : (s.jumpNow t).lo = s.lo := rfl
@[simp] theorem State.jumpNow_pc (s : State) (t : Word) : (s.jumpNow t).pc = t := rfl
@[simp] theorem State.jumpNow_npc (s : State) (t : Word) : (s.jumpNow t).npc = t + 4#32 := rfl
@[simp] theorem State.jumpNow_inDs (s : State) (t : Word) : (s.jumpNow t).inDs = false := rfl
@[simp] theorem State.jumpNow_cp0Regs (s : State) (t : Word) : (s.jumpNow t).cp0Regs = s.cp0Regs := rfl
@[simp] theorem State.jumpNow_fpr (s : State) (t : Word) : (s.jumpNow t).fpr = s.fpr := rfl
@[simp] theorem State.jumpNow_fcr0 (s : State) (t : Word) : (s.jumpNow t).fcr0 = s.fcr0 := rfl
@[simp] theorem State.jumpNow_fcr31 (s : State) (t : Word) : (s.jumpNow t).fcr31 = s.fcr31 := rfl
@[simp] theorem State.jumpNow_llbit (s : State) (t : Word) : (s.jumpNow t).llbit = s.llbit := rfl
@[simp] theorem State.jumpNow_icache (s : State) (t : Word) : (s.jumpNow t).icache = s.icache := rfl
@[simp] theorem State.jumpNow_dcache (s : State) (t : Word) : (s.jumpNow t).dcache = s.dcache := rfl
@[simp] theorem State.jumpNow_writebackBuf (s : State) (t : Word) : (s.jumpNow t).writebackBuf = s.writebackBuf := rfl
@[simp] theorem State.jumpNow_nonCacheBuf (s : State) (t : Word) : (s.jumpNow t).nonCacheBuf = s.nonCacheBuf := rfl
@[simp] theorem State.jumpNow_mem (s : State) (t : Word) : (s.jumpNow t).mem = s.mem := rfl
@[simp] theorem State.jumpNow_owner (s : State) (t : Word) : (s.jumpNow t).owner = s.owner := rfl
@[simp] theorem State.jumpNow_h1 (s : State) (t : Word) : (s.jumpNow t).h1 = s.h1 := rfl
@[simp] theorem State.jumpNow_h2 (s : State) (t : Word) : (s.jumpNow t).h2 = s.h2 := rfl
@[simp] theorem State.jumpNow_h1FpTrap (s : State) (t : Word) : (s.jumpNow t).h1FpTrap = s.h1FpTrap := rfl
@[simp] theorem State.jumpNow_platform (s : State) (t : Word) : (s.jumpNow t).platform = s.platform := rfl
@[simp] theorem State.jumpNow_free (s : State) (t : Word) : (s.jumpNow t).free = s.free := rfl
@[simp] theorem State.jumpNow_x (s : State) (t : Word) (q : Reg) : (s.jumpNow t).x q = s.x q := rfl
@[simp] theorem State.jumpNow_f (s : State) (t : Word) (q : Reg) : (s.jumpNow t).f q = s.f q := rfl
@[simp] theorem State.jumpNow_cp0 (s : State) (t : Word) (q : Reg) : (s.jumpNow t).cp0 q = s.cp0 q := rfl
@[simp] theorem State.jumpNow_hiLo (s : State) (t : Word) : (s.jumpNow t).hiLo = s.hiLo := rfl
@[simp] theorem State.jumpNow_mode (s : State) (t : Word) : (s.jumpNow t).mode = s.mode := rfl
@[simp] theorem State.jumpNow_exl (s : State) (t : Word) : (s.jumpNow t).exl = s.exl := rfl
@[simp] theorem State.jumpNow_erl (s : State) (t : Word) : (s.jumpNow t).erl = s.erl := rfl
@[simp] theorem State.jumpNow_bev (s : State) (t : Word) : (s.jumpNow t).bev = s.bev := rfl
@[simp] theorem State.jumpNow_cu0 (s : State) (t : Word) : (s.jumpNow t).cu0 = s.cu0 := rfl
@[simp] theorem State.jumpNow_cu1 (s : State) (t : Word) : (s.jumpNow t).cu1 = s.cu1 := rfl
@[simp] theorem State.jumpNow_coc1 (s : State) (t : Word) : (s.jumpNow t).coc1 = s.coc1 := rfl
@[simp] theorem State.jumpNow_cop0Usable (s : State) (t : Word) : (s.jumpNow t).cop0Usable = s.cop0Usable := rfl
@[simp] theorem State.jumpNow_cop1Usable (s : State) (t : Word) : (s.jumpNow t).cop1Usable = s.cop1Usable := rfl
@[simp] theorem State.jumpNow_dataByte (s : State) (t : Word) (q : Nat) : (s.jumpNow t).dataByte q = s.dataByte q := rfl
@[simp] theorem State.jumpNow_busByte (s : State) (t : Word) (q : Nat) : (s.jumpNow t).busByte q = s.busByte q := rfl
@[simp] theorem State.jumpNow_fetchByte (s : State) (t : Word) (q : Nat) : (s.jumpNow t).fetchByte q = s.fetchByte q := rfl
@[simp] theorem State.jumpNow_dset (s : State) (t : Word) (q : Nat) : (s.jumpNow t).dset q = s.dset q := rfl
@[simp] theorem State.jumpNow_iset (s : State) (t : Word) (q : Nat) : (s.jumpNow t).iset q = s.iset q := rfl
@[simp] theorem State.jumpNow_dHit (s : State) (t : Word) (q : Nat) : (s.jumpNow t).dHit q = s.dHit q := rfl
@[simp] theorem State.jumpNow_iHit (s : State) (t : Word) (q : Nat) : (s.jumpNow t).iHit q = s.iHit q := rfl
@[simp] theorem State.jumpNow_addrOK (s : State) (t : Word) (q : Word) (md : Mode) (k : Access) : (s.jumpNow t).addrOK q md k = s.addrOK q md k := rfl
@[simp] theorem State.jumpNow_busErr (s : State) (t : Word) (q : Nat) (k : Access) : (s.jumpNow t).busErr q k = s.busErr q k := rfl

/-! ### link -/

@[simp] theorem State.link_hi (s : State) (r : Reg) : (s.link r).hi = s.hi := rfl
@[simp] theorem State.link_lo (s : State) (r : Reg) : (s.link r).lo = s.lo := rfl
@[simp] theorem State.link_pc (s : State) (r : Reg) : (s.link r).pc = s.pc := rfl
@[simp] theorem State.link_npc (s : State) (r : Reg) : (s.link r).npc = s.npc := rfl
@[simp] theorem State.link_inDs (s : State) (r : Reg) : (s.link r).inDs = s.inDs := rfl
@[simp] theorem State.link_cp0Regs (s : State) (r : Reg) : (s.link r).cp0Regs = s.cp0Regs := rfl
@[simp] theorem State.link_fpr (s : State) (r : Reg) : (s.link r).fpr = s.fpr := rfl
@[simp] theorem State.link_fcr0 (s : State) (r : Reg) : (s.link r).fcr0 = s.fcr0 := rfl
@[simp] theorem State.link_fcr31 (s : State) (r : Reg) : (s.link r).fcr31 = s.fcr31 := rfl
@[simp] theorem State.link_llbit (s : State) (r : Reg) : (s.link r).llbit = s.llbit := rfl
@[simp] theorem State.link_icache (s : State) (r : Reg) : (s.link r).icache = s.icache := rfl
@[simp] theorem State.link_dcache (s : State) (r : Reg) : (s.link r).dcache = s.dcache := rfl
@[simp] theorem State.link_writebackBuf (s : State) (r : Reg) : (s.link r).writebackBuf = s.writebackBuf := rfl
@[simp] theorem State.link_nonCacheBuf (s : State) (r : Reg) : (s.link r).nonCacheBuf = s.nonCacheBuf := rfl
@[simp] theorem State.link_mem (s : State) (r : Reg) : (s.link r).mem = s.mem := rfl
@[simp] theorem State.link_owner (s : State) (r : Reg) : (s.link r).owner = s.owner := rfl
@[simp] theorem State.link_h1 (s : State) (r : Reg) : (s.link r).h1 = s.h1 := rfl
@[simp] theorem State.link_h2 (s : State) (r : Reg) : (s.link r).h2 = s.h2 := rfl
@[simp] theorem State.link_h1FpTrap (s : State) (r : Reg) : (s.link r).h1FpTrap = s.h1FpTrap := rfl
@[simp] theorem State.link_platform (s : State) (r : Reg) : (s.link r).platform = s.platform := rfl
@[simp] theorem State.link_free (s : State) (r : Reg) : (s.link r).free = s.free := rfl
@[simp] theorem State.link_f (s : State) (r : Reg) (q : Reg) : (s.link r).f q = s.f q := rfl
@[simp] theorem State.link_cp0 (s : State) (r : Reg) (q : Reg) : (s.link r).cp0 q = s.cp0 q := rfl
@[simp] theorem State.link_hiLo (s : State) (r : Reg) : (s.link r).hiLo = s.hiLo := rfl
@[simp] theorem State.link_mode (s : State) (r : Reg) : (s.link r).mode = s.mode := rfl
@[simp] theorem State.link_exl (s : State) (r : Reg) : (s.link r).exl = s.exl := rfl
@[simp] theorem State.link_erl (s : State) (r : Reg) : (s.link r).erl = s.erl := rfl
@[simp] theorem State.link_bev (s : State) (r : Reg) : (s.link r).bev = s.bev := rfl
@[simp] theorem State.link_cu0 (s : State) (r : Reg) : (s.link r).cu0 = s.cu0 := rfl
@[simp] theorem State.link_cu1 (s : State) (r : Reg) : (s.link r).cu1 = s.cu1 := rfl
@[simp] theorem State.link_coc1 (s : State) (r : Reg) : (s.link r).coc1 = s.coc1 := rfl
@[simp] theorem State.link_cop0Usable (s : State) (r : Reg) : (s.link r).cop0Usable = s.cop0Usable := rfl
@[simp] theorem State.link_cop1Usable (s : State) (r : Reg) : (s.link r).cop1Usable = s.cop1Usable := rfl
@[simp] theorem State.link_dataByte (s : State) (r : Reg) (q : Nat) : (s.link r).dataByte q = s.dataByte q := rfl
@[simp] theorem State.link_busByte (s : State) (r : Reg) (q : Nat) : (s.link r).busByte q = s.busByte q := rfl
@[simp] theorem State.link_fetchByte (s : State) (r : Reg) (q : Nat) : (s.link r).fetchByte q = s.fetchByte q := rfl
@[simp] theorem State.link_dset (s : State) (r : Reg) (q : Nat) : (s.link r).dset q = s.dset q := rfl
@[simp] theorem State.link_iset (s : State) (r : Reg) (q : Nat) : (s.link r).iset q = s.iset q := rfl
@[simp] theorem State.link_dHit (s : State) (r : Reg) (q : Nat) : (s.link r).dHit q = s.dHit q := rfl
@[simp] theorem State.link_iHit (s : State) (r : Reg) (q : Nat) : (s.link r).iHit q = s.iHit q := rfl
@[simp] theorem State.link_addrOK (s : State) (r : Reg) (q : Word) (md : Mode) (k : Access) : (s.link r).addrOK q md k = s.addrOK q md k := rfl
@[simp] theorem State.link_busErr (s : State) (r : Reg) (q : Nat) (k : Access) : (s.link r).busErr q k = s.busErr q k := rfl

/-! ### trapEntry -/

@[simp] theorem State.trapEntry_gpr (s : State) (e : Exc) : (s.trapEntry e).gpr = s.gpr := rfl
@[simp] theorem State.trapEntry_hi (s : State) (e : Exc) : (s.trapEntry e).hi = s.hi := rfl
@[simp] theorem State.trapEntry_lo (s : State) (e : Exc) : (s.trapEntry e).lo = s.lo := rfl
@[simp] theorem State.trapEntry_pc (s : State) (e : Exc) : (s.trapEntry e).pc = s.vectorOf e := rfl
@[simp] theorem State.trapEntry_npc (s : State) (e : Exc) : (s.trapEntry e).npc = s.vectorOf e + 4#32 := rfl
@[simp] theorem State.trapEntry_inDs (s : State) (e : Exc) : (s.trapEntry e).inDs = false := rfl
@[simp] theorem State.trapEntry_cp0Regs (s : State) (e : Exc) : (s.trapEntry e).cp0Regs = (s.trapCp0 e).cp0Regs := rfl
@[simp] theorem State.trapEntry_fpr (s : State) (e : Exc) : (s.trapEntry e).fpr = s.fpr := rfl
@[simp] theorem State.trapEntry_fcr0 (s : State) (e : Exc) : (s.trapEntry e).fcr0 = s.fcr0 := rfl
@[simp] theorem State.trapEntry_fcr31 (s : State) (e : Exc) : (s.trapEntry e).fcr31 = s.fcr31 := rfl
@[simp] theorem State.trapEntry_llbit (s : State) (e : Exc) : (s.trapEntry e).llbit = s.llbit := rfl
@[simp] theorem State.trapEntry_icache (s : State) (e : Exc) : (s.trapEntry e).icache = s.icache := rfl
@[simp] theorem State.trapEntry_dcache (s : State) (e : Exc) : (s.trapEntry e).dcache = s.dcache := rfl
@[simp] theorem State.trapEntry_writebackBuf (s : State) (e : Exc) : (s.trapEntry e).writebackBuf = s.writebackBuf := rfl
@[simp] theorem State.trapEntry_nonCacheBuf (s : State) (e : Exc) : (s.trapEntry e).nonCacheBuf = s.nonCacheBuf := rfl
@[simp] theorem State.trapEntry_mem (s : State) (e : Exc) : (s.trapEntry e).mem = s.mem := rfl
@[simp] theorem State.trapEntry_owner (s : State) (e : Exc) : (s.trapEntry e).owner = s.owner := rfl
@[simp] theorem State.trapEntry_h1 (s : State) (e : Exc) : (s.trapEntry e).h1 = s.h1 := rfl
@[simp] theorem State.trapEntry_h2 (s : State) (e : Exc) : (s.trapEntry e).h2 = s.h2 := rfl
@[simp] theorem State.trapEntry_h1FpTrap (s : State) (e : Exc) : (s.trapEntry e).h1FpTrap = s.h1FpTrap := rfl
@[simp] theorem State.trapEntry_platform (s : State) (e : Exc) : (s.trapEntry e).platform = s.platform := rfl
@[simp] theorem State.trapEntry_free (s : State) (e : Exc) : (s.trapEntry e).free = s.free := rfl
@[simp] theorem State.trapEntry_x (s : State) (e : Exc) (q : Reg) : (s.trapEntry e).x q = s.x q := rfl
@[simp] theorem State.trapEntry_f (s : State) (e : Exc) (q : Reg) : (s.trapEntry e).f q = s.f q := rfl
@[simp] theorem State.trapEntry_hiLo (s : State) (e : Exc) : (s.trapEntry e).hiLo = s.hiLo := rfl
@[simp] theorem State.trapEntry_coc1 (s : State) (e : Exc) : (s.trapEntry e).coc1 = s.coc1 := rfl
@[simp] theorem State.trapEntry_dataByte (s : State) (e : Exc) (q : Nat) : (s.trapEntry e).dataByte q = s.dataByte q := rfl
@[simp] theorem State.trapEntry_busByte (s : State) (e : Exc) (q : Nat) : (s.trapEntry e).busByte q = s.busByte q := rfl
@[simp] theorem State.trapEntry_fetchByte (s : State) (e : Exc) (q : Nat) : (s.trapEntry e).fetchByte q = s.fetchByte q := rfl
@[simp] theorem State.trapEntry_dset (s : State) (e : Exc) (q : Nat) : (s.trapEntry e).dset q = s.dset q := rfl
@[simp] theorem State.trapEntry_iset (s : State) (e : Exc) (q : Nat) : (s.trapEntry e).iset q = s.iset q := rfl
@[simp] theorem State.trapEntry_dHit (s : State) (e : Exc) (q : Nat) : (s.trapEntry e).dHit q = s.dHit q := rfl
@[simp] theorem State.trapEntry_iHit (s : State) (e : Exc) (q : Nat) : (s.trapEntry e).iHit q = s.iHit q := rfl
@[simp] theorem State.trapEntry_addrOK (s : State) (e : Exc) (q : Word) (md : Mode) (k : Access) : (s.trapEntry e).addrOK q md k = s.addrOK q md k := rfl
@[simp] theorem State.trapEntry_busErr (s : State) (e : Exc) (q : Nat) (k : Access) : (s.trapEntry e).busErr q k = s.busErr q k := rfl

/-! ### eretReturn -/

@[simp] theorem State.eretReturn_gpr (s : State) : s.eretReturn.gpr = s.gpr := rfl
@[simp] theorem State.eretReturn_hi (s : State) : s.eretReturn.hi = s.hi := rfl
@[simp] theorem State.eretReturn_lo (s : State) : s.eretReturn.lo = s.lo := rfl
@[simp] theorem State.eretReturn_pc (s : State) : s.eretReturn.pc = s.eretTarget := rfl
@[simp] theorem State.eretReturn_npc (s : State) : s.eretReturn.npc = s.eretTarget + 4#32 := rfl
@[simp] theorem State.eretReturn_inDs (s : State) : s.eretReturn.inDs = false := rfl
@[simp] theorem State.eretReturn_cp0Regs (s : State) : s.eretReturn.cp0Regs = (s.setCp0 statusReg s.eretStatus).cp0Regs := rfl
@[simp] theorem State.eretReturn_fpr (s : State) : s.eretReturn.fpr = s.fpr := rfl
@[simp] theorem State.eretReturn_fcr0 (s : State) : s.eretReturn.fcr0 = s.fcr0 := rfl
@[simp] theorem State.eretReturn_fcr31 (s : State) : s.eretReturn.fcr31 = s.fcr31 := rfl
@[simp] theorem State.eretReturn_llbit (s : State) : s.eretReturn.llbit = false := rfl
@[simp] theorem State.eretReturn_icache (s : State) : s.eretReturn.icache = s.icache := rfl
@[simp] theorem State.eretReturn_dcache (s : State) : s.eretReturn.dcache = s.dcache := rfl
@[simp] theorem State.eretReturn_writebackBuf (s : State) : s.eretReturn.writebackBuf = s.writebackBuf := rfl
@[simp] theorem State.eretReturn_nonCacheBuf (s : State) : s.eretReturn.nonCacheBuf = s.nonCacheBuf := rfl
@[simp] theorem State.eretReturn_mem (s : State) : s.eretReturn.mem = s.mem := rfl
@[simp] theorem State.eretReturn_owner (s : State) : s.eretReturn.owner = s.owner := rfl
@[simp] theorem State.eretReturn_h1 (s : State) : s.eretReturn.h1 = s.h1 := rfl
@[simp] theorem State.eretReturn_h2 (s : State) : s.eretReturn.h2 = s.h2 := rfl
@[simp] theorem State.eretReturn_h1FpTrap (s : State) : s.eretReturn.h1FpTrap = s.h1FpTrap := rfl
@[simp] theorem State.eretReturn_platform (s : State) : s.eretReturn.platform = s.platform := rfl
@[simp] theorem State.eretReturn_free (s : State) : s.eretReturn.free = s.free := rfl
@[simp] theorem State.eretReturn_x (s : State) (q : Reg) : s.eretReturn.x q = s.x q := rfl
@[simp] theorem State.eretReturn_f (s : State) (q : Reg) : s.eretReturn.f q = s.f q := rfl
@[simp] theorem State.eretReturn_hiLo (s : State) : s.eretReturn.hiLo = s.hiLo := rfl
@[simp] theorem State.eretReturn_coc1 (s : State) : s.eretReturn.coc1 = s.coc1 := rfl
@[simp] theorem State.eretReturn_dataByte (s : State) (q : Nat) : s.eretReturn.dataByte q = s.dataByte q := rfl
@[simp] theorem State.eretReturn_busByte (s : State) (q : Nat) : s.eretReturn.busByte q = s.busByte q := rfl
@[simp] theorem State.eretReturn_fetchByte (s : State) (q : Nat) : s.eretReturn.fetchByte q = s.fetchByte q := rfl
@[simp] theorem State.eretReturn_dset (s : State) (q : Nat) : s.eretReturn.dset q = s.dset q := rfl
@[simp] theorem State.eretReturn_iset (s : State) (q : Nat) : s.eretReturn.iset q = s.iset q := rfl
@[simp] theorem State.eretReturn_dHit (s : State) (q : Nat) : s.eretReturn.dHit q = s.dHit q := rfl
@[simp] theorem State.eretReturn_iHit (s : State) (q : Nat) : s.eretReturn.iHit q = s.iHit q := rfl
@[simp] theorem State.eretReturn_addrOK (s : State) (q : Word) (md : Mode) (k : Access) : s.eretReturn.addrOK q md k = s.addrOK q md k := rfl
@[simp] theorem State.eretReturn_busErr (s : State) (q : Nat) (k : Access) : s.eretReturn.busErr q k = s.busErr q k := rfl

/-! ### putDset -/

@[simp] theorem State.putDset_gpr (s : State) (a : Nat) (c : CacheSet) : (s.putDset a c).gpr = s.gpr := rfl
@[simp] theorem State.putDset_hi (s : State) (a : Nat) (c : CacheSet) : (s.putDset a c).hi = s.hi := rfl
@[simp] theorem State.putDset_lo (s : State) (a : Nat) (c : CacheSet) : (s.putDset a c).lo = s.lo := rfl
@[simp] theorem State.putDset_pc (s : State) (a : Nat) (c : CacheSet) : (s.putDset a c).pc = s.pc := rfl
@[simp] theorem State.putDset_npc (s : State) (a : Nat) (c : CacheSet) : (s.putDset a c).npc = s.npc := rfl
@[simp] theorem State.putDset_inDs (s : State) (a : Nat) (c : CacheSet) : (s.putDset a c).inDs = s.inDs := rfl
@[simp] theorem State.putDset_cp0Regs (s : State) (a : Nat) (c : CacheSet) : (s.putDset a c).cp0Regs = s.cp0Regs := rfl
@[simp] theorem State.putDset_fpr (s : State) (a : Nat) (c : CacheSet) : (s.putDset a c).fpr = s.fpr := rfl
@[simp] theorem State.putDset_fcr0 (s : State) (a : Nat) (c : CacheSet) : (s.putDset a c).fcr0 = s.fcr0 := rfl
@[simp] theorem State.putDset_fcr31 (s : State) (a : Nat) (c : CacheSet) : (s.putDset a c).fcr31 = s.fcr31 := rfl
@[simp] theorem State.putDset_llbit (s : State) (a : Nat) (c : CacheSet) : (s.putDset a c).llbit = s.llbit := rfl
@[simp] theorem State.putDset_icache (s : State) (a : Nat) (c : CacheSet) : (s.putDset a c).icache = s.icache := rfl
@[simp] theorem State.putDset_dcache (s : State) (a : Nat) (c : CacheSet) : (s.putDset a c).dcache = Cache.put s.dcache (s.platform.setOf .data a) c := rfl
@[simp] theorem State.putDset_writebackBuf (s : State) (a : Nat) (c : CacheSet) : (s.putDset a c).writebackBuf = s.writebackBuf := rfl
@[simp] theorem State.putDset_nonCacheBuf (s : State) (a : Nat) (c : CacheSet) : (s.putDset a c).nonCacheBuf = s.nonCacheBuf := rfl
@[simp] theorem State.putDset_mem (s : State) (a : Nat) (c : CacheSet) : (s.putDset a c).mem = s.mem := rfl
@[simp] theorem State.putDset_owner (s : State) (a : Nat) (c : CacheSet) : (s.putDset a c).owner = s.owner := rfl
@[simp] theorem State.putDset_h1 (s : State) (a : Nat) (c : CacheSet) : (s.putDset a c).h1 = s.h1 := rfl
@[simp] theorem State.putDset_h2 (s : State) (a : Nat) (c : CacheSet) : (s.putDset a c).h2 = s.h2 := rfl
@[simp] theorem State.putDset_h1FpTrap (s : State) (a : Nat) (c : CacheSet) : (s.putDset a c).h1FpTrap = s.h1FpTrap := rfl
@[simp] theorem State.putDset_platform (s : State) (a : Nat) (c : CacheSet) : (s.putDset a c).platform = s.platform := rfl
@[simp] theorem State.putDset_free (s : State) (a : Nat) (c : CacheSet) : (s.putDset a c).free = s.free := rfl
@[simp] theorem State.putDset_x (s : State) (a : Nat) (c : CacheSet) (q : Reg) : (s.putDset a c).x q = s.x q := rfl
@[simp] theorem State.putDset_f (s : State) (a : Nat) (c : CacheSet) (q : Reg) : (s.putDset a c).f q = s.f q := rfl
@[simp] theorem State.putDset_cp0 (s : State) (a : Nat) (c : CacheSet) (q : Reg) : (s.putDset a c).cp0 q = s.cp0 q := rfl
@[simp] theorem State.putDset_hiLo (s : State) (a : Nat) (c : CacheSet) : (s.putDset a c).hiLo = s.hiLo := rfl
@[simp] theorem State.putDset_mode (s : State) (a : Nat) (c : CacheSet) : (s.putDset a c).mode = s.mode := rfl
@[simp] theorem State.putDset_exl (s : State) (a : Nat) (c : CacheSet) : (s.putDset a c).exl = s.exl := rfl
@[simp] theorem State.putDset_erl (s : State) (a : Nat) (c : CacheSet) : (s.putDset a c).erl = s.erl := rfl
@[simp] theorem State.putDset_bev (s : State) (a : Nat) (c : CacheSet) : (s.putDset a c).bev = s.bev := rfl
@[simp] theorem State.putDset_cu0 (s : State) (a : Nat) (c : CacheSet) : (s.putDset a c).cu0 = s.cu0 := rfl
@[simp] theorem State.putDset_cu1 (s : State) (a : Nat) (c : CacheSet) : (s.putDset a c).cu1 = s.cu1 := rfl
@[simp] theorem State.putDset_coc1 (s : State) (a : Nat) (c : CacheSet) : (s.putDset a c).coc1 = s.coc1 := rfl
@[simp] theorem State.putDset_cop0Usable (s : State) (a : Nat) (c : CacheSet) : (s.putDset a c).cop0Usable = s.cop0Usable := rfl
@[simp] theorem State.putDset_cop1Usable (s : State) (a : Nat) (c : CacheSet) : (s.putDset a c).cop1Usable = s.cop1Usable := rfl
@[simp] theorem State.putDset_busByte (s : State) (a : Nat) (c : CacheSet) (q : Nat) : (s.putDset a c).busByte q = s.busByte q := rfl
@[simp] theorem State.putDset_fetchByte (s : State) (a : Nat) (c : CacheSet) (q : Nat) : (s.putDset a c).fetchByte q = s.fetchByte q := rfl
@[simp] theorem State.putDset_iset (s : State) (a : Nat) (c : CacheSet) (q : Nat) : (s.putDset a c).iset q = s.iset q := rfl
@[simp] theorem State.putDset_iHit (s : State) (a : Nat) (c : CacheSet) (q : Nat) : (s.putDset a c).iHit q = s.iHit q := rfl
@[simp] theorem State.putDset_addrOK (s : State) (a : Nat) (c : CacheSet) (q : Word) (md : Mode) (k : Access) : (s.putDset a c).addrOK q md k = s.addrOK q md k := rfl
@[simp] theorem State.putDset_busErr (s : State) (a : Nat) (c : CacheSet) (q : Nat) (k : Access) : (s.putDset a c).busErr q k = s.busErr q k := rfl

/-! ### putIset -/

@[simp] theorem State.putIset_gpr (s : State) (a : Nat) (c : CacheSet) : (s.putIset a c).gpr = s.gpr := rfl
@[simp] theorem State.putIset_hi (s : State) (a : Nat) (c : CacheSet) : (s.putIset a c).hi = s.hi := rfl
@[simp] theorem State.putIset_lo (s : State) (a : Nat) (c : CacheSet) : (s.putIset a c).lo = s.lo := rfl
@[simp] theorem State.putIset_pc (s : State) (a : Nat) (c : CacheSet) : (s.putIset a c).pc = s.pc := rfl
@[simp] theorem State.putIset_npc (s : State) (a : Nat) (c : CacheSet) : (s.putIset a c).npc = s.npc := rfl
@[simp] theorem State.putIset_inDs (s : State) (a : Nat) (c : CacheSet) : (s.putIset a c).inDs = s.inDs := rfl
@[simp] theorem State.putIset_cp0Regs (s : State) (a : Nat) (c : CacheSet) : (s.putIset a c).cp0Regs = s.cp0Regs := rfl
@[simp] theorem State.putIset_fpr (s : State) (a : Nat) (c : CacheSet) : (s.putIset a c).fpr = s.fpr := rfl
@[simp] theorem State.putIset_fcr0 (s : State) (a : Nat) (c : CacheSet) : (s.putIset a c).fcr0 = s.fcr0 := rfl
@[simp] theorem State.putIset_fcr31 (s : State) (a : Nat) (c : CacheSet) : (s.putIset a c).fcr31 = s.fcr31 := rfl
@[simp] theorem State.putIset_llbit (s : State) (a : Nat) (c : CacheSet) : (s.putIset a c).llbit = s.llbit := rfl
@[simp] theorem State.putIset_icache (s : State) (a : Nat) (c : CacheSet) : (s.putIset a c).icache = Cache.put s.icache (s.platform.setOf .instruction a) c := rfl
@[simp] theorem State.putIset_dcache (s : State) (a : Nat) (c : CacheSet) : (s.putIset a c).dcache = s.dcache := rfl
@[simp] theorem State.putIset_writebackBuf (s : State) (a : Nat) (c : CacheSet) : (s.putIset a c).writebackBuf = s.writebackBuf := rfl
@[simp] theorem State.putIset_nonCacheBuf (s : State) (a : Nat) (c : CacheSet) : (s.putIset a c).nonCacheBuf = s.nonCacheBuf := rfl
@[simp] theorem State.putIset_mem (s : State) (a : Nat) (c : CacheSet) : (s.putIset a c).mem = s.mem := rfl
@[simp] theorem State.putIset_owner (s : State) (a : Nat) (c : CacheSet) : (s.putIset a c).owner = s.owner := rfl
@[simp] theorem State.putIset_h1 (s : State) (a : Nat) (c : CacheSet) : (s.putIset a c).h1 = s.h1 := rfl
@[simp] theorem State.putIset_h2 (s : State) (a : Nat) (c : CacheSet) : (s.putIset a c).h2 = s.h2 := rfl
@[simp] theorem State.putIset_h1FpTrap (s : State) (a : Nat) (c : CacheSet) : (s.putIset a c).h1FpTrap = s.h1FpTrap := rfl
@[simp] theorem State.putIset_platform (s : State) (a : Nat) (c : CacheSet) : (s.putIset a c).platform = s.platform := rfl
@[simp] theorem State.putIset_free (s : State) (a : Nat) (c : CacheSet) : (s.putIset a c).free = s.free := rfl
@[simp] theorem State.putIset_x (s : State) (a : Nat) (c : CacheSet) (q : Reg) : (s.putIset a c).x q = s.x q := rfl
@[simp] theorem State.putIset_f (s : State) (a : Nat) (c : CacheSet) (q : Reg) : (s.putIset a c).f q = s.f q := rfl
@[simp] theorem State.putIset_cp0 (s : State) (a : Nat) (c : CacheSet) (q : Reg) : (s.putIset a c).cp0 q = s.cp0 q := rfl
@[simp] theorem State.putIset_hiLo (s : State) (a : Nat) (c : CacheSet) : (s.putIset a c).hiLo = s.hiLo := rfl
@[simp] theorem State.putIset_mode (s : State) (a : Nat) (c : CacheSet) : (s.putIset a c).mode = s.mode := rfl
@[simp] theorem State.putIset_exl (s : State) (a : Nat) (c : CacheSet) : (s.putIset a c).exl = s.exl := rfl
@[simp] theorem State.putIset_erl (s : State) (a : Nat) (c : CacheSet) : (s.putIset a c).erl = s.erl := rfl
@[simp] theorem State.putIset_bev (s : State) (a : Nat) (c : CacheSet) : (s.putIset a c).bev = s.bev := rfl
@[simp] theorem State.putIset_cu0 (s : State) (a : Nat) (c : CacheSet) : (s.putIset a c).cu0 = s.cu0 := rfl
@[simp] theorem State.putIset_cu1 (s : State) (a : Nat) (c : CacheSet) : (s.putIset a c).cu1 = s.cu1 := rfl
@[simp] theorem State.putIset_coc1 (s : State) (a : Nat) (c : CacheSet) : (s.putIset a c).coc1 = s.coc1 := rfl
@[simp] theorem State.putIset_cop0Usable (s : State) (a : Nat) (c : CacheSet) : (s.putIset a c).cop0Usable = s.cop0Usable := rfl
@[simp] theorem State.putIset_cop1Usable (s : State) (a : Nat) (c : CacheSet) : (s.putIset a c).cop1Usable = s.cop1Usable := rfl
@[simp] theorem State.putIset_dataByte (s : State) (a : Nat) (c : CacheSet) (q : Nat) : (s.putIset a c).dataByte q = s.dataByte q := rfl
@[simp] theorem State.putIset_busByte (s : State) (a : Nat) (c : CacheSet) (q : Nat) : (s.putIset a c).busByte q = s.busByte q := rfl
@[simp] theorem State.putIset_dset (s : State) (a : Nat) (c : CacheSet) (q : Nat) : (s.putIset a c).dset q = s.dset q := rfl
@[simp] theorem State.putIset_dHit (s : State) (a : Nat) (c : CacheSet) (q : Nat) : (s.putIset a c).dHit q = s.dHit q := rfl
@[simp] theorem State.putIset_addrOK (s : State) (a : Nat) (c : CacheSet) (q : Word) (md : Mode) (k : Access) : (s.putIset a c).addrOK q md k = s.addrOK q md k := rfl
@[simp] theorem State.putIset_busErr (s : State) (a : Nat) (c : CacheSet) (q : Nat) (k : Access) : (s.putIset a c).busErr q k = s.busErr q k := rfl

/-! ### writeback -/

@[simp] theorem State.writeback_gpr (s : State) (a : Nat) (w : Way) : (s.writeback a w).gpr = s.gpr := rfl
@[simp] theorem State.writeback_hi (s : State) (a : Nat) (w : Way) : (s.writeback a w).hi = s.hi := rfl
@[simp] theorem State.writeback_lo (s : State) (a : Nat) (w : Way) : (s.writeback a w).lo = s.lo := rfl
@[simp] theorem State.writeback_pc (s : State) (a : Nat) (w : Way) : (s.writeback a w).pc = s.pc := rfl
@[simp] theorem State.writeback_npc (s : State) (a : Nat) (w : Way) : (s.writeback a w).npc = s.npc := rfl
@[simp] theorem State.writeback_inDs (s : State) (a : Nat) (w : Way) : (s.writeback a w).inDs = s.inDs := rfl
@[simp] theorem State.writeback_cp0Regs (s : State) (a : Nat) (w : Way) : (s.writeback a w).cp0Regs = s.cp0Regs := rfl
@[simp] theorem State.writeback_fpr (s : State) (a : Nat) (w : Way) : (s.writeback a w).fpr = s.fpr := rfl
@[simp] theorem State.writeback_fcr0 (s : State) (a : Nat) (w : Way) : (s.writeback a w).fcr0 = s.fcr0 := rfl
@[simp] theorem State.writeback_fcr31 (s : State) (a : Nat) (w : Way) : (s.writeback a w).fcr31 = s.fcr31 := rfl
@[simp] theorem State.writeback_llbit (s : State) (a : Nat) (w : Way) : (s.writeback a w).llbit = s.llbit := rfl
@[simp] theorem State.writeback_icache (s : State) (a : Nat) (w : Way) : (s.writeback a w).icache = s.icache := rfl
@[simp] theorem State.writeback_dcache (s : State) (a : Nat) (w : Way) : (s.writeback a w).dcache = s.dcache := rfl
@[simp] theorem State.writeback_nonCacheBuf (s : State) (a : Nat) (w : Way) : (s.writeback a w).nonCacheBuf = s.nonCacheBuf := rfl
@[simp] theorem State.writeback_mem (s : State) (a : Nat) (w : Way) : (s.writeback a w).mem = s.mem := rfl
@[simp] theorem State.writeback_owner (s : State) (a : Nat) (w : Way) : (s.writeback a w).owner = s.owner := rfl
@[simp] theorem State.writeback_h1 (s : State) (a : Nat) (w : Way) : (s.writeback a w).h1 = s.h1 := rfl
@[simp] theorem State.writeback_h2 (s : State) (a : Nat) (w : Way) : (s.writeback a w).h2 = s.h2 := rfl
@[simp] theorem State.writeback_h1FpTrap (s : State) (a : Nat) (w : Way) : (s.writeback a w).h1FpTrap = s.h1FpTrap := rfl
@[simp] theorem State.writeback_platform (s : State) (a : Nat) (w : Way) : (s.writeback a w).platform = s.platform := rfl
@[simp] theorem State.writeback_free (s : State) (a : Nat) (w : Way) : (s.writeback a w).free = s.free := rfl
@[simp] theorem State.writeback_x (s : State) (a : Nat) (w : Way) (q : Reg) : (s.writeback a w).x q = s.x q := rfl
@[simp] theorem State.writeback_f (s : State) (a : Nat) (w : Way) (q : Reg) : (s.writeback a w).f q = s.f q := rfl
@[simp] theorem State.writeback_cp0 (s : State) (a : Nat) (w : Way) (q : Reg) : (s.writeback a w).cp0 q = s.cp0 q := rfl
@[simp] theorem State.writeback_hiLo (s : State) (a : Nat) (w : Way) : (s.writeback a w).hiLo = s.hiLo := rfl
@[simp] theorem State.writeback_mode (s : State) (a : Nat) (w : Way) : (s.writeback a w).mode = s.mode := rfl
@[simp] theorem State.writeback_exl (s : State) (a : Nat) (w : Way) : (s.writeback a w).exl = s.exl := rfl
@[simp] theorem State.writeback_erl (s : State) (a : Nat) (w : Way) : (s.writeback a w).erl = s.erl := rfl
@[simp] theorem State.writeback_bev (s : State) (a : Nat) (w : Way) : (s.writeback a w).bev = s.bev := rfl
@[simp] theorem State.writeback_cu0 (s : State) (a : Nat) (w : Way) : (s.writeback a w).cu0 = s.cu0 := rfl
@[simp] theorem State.writeback_cu1 (s : State) (a : Nat) (w : Way) : (s.writeback a w).cu1 = s.cu1 := rfl
@[simp] theorem State.writeback_coc1 (s : State) (a : Nat) (w : Way) : (s.writeback a w).coc1 = s.coc1 := rfl
@[simp] theorem State.writeback_cop0Usable (s : State) (a : Nat) (w : Way) : (s.writeback a w).cop0Usable = s.cop0Usable := rfl
@[simp] theorem State.writeback_cop1Usable (s : State) (a : Nat) (w : Way) : (s.writeback a w).cop1Usable = s.cop1Usable := rfl
@[simp] theorem State.writeback_fetchByte (s : State) (a : Nat) (w : Way) (q : Nat) : (s.writeback a w).fetchByte q = s.fetchByte q := rfl
@[simp] theorem State.writeback_dset (s : State) (a : Nat) (w : Way) (q : Nat) : (s.writeback a w).dset q = s.dset q := rfl
@[simp] theorem State.writeback_iset (s : State) (a : Nat) (w : Way) (q : Nat) : (s.writeback a w).iset q = s.iset q := rfl
@[simp] theorem State.writeback_dHit (s : State) (a : Nat) (w : Way) (q : Nat) : (s.writeback a w).dHit q = s.dHit q := rfl
@[simp] theorem State.writeback_iHit (s : State) (a : Nat) (w : Way) (q : Nat) : (s.writeback a w).iHit q = s.iHit q := rfl
@[simp] theorem State.writeback_addrOK (s : State) (a : Nat) (w : Way) (q : Word) (md : Mode) (k : Access) : (s.writeback a w).addrOK q md k = s.addrOK q md k := rfl
@[simp] theorem State.writeback_busErr (s : State) (a : Nat) (w : Way) (q : Nat) (k : Access) : (s.writeback a w).busErr q k = s.busErr q k := rfl

/-! ### writebackIfDirty -/

@[simp] theorem State.writebackIfDirty_gpr (s : State) (a : Nat) (w : Way) : (s.writebackIfDirty a w).gpr = s.gpr := rfl
@[simp] theorem State.writebackIfDirty_hi (s : State) (a : Nat) (w : Way) : (s.writebackIfDirty a w).hi = s.hi := rfl
@[simp] theorem State.writebackIfDirty_lo (s : State) (a : Nat) (w : Way) : (s.writebackIfDirty a w).lo = s.lo := rfl
@[simp] theorem State.writebackIfDirty_pc (s : State) (a : Nat) (w : Way) : (s.writebackIfDirty a w).pc = s.pc := rfl
@[simp] theorem State.writebackIfDirty_npc (s : State) (a : Nat) (w : Way) : (s.writebackIfDirty a w).npc = s.npc := rfl
@[simp] theorem State.writebackIfDirty_inDs (s : State) (a : Nat) (w : Way) : (s.writebackIfDirty a w).inDs = s.inDs := rfl
@[simp] theorem State.writebackIfDirty_cp0Regs (s : State) (a : Nat) (w : Way) : (s.writebackIfDirty a w).cp0Regs = s.cp0Regs := rfl
@[simp] theorem State.writebackIfDirty_fpr (s : State) (a : Nat) (w : Way) : (s.writebackIfDirty a w).fpr = s.fpr := rfl
@[simp] theorem State.writebackIfDirty_fcr0 (s : State) (a : Nat) (w : Way) : (s.writebackIfDirty a w).fcr0 = s.fcr0 := rfl
@[simp] theorem State.writebackIfDirty_fcr31 (s : State) (a : Nat) (w : Way) : (s.writebackIfDirty a w).fcr31 = s.fcr31 := rfl
@[simp] theorem State.writebackIfDirty_llbit (s : State) (a : Nat) (w : Way) : (s.writebackIfDirty a w).llbit = s.llbit := rfl
@[simp] theorem State.writebackIfDirty_icache (s : State) (a : Nat) (w : Way) : (s.writebackIfDirty a w).icache = s.icache := rfl
@[simp] theorem State.writebackIfDirty_dcache (s : State) (a : Nat) (w : Way) : (s.writebackIfDirty a w).dcache = s.dcache := rfl
@[simp] theorem State.writebackIfDirty_nonCacheBuf (s : State) (a : Nat) (w : Way) : (s.writebackIfDirty a w).nonCacheBuf = s.nonCacheBuf := rfl
@[simp] theorem State.writebackIfDirty_mem (s : State) (a : Nat) (w : Way) : (s.writebackIfDirty a w).mem = s.mem := rfl
@[simp] theorem State.writebackIfDirty_owner (s : State) (a : Nat) (w : Way) : (s.writebackIfDirty a w).owner = s.owner := rfl
@[simp] theorem State.writebackIfDirty_h1 (s : State) (a : Nat) (w : Way) : (s.writebackIfDirty a w).h1 = s.h1 := rfl
@[simp] theorem State.writebackIfDirty_h2 (s : State) (a : Nat) (w : Way) : (s.writebackIfDirty a w).h2 = s.h2 := rfl
@[simp] theorem State.writebackIfDirty_h1FpTrap (s : State) (a : Nat) (w : Way) : (s.writebackIfDirty a w).h1FpTrap = s.h1FpTrap := rfl
@[simp] theorem State.writebackIfDirty_platform (s : State) (a : Nat) (w : Way) : (s.writebackIfDirty a w).platform = s.platform := rfl
@[simp] theorem State.writebackIfDirty_free (s : State) (a : Nat) (w : Way) : (s.writebackIfDirty a w).free = s.free := rfl
@[simp] theorem State.writebackIfDirty_x (s : State) (a : Nat) (w : Way) (q : Reg) : (s.writebackIfDirty a w).x q = s.x q := rfl
@[simp] theorem State.writebackIfDirty_f (s : State) (a : Nat) (w : Way) (q : Reg) : (s.writebackIfDirty a w).f q = s.f q := rfl
@[simp] theorem State.writebackIfDirty_cp0 (s : State) (a : Nat) (w : Way) (q : Reg) : (s.writebackIfDirty a w).cp0 q = s.cp0 q := rfl
@[simp] theorem State.writebackIfDirty_hiLo (s : State) (a : Nat) (w : Way) : (s.writebackIfDirty a w).hiLo = s.hiLo := rfl
@[simp] theorem State.writebackIfDirty_mode (s : State) (a : Nat) (w : Way) : (s.writebackIfDirty a w).mode = s.mode := rfl
@[simp] theorem State.writebackIfDirty_exl (s : State) (a : Nat) (w : Way) : (s.writebackIfDirty a w).exl = s.exl := rfl
@[simp] theorem State.writebackIfDirty_erl (s : State) (a : Nat) (w : Way) : (s.writebackIfDirty a w).erl = s.erl := rfl
@[simp] theorem State.writebackIfDirty_bev (s : State) (a : Nat) (w : Way) : (s.writebackIfDirty a w).bev = s.bev := rfl
@[simp] theorem State.writebackIfDirty_cu0 (s : State) (a : Nat) (w : Way) : (s.writebackIfDirty a w).cu0 = s.cu0 := rfl
@[simp] theorem State.writebackIfDirty_cu1 (s : State) (a : Nat) (w : Way) : (s.writebackIfDirty a w).cu1 = s.cu1 := rfl
@[simp] theorem State.writebackIfDirty_coc1 (s : State) (a : Nat) (w : Way) : (s.writebackIfDirty a w).coc1 = s.coc1 := rfl
@[simp] theorem State.writebackIfDirty_cop0Usable (s : State) (a : Nat) (w : Way) : (s.writebackIfDirty a w).cop0Usable = s.cop0Usable := rfl
@[simp] theorem State.writebackIfDirty_cop1Usable (s : State) (a : Nat) (w : Way) : (s.writebackIfDirty a w).cop1Usable = s.cop1Usable := rfl
@[simp] theorem State.writebackIfDirty_fetchByte (s : State) (a : Nat) (w : Way) (q : Nat) : (s.writebackIfDirty a w).fetchByte q = s.fetchByte q := rfl
@[simp] theorem State.writebackIfDirty_dset (s : State) (a : Nat) (w : Way) (q : Nat) : (s.writebackIfDirty a w).dset q = s.dset q := rfl
@[simp] theorem State.writebackIfDirty_iset (s : State) (a : Nat) (w : Way) (q : Nat) : (s.writebackIfDirty a w).iset q = s.iset q := rfl
@[simp] theorem State.writebackIfDirty_dHit (s : State) (a : Nat) (w : Way) (q : Nat) : (s.writebackIfDirty a w).dHit q = s.dHit q := rfl
@[simp] theorem State.writebackIfDirty_iHit (s : State) (a : Nat) (w : Way) (q : Nat) : (s.writebackIfDirty a w).iHit q = s.iHit q := rfl
@[simp] theorem State.writebackIfDirty_addrOK (s : State) (a : Nat) (w : Way) (q : Word) (md : Mode) (k : Access) : (s.writebackIfDirty a w).addrOK q md k = s.addrOK q md k := rfl
@[simp] theorem State.writebackIfDirty_busErr (s : State) (a : Nat) (w : Way) (q : Nat) (k : Access) : (s.writebackIfDirty a w).busErr q k = s.busErr q k := rfl

/-! ### bufferWrite -/

@[simp] theorem State.bufferWrite_gpr (s : State) (w : BufferedWrite) : (s.bufferWrite w).gpr = s.gpr := rfl
@[simp] theorem State.bufferWrite_hi (s : State) (w : BufferedWrite) : (s.bufferWrite w).hi = s.hi := rfl
@[simp] theorem State.bufferWrite_lo (s : State) (w : BufferedWrite) : (s.bufferWrite w).lo = s.lo := rfl
@[simp] theorem State.bufferWrite_pc (s : State) (w : BufferedWrite) : (s.bufferWrite w).pc = s.pc := rfl
@[simp] theorem State.bufferWrite_npc (s : State) (w : BufferedWrite) : (s.bufferWrite w).npc = s.npc := rfl
@[simp] theorem State.bufferWrite_inDs (s : State) (w : BufferedWrite) : (s.bufferWrite w).inDs = s.inDs := rfl
@[simp] theorem State.bufferWrite_cp0Regs (s : State) (w : BufferedWrite) : (s.bufferWrite w).cp0Regs = s.cp0Regs := rfl
@[simp] theorem State.bufferWrite_fpr (s : State) (w : BufferedWrite) : (s.bufferWrite w).fpr = s.fpr := rfl
@[simp] theorem State.bufferWrite_fcr0 (s : State) (w : BufferedWrite) : (s.bufferWrite w).fcr0 = s.fcr0 := rfl
@[simp] theorem State.bufferWrite_fcr31 (s : State) (w : BufferedWrite) : (s.bufferWrite w).fcr31 = s.fcr31 := rfl
@[simp] theorem State.bufferWrite_llbit (s : State) (w : BufferedWrite) : (s.bufferWrite w).llbit = s.llbit := rfl
@[simp] theorem State.bufferWrite_icache (s : State) (w : BufferedWrite) : (s.bufferWrite w).icache = s.icache := rfl
@[simp] theorem State.bufferWrite_dcache (s : State) (w : BufferedWrite) : (s.bufferWrite w).dcache = s.dcache := rfl
@[simp] theorem State.bufferWrite_writebackBuf (s : State) (w : BufferedWrite) : (s.bufferWrite w).writebackBuf = s.writebackBuf := rfl
@[simp] theorem State.bufferWrite_nonCacheBuf (s : State) (w : BufferedWrite) : (s.bufferWrite w).nonCacheBuf = if w.isEmpty then s.nonCacheBuf else s.nonCacheBuf ++ [w] := rfl
@[simp] theorem State.bufferWrite_mem (s : State) (w : BufferedWrite) : (s.bufferWrite w).mem = s.mem := rfl
@[simp] theorem State.bufferWrite_owner (s : State) (w : BufferedWrite) : (s.bufferWrite w).owner = s.owner := rfl
@[simp] theorem State.bufferWrite_h1 (s : State) (w : BufferedWrite) : (s.bufferWrite w).h1 = s.h1 := rfl
@[simp] theorem State.bufferWrite_h2 (s : State) (w : BufferedWrite) : (s.bufferWrite w).h2 = s.h2 := rfl
@[simp] theorem State.bufferWrite_h1FpTrap (s : State) (w : BufferedWrite) : (s.bufferWrite w).h1FpTrap = s.h1FpTrap := rfl
@[simp] theorem State.bufferWrite_platform (s : State) (w : BufferedWrite) : (s.bufferWrite w).platform = s.platform := rfl
@[simp] theorem State.bufferWrite_free (s : State) (w : BufferedWrite) : (s.bufferWrite w).free = s.free := rfl
@[simp] theorem State.bufferWrite_x (s : State) (w : BufferedWrite) (q : Reg) : (s.bufferWrite w).x q = s.x q := rfl
@[simp] theorem State.bufferWrite_f (s : State) (w : BufferedWrite) (q : Reg) : (s.bufferWrite w).f q = s.f q := rfl
@[simp] theorem State.bufferWrite_cp0 (s : State) (w : BufferedWrite) (q : Reg) : (s.bufferWrite w).cp0 q = s.cp0 q := rfl
@[simp] theorem State.bufferWrite_hiLo (s : State) (w : BufferedWrite) : (s.bufferWrite w).hiLo = s.hiLo := rfl
@[simp] theorem State.bufferWrite_mode (s : State) (w : BufferedWrite) : (s.bufferWrite w).mode = s.mode := rfl
@[simp] theorem State.bufferWrite_exl (s : State) (w : BufferedWrite) : (s.bufferWrite w).exl = s.exl := rfl
@[simp] theorem State.bufferWrite_erl (s : State) (w : BufferedWrite) : (s.bufferWrite w).erl = s.erl := rfl
@[simp] theorem State.bufferWrite_bev (s : State) (w : BufferedWrite) : (s.bufferWrite w).bev = s.bev := rfl
@[simp] theorem State.bufferWrite_cu0 (s : State) (w : BufferedWrite) : (s.bufferWrite w).cu0 = s.cu0 := rfl
@[simp] theorem State.bufferWrite_cu1 (s : State) (w : BufferedWrite) : (s.bufferWrite w).cu1 = s.cu1 := rfl
@[simp] theorem State.bufferWrite_coc1 (s : State) (w : BufferedWrite) : (s.bufferWrite w).coc1 = s.coc1 := rfl
@[simp] theorem State.bufferWrite_cop0Usable (s : State) (w : BufferedWrite) : (s.bufferWrite w).cop0Usable = s.cop0Usable := rfl
@[simp] theorem State.bufferWrite_cop1Usable (s : State) (w : BufferedWrite) : (s.bufferWrite w).cop1Usable = s.cop1Usable := rfl
@[simp] theorem State.bufferWrite_fetchByte (s : State) (w : BufferedWrite) (q : Nat) : (s.bufferWrite w).fetchByte q = s.fetchByte q := rfl
@[simp] theorem State.bufferWrite_dset (s : State) (w : BufferedWrite) (q : Nat) : (s.bufferWrite w).dset q = s.dset q := rfl
@[simp] theorem State.bufferWrite_iset (s : State) (w : BufferedWrite) (q : Nat) : (s.bufferWrite w).iset q = s.iset q := rfl
@[simp] theorem State.bufferWrite_dHit (s : State) (w : BufferedWrite) (q : Nat) : (s.bufferWrite w).dHit q = s.dHit q := rfl
@[simp] theorem State.bufferWrite_iHit (s : State) (w : BufferedWrite) (q : Nat) : (s.bufferWrite w).iHit q = s.iHit q := rfl
@[simp] theorem State.bufferWrite_addrOK (s : State) (w : BufferedWrite) (q : Word) (md : Mode) (k : Access) : (s.bufferWrite w).addrOK q md k = s.addrOK q md k := rfl
@[simp] theorem State.bufferWrite_busErr (s : State) (w : BufferedWrite) (q : Nat) (k : Access) : (s.bufferWrite w).busErr q k = s.busErr q k := rfl

/-! ### drain -/

@[simp] theorem State.drain_gpr (s : State) (n m : Nat) : (s.drain n m).gpr = s.gpr := rfl
@[simp] theorem State.drain_hi (s : State) (n m : Nat) : (s.drain n m).hi = s.hi := rfl
@[simp] theorem State.drain_lo (s : State) (n m : Nat) : (s.drain n m).lo = s.lo := rfl
@[simp] theorem State.drain_pc (s : State) (n m : Nat) : (s.drain n m).pc = s.pc := rfl
@[simp] theorem State.drain_npc (s : State) (n m : Nat) : (s.drain n m).npc = s.npc := rfl
@[simp] theorem State.drain_inDs (s : State) (n m : Nat) : (s.drain n m).inDs = s.inDs := rfl
@[simp] theorem State.drain_cp0Regs (s : State) (n m : Nat) : (s.drain n m).cp0Regs = s.cp0Regs := rfl
@[simp] theorem State.drain_fpr (s : State) (n m : Nat) : (s.drain n m).fpr = s.fpr := rfl
@[simp] theorem State.drain_fcr0 (s : State) (n m : Nat) : (s.drain n m).fcr0 = s.fcr0 := rfl
@[simp] theorem State.drain_fcr31 (s : State) (n m : Nat) : (s.drain n m).fcr31 = s.fcr31 := rfl
@[simp] theorem State.drain_llbit (s : State) (n m : Nat) : (s.drain n m).llbit = s.llbit := rfl
@[simp] theorem State.drain_icache (s : State) (n m : Nat) : (s.drain n m).icache = s.icache := rfl
@[simp] theorem State.drain_dcache (s : State) (n m : Nat) : (s.drain n m).dcache = s.dcache := rfl
@[simp] theorem State.drain_writebackBuf (s : State) (n m : Nat) : (s.drain n m).writebackBuf = s.writebackBuf.drop n := rfl
@[simp] theorem State.drain_nonCacheBuf (s : State) (n m : Nat) : (s.drain n m).nonCacheBuf = s.nonCacheBuf.drop m := rfl
@[simp] theorem State.drain_owner (s : State) (n m : Nat) : (s.drain n m).owner = s.owner := rfl
@[simp] theorem State.drain_h1 (s : State) (n m : Nat) : (s.drain n m).h1 = s.h1 := rfl
@[simp] theorem State.drain_h2 (s : State) (n m : Nat) : (s.drain n m).h2 = s.h2 := rfl
@[simp] theorem State.drain_h1FpTrap (s : State) (n m : Nat) : (s.drain n m).h1FpTrap = s.h1FpTrap := rfl
@[simp] theorem State.drain_platform (s : State) (n m : Nat) : (s.drain n m).platform = s.platform := rfl
@[simp] theorem State.drain_free (s : State) (n m : Nat) : (s.drain n m).free = s.free := rfl
@[simp] theorem State.drain_x (s : State) (n m : Nat) (q : Reg) : (s.drain n m).x q = s.x q := rfl
@[simp] theorem State.drain_f (s : State) (n m : Nat) (q : Reg) : (s.drain n m).f q = s.f q := rfl
@[simp] theorem State.drain_cp0 (s : State) (n m : Nat) (q : Reg) : (s.drain n m).cp0 q = s.cp0 q := rfl
@[simp] theorem State.drain_hiLo (s : State) (n m : Nat) : (s.drain n m).hiLo = s.hiLo := rfl
@[simp] theorem State.drain_mode (s : State) (n m : Nat) : (s.drain n m).mode = s.mode := rfl
@[simp] theorem State.drain_exl (s : State) (n m : Nat) : (s.drain n m).exl = s.exl := rfl
@[simp] theorem State.drain_erl (s : State) (n m : Nat) : (s.drain n m).erl = s.erl := rfl
@[simp] theorem State.drain_bev (s : State) (n m : Nat) : (s.drain n m).bev = s.bev := rfl
@[simp] theorem State.drain_cu0 (s : State) (n m : Nat) : (s.drain n m).cu0 = s.cu0 := rfl
@[simp] theorem State.drain_cu1 (s : State) (n m : Nat) : (s.drain n m).cu1 = s.cu1 := rfl
@[simp] theorem State.drain_coc1 (s : State) (n m : Nat) : (s.drain n m).coc1 = s.coc1 := rfl
@[simp] theorem State.drain_cop0Usable (s : State) (n m : Nat) : (s.drain n m).cop0Usable = s.cop0Usable := rfl
@[simp] theorem State.drain_cop1Usable (s : State) (n m : Nat) : (s.drain n m).cop1Usable = s.cop1Usable := rfl
@[simp] theorem State.drain_dset (s : State) (n m : Nat) (q : Nat) : (s.drain n m).dset q = s.dset q := rfl
@[simp] theorem State.drain_iset (s : State) (n m : Nat) (q : Nat) : (s.drain n m).iset q = s.iset q := rfl
@[simp] theorem State.drain_dHit (s : State) (n m : Nat) (q : Nat) : (s.drain n m).dHit q = s.dHit q := rfl
@[simp] theorem State.drain_iHit (s : State) (n m : Nat) (q : Nat) : (s.drain n m).iHit q = s.iHit q := rfl
@[simp] theorem State.drain_addrOK (s : State) (n m : Nat) (q : Word) (md : Mode) (k : Access) : (s.drain n m).addrOK q md k = s.addrOK q md k := rfl
@[simp] theorem State.drain_busErr (s : State) (n m : Nat) (q : Nat) (k : Access) : (s.drain n m).busErr q k = s.busErr q k := rfl

/-! ### recordInstr -/

@[simp] theorem State.recordInstr_gpr (s : State) (b : State) (i : Instr) : (s.recordInstr b i).gpr = s.gpr := rfl
@[simp] theorem State.recordInstr_hi (s : State) (b : State) (i : Instr) : (s.recordInstr b i).hi = s.hi := rfl
@[simp] theorem State.recordInstr_lo (s : State) (b : State) (i : Instr) : (s.recordInstr b i).lo = s.lo := rfl
@[simp] theorem State.recordInstr_pc (s : State) (b : State) (i : Instr) : (s.recordInstr b i).pc = s.pc := rfl
@[simp] theorem State.recordInstr_npc (s : State) (b : State) (i : Instr) : (s.recordInstr b i).npc = s.npc := rfl
@[simp] theorem State.recordInstr_inDs (s : State) (b : State) (i : Instr) : (s.recordInstr b i).inDs = s.inDs := rfl
@[simp] theorem State.recordInstr_cp0Regs (s : State) (b : State) (i : Instr) : (s.recordInstr b i).cp0Regs = s.cp0Regs := rfl
@[simp] theorem State.recordInstr_fpr (s : State) (b : State) (i : Instr) : (s.recordInstr b i).fpr = s.fpr := rfl
@[simp] theorem State.recordInstr_fcr0 (s : State) (b : State) (i : Instr) : (s.recordInstr b i).fcr0 = s.fcr0 := rfl
@[simp] theorem State.recordInstr_fcr31 (s : State) (b : State) (i : Instr) : (s.recordInstr b i).fcr31 = s.fcr31 := rfl
@[simp] theorem State.recordInstr_llbit (s : State) (b : State) (i : Instr) : (s.recordInstr b i).llbit = s.llbit := rfl
@[simp] theorem State.recordInstr_icache (s : State) (b : State) (i : Instr) : (s.recordInstr b i).icache = s.icache := rfl
@[simp] theorem State.recordInstr_dcache (s : State) (b : State) (i : Instr) : (s.recordInstr b i).dcache = s.dcache := rfl
@[simp] theorem State.recordInstr_writebackBuf (s : State) (b : State) (i : Instr) : (s.recordInstr b i).writebackBuf = s.writebackBuf := rfl
@[simp] theorem State.recordInstr_nonCacheBuf (s : State) (b : State) (i : Instr) : (s.recordInstr b i).nonCacheBuf = s.nonCacheBuf := rfl
@[simp] theorem State.recordInstr_mem (s : State) (b : State) (i : Instr) : (s.recordInstr b i).mem = s.mem := rfl
@[simp] theorem State.recordInstr_owner (s : State) (b : State) (i : Instr) : (s.recordInstr b i).owner = if s.inDs then some i else none := rfl
@[simp] theorem State.recordInstr_h1 (s : State) (b : State) (i : Instr) : (s.recordInstr b i).h1 = some i := rfl
@[simp] theorem State.recordInstr_h2 (s : State) (b : State) (i : Instr) : (s.recordInstr b i).h2 = b.h1 := rfl
@[simp] theorem State.recordInstr_h1FpTrap (s : State) (b : State) (i : Instr) : (s.recordInstr b i).h1FpTrap = b.ctc1Traps i := rfl
@[simp] theorem State.recordInstr_platform (s : State) (b : State) (i : Instr) : (s.recordInstr b i).platform = s.platform := rfl
@[simp] theorem State.recordInstr_free (s : State) (b : State) (i : Instr) : (s.recordInstr b i).free = s.free := rfl
@[simp] theorem State.recordInstr_x (s : State) (b : State) (i : Instr) (q : Reg) : (s.recordInstr b i).x q = s.x q := rfl
@[simp] theorem State.recordInstr_f (s : State) (b : State) (i : Instr) (q : Reg) : (s.recordInstr b i).f q = s.f q := rfl
@[simp] theorem State.recordInstr_cp0 (s : State) (b : State) (i : Instr) (q : Reg) : (s.recordInstr b i).cp0 q = s.cp0 q := rfl
@[simp] theorem State.recordInstr_hiLo (s : State) (b : State) (i : Instr) : (s.recordInstr b i).hiLo = s.hiLo := rfl
@[simp] theorem State.recordInstr_mode (s : State) (b : State) (i : Instr) : (s.recordInstr b i).mode = s.mode := rfl
@[simp] theorem State.recordInstr_exl (s : State) (b : State) (i : Instr) : (s.recordInstr b i).exl = s.exl := rfl
@[simp] theorem State.recordInstr_erl (s : State) (b : State) (i : Instr) : (s.recordInstr b i).erl = s.erl := rfl
@[simp] theorem State.recordInstr_bev (s : State) (b : State) (i : Instr) : (s.recordInstr b i).bev = s.bev := rfl
@[simp] theorem State.recordInstr_cu0 (s : State) (b : State) (i : Instr) : (s.recordInstr b i).cu0 = s.cu0 := rfl
@[simp] theorem State.recordInstr_cu1 (s : State) (b : State) (i : Instr) : (s.recordInstr b i).cu1 = s.cu1 := rfl
@[simp] theorem State.recordInstr_coc1 (s : State) (b : State) (i : Instr) : (s.recordInstr b i).coc1 = s.coc1 := rfl
@[simp] theorem State.recordInstr_cop0Usable (s : State) (b : State) (i : Instr) : (s.recordInstr b i).cop0Usable = s.cop0Usable := rfl
@[simp] theorem State.recordInstr_cop1Usable (s : State) (b : State) (i : Instr) : (s.recordInstr b i).cop1Usable = s.cop1Usable := rfl
@[simp] theorem State.recordInstr_dataByte (s : State) (b : State) (i : Instr) (q : Nat) : (s.recordInstr b i).dataByte q = s.dataByte q := rfl
@[simp] theorem State.recordInstr_busByte (s : State) (b : State) (i : Instr) (q : Nat) : (s.recordInstr b i).busByte q = s.busByte q := rfl
@[simp] theorem State.recordInstr_fetchByte (s : State) (b : State) (i : Instr) (q : Nat) : (s.recordInstr b i).fetchByte q = s.fetchByte q := rfl
@[simp] theorem State.recordInstr_dset (s : State) (b : State) (i : Instr) (q : Nat) : (s.recordInstr b i).dset q = s.dset q := rfl
@[simp] theorem State.recordInstr_iset (s : State) (b : State) (i : Instr) (q : Nat) : (s.recordInstr b i).iset q = s.iset q := rfl
@[simp] theorem State.recordInstr_dHit (s : State) (b : State) (i : Instr) (q : Nat) : (s.recordInstr b i).dHit q = s.dHit q := rfl
@[simp] theorem State.recordInstr_iHit (s : State) (b : State) (i : Instr) (q : Nat) : (s.recordInstr b i).iHit q = s.iHit q := rfl
@[simp] theorem State.recordInstr_addrOK (s : State) (b : State) (i : Instr) (q : Word) (md : Mode) (k : Access) : (s.recordInstr b i).addrOK q md k = s.addrOK q md k := rfl
@[simp] theorem State.recordInstr_busErr (s : State) (b : State) (i : Instr) (q : Nat) (k : Access) : (s.recordInstr b i).busErr q k = s.busErr q k := rfl

/-! ### recordNone -/

@[simp] theorem State.recordNone_gpr (s : State) (b : State) : (s.recordNone b).gpr = s.gpr := rfl
@[simp] theorem State.recordNone_hi (s : State) (b : State) : (s.recordNone b).hi = s.hi := rfl
@[simp] theorem State.recordNone_lo (s : State) (b : State) : (s.recordNone b).lo = s.lo := rfl
@[simp] theorem State.recordNone_pc (s : State) (b : State) : (s.recordNone b).pc = s.pc := rfl
@[simp] theorem State.recordNone_npc (s : State) (b : State) : (s.recordNone b).npc = s.npc := rfl
@[simp] theorem State.recordNone_inDs (s : State) (b : State) : (s.recordNone b).inDs = s.inDs := rfl
@[simp] theorem State.recordNone_cp0Regs (s : State) (b : State) : (s.recordNone b).cp0Regs = s.cp0Regs := rfl
@[simp] theorem State.recordNone_fpr (s : State) (b : State) : (s.recordNone b).fpr = s.fpr := rfl
@[simp] theorem State.recordNone_fcr0 (s : State) (b : State) : (s.recordNone b).fcr0 = s.fcr0 := rfl
@[simp] theorem State.recordNone_fcr31 (s : State) (b : State) : (s.recordNone b).fcr31 = s.fcr31 := rfl
@[simp] theorem State.recordNone_llbit (s : State) (b : State) : (s.recordNone b).llbit = s.llbit := rfl
@[simp] theorem State.recordNone_icache (s : State) (b : State) : (s.recordNone b).icache = s.icache := rfl
@[simp] theorem State.recordNone_dcache (s : State) (b : State) : (s.recordNone b).dcache = s.dcache := rfl
@[simp] theorem State.recordNone_writebackBuf (s : State) (b : State) : (s.recordNone b).writebackBuf = s.writebackBuf := rfl
@[simp] theorem State.recordNone_nonCacheBuf (s : State) (b : State) : (s.recordNone b).nonCacheBuf = s.nonCacheBuf := rfl
@[simp] theorem State.recordNone_mem (s : State) (b : State) : (s.recordNone b).mem = s.mem := rfl
@[simp] theorem State.recordNone_owner (s : State) (b : State) : (s.recordNone b).owner = none := rfl
@[simp] theorem State.recordNone_h1 (s : State) (b : State) : (s.recordNone b).h1 = none := rfl
@[simp] theorem State.recordNone_h2 (s : State) (b : State) : (s.recordNone b).h2 = b.h1 := rfl
@[simp] theorem State.recordNone_h1FpTrap (s : State) (b : State) : (s.recordNone b).h1FpTrap = false := rfl
@[simp] theorem State.recordNone_platform (s : State) (b : State) : (s.recordNone b).platform = s.platform := rfl
@[simp] theorem State.recordNone_free (s : State) (b : State) : (s.recordNone b).free = s.free := rfl
@[simp] theorem State.recordNone_x (s : State) (b : State) (q : Reg) : (s.recordNone b).x q = s.x q := rfl
@[simp] theorem State.recordNone_f (s : State) (b : State) (q : Reg) : (s.recordNone b).f q = s.f q := rfl
@[simp] theorem State.recordNone_cp0 (s : State) (b : State) (q : Reg) : (s.recordNone b).cp0 q = s.cp0 q := rfl
@[simp] theorem State.recordNone_hiLo (s : State) (b : State) : (s.recordNone b).hiLo = s.hiLo := rfl
@[simp] theorem State.recordNone_mode (s : State) (b : State) : (s.recordNone b).mode = s.mode := rfl
@[simp] theorem State.recordNone_exl (s : State) (b : State) : (s.recordNone b).exl = s.exl := rfl
@[simp] theorem State.recordNone_erl (s : State) (b : State) : (s.recordNone b).erl = s.erl := rfl
@[simp] theorem State.recordNone_bev (s : State) (b : State) : (s.recordNone b).bev = s.bev := rfl
@[simp] theorem State.recordNone_cu0 (s : State) (b : State) : (s.recordNone b).cu0 = s.cu0 := rfl
@[simp] theorem State.recordNone_cu1 (s : State) (b : State) : (s.recordNone b).cu1 = s.cu1 := rfl
@[simp] theorem State.recordNone_coc1 (s : State) (b : State) : (s.recordNone b).coc1 = s.coc1 := rfl
@[simp] theorem State.recordNone_cop0Usable (s : State) (b : State) : (s.recordNone b).cop0Usable = s.cop0Usable := rfl
@[simp] theorem State.recordNone_cop1Usable (s : State) (b : State) : (s.recordNone b).cop1Usable = s.cop1Usable := rfl
@[simp] theorem State.recordNone_dataByte (s : State) (b : State) (q : Nat) : (s.recordNone b).dataByte q = s.dataByte q := rfl
@[simp] theorem State.recordNone_busByte (s : State) (b : State) (q : Nat) : (s.recordNone b).busByte q = s.busByte q := rfl
@[simp] theorem State.recordNone_fetchByte (s : State) (b : State) (q : Nat) : (s.recordNone b).fetchByte q = s.fetchByte q := rfl
@[simp] theorem State.recordNone_dset (s : State) (b : State) (q : Nat) : (s.recordNone b).dset q = s.dset q := rfl
@[simp] theorem State.recordNone_iset (s : State) (b : State) (q : Nat) : (s.recordNone b).iset q = s.iset q := rfl
@[simp] theorem State.recordNone_dHit (s : State) (b : State) (q : Nat) : (s.recordNone b).dHit q = s.dHit q := rfl
@[simp] theorem State.recordNone_iHit (s : State) (b : State) (q : Nat) : (s.recordNone b).iHit q = s.iHit q := rfl
@[simp] theorem State.recordNone_addrOK (s : State) (b : State) (q : Word) (md : Mode) (k : Access) : (s.recordNone b).addrOK q md k = s.addrOK q md k := rfl
@[simp] theorem State.recordNone_busErr (s : State) (b : State) (q : Nat) (k : Access) : (s.recordNone b).busErr q k = s.busErr q k := rfl

end Sys2Proof.Machine
end

