-- ==== Sys2Proof/Laws/Memory.lean ====
section
/-! SUPPORT. Main memory: a read after a write gives the byte written and leaves every other address alone, and every
operation keeps the canonical form. -/

namespace Sys2Proof.Machine

theorem Memory.above_trans {a k : Nat} {m : List Host.Cell} (h : a < k) (hm : Memory.above k m = true) :
    Memory.above a m = true := by
  cases m with
  | nil => rfl
  | cons c m => simp only [Memory.above, decide_eq_true_eq] at *; omega

theorem Memory.wf_cons {k : Nat} {v : Byte} {m : List Host.Cell} :
    Memory.wf ((k, v) :: m) = true ↔ v ≠ unlistedByte ∧ Memory.above k m = true ∧ Memory.wf m = true := by
  simp [Memory.wf, and_assoc]

/-- An address below every listed one reads as unlisted. -/
theorem Memory.read_of_above {a : Nat} : ∀ {m : List Host.Cell}, Memory.wf m = true → Memory.above a m = true →
    Memory.read m a = unlistedByte
  | [], _, _ => rfl
  | (k, v) :: m, hw, ha => by
    simp only [Memory.above, decide_eq_true_eq] at ha
    obtain ⟨_, h1, h2⟩ := Memory.wf_cons.mp hw
    simp only [Memory.read, if_neg (Nat.ne_of_lt ha)]
    exact Memory.read_of_above h2 (Memory.above_trans ha h1)

theorem Memory.above_write {k a : Nat} {b : Byte} (hk : k < a) : ∀ {m : List Host.Cell}, Memory.wf m = true →
    Memory.above k m = true → Memory.above k (Memory.write m a b) = true
  | [], _, _ => by
    simp only [Memory.write]; split <;> simp [Memory.above, hk]
  | (k', v) :: m, hw, h => by
    obtain ⟨_, h1, _⟩ := Memory.wf_cons.mp hw
    simp only [Memory.above, decide_eq_true_eq] at h
    simp only [Memory.write]
    split
    · split <;> simp [Memory.above, h, hk]
    · split
      · split
        · exact Memory.above_trans h h1
        · simp [Memory.above, hk]
      · simp [Memory.above, h]

/-- A write keeps the canonical form. -/
theorem Memory.wf_write {a : Nat} {b : Byte} : ∀ {m : List Host.Cell}, Memory.wf m = true →
    Memory.wf (Memory.write m a b) = true
  | [], _ => by
    simp only [Memory.write]; split
    · rfl
    · rename_i h; simp [Memory.wf, Memory.above, h]
  | (k, v) :: m, hw => by
    obtain ⟨h0, h1, h2⟩ := Memory.wf_cons.mp hw
    simp only [Memory.write]
    split
    · rename_i hlt
      split
      · exact hw
      · rename_i hb; exact Memory.wf_cons.mpr ⟨hb, by simpa [Memory.above] using hlt, hw⟩
    · split
      · rename_i heq
        split
        · exact h2
        · rename_i hb; exact Memory.wf_cons.mpr ⟨hb, by rw [heq]; exact h1, h2⟩
      · exact Memory.wf_cons.mpr ⟨h0, Memory.above_write (by omega) h2 h1, Memory.wf_write h2⟩

/-- A read after a write. -/
theorem Memory.read_write {a b : Nat} {v : Byte} : ∀ {m : List Host.Cell}, Memory.wf m = true →
    Memory.read (Memory.write m a v) b = if b = a then v else Memory.read m b
  | [], _ => by
    simp only [Memory.write]
    by_cases hv : v = unlistedByte
    · simp [hv, Memory.read]
    · simp [hv, Memory.read]
  | (k, w) :: m, hw => by
    obtain ⟨h0, h1, h2⟩ := Memory.wf_cons.mp hw
    simp only [Memory.write]
    by_cases hlt : a < k
    · rw [if_pos hlt]
      by_cases hv : v = unlistedByte
      · rw [if_pos hv]
        by_cases hb : b = a
        · subst hb
          rw [if_pos rfl, hv]
          exact Memory.read_of_above hw (by simpa [Memory.above] using hlt)
        · rw [if_neg hb]
      · rw [if_neg hv, Memory.read]
    · rw [if_neg hlt]
      by_cases heq : a = k
      · subst heq
        rw [if_pos rfl]
        by_cases hv : v = unlistedByte
        · rw [if_pos hv]
          by_cases hb : b = a
          · subst hb
            rw [if_pos rfl, hv]
            exact Memory.read_of_above h2 h1
          · simp [Memory.read, hb]
        · rw [if_neg hv]
          by_cases hb : b = a
          · simp [Memory.read, hb]
          · simp [Memory.read, hb]
      · rw [if_neg heq]
        simp only [Memory.read]
        by_cases hb : b = k
        · subst hb
          rw [if_pos rfl, if_neg (Ne.symm heq), if_pos rfl]
        · rw [if_neg hb, Memory.read_write h2, if_neg hb]

/-- Writing several bytes keeps the canonical form. -/
theorem Memory.wf_writeCells : ∀ {cells m : List Host.Cell}, Memory.wf m = true → Memory.wf (Memory.writeCells m cells) = true
  | [], _, h => h
  | (_, _) :: cells, _, h => Memory.wf_writeCells (cells := cells) (Memory.wf_write h)

/-- A read after several bytes have been written: the newest of them for that address, else what memory held. -/
theorem Memory.read_writeCells {a : Nat} : ∀ {cells m : List Host.Cell}, Memory.wf m = true →
    Memory.read (Memory.writeCells m cells) a = (pending cells a).getD (Memory.read m a)
  | [], _, _ => rfl
  | (k, b) :: cells, m, h => by
    rw [Memory.writeCells, Memory.read_writeCells (Memory.wf_write h), Memory.read_write h, pending]
    cases hp : pending cells a with
    | some v => rfl
    | none =>
      by_cases hk : a = k
      · simp [hk]
      · simp [hk]

/-! ### Write buffers -/

/-- The newest byte of two buffers in a row. -/
theorem pending_append {a : Nat} : ∀ {q r : List Host.Cell}, pending (q ++ r) a = (pending r a).or (pending q a)
  | [], r => by simp [pending]
  | (k, b) :: q, r => by
    rw [List.cons_append, pending, pending_append, pending]
    cases pending r a <;> cases pending q a <;> simp

/-- A buffer that holds no byte for an address. -/
theorem pending_none {a : Nat} : ∀ {q : List Host.Cell}, (∀ c ∈ q, c.1 ≠ a) → pending q a = none
  | [], _ => rfl
  | (k, b) :: q, h => by
    rw [pending, pending_none (fun c hc => h c (List.mem_cons_of_mem _ hc))]
    have := h (k, b) List.mem_cons_self
    simp [Ne.symm this]

theorem pending_some {a : Nat} {v : Byte} : ∀ {q : List Host.Cell}, pending q a = some v → (a, v) ∈ q
  | (k, b) :: q, h => by
    rw [pending] at h
    cases hp : pending q a with
    | some w =>
      rw [hp] at h
      exact List.mem_cons_of_mem _ (pending_some (hp.trans h))
    | none =>
      rw [hp] at h
      by_cases hk : a = k
      · simp only [hk, if_true, Option.some.injEq] at h
        subst h; subst hk; exact List.mem_cons_self
      · simp [hk] at h

/-- The bytes of a line as pending writes. -/
theorem pending_lineCells {a : Nat} : ∀ {bytes : List Byte} {first : Nat},
    pending (lineCells first bytes) a =
      if first ≤ a ∧ a < first + bytes.length then some (bytes.getD (a - first) 0#8) else none
  | [], first => by simp only [lineCells, pending]; rw [if_neg]; simp only [List.length_nil]; omega
  | b :: bytes, first => by
    rw [lineCells, pending, pending_lineCells (bytes := bytes)]
    by_cases h1 : first + 1 ≤ a ∧ a < first + 1 + bytes.length
    · have h3 : first ≤ a ∧ a < first + (b :: bytes).length := by simp only [List.length_cons]; omega
      rw [if_pos h1, if_pos h3]
      obtain ⟨d, rfl⟩ : ∃ d, a = first + 1 + d := ⟨a - (first + 1), by omega⟩
      have e1 : first + 1 + d - first = d + 1 := by omega
      have e2 : first + 1 + d - (first + 1) = d := by omega
      simp [e1, e2]
    · rw [if_neg h1]
      by_cases h2 : a = first
      · subst h2; simp
      · rw [if_neg h2, if_neg]
        simp only [List.length_cons]; omega

theorem mem_lineCells {c : Host.Cell} : ∀ {bytes : List Byte} {first : Nat}, c ∈ lineCells first bytes →
    first ≤ c.1 ∧ c.1 < first + bytes.length
  | b :: bytes, first, h => by
    rw [lineCells, List.mem_cons] at h
    simp only [List.length_cons]
    rcases h with rfl | h
    · exact ⟨Nat.le_refl _, by simp⟩
    · have := mem_lineCells h; omega

end Sys2Proof.Machine
end

