-- ==== Sys2Proof/Laws/Cache.lean ====
section
/-! SUPPORT. What each cache operation does to the bytes a load sees, and that each keeps the data cache in agreement with what
lies beneath it (State.Coherent). The one lemma about replacing a way of a set (`State.dataByte_replace`) carries all the rest. -/

namespace Sys2Proof.Machine

/-! ### Ways and sets -/

@[simp] theorem Way.other_other (w : Way) : w.other.other = w := by cases w <;> rfl

theorem Way.other_ne (w : Way) : w.other ≠ w := by cases w <;> decide

theorem Way.eq_or_other (v w : Way) : w = v ∨ w = v.other := by cases v <;> cases w <;> decide

theorem CacheSet.line_setLine (c : CacheSet) (v w : Way) (l : Line) :
    (c.setLine v l).line w = if w = v then l else c.line w := by
  cases v <;> cases w <;> rfl

theorem CacheSet.line_place (c : CacheSet) (v w : Way) (l : Line) (k : Bool) :
    (c.place v l k).line w = if w = v then l else c.line w := by
  cases v <;> cases w <;> rfl

theorem CacheSet.line_invalidate (c : CacheSet) (v w : Way) :
    (c.invalidate v).line w = if w = v then { c.line v with valid := false } else c.line w := by
  unfold CacheSet.invalidate; rw [CacheSet.line_setLine]

theorem CacheSet.line_clean (c : CacheSet) (v w : Way) :
    (c.clean v).line w = if w = v then { c.line v with dirty := false } else c.line w := by
  unfold CacheSet.clean; rw [CacheSet.line_setLine]

@[simp] theorem CacheSet.line_releaseLock (c : CacheSet) (v w : Way) : (c.releaseLock v).line w = c.line w := by cases w <;> rfl

@[simp] theorem CacheSet.line_lock (c : CacheSet) (b : Bool) (w : Way) : ({ c with lock := b } : CacheSet).line w = c.line w := by
  cases w <;> rfl

/-- The way found holds the tag, and is valid. -/
theorem CacheSet.find_some {c : CacheSet} {tag : Nat} {w : Way} (h : c.find tag = some w) :
    (c.line w).valid = true ∧ (c.line w).tag = tag := by
  unfold CacheSet.find at h
  split at h
  · rename_i hc
    cases h
    simpa [CacheSet.line] using hc
  · split at h
    · rename_i hc
      cases h
      simpa [CacheSet.line] using hc
    · cases h

/-- No way is found exactly when no valid way holds the tag. -/
theorem CacheSet.find_none {c : CacheSet} {tag : Nat} (h : c.find tag = none) (w : Way) (hv : (c.line w).valid = true) :
    (c.line w).tag ≠ tag := by
  unfold CacheSet.find at h
  split at h
  · cases h
  · rename_i hA
    split at h
    · cases h
    · rename_i hB
      cases w
      · simp only [CacheSet.line] at hv ⊢
        simpa [hv] using hA
      · simp only [CacheSet.line] at hv ⊢
        simpa [hv] using hB

theorem CacheSet.Distinct.other {c : CacheSet} (h : c.Distinct) (w : Way) (h1 : (c.line w).valid = true)
    (h2 : (c.line w.other).valid = true) : (c.line w).tag ≠ (c.line w.other).tag := by
  cases w
  · exact h h1 h2
  · exact fun e => h h2 h1 e.symm

theorem CacheSet.distinct_of_ways {c : CacheSet} (v : Way)
    (h : (c.line v).valid = true → (c.line v.other).valid = true → (c.line v).tag ≠ (c.line v.other).tag) : c.Distinct := by
  cases v
  · exact h
  · exact fun h1 h2 e => h h2 h1 e.symm

/-- In a set of distinct lines, a valid way with the tag is the one found. -/
theorem CacheSet.find_of_valid {c : CacheSet} (h : c.Distinct) {tag : Nat} {w : Way} (hv : (c.line w).valid = true)
    (ht : (c.line w).tag = tag) : c.find tag = some w := by
  cases hf : c.find tag with
  | none => exact absurd ht (CacheSet.find_none hf w hv)
  | some u =>
    obtain ⟨h1, h2⟩ := CacheSet.find_some hf
    rcases Way.eq_or_other w u with rfl | rfl
    · rfl
    · exact absurd (ht.trans h2.symm) (h.other w hv h1)

/-- The byte of a line that the set holds, if it does. -/
def CacheSet.view (c : CacheSet) (tag off : Nat) : Option Byte := (c.find tag).map fun w => (c.line w).data.getD off 0#8

/-- The same, way by way. -/
theorem CacheSet.view_eq {c : CacheSet} (h : c.Distinct) (v : Way) (tag off : Nat) :
    c.view tag off =
      if (c.line v).valid = true ∧ (c.line v).tag = tag then some ((c.line v).data.getD off 0#8)
      else if (c.line v.other).valid = true ∧ (c.line v.other).tag = tag then some ((c.line v.other).data.getD off 0#8)
      else none := by
  unfold CacheSet.view
  by_cases h1 : (c.line v).valid = true ∧ (c.line v).tag = tag
  · rw [if_pos h1, CacheSet.find_of_valid h h1.1 h1.2]; rfl
  · rw [if_neg h1]
    by_cases h2 : (c.line v.other).valid = true ∧ (c.line v.other).tag = tag
    · rw [if_pos h2, CacheSet.find_of_valid h h2.1 h2.2]; rfl
    · rw [if_neg h2]
      cases hf : c.find tag with
      | none => rfl
      | some u =>
        have := CacheSet.find_some hf
        rcases Way.eq_or_other v u with rfl | rfl
        · exact absurd this h1
        · exact absurd this h2

/-- A byte a load sees, through the set its address selects. -/
theorem State.dataByte_eq (s : State) (b : Nat) :
    s.dataByte b = if s.platform.cacheable b = true then
      ((s.dset b).view (s.platform.tagOf .data b) (s.platform.offsetOf b)).getD (s.busByte b) else s.busByte b := by
  unfold State.dataByte CacheSet.view State.dHit
  cases (s.dset b).find (s.platform.tagOf .data b) <;> rfl

/-- An address outside the cache reads what lies beneath. -/
theorem State.dataByte_uncached {s : State} {b : Nat} (h : s.platform.cacheable b = false) : s.dataByte b = s.busByte b := by
  rw [State.dataByte_eq, h]; rfl

/-! ### Coherence, set by set -/

theorem State.Coherent.set {s : State} (h : s.Coherent) (a : Nat) :
    (s.dset a).Coherent s.platform s.busByte (s.platform.setOf .data a) := h.sets _ (s.platform.setOf_lt .data a)

theorem State.Coherent.distinctAt {s : State} (h : s.Coherent) (a : Nat) : (s.dset a).Distinct := (h.set a).distinct

/-- A set still agrees when only bytes beneath lines it does not hold have changed. -/
theorem CacheSet.Coherent.congr {p : Platform} {f g : Nat → Byte} {i : Nat} {c : CacheSet} (h : c.Coherent p f i)
    (e : ∀ w, (c.line w).valid = true → (c.line w).dirty = false → p.cacheable (p.lineAddr .data i (c.line w).tag) = true →
      ∀ o, o < p.line → g (p.lineAddr .data i (c.line w).tag + o) = f (p.lineAddr .data i (c.line w).tag + o)) :
    c.Coherent p g i where
  whole := h.whole
  clean w hv hd hc o ho := by rw [e w hv hd hc o ho]; exact h.clean w hv hd hc o ho
  dirtyCached := h.dirtyCached
  distinct := h.distinct

/-- A set with one way replaced by a line that agrees. -/
theorem CacheSet.Coherent.replace {p : Platform} {f : Nat → Byte} {i : Nat} {c c' : CacheSet} {v : Way} {l : Line}
    (h : c.Coherent p f i) (hv : c'.line v = l) (ho : c'.line v.other = c.line v.other)
    (whole : l.valid = true → l.data.length = p.line)
    (clean : l.valid = true → l.dirty = false → p.cacheable (p.lineAddr .data i l.tag) = true →
      ∀ o, o < p.line → l.data.getD o 0#8 = f (p.lineAddr .data i l.tag + o))
    (dirty : l.valid = true → l.dirty = true → p.cacheable (p.lineAddr .data i l.tag) = true)
    (distinct : l.valid = true → (c.line v.other).valid = true → l.tag ≠ (c.line v.other).tag) : c'.Coherent p f i where
  whole w := by
    rcases Way.eq_or_other v w with rfl | rfl
    · rw [hv]; exact whole
    · rw [ho]; exact h.whole _
  clean w := by
    rcases Way.eq_or_other v w with rfl | rfl
    · rw [hv]; exact clean
    · rw [ho]; exact h.clean _
  dirtyCached w := by
    rcases Way.eq_or_other v w with rfl | rfl
    · rw [hv]; exact dirty
    · rw [ho]; exact h.dirtyCached _
  distinct := CacheSet.distinct_of_ways v (by rw [hv, ho]; exact distinct)

/-- Putting a set that agrees. -/
theorem State.Coherent.putDset {s : State} (h : s.Coherent) (a : Nat) {c : CacheSet}
    (hc : c.Coherent s.platform s.busByte (s.platform.setOf .data a)) : (s.putDset a c).Coherent where
  sets i hi := by
    show (Cache.get (Cache.put s.dcache (s.platform.setOf .data a) c) i).Coherent s.platform s.busByte i
    rw [Cache.get_put]
    by_cases e : i = s.platform.setOf .data a
    · rw [if_pos e, e]; exact hc
    · rw [if_neg e]; exact h.sets i hi
  writebacks := h.writebacks
  others := h.others

theorem State.dset_putDset (s : State) (a b : Nat) (c : CacheSet) :
    (s.putDset a c).dset b = if s.platform.setOf .data b = s.platform.setOf .data a then c else s.dset b := by
  show Cache.get (Cache.put s.dcache _ c) _ = _
  rw [Cache.get_put]; rfl

@[simp] theorem State.dset_putDset_same (s : State) (a : Nat) (c : CacheSet) : (s.putDset a c).dset a = c := by
  rw [State.dset_putDset, if_pos rfl]

theorem State.iset_putIset (s : State) (a b : Nat) (c : CacheSet) :
    (s.putIset a c).iset b = if s.platform.setOf .instruction b = s.platform.setOf .instruction a then c else s.iset b := by
  show Cache.get (Cache.put s.icache _ c) _ = _
  rw [Cache.get_put]; rfl

@[simp] theorem State.iset_putIset_same (s : State) (a : Nat) (c : CacheSet) : (s.putIset a c).iset a = c := by
  rw [State.iset_putIset, if_pos rfl]

theorem State.dataByte_putDset (s : State) (a b : Nat) (c : CacheSet) :
    (s.putDset a c).dataByte b = if s.platform.cacheable b = true then
      ((if s.platform.setOf .data b = s.platform.setOf .data a then c else s.dset b).view (s.platform.tagOf .data b)
        (s.platform.offsetOf b)).getD (s.busByte b) else s.busByte b := by
  rw [← State.dset_putDset]
  exact (s.putDset a c).dataByte_eq b

/-- THE BYTES A LOAD SEES after way `v` of a set has been replaced by line `l`: those of `l` in its line, what lies beneath in
the line that was there, and every other byte as before. -/
theorem State.dataByte_replace {s : State} {a : Nat} {c : CacheSet} {v : Way} {l : Line}
    (hd : (s.dset a).Distinct) (hv : c.line v = l) (ho : c.line v.other = (s.dset a).line v.other)
    (hdl : l.valid = true → ((s.dset a).line v.other).valid = true → l.tag ≠ ((s.dset a).line v.other).tag) (b : Nat) :
    (s.putDset a c).dataByte b =
      if s.platform.cacheable b = true ∧ s.platform.setOf .data b = s.platform.setOf .data a then
        (if l.valid = true ∧ l.tag = s.platform.tagOf .data b then l.data.getD (s.platform.offsetOf b) 0#8
         else if ((s.dset a).line v).valid = true ∧ ((s.dset a).line v).tag = s.platform.tagOf .data b then s.busByte b
         else s.dataByte b)
      else s.dataByte b := by
  have hdc : c.Distinct := CacheSet.distinct_of_ways v (by rw [hv, ho]; exact hdl)
  rw [State.dataByte_putDset, State.dataByte_eq]
  by_cases hcb : s.platform.cacheable b = true
  · by_cases hs : s.platform.setOf .data b = s.platform.setOf .data a
    · have hsame : s.dset b = s.dset a := by unfold State.dset; rw [hs]
      rw [if_pos hcb, if_pos hs, if_pos (And.intro hcb hs), if_pos hcb, hsame, CacheSet.view_eq hdc v, CacheSet.view_eq hd v,
        hv, ho]
      by_cases h1 : l.valid = true ∧ l.tag = s.platform.tagOf .data b
      · rw [if_pos h1, if_pos h1]; rfl
      · rw [if_neg h1, if_neg h1]
        by_cases h2 : ((s.dset a).line v).valid = true ∧ ((s.dset a).line v).tag = s.platform.tagOf .data b
        · rw [if_pos h2, if_neg]
          · rfl
          · rintro ⟨h3, h4⟩
            exact hd.other v h2.1 h3 (h2.2.trans h4.symm)
        · rw [if_neg h2, if_neg h2]
    · rw [if_pos hcb, if_neg hs, if_neg (fun h => hs h.2), if_pos hcb]
  · rw [if_neg hcb, if_neg (fun h => hcb h.1), if_neg hcb]

/-! ### Writing a line back -/

/-- No byte of a cache address waits in the non-cache write buffer. -/
theorem State.Coherent.pending_others {s : State} (h : s.Coherent) {b : Nat} (hc : s.platform.cacheable b = true) :
    pending s.nonCacheBuf.flatten b = none := by
  apply pending_none
  rintro c hcm rfl
  have := h.others c hcm
  rw [hc] at this; cases this

/-- No byte of another address waits in the cache writeback buffer. -/
theorem State.Coherent.pending_writebacks {s : State} (h : s.Coherent) {b : Nat} (hc : ¬ s.platform.cacheable b = true) :
    pending s.writebackBuf.flatten b = none := by
  apply pending_none
  rintro c hcm rfl
  exact hc (h.writebacks c hcm)

/-- Every byte of a dirty line is at a cache address. -/
theorem State.Coherent.cacheable_of_dirty {s : State} (h : s.Coherent) {a b : Nat} {w : Way}
    (hv : ((s.dset a).line w).valid = true) (hd : ((s.dset a).line w).dirty = true)
    (hb : s.platform.setOf .data b = s.platform.setOf .data a ∧ s.platform.tagOf .data b = ((s.dset a).line w).tag) :
    s.platform.cacheable b = true := by
  have hm := (s.platform.mem_line_iff .data (s.platform.setOf_lt .data a) b).mpr hb
  obtain ⟨o, ho⟩ : ∃ o, b = s.platform.lineAddr .data (s.platform.setOf .data a) ((s.dset a).line w).tag + o :=
    ⟨b - s.platform.lineAddr .data (s.platform.setOf .data a) ((s.dset a).line w).tag, by omega⟩
  rw [ho, s.platform.cacheable_lineAddr_add (s.platform.setOf_lt .data a) (by omega)]
  exact (h.set a).dirtyCached w hv hd

/-- What lies beneath after a dirty line has been written back. -/
theorem State.busByte_writeback {s : State} (h : s.Coherent) (a : Nat) (w : Way) (hv : ((s.dset a).line w).valid = true)
    (hd : ((s.dset a).line w).dirty = true) (b : Nat) :
    (s.writeback a w).busByte b =
      if s.platform.setOf .data b = s.platform.setOf .data a ∧ s.platform.tagOf .data b = ((s.dset a).line w).tag then
        ((s.dset a).line w).data.getD (s.platform.offsetOf b) 0#8 else s.busByte b := by
  have hw := (h.set a).whole w hv
  unfold State.busByte State.writeback
  simp only [List.flatten_append, List.flatten_cons, List.flatten_nil, List.append_nil, pending_append, pending_lineCells, hw]
  by_cases hb : s.platform.setOf .data b = s.platform.setOf .data a ∧ s.platform.tagOf .data b = ((s.dset a).line w).tag
  · have hm := (s.platform.mem_line_iff .data (s.platform.setOf_lt .data a) b).mpr hb
    rw [if_pos hm, if_pos hb, h.pending_others (h.cacheable_of_dirty hv hd hb)]
    have h1 := s.platform.lineAddr_setOf_tagOf .data b
    rw [hb.1, hb.2] at h1
    have h2 := s.platform.lineOf_add_offsetOf b
    have h3 : b - s.platform.lineAddr .data (s.platform.setOf .data a) ((s.dset a).line w).tag = s.platform.offsetOf b := by omega
    rw [h3]; rfl
  · rw [if_neg (fun hm => hb ((s.platform.mem_line_iff .data (s.platform.setOf_lt .data a) b).mp hm)), if_neg hb]
    rfl

/-- Writing a dirty line back leaves the data cache in agreement and changes no byte a load sees. -/
theorem State.writeback_spec {s : State} (h : s.Coherent) (a : Nat) (w : Way) (hv : ((s.dset a).line w).valid = true)
    (hd : ((s.dset a).line w).dirty = true) : (s.writeback a w).Coherent ∧ SameData s (s.writeback a w) := by
  have hbus := State.busByte_writeback h a w hv hd
  constructor
  · refine ⟨fun i hi => (h.sets i hi).congr ?_, ?_, h.others⟩
    · intro u hu hdu _ o ho
      rw [hbus, if_neg]
      have hsp := s.platform.split_lineAddr .data hi ho (tag := ((Cache.get s.dcache i).line u).tag)
      rw [hsp.1, hsp.2.1]
      rintro ⟨rfl, ht⟩
      rcases Way.eq_or_other w u with rfl | rfl
      · rw [show Cache.get s.dcache (s.platform.setOf .data a) = s.dset a from rfl, hd] at hdu; cases hdu
      · exact (h.distinctAt a).other w hv hu ht.symm
    · intro c hc
      have hc' : c ∈ s.writebackBuf.flatten ++
          lineCells (s.platform.lineAddr .data (s.platform.setOf .data a) ((s.dset a).line w).tag) ((s.dset a).line w).data := by
        simpa [State.writeback] using hc
      rcases List.mem_append.mp hc' with hc | hc
      · exact h.writebacks c hc
      · have hm := mem_lineCells hc
        rw [(h.set a).whole w hv] at hm
        exact h.cacheable_of_dirty hv hd ((s.platform.mem_line_iff .data (s.platform.setOf_lt .data a) c.1).mp hm)
  · intro b
    rw [State.dataByte_eq, State.dataByte_eq, State.writeback_dset, State.writeback_platform, hbus]
    by_cases hb : s.platform.setOf .data b = s.platform.setOf .data a ∧ s.platform.tagOf .data b = ((s.dset a).line w).tag
    · have hsame : s.dset b = s.dset a := by unfold State.dset; rw [hb.1]
      have hcb := h.cacheable_of_dirty hv hd hb
      rw [if_pos hcb, if_pos hcb, hsame, CacheSet.view_eq (h.distinctAt a) w, if_pos ⟨hv, hb.2.symm⟩]
      rfl
    · rw [if_neg hb]

/-- A valid line of cache addresses, after it has been written back if dirty, agrees with what lies beneath. -/
theorem State.writebackIfDirty_spec {s : State} (h : s.Coherent) (a : Nat) (w : Way) :
    (s.writebackIfDirty a w).Coherent ∧ SameData s (s.writebackIfDirty a w) ∧
    ∀ b, s.platform.cacheable b = true → s.platform.setOf .data b = s.platform.setOf .data a →
      ((s.dset a).line w).valid = true → ((s.dset a).line w).tag = s.platform.tagOf .data b →
      (s.writebackIfDirty a w).busByte b = s.dataByte b := by
  by_cases hvd : ((s.dset a).line w).valid = true ∧ ((s.dset a).line w).dirty = true
  · have e : s.writebackIfDirty a w = s.writeback a w := by
      unfold State.writebackIfDirty; simp [hvd.1, hvd.2, State.writeback]
    have hs := State.writeback_spec h a w hvd.1 hvd.2
    rw [e]
    refine ⟨hs.1, hs.2, fun b hc hset hv ht => ?_⟩
    have hsame : s.dset b = s.dset a := by unfold State.dset; rw [hset]
    rw [State.busByte_writeback h a w hvd.1 hvd.2, if_pos ⟨hset, ht.symm⟩, State.dataByte_eq, if_pos hc, hsame,
      CacheSet.view_eq (h.distinctAt a) w, if_pos ⟨hv, ht⟩]
    rfl
  · have e : s.writebackIfDirty a w = s := by
      unfold State.writebackIfDirty
      have : (((s.dset a).line w).valid && ((s.dset a).line w).dirty) = false := by
        cases hv : ((s.dset a).line w).valid <;> cases hd : ((s.dset a).line w).dirty <;> simp_all
      simp [this]
    rw [e]
    refine ⟨h, fun _ => rfl, fun b hc hset hv ht => ?_⟩
    have hdirty : ((s.dset a).line w).dirty = false := by
      cases hd : ((s.dset a).line w).dirty with
      | false => rfl
      | true => exact absurd ⟨hv, hd⟩ hvd
    have hsame : s.dset b = s.dset a := by unfold State.dset; rw [hset]
    have hla : s.platform.lineAddr .data (s.platform.setOf .data a) ((s.dset a).line w).tag = s.platform.lineOf b := by
      rw [ht, ← hset]; exact s.platform.lineAddr_setOf_tagOf .data b
    have hcl := (h.set a).clean w hv hdirty (by rw [hla, s.platform.cacheable_lineOf]; exact hc) _ (s.platform.offsetOf_lt b)
    rw [hla, s.platform.lineOf_add_offsetOf] at hcl
    rw [State.dataByte_eq, if_pos hc, hsame, CacheSet.view_eq (h.distinctAt a) w, if_pos ⟨hv, ht⟩]
    exact hcl.symm

/-- THE BYTES A LOAD SEES after way `v` of a set has been written back if dirty and replaced by line `l`: those of `l` in its
line, and every other byte as before. -/
theorem State.dataByte_evict {s : State} (h : s.Coherent) {a : Nat} {c : CacheSet} {v : Way} {l : Line}
    (hv : c.line v = l) (ho : c.line v.other = (s.dset a).line v.other)
    (hdl : l.valid = true → ((s.dset a).line v.other).valid = true → l.tag ≠ ((s.dset a).line v.other).tag) (b : Nat) :
    ((s.writebackIfDirty a v).putDset a c).dataByte b =
      if s.platform.cacheable b = true ∧ s.platform.setOf .data b = s.platform.setOf .data a ∧
          l.valid = true ∧ l.tag = s.platform.tagOf .data b then
        l.data.getD (s.platform.offsetOf b) 0#8
      else s.dataByte b := by
  obtain ⟨h1, h2, h3⟩ := State.writebackIfDirty_spec h a v
  have key : ((s.writebackIfDirty a v).putDset a c).dataByte b =
      if s.platform.cacheable b = true ∧ s.platform.setOf .data b = s.platform.setOf .data a then
        (if l.valid = true ∧ l.tag = s.platform.tagOf .data b then l.data.getD (s.platform.offsetOf b) 0#8
         else if ((s.dset a).line v).valid = true ∧ ((s.dset a).line v).tag = s.platform.tagOf .data b then
          (s.writebackIfDirty a v).busByte b
         else (s.writebackIfDirty a v).dataByte b)
      else (s.writebackIfDirty a v).dataByte b :=
    State.dataByte_replace (s := s.writebackIfDirty a v) (h1.distinctAt a) hv ho hdl b
  rw [key, h2 b]
  by_cases hb : s.platform.cacheable b = true ∧ s.platform.setOf .data b = s.platform.setOf .data a
  · rw [if_pos hb]
    by_cases hn : l.valid = true ∧ l.tag = s.platform.tagOf .data b
    · rw [if_pos hn, if_pos ⟨hb.1, hb.2, hn⟩]
    · rw [if_neg hn]
      by_cases hl : ((s.dset a).line v).valid = true ∧ ((s.dset a).line v).tag = s.platform.tagOf .data b
      · rw [if_pos hl, h3 b hb.1 hb.2 hl.1 hl.2, if_neg (fun x => hn x.2.2)]
      · rw [if_neg hl, if_neg (fun x => hn x.2.2)]
  · rw [if_neg hb, if_neg (fun x => hb ⟨x.1, x.2.1⟩)]

/-- A way of a set, written back if dirty and then made invalid (with any LRU and Lock bits): no byte a load sees changes. -/
theorem State.drop_spec {s : State} (h : s.Coherent) (a : Nat) (w : Way) {c : CacheSet}
    (hv : c.line w = { (s.dset a).line w with valid := false }) (ho : c.line w.other = (s.dset a).line w.other) :
    ((s.writebackIfDirty a w).putDset a c).Coherent ∧ SameData s ((s.writebackIfDirty a w).putDset a c) := by
  have h1 := (State.writebackIfDirty_spec h a w).1
  refine ⟨h1.putDset a ?_, fun b => ?_⟩
  · exact (h1.set a).replace hv ho (by simp) (by simp) (by simp) (by simp)
  · rw [State.dataByte_evict h hv ho (by simp), if_neg (by simp)]

/-! ### Filling, creating and storing -/

theorem State.line_of_dHit {s : State} {a : Nat} {w : Way} (h : s.dHit a = some w) :
    ((s.dset a).line w).valid = true ∧ ((s.dset a).line w).tag = s.platform.tagOf .data a := CacheSet.find_some h

theorem State.line_of_miss {s : State} {a : Nat} (h : s.dHit a = none) (w : Way) (hv : ((s.dset a).line w).valid = true) :
    ((s.dset a).line w).tag ≠ s.platform.tagOf .data a := CacheSet.find_none h w hv

/-- The address of the line that an address's set and tag name. -/
theorem State.lineAddr_of {s : State} (a : Nat) :
    s.platform.lineAddr .data (s.platform.setOf .data a) (s.platform.tagOf .data a) = s.platform.lineOf a :=
  s.platform.lineAddr_setOf_tagOf .data a

/-- What a byte of a line that is present reads as. -/
theorem State.dataByte_hit {s : State} (h : s.Coherent) {a b : Nat} {w : Way} (hw : s.dHit a = some w)
    (hl : s.platform.lineOf b = s.platform.lineOf a) (hc : s.platform.cacheable b = true) :
    s.dataByte b = ((s.dset a).line w).data.getD (s.platform.offsetOf b) 0#8 := by
  obtain ⟨hs, ht⟩ := (s.platform.lineOf_eq_iff .data b a).mp hl
  have hsame : s.dset b = s.dset a := by unfold State.dset; rw [hs]
  obtain ⟨hv, htag⟩ := State.line_of_dHit hw
  rw [State.dataByte_eq, if_pos hc, hsame, CacheSet.view_eq (h.distinctAt a) w, if_pos ⟨hv, htag.trans ht.symm⟩]
  rfl

/-- A line placed where the address missed, over a victim that is written back first if dirty. -/
theorem State.installD_spec {s : State} (h : s.Coherent) {a : Nat} (hm : s.dHit a = none) (v : Way) {dirty : Bool}
    {data : List Byte} (k : Bool) (hlen : data.length = s.platform.line)
    (hdirty : dirty = true → s.platform.cacheable a = true)
    (hclean : dirty = false → s.platform.cacheable a = true → ∀ o, o < s.platform.line →
      data.getD o 0#8 = (s.writebackIfDirty a v).busByte (s.platform.lineOf a + o)) :
    (s.installD a v dirty data k).Coherent ∧ ∀ b, (s.installD a v dirty data k).dataByte b =
      if s.platform.cacheable b = true ∧ s.platform.lineOf b = s.platform.lineOf a then
        data.getD (s.platform.offsetOf b) 0#8 else s.dataByte b := by
  obtain ⟨h1, h2, h3⟩ := State.writebackIfDirty_spec h a v
  have hl := CacheSet.line_place (s.dset a) v v
    { valid := true, dirty := dirty, tag := s.platform.tagOf .data a, data := data } k
  have ho := CacheSet.line_place (s.dset a) v v.other
    { valid := true, dirty := dirty, tag := s.platform.tagOf .data a, data := data } k
  rw [if_pos rfl] at hl
  rw [if_neg v.other_ne] at ho
  unfold State.installD
  refine ⟨h1.putDset a ((h1.set a).replace hl ho (fun _ => hlen) ?_ ?_ ?_), fun b => ?_⟩
  · intro _ hd hc
    simp only [State.writebackIfDirty_platform] at hc ⊢
    rw [State.lineAddr_of] at hc ⊢
    exact hclean hd (by rw [← s.platform.cacheable_lineOf]; exact hc)
  · intro _ hd
    simp only [State.writebackIfDirty_platform]
    rw [State.lineAddr_of, s.platform.cacheable_lineOf]
    exact hdirty hd
  · intro _ hv
    exact (State.line_of_miss hm v.other hv).symm
  · rw [State.dataByte_evict h hl ho (fun _ hv => (State.line_of_miss hm v.other hv).symm)]
    by_cases hb : s.platform.cacheable b = true ∧ s.platform.lineOf b = s.platform.lineOf a
    · have hs := (s.platform.lineOf_eq_iff .data b a).mp hb.2
      rw [if_pos hb, if_pos ⟨hb.1, hs.1, rfl, hs.2.symm⟩]
    · rw [if_neg hb, if_neg]
      rintro ⟨x1, x2, _, x4⟩
      exact hb ⟨x1, (s.platform.lineOf_eq_iff .data b a).mpr ⟨x2, x4.symm⟩⟩

theorem State.length_busLine (s : State) (a : Nat) : (s.busLine a).length = s.platform.line := by
  simp [State.busLine]

theorem State.getD_busLine (s : State) (a : Nat) {o : Nat} (ho : o < s.platform.line) :
    (s.busLine a).getD o 0#8 = s.busByte (s.platform.lineOf a + o) := by
  simp [State.busLine, ho]

theorem State.installD_platform (s : State) (a : Nat) (v : Way) (d : Bool) (l : List Byte) (k : Bool) :
    (s.installD a v d l k).platform = s.platform := rfl

/-- Fill (D) keeps the cache in agreement and changes no byte a load sees (R71). -/
theorem State.fillD_spec {s : State} (h : s.Coherent) (a : Nat) (k : Bool) : (s.fillD a k).Coherent ∧ SameData s (s.fillD a k) := by
  unfold State.fillD
  cases hm : s.dHit a with
  | some w => exact ⟨h, fun _ => rfl⟩
  | none =>
    obtain ⟨h1, h2, h3⟩ := State.writebackIfDirty_spec h a (s.dset a).lru
    have hi := State.installD_spec h hm (s.dset a).lru (dirty := false)
      (data := (s.writebackIfDirty a (s.dset a).lru).busLine a) k (State.length_busLine _ _) (by simp)
      (fun _ _ o ho => State.getD_busLine _ a ho)
    refine ⟨hi.1, fun b => ?_⟩
    rw [hi.2 b]
    by_cases hb : s.platform.cacheable b = true ∧ s.platform.lineOf b = s.platform.lineOf a
    · rw [if_pos hb]
      have hg := State.getD_busLine (s.writebackIfDirty a (s.dset a).lru) a (s.platform.offsetOf_lt b)
      rw [hg, State.writebackIfDirty_platform, ← hb.2, s.platform.lineOf_add_offsetOf, ← h2 b, State.dataByte_eq,
        State.writebackIfDirty_platform, if_pos hb.1, State.writebackIfDirty_dset]
      have hs := (s.platform.lineOf_eq_iff .data b a).mp hb.2
      have hsame : s.dset b = s.dset a := by unfold State.dset; rw [hs.1]
      have hnone : (s.dset a).find (s.platform.tagOf .data b) = none := by rw [hs.2]; exact hm
      rw [hsame, CacheSet.view, hnone]; rfl
    · rw [if_neg hb]

/-- An address is present after a fill. -/
theorem State.dHit_fillD {s : State} (h : s.Coherent) (a : Nat) (k : Bool) : ∃ w, (s.fillD a k).dHit a = some w := by
  unfold State.fillD
  cases hm : s.dHit a with
  | some w => exact ⟨w, hm⟩
  | none =>
    have hc := (State.installD_spec h hm (s.dset a).lru (dirty := false)
      (data := (s.writebackIfDirty a (s.dset a).lru).busLine a) k (State.length_busLine _ _) (by simp)
      (fun _ _ o ho => State.getD_busLine _ a ho)).1
    refine ⟨(s.dset a).lru, CacheSet.find_of_valid (hc.distinctAt a) ?_ ?_⟩ <;>
    · unfold State.installD
      rw [State.dset_putDset_same, CacheSet.line_place, if_pos rfl]
      try rfl

theorem State.fillD_platform (s : State) (a : Nat) (k : Bool) : (s.fillD a k).platform = s.platform := by
  unfold State.fillD; split <;> rfl

/-- What a load or a store does to the cache on its way changes no byte a load sees (R63, R70). -/
theorem State.touchD_spec {s : State} (h : s.Coherent) (a : Nat) : (s.touchD a).Coherent ∧ SameData s (s.touchD a) := by
  unfold State.touchD
  split
  · exact State.fillD_spec h a false
  · exact ⟨h, fun _ => rfl⟩

@[simp] theorem State.touchD_platform (s : State) (a : Nat) : (s.touchD a).platform = s.platform := by
  unfold State.touchD; split
  · exact State.fillD_platform _ _ _
  · rfl

/-- A byte stored into a line that is present changes that byte for loads, and no other. -/
theorem State.pokeD_spec {s : State} (h : s.Coherent) {a : Nat} {w : Way} (hw : s.dHit a = some w)
    (hc : s.platform.cacheable a = true) (v : Byte) :
    (s.pokeD a v).Coherent ∧ ∀ b, (s.pokeD a v).dataByte b = if b = a then v else s.dataByte b := by
  obtain ⟨hv, ht⟩ := State.line_of_dHit hw
  have e : s.pokeD a v = s.putDset a ((s.dset a).setLine w { (s.dset a).line w with
      dirty := true, data := ((s.dset a).line w).data.set (s.platform.offsetOf a) v }) := by
    unfold State.pokeD; rw [hw]
  have hl := CacheSet.line_setLine (s.dset a) w w { (s.dset a).line w with
      dirty := true, data := ((s.dset a).line w).data.set (s.platform.offsetOf a) v }
  have ho := CacheSet.line_setLine (s.dset a) w w.other { (s.dset a).line w with
      dirty := true, data := ((s.dset a).line w).data.set (s.platform.offsetOf a) v }
  rw [if_pos rfl] at hl
  rw [if_neg w.other_ne] at ho
  have hwhole := (h.set a).whole w hv
  rw [e]
  refine ⟨h.putDset a ((h.set a).replace hl ho ?_ ?_ ?_ ?_), fun b => ?_⟩
  · intro _; simpa using hwhole
  · intro _ hd; simp at hd
  · intro _ _
    show s.platform.cacheable (s.platform.lineAddr .data (s.platform.setOf .data a) ((s.dset a).line w).tag) = true
    rw [ht, State.lineAddr_of, s.platform.cacheable_lineOf]; exact hc
  · intro _ hvo; exact (h.distinctAt a).other w hv hvo
  · rw [State.dataByte_replace (h.distinctAt a) hl ho (fun _ hvo => (h.distinctAt a).other w hv hvo)]
    by_cases hb : s.platform.cacheable b = true ∧ s.platform.setOf .data b = s.platform.setOf .data a
    · rw [if_pos hb]
      by_cases htb : ((s.dset a).line w).tag = s.platform.tagOf .data b
      · have hline := (s.platform.lineOf_eq_iff .data b a).mpr ⟨hb.2, (htb.symm.trans ht)⟩
        rw [if_pos ⟨hv, htb⟩, State.dataByte_hit h hw hline hb.1]
        have hoa := s.platform.offsetOf_lt a
        have hob := s.platform.offsetOf_lt b
        by_cases hba : b = a
        · rw [if_pos hba, hba]
          simp [hwhole, hoa]
        · have hne : s.platform.offsetOf a ≠ s.platform.offsetOf b := by
            intro heq
            have h1 := s.platform.lineOf_add_offsetOf a
            have h2 := s.platform.lineOf_add_offsetOf b
            rw [hline] at h2
            omega
          rw [if_neg hba]
          simp [List.getD_eq_getElem?_getD, hne]
      · have hba : b ≠ a := by rintro rfl; exact htb ht
        rw [if_neg (fun x => htb x.2), if_neg (fun x => htb x.2), if_neg hba]
    · have hba : b ≠ a := by rintro rfl; exact hb ⟨hc, rfl⟩
      rw [if_neg hb, if_neg hba]

@[simp] theorem State.pokeD_platform (s : State) (a : Nat) (v : Byte) : (s.pokeD a v).platform = s.platform := by
  unfold State.pokeD; split <;> rfl

/-- One byte of a store: at a cache address a load sees it; every other byte reads as before (R63). -/
theorem State.storeCached_spec {s : State} (h : s.Coherent) (a : Nat) (v : Byte) :
    (s.storeCached a v).Coherent ∧
    ∀ b, (s.storeCached a v).dataByte b = if b = a ∧ s.platform.cacheable a = true then v else s.dataByte b := by
  unfold State.storeCached
  by_cases hc : s.platform.cacheable a = true
  · rw [if_pos hc]
    obtain ⟨h1, h2⟩ := State.touchD_spec h a
    obtain ⟨w, hw⟩ : ∃ w, (s.touchD a).dHit a = some w := by
      unfold State.touchD; rw [if_pos hc]; exact State.dHit_fillD h a false
    obtain ⟨h3, h4⟩ := State.pokeD_spec h1 hw (by rw [State.touchD_platform]; exact hc) v
    exact ⟨h3, fun b => by rw [h4 b, h2 b]; simp [hc]⟩
  · rw [if_neg hc]
    exact ⟨h, fun b => by simp [hc]⟩

@[simp] theorem State.storeCached_platform (s : State) (a : Nat) (v : Byte) : (s.storeCached a v).platform = s.platform := by
  unfold State.storeCached; split
  · simp
  · rfl

@[simp] theorem State.storeAllCached_platform : ∀ (bytes : List Byte) (s : State) (a : Nat),
    (s.storeAllCached a bytes).platform = s.platform
  | [], _, _ => rfl
  | _ :: bytes, s, a => by
    rw [State.storeAllCached, State.storeAllCached_platform bytes, State.storeCached_platform]

/-- The bytes of a store at cache addresses: a load sees exactly them. -/
theorem State.storeAllCached_spec : ∀ {bytes : List Byte} {s : State}, s.Coherent → ∀ a : Nat,
    (s.storeAllCached a bytes).Coherent ∧ ∀ b, (s.storeAllCached a bytes).dataByte b =
      if (a ≤ b ∧ b < a + bytes.length) ∧ s.platform.cacheable b = true then bytes.getD (b - a) 0#8 else s.dataByte b
  | [], s, h, a => ⟨h, fun b => by
      show s.dataByte b = _
      rw [if_neg]; rintro ⟨hb, _⟩; simp only [List.length_nil] at hb; omega⟩
  | v :: bytes, s, h, a => by
    obtain ⟨h1, h2⟩ := State.storeCached_spec h a v
    obtain ⟨h3, h4⟩ := State.storeAllCached_spec (bytes := bytes) h1 (a + 1)
    refine ⟨h3, fun b => ?_⟩
    show ((s.storeCached a v).storeAllCached (a + 1) bytes).dataByte b = _
    rw [h4 b, h2 b, State.storeCached_platform]
    simp only [List.length_cons]
    by_cases hc : s.platform.cacheable b = true
    · by_cases h5 : a + 1 ≤ b ∧ b < a + 1 + bytes.length
      · rw [if_pos ⟨h5, hc⟩, if_pos ⟨by omega, hc⟩, show b - a = b - (a + 1) + 1 by omega]; simp
      · rw [if_neg (fun x => h5 x.1)]
        by_cases hba : b = a
        · subst hba; rw [if_pos ⟨rfl, hc⟩, if_pos ⟨by omega, hc⟩]; simp
        · rw [if_neg (fun x => hba x.1), if_neg]; rintro ⟨x, _⟩; omega
    · rw [if_neg (fun x => hc x.2), if_neg, if_neg (fun x => hc x.2)]
      rintro ⟨rfl, x⟩; exact hc x

/-- The bytes of a store at no cache address, as pending writes. -/
theorem Platform.pending_uncachedCells (p : Platform) (b : Nat) : ∀ (bytes : List Byte) (a : Nat),
    pending (p.uncachedCells a bytes) b =
      if (a ≤ b ∧ b < a + bytes.length) ∧ p.cacheable b = false then some (bytes.getD (b - a) 0#8) else none
  | [], a => by
    show none = _
    rw [if_neg]; rintro ⟨hb, _⟩; simp only [List.length_nil] at hb; omega
  | v :: bytes, a => by
    have ih := Platform.pending_uncachedCells p b bytes (a + 1)
    unfold Platform.uncachedCells at ih ⊢
    have e : pending ((lineCells a (v :: bytes)).filter fun c => !p.cacheable c.1) b =
        (pending ((lineCells (a + 1) bytes).filter fun c => !p.cacheable c.1) b).or
          (if b = a ∧ p.cacheable a = false then some v else none) := by
      rw [lineCells, List.filter_cons]
      cases hc : p.cacheable a
      · simp only [Bool.not_false, if_true, and_true, pending]
        cases pending ((lineCells (a + 1) bytes).filter fun c => !p.cacheable c.1) b <;> rfl
      · simp
    rw [e, ih]
    simp only [List.length_cons]
    by_cases h1 : (a + 1 ≤ b ∧ b < a + 1 + bytes.length) ∧ p.cacheable b = false
    · have h2 : (a ≤ b ∧ b < a + (bytes.length + 1)) ∧ p.cacheable b = false := ⟨by omega, h1.2⟩
      rw [if_pos h1, if_pos h2, show b - a = b - (a + 1) + 1 by omega]; simp
    · rw [if_neg h1]
      by_cases h2 : b = a ∧ p.cacheable a = false
      · obtain ⟨rfl, h3⟩ := h2
        have h4 : (b ≤ b ∧ b < b + (bytes.length + 1)) ∧ p.cacheable b = false := ⟨by omega, h3⟩
        rw [if_pos ⟨rfl, h3⟩, if_pos h4]; simp
      · rw [if_neg h2, if_neg]
        · rfl
        · rintro ⟨x, y⟩
          by_cases hba : b = a
          · subst hba; exact h2 ⟨rfl, y⟩
          · exact h1 ⟨by omega, y⟩

/-- A write that enters the non-cache write buffer. -/
theorem State.busByte_bufferWrite (s : State) (w : BufferedWrite) (b : Nat) :
    (s.bufferWrite w).busByte b = (pending w b).getD (s.busByte b) := by
  have e : (s.bufferWrite w).nonCacheBuf.flatten = s.nonCacheBuf.flatten ++ w := by
    rw [State.bufferWrite_nonCacheBuf]
    cases w <;> simp
  unfold State.busByte
  rw [e, State.bufferWrite_writebackBuf, State.bufferWrite_mem, pending_append]
  cases pending w b <;> rfl

/-- A write at no cache address that enters the non-cache write buffer: a load sees exactly its bytes. -/
theorem State.bufferWrite_spec {s : State} (h : s.Coherent) {w : BufferedWrite}
    (hw : ∀ c ∈ w, s.platform.cacheable c.1 = false) :
    (s.bufferWrite w).Coherent ∧ ∀ b, (s.bufferWrite w).dataByte b = (pending w b).getD (s.dataByte b) := by
  have hbus := s.busByte_bufferWrite w
  refine ⟨⟨fun i hi => (h.sets i hi).congr ?_, h.writebacks, ?_⟩, fun b => ?_⟩
  · intro u _ _ hcl o ho
    rw [hbus, pending_none]
    · rfl
    · rintro c hcm heq
      have h1 := hw c hcm
      rw [heq, s.platform.cacheable_lineAddr_add hi ho, hcl] at h1
      cases h1
  · intro c hcm
    rw [State.bufferWrite_nonCacheBuf] at hcm
    split at hcm
    · exact h.others c hcm
    · rw [List.flatten_append, List.mem_append] at hcm
      rcases hcm with hcm | hcm
      · exact h.others c hcm
      · exact hw c (by simpa using hcm)
  · rw [State.dataByte_eq, State.dataByte_eq, hbus, State.bufferWrite_platform, State.bufferWrite_dset]
    by_cases hc : s.platform.cacheable b = true
    · have hn : pending w b = none := by
        apply pending_none
        rintro c hcm rfl
        have h1 := hw c hcm
        rw [hc] at h1; cases h1
      rw [if_pos hc, if_pos hc, hn]; rfl
    · rw [if_neg hc, if_neg hc]

theorem Platform.uncachedCells_uncached (p : Platform) (a : Nat) (bytes : List Byte) :
    ∀ c ∈ p.uncachedCells a bytes, p.cacheable c.1 = false := by
  intro c hc
  have := (List.mem_filter.mp hc).2
  simpa using this

/-- Bytes stored at rising addresses: a load sees exactly them (R63, R53). -/
theorem State.storeBytes_spec {bytes : List Byte} {s : State} (h : s.Coherent) (a : Nat) :
    (s.storeBytes a bytes).Coherent ∧ Stored s (s.storeBytes a bytes) a bytes := by
  obtain ⟨h1, h2⟩ := State.storeAllCached_spec (bytes := bytes) h a
  have hw : ∀ c ∈ s.platform.uncachedCells a bytes, (s.storeAllCached a bytes).platform.cacheable c.1 = false := by
    rw [State.storeAllCached_platform]; exact s.platform.uncachedCells_uncached a bytes
  obtain ⟨h3, h4⟩ := State.bufferWrite_spec h1 hw
  have key : ∀ b, (s.storeBytes a bytes).dataByte b =
      if a ≤ b ∧ b < a + bytes.length then bytes.getD (b - a) 0#8 else s.dataByte b := by
    intro b
    show ((s.storeAllCached a bytes).bufferWrite (s.platform.uncachedCells a bytes)).dataByte b = _
    rw [h4 b, h2 b, Platform.pending_uncachedCells]
    by_cases hb : a ≤ b ∧ b < a + bytes.length
    · cases hc : s.platform.cacheable b <;> simp [hb]
    · simp [hb]
  refine ⟨h3, fun i hi => ?_, fun b hb => ?_⟩
  · rw [key, if_pos (by omega), Nat.add_sub_cancel_left]
  · rw [key, if_neg (by omega)]

@[simp] theorem State.storeBytes_platform (bytes : List Byte) (s : State) (a : Nat) :
    (s.storeBytes a bytes).platform = s.platform := by
  show (s.storeAllCached a bytes).platform = _
  simp

theorem State.length_freeLine (s : State) : s.freeLine.length = s.platform.line := by simp [State.freeLine]

/-- Coherence looks at the caches, the buffers, memory and the platform only. -/
theorem State.Coherent.withFree {s : State} (h : s.Coherent) (n : Nat) : ({ s with free := n } : State).Coherent :=
  ⟨h.sets, h.writebacks, h.others⟩

/-- Create Dirty Exclusive on a cache address: the line is present and dirty, and no byte outside it changes (R299). -/
theorem State.createD_spec {s : State} (h : s.Coherent) {a : Nat} (hc : s.platform.cacheable a = true) (k : Bool) :
    (s.createD a k).Coherent ∧
    (∀ b, s.platform.lineOf b ≠ s.platform.lineOf a → (s.createD a k).dataByte b = s.dataByte b) ∧
    ∃ w, (s.createD a k).dHit a = some w ∧ (((s.createD a k).dset a).line w).dirty = true := by
  unfold State.createD
  cases hm : s.dHit a with
  | some w =>
    obtain ⟨hv, ht⟩ := State.line_of_dHit hm
    have hl := CacheSet.line_place (s.dset a) w w
      { valid := true, dirty := true, tag := s.platform.tagOf .data a, data := s.freeLine } k
    have ho := CacheSet.line_place (s.dset a) w w.other
      { valid := true, dirty := true, tag := s.platform.tagOf .data a, data := s.freeLine } k
    rw [if_pos rfl] at hl
    rw [if_neg w.other_ne] at ho
    have hdis : ((s.dset a).line w.other).valid = true → s.platform.tagOf .data a ≠ ((s.dset a).line w.other).tag :=
      fun hvo => ht ▸ (h.distinctAt a).other w hv hvo
    have hco : (s.putDset a ((s.dset a).place w
        { valid := true, dirty := true, tag := s.platform.tagOf .data a, data := s.freeLine } k)).Coherent := by
      refine h.putDset a ((h.set a).replace hl ho (fun _ => State.length_freeLine s) (fun _ hd => by simp at hd) ?_
        (fun _ => hdis))
      intro _ _
      show s.platform.cacheable (s.platform.lineAddr .data (s.platform.setOf .data a) (s.platform.tagOf .data a)) = true
      rw [State.lineAddr_of, s.platform.cacheable_lineOf]; exact hc
    refine ⟨hco.withFree _, fun b hb => ?_, w, ?_, ?_⟩
    · show (s.putDset a _).dataByte b = s.dataByte b
      rw [State.dataByte_replace (h.distinctAt a) hl ho (fun _ => hdis)]
      by_cases hs : s.platform.cacheable b = true ∧ s.platform.setOf .data b = s.platform.setOf .data a
      · have htb : s.platform.tagOf .data a ≠ s.platform.tagOf .data b :=
          fun e => hb ((s.platform.lineOf_eq_iff .data b a).mpr ⟨hs.2, e.symm⟩)
        rw [if_pos hs, if_neg (fun x => htb x.2), if_neg (fun x => htb (ht.symm.trans x.2))]
      · rw [if_neg hs]
    · refine CacheSet.find_of_valid (hco.distinctAt a) ?_ ?_ <;>
      · rw [State.dset_putDset_same, hl]; try rfl
    · show (((s.putDset a _).dset a).line w).dirty = true
      rw [State.dset_putDset_same, hl]
  | none =>
    have hi := State.installD_spec h hm (s.dset a).lru (dirty := true) (data := s.freeLine) k (State.length_freeLine s)
      (fun _ => hc) (by simp)
    have hdset : (s.installD a (s.dset a).lru true s.freeLine k).dset a = (s.dset a).place (s.dset a).lru
        { valid := true, dirty := true, tag := s.platform.tagOf .data a, data := s.freeLine } k := by
      unfold State.installD; rw [State.dset_putDset_same]
    refine ⟨hi.1.withFree _, fun b hb => ?_, (s.dset a).lru, ?_, ?_⟩
    · show (s.installD a _ true _ k).dataByte b = s.dataByte b
      rw [hi.2 b, if_neg (fun x => hb x.2)]
    · refine CacheSet.find_of_valid (hi.1.distinctAt a) ?_ ?_ <;>
      · rw [hdset, CacheSet.line_place, if_pos rfl]; try rfl
    · show (((s.installD a _ true _ k).dset a).line _).dirty = true
      rw [hdset, CacheSet.line_place, if_pos rfl]

end Sys2Proof.Machine
end

