-- ==== Sys2Proof/Laws/Access.lean ====
section
/-! SUPPORT. What each access and each cache operation may change, and what leaving the write buffers does. -/

namespace Sys2Proof.Machine

/-! ### What an access may change -/

theorem State.fillD_eq (s : State) (a : Nat) (k : Bool) :
    s.fillD a k = { s with dcache := (s.fillD a k).dcache, writebackBuf := (s.fillD a k).writebackBuf } := by
  unfold State.fillD; split <;> rfl

theorem State.touchD_eq (s : State) (a : Nat) :
    s.touchD a = { s with dcache := (s.touchD a).dcache, writebackBuf := (s.touchD a).writebackBuf } := by
  unfold State.touchD; split
  · exact State.fillD_eq s a false
  · rfl

theorem State.pokeD_eq (s : State) (a : Nat) (v : Byte) : s.pokeD a v = { s with dcache := (s.pokeD a v).dcache } := by
  unfold State.pokeD; split <;> rfl

theorem State.storeCached_eq (s : State) (a : Nat) (v : Byte) :
    s.storeCached a v = { s with dcache := (s.storeCached a v).dcache, writebackBuf := (s.storeCached a v).writebackBuf } := by
  unfold State.storeCached; split
  · rw [State.pokeD_eq, State.touchD_eq]
  · rfl

theorem State.storeAllCached_form : ∀ (l : List Byte) (s : State) (a : Nat), ∃ d w,
    s.storeAllCached a l = { s with dcache := d, writebackBuf := w }
  | [], s, _ => ⟨s.dcache, s.writebackBuf, rfl⟩
  | v :: l, s, a => by
    obtain ⟨d, w, h⟩ := State.storeAllCached_form l (s.storeCached a v) (a + 1)
    refine ⟨d, w, ?_⟩
    show (s.storeCached a v).storeAllCached (a + 1) l = _
    rw [h, State.storeCached_eq]

theorem State.storeBytes_eq (l : List Byte) (s : State) (a : Nat) :
    s.storeBytes a l = { s with dcache := (s.storeBytes a l).dcache, writebackBuf := (s.storeBytes a l).writebackBuf,
                                nonCacheBuf := (s.storeBytes a l).nonCacheBuf } := by
  obtain ⟨d, w, h⟩ := State.storeAllCached_form l s a
  have e : s.storeBytes a l = ({ s with dcache := d, writebackBuf := w } : State).bufferWrite (s.platform.uncachedCells a l) := by
    unfold State.storeBytes; rw [h]
  rw [e]; rfl

theorem State.createD_eq (s : State) (a : Nat) (k : Bool) :
    s.createD a k = { s with dcache := (s.createD a k).dcache, writebackBuf := (s.createD a k).writebackBuf,
                             free := s.free + s.platform.line } := by
  unfold State.createD; split <;> rfl

theorem State.fillI_eq (s : State) (a : Nat) (k : Bool) : s.fillI a k = { s with icache := (s.fillI a k).icache } := by
  unfold State.fillI; split <;> rfl

theorem State.touchI_eq (s : State) (a : Nat) : s.touchI a = { s with icache := (s.touchI a).icache } := by
  unfold State.touchI; split
  · exact State.fillI_eq s a false
  · rfl

theorem State.drainSome_eq (s : State) :
    s.drainSome = { s with mem := s.drainSome.mem, writebackBuf := s.drainSome.writebackBuf,
                           nonCacheBuf := s.drainSome.nonCacheBuf, free := s.drainSome.free } := by
  unfold State.drainSome; split <;> rfl

theorem State.drainAll_eq (s : State) :
    s.drainAll = { s with mem := s.drainAll.mem, writebackBuf := s.drainAll.writebackBuf,
                          nonCacheBuf := s.drainAll.nonCacheBuf } := rfl

@[simp] theorem State.fillD_gpr (s : State) (a : Nat) (k : Bool) : (s.fillD a k).gpr = s.gpr := by rw [State.fillD_eq]
@[simp] theorem State.fillD_hi (s : State) (a : Nat) (k : Bool) : (s.fillD a k).hi = s.hi := by rw [State.fillD_eq]
@[simp] theorem State.fillD_lo (s : State) (a : Nat) (k : Bool) : (s.fillD a k).lo = s.lo := by rw [State.fillD_eq]
@[simp] theorem State.fillD_pc (s : State) (a : Nat) (k : Bool) : (s.fillD a k).pc = s.pc := by rw [State.fillD_eq]
@[simp] theorem State.fillD_npc (s : State) (a : Nat) (k : Bool) : (s.fillD a k).npc = s.npc := by rw [State.fillD_eq]
@[simp] theorem State.fillD_inDs (s : State) (a : Nat) (k : Bool) : (s.fillD a k).inDs = s.inDs := by rw [State.fillD_eq]
@[simp] theorem State.fillD_cp0Regs (s : State) (a : Nat) (k : Bool) : (s.fillD a k).cp0Regs = s.cp0Regs := by rw [State.fillD_eq]
@[simp] theorem State.fillD_fpr (s : State) (a : Nat) (k : Bool) : (s.fillD a k).fpr = s.fpr := by rw [State.fillD_eq]
@[simp] theorem State.fillD_fcr0 (s : State) (a : Nat) (k : Bool) : (s.fillD a k).fcr0 = s.fcr0 := by rw [State.fillD_eq]
@[simp] theorem State.fillD_fcr31 (s : State) (a : Nat) (k : Bool) : (s.fillD a k).fcr31 = s.fcr31 := by rw [State.fillD_eq]
@[simp] theorem State.fillD_llbit (s : State) (a : Nat) (k : Bool) : (s.fillD a k).llbit = s.llbit := by rw [State.fillD_eq]
@[simp] theorem State.fillD_icache (s : State) (a : Nat) (k : Bool) : (s.fillD a k).icache = s.icache := by rw [State.fillD_eq]
@[simp] theorem State.fillD_nonCacheBuf (s : State) (a : Nat) (k : Bool) : (s.fillD a k).nonCacheBuf = s.nonCacheBuf := by rw [State.fillD_eq]
@[simp] theorem State.fillD_mem (s : State) (a : Nat) (k : Bool) : (s.fillD a k).mem = s.mem := by rw [State.fillD_eq]
@[simp] theorem State.fillD_owner (s : State) (a : Nat) (k : Bool) : (s.fillD a k).owner = s.owner := by rw [State.fillD_eq]
@[simp] theorem State.fillD_h1 (s : State) (a : Nat) (k : Bool) : (s.fillD a k).h1 = s.h1 := by rw [State.fillD_eq]
@[simp] theorem State.fillD_h2 (s : State) (a : Nat) (k : Bool) : (s.fillD a k).h2 = s.h2 := by rw [State.fillD_eq]
@[simp] theorem State.fillD_h1FpTrap (s : State) (a : Nat) (k : Bool) : (s.fillD a k).h1FpTrap = s.h1FpTrap := by rw [State.fillD_eq]
@[simp] theorem State.fillD_free (s : State) (a : Nat) (k : Bool) : (s.fillD a k).free = s.free := by rw [State.fillD_eq]
@[simp] theorem State.fillD_x (s : State) (a : Nat) (k : Bool) (q : Reg) : (s.fillD a k).x q = s.x q := by rw [State.fillD_eq]; rfl
@[simp] theorem State.fillD_f (s : State) (a : Nat) (k : Bool) (q : Reg) : (s.fillD a k).f q = s.f q := by rw [State.fillD_eq]; rfl
@[simp] theorem State.fillD_cp0 (s : State) (a : Nat) (k : Bool) (q : Reg) : (s.fillD a k).cp0 q = s.cp0 q := by rw [State.fillD_eq]; rfl
@[simp] theorem State.fillD_hiLo (s : State) (a : Nat) (k : Bool) : (s.fillD a k).hiLo = s.hiLo := by rw [State.fillD_eq]; rfl
@[simp] theorem State.fillD_mode (s : State) (a : Nat) (k : Bool) : (s.fillD a k).mode = s.mode := by rw [State.fillD_eq]; rfl
@[simp] theorem State.fillD_coc1 (s : State) (a : Nat) (k : Bool) : (s.fillD a k).coc1 = s.coc1 := by rw [State.fillD_eq]; rfl
@[simp] theorem State.fillD_cop0Usable (s : State) (a : Nat) (k : Bool) : (s.fillD a k).cop0Usable = s.cop0Usable := by rw [State.fillD_eq]; rfl
@[simp] theorem State.fillD_cop1Usable (s : State) (a : Nat) (k : Bool) : (s.fillD a k).cop1Usable = s.cop1Usable := by rw [State.fillD_eq]; rfl
@[simp] theorem State.fillD_fetchByte (s : State) (a : Nat) (k : Bool) (q : Nat) : (s.fillD a k).fetchByte q = s.fetchByte q := by rw [State.fillD_eq]; rfl

@[simp] theorem State.touchD_gpr (s : State) (a : Nat) : (s.touchD a).gpr = s.gpr := by rw [State.touchD_eq]
@[simp] theorem State.touchD_hi (s : State) (a : Nat) : (s.touchD a).hi = s.hi := by rw [State.touchD_eq]
@[simp] theorem State.touchD_lo (s : State) (a : Nat) : (s.touchD a).lo = s.lo := by rw [State.touchD_eq]
@[simp] theorem State.touchD_pc (s : State) (a : Nat) : (s.touchD a).pc = s.pc := by rw [State.touchD_eq]
@[simp] theorem State.touchD_npc (s : State) (a : Nat) : (s.touchD a).npc = s.npc := by rw [State.touchD_eq]
@[simp] theorem State.touchD_inDs (s : State) (a : Nat) : (s.touchD a).inDs = s.inDs := by rw [State.touchD_eq]
@[simp] theorem State.touchD_cp0Regs (s : State) (a : Nat) : (s.touchD a).cp0Regs = s.cp0Regs := by rw [State.touchD_eq]
@[simp] theorem State.touchD_fpr (s : State) (a : Nat) : (s.touchD a).fpr = s.fpr := by rw [State.touchD_eq]
@[simp] theorem State.touchD_fcr0 (s : State) (a : Nat) : (s.touchD a).fcr0 = s.fcr0 := by rw [State.touchD_eq]
@[simp] theorem State.touchD_fcr31 (s : State) (a : Nat) : (s.touchD a).fcr31 = s.fcr31 := by rw [State.touchD_eq]
@[simp] theorem State.touchD_llbit (s : State) (a : Nat) : (s.touchD a).llbit = s.llbit := by rw [State.touchD_eq]
@[simp] theorem State.touchD_icache (s : State) (a : Nat) : (s.touchD a).icache = s.icache := by rw [State.touchD_eq]
@[simp] theorem State.touchD_nonCacheBuf (s : State) (a : Nat) : (s.touchD a).nonCacheBuf = s.nonCacheBuf := by rw [State.touchD_eq]
@[simp] theorem State.touchD_mem (s : State) (a : Nat) : (s.touchD a).mem = s.mem := by rw [State.touchD_eq]
@[simp] theorem State.touchD_owner (s : State) (a : Nat) : (s.touchD a).owner = s.owner := by rw [State.touchD_eq]
@[simp] theorem State.touchD_h1 (s : State) (a : Nat) : (s.touchD a).h1 = s.h1 := by rw [State.touchD_eq]
@[simp] theorem State.touchD_h2 (s : State) (a : Nat) : (s.touchD a).h2 = s.h2 := by rw [State.touchD_eq]
@[simp] theorem State.touchD_h1FpTrap (s : State) (a : Nat) : (s.touchD a).h1FpTrap = s.h1FpTrap := by rw [State.touchD_eq]
@[simp] theorem State.touchD_free (s : State) (a : Nat) : (s.touchD a).free = s.free := by rw [State.touchD_eq]
@[simp] theorem State.touchD_x (s : State) (a : Nat) (q : Reg) : (s.touchD a).x q = s.x q := by rw [State.touchD_eq]; rfl
@[simp] theorem State.touchD_f (s : State) (a : Nat) (q : Reg) : (s.touchD a).f q = s.f q := by rw [State.touchD_eq]; rfl
@[simp] theorem State.touchD_cp0 (s : State) (a : Nat) (q : Reg) : (s.touchD a).cp0 q = s.cp0 q := by rw [State.touchD_eq]; rfl
@[simp] theorem State.touchD_hiLo (s : State) (a : Nat) : (s.touchD a).hiLo = s.hiLo := by rw [State.touchD_eq]; rfl
@[simp] theorem State.touchD_mode (s : State) (a : Nat) : (s.touchD a).mode = s.mode := by rw [State.touchD_eq]; rfl
@[simp] theorem State.touchD_coc1 (s : State) (a : Nat) : (s.touchD a).coc1 = s.coc1 := by rw [State.touchD_eq]; rfl
@[simp] theorem State.touchD_cop0Usable (s : State) (a : Nat) : (s.touchD a).cop0Usable = s.cop0Usable := by rw [State.touchD_eq]; rfl
@[simp] theorem State.touchD_cop1Usable (s : State) (a : Nat) : (s.touchD a).cop1Usable = s.cop1Usable := by rw [State.touchD_eq]; rfl
@[simp] theorem State.touchD_fetchByte (s : State) (a : Nat) (q : Nat) : (s.touchD a).fetchByte q = s.fetchByte q := by rw [State.touchD_eq]; rfl

@[simp] theorem State.pokeD_gpr (s : State) (a : Nat) (v : Byte) : (s.pokeD a v).gpr = s.gpr := by rw [State.pokeD_eq]
@[simp] theorem State.pokeD_hi (s : State) (a : Nat) (v : Byte) : (s.pokeD a v).hi = s.hi := by rw [State.pokeD_eq]
@[simp] theorem State.pokeD_lo (s : State) (a : Nat) (v : Byte) : (s.pokeD a v).lo = s.lo := by rw [State.pokeD_eq]
@[simp] theorem State.pokeD_pc (s : State) (a : Nat) (v : Byte) : (s.pokeD a v).pc = s.pc := by rw [State.pokeD_eq]
@[simp] theorem State.pokeD_npc (s : State) (a : Nat) (v : Byte) : (s.pokeD a v).npc = s.npc := by rw [State.pokeD_eq]
@[simp] theorem State.pokeD_inDs (s : State) (a : Nat) (v : Byte) : (s.pokeD a v).inDs = s.inDs := by rw [State.pokeD_eq]
@[simp] theorem State.pokeD_cp0Regs (s : State) (a : Nat) (v : Byte) : (s.pokeD a v).cp0Regs = s.cp0Regs := by rw [State.pokeD_eq]
@[simp] theorem State.pokeD_fpr (s : State) (a : Nat) (v : Byte) : (s.pokeD a v).fpr = s.fpr := by rw [State.pokeD_eq]
@[simp] theorem State.pokeD_fcr0 (s : State) (a : Nat) (v : Byte) : (s.pokeD a v).fcr0 = s.fcr0 := by rw [State.pokeD_eq]
@[simp] theorem State.pokeD_fcr31 (s : State) (a : Nat) (v : Byte) : (s.pokeD a v).fcr31 = s.fcr31 := by rw [State.pokeD_eq]
@[simp] theorem State.pokeD_llbit (s : State) (a : Nat) (v : Byte) : (s.pokeD a v).llbit = s.llbit := by rw [State.pokeD_eq]
@[simp] theorem State.pokeD_icache (s : State) (a : Nat) (v : Byte) : (s.pokeD a v).icache = s.icache := by rw [State.pokeD_eq]
@[simp] theorem State.pokeD_writebackBuf (s : State) (a : Nat) (v : Byte) : (s.pokeD a v).writebackBuf = s.writebackBuf := by rw [State.pokeD_eq]
@[simp] theorem State.pokeD_nonCacheBuf (s : State) (a : Nat) (v : Byte) : (s.pokeD a v).nonCacheBuf = s.nonCacheBuf := by rw [State.pokeD_eq]
@[simp] theorem State.pokeD_mem (s : State) (a : Nat) (v : Byte) : (s.pokeD a v).mem = s.mem := by rw [State.pokeD_eq]
@[simp] theorem State.pokeD_owner (s : State) (a : Nat) (v : Byte) : (s.pokeD a v).owner = s.owner := by rw [State.pokeD_eq]
@[simp] theorem State.pokeD_h1 (s : State) (a : Nat) (v : Byte) : (s.pokeD a v).h1 = s.h1 := by rw [State.pokeD_eq]
@[simp] theorem State.pokeD_h2 (s : State) (a : Nat) (v : Byte) : (s.pokeD a v).h2 = s.h2 := by rw [State.pokeD_eq]
@[simp] theorem State.pokeD_h1FpTrap (s : State) (a : Nat) (v : Byte) : (s.pokeD a v).h1FpTrap = s.h1FpTrap := by rw [State.pokeD_eq]
@[simp] theorem State.pokeD_free (s : State) (a : Nat) (v : Byte) : (s.pokeD a v).free = s.free := by rw [State.pokeD_eq]
@[simp] theorem State.pokeD_x (s : State) (a : Nat) (v : Byte) (q : Reg) : (s.pokeD a v).x q = s.x q := by rw [State.pokeD_eq]; rfl
@[simp] theorem State.pokeD_f (s : State) (a : Nat) (v : Byte) (q : Reg) : (s.pokeD a v).f q = s.f q := by rw [State.pokeD_eq]; rfl
@[simp] theorem State.pokeD_cp0 (s : State) (a : Nat) (v : Byte) (q : Reg) : (s.pokeD a v).cp0 q = s.cp0 q := by rw [State.pokeD_eq]; rfl
@[simp] theorem State.pokeD_hiLo (s : State) (a : Nat) (v : Byte) : (s.pokeD a v).hiLo = s.hiLo := by rw [State.pokeD_eq]; rfl
@[simp] theorem State.pokeD_mode (s : State) (a : Nat) (v : Byte) : (s.pokeD a v).mode = s.mode := by rw [State.pokeD_eq]; rfl
@[simp] theorem State.pokeD_coc1 (s : State) (a : Nat) (v : Byte) : (s.pokeD a v).coc1 = s.coc1 := by rw [State.pokeD_eq]; rfl
@[simp] theorem State.pokeD_cop0Usable (s : State) (a : Nat) (v : Byte) : (s.pokeD a v).cop0Usable = s.cop0Usable := by rw [State.pokeD_eq]; rfl
@[simp] theorem State.pokeD_cop1Usable (s : State) (a : Nat) (v : Byte) : (s.pokeD a v).cop1Usable = s.cop1Usable := by rw [State.pokeD_eq]; rfl
@[simp] theorem State.pokeD_fetchByte (s : State) (a : Nat) (v : Byte) (q : Nat) : (s.pokeD a v).fetchByte q = s.fetchByte q := by rw [State.pokeD_eq]; rfl

@[simp] theorem State.storeCached_gpr (s : State) (a : Nat) (v : Byte) : (s.storeCached a v).gpr = s.gpr := by rw [State.storeCached_eq]
@[simp] theorem State.storeCached_hi (s : State) (a : Nat) (v : Byte) : (s.storeCached a v).hi = s.hi := by rw [State.storeCached_eq]
@[simp] theorem State.storeCached_lo (s : State) (a : Nat) (v : Byte) : (s.storeCached a v).lo = s.lo := by rw [State.storeCached_eq]
@[simp] theorem State.storeCached_pc (s : State) (a : Nat) (v : Byte) : (s.storeCached a v).pc = s.pc := by rw [State.storeCached_eq]
@[simp] theorem State.storeCached_npc (s : State) (a : Nat) (v : Byte) : (s.storeCached a v).npc = s.npc := by rw [State.storeCached_eq]
@[simp] theorem State.storeCached_inDs (s : State) (a : Nat) (v : Byte) : (s.storeCached a v).inDs = s.inDs := by rw [State.storeCached_eq]
@[simp] theorem State.storeCached_cp0Regs (s : State) (a : Nat) (v : Byte) : (s.storeCached a v).cp0Regs = s.cp0Regs := by rw [State.storeCached_eq]
@[simp] theorem State.storeCached_fpr (s : State) (a : Nat) (v : Byte) : (s.storeCached a v).fpr = s.fpr := by rw [State.storeCached_eq]
@[simp] theorem State.storeCached_fcr0 (s : State) (a : Nat) (v : Byte) : (s.storeCached a v).fcr0 = s.fcr0 := by rw [State.storeCached_eq]
@[simp] theorem State.storeCached_fcr31 (s : State) (a : Nat) (v : Byte) : (s.storeCached a v).fcr31 = s.fcr31 := by rw [State.storeCached_eq]
@[simp] theorem State.storeCached_llbit (s : State) (a : Nat) (v : Byte) : (s.storeCached a v).llbit = s.llbit := by rw [State.storeCached_eq]
@[simp] theorem State.storeCached_icache (s : State) (a : Nat) (v : Byte) : (s.storeCached a v).icache = s.icache := by rw [State.storeCached_eq]
@[simp] theorem State.storeCached_nonCacheBuf (s : State) (a : Nat) (v : Byte) : (s.storeCached a v).nonCacheBuf = s.nonCacheBuf := by rw [State.storeCached_eq]
@[simp] theorem State.storeCached_mem (s : State) (a : Nat) (v : Byte) : (s.storeCached a v).mem = s.mem := by rw [State.storeCached_eq]
@[simp] theorem State.storeCached_owner (s : State) (a : Nat) (v : Byte) : (s.storeCached a v).owner = s.owner := by rw [State.storeCached_eq]
@[simp] theorem State.storeCached_h1 (s : State) (a : Nat) (v : Byte) : (s.storeCached a v).h1 = s.h1 := by rw [State.storeCached_eq]
@[simp] theorem State.storeCached_h2 (s : State) (a : Nat) (v : Byte) : (s.storeCached a v).h2 = s.h2 := by rw [State.storeCached_eq]
@[simp] theorem State.storeCached_h1FpTrap (s : State) (a : Nat) (v : Byte) : (s.storeCached a v).h1FpTrap = s.h1FpTrap := by rw [State.storeCached_eq]
@[simp] theorem State.storeCached_free (s : State) (a : Nat) (v : Byte) : (s.storeCached a v).free = s.free := by rw [State.storeCached_eq]
@[simp] theorem State.storeCached_x (s : State) (a : Nat) (v : Byte) (q : Reg) : (s.storeCached a v).x q = s.x q := by rw [State.storeCached_eq]; rfl
@[simp] theorem State.storeCached_f (s : State) (a : Nat) (v : Byte) (q : Reg) : (s.storeCached a v).f q = s.f q := by rw [State.storeCached_eq]; rfl
@[simp] theorem State.storeCached_cp0 (s : State) (a : Nat) (v : Byte) (q : Reg) : (s.storeCached a v).cp0 q = s.cp0 q := by rw [State.storeCached_eq]; rfl
@[simp] theorem State.storeCached_hiLo (s : State) (a : Nat) (v : Byte) : (s.storeCached a v).hiLo = s.hiLo := by rw [State.storeCached_eq]; rfl
@[simp] theorem State.storeCached_mode (s : State) (a : Nat) (v : Byte) : (s.storeCached a v).mode = s.mode := by rw [State.storeCached_eq]; rfl
@[simp] theorem State.storeCached_coc1 (s : State) (a : Nat) (v : Byte) : (s.storeCached a v).coc1 = s.coc1 := by rw [State.storeCached_eq]; rfl
@[simp] theorem State.storeCached_cop0Usable (s : State) (a : Nat) (v : Byte) : (s.storeCached a v).cop0Usable = s.cop0Usable := by rw [State.storeCached_eq]; rfl
@[simp] theorem State.storeCached_cop1Usable (s : State) (a : Nat) (v : Byte) : (s.storeCached a v).cop1Usable = s.cop1Usable := by rw [State.storeCached_eq]; rfl
@[simp] theorem State.storeCached_fetchByte (s : State) (a : Nat) (v : Byte) (q : Nat) : (s.storeCached a v).fetchByte q = s.fetchByte q := by rw [State.storeCached_eq]; rfl

@[simp] theorem State.storeBytes_gpr (s : State) (a : Nat) (l : List Byte) : (s.storeBytes a l).gpr = s.gpr := by rw [State.storeBytes_eq]
@[simp] theorem State.storeBytes_hi (s : State) (a : Nat) (l : List Byte) : (s.storeBytes a l).hi = s.hi := by rw [State.storeBytes_eq]
@[simp] theorem State.storeBytes_lo (s : State) (a : Nat) (l : List Byte) : (s.storeBytes a l).lo = s.lo := by rw [State.storeBytes_eq]
@[simp] theorem State.storeBytes_pc (s : State) (a : Nat) (l : List Byte) : (s.storeBytes a l).pc = s.pc := by rw [State.storeBytes_eq]
@[simp] theorem State.storeBytes_npc (s : State) (a : Nat) (l : List Byte) : (s.storeBytes a l).npc = s.npc := by rw [State.storeBytes_eq]
@[simp] theorem State.storeBytes_inDs (s : State) (a : Nat) (l : List Byte) : (s.storeBytes a l).inDs = s.inDs := by rw [State.storeBytes_eq]
@[simp] theorem State.storeBytes_cp0Regs (s : State) (a : Nat) (l : List Byte) : (s.storeBytes a l).cp0Regs = s.cp0Regs := by rw [State.storeBytes_eq]
@[simp] theorem State.storeBytes_fpr (s : State) (a : Nat) (l : List Byte) : (s.storeBytes a l).fpr = s.fpr := by rw [State.storeBytes_eq]
@[simp] theorem State.storeBytes_fcr0 (s : State) (a : Nat) (l : List Byte) : (s.storeBytes a l).fcr0 = s.fcr0 := by rw [State.storeBytes_eq]
@[simp] theorem State.storeBytes_fcr31 (s : State) (a : Nat) (l : List Byte) : (s.storeBytes a l).fcr31 = s.fcr31 := by rw [State.storeBytes_eq]
@[simp] theorem State.storeBytes_llbit (s : State) (a : Nat) (l : List Byte) : (s.storeBytes a l).llbit = s.llbit := by rw [State.storeBytes_eq]
@[simp] theorem State.storeBytes_icache (s : State) (a : Nat) (l : List Byte) : (s.storeBytes a l).icache = s.icache := by rw [State.storeBytes_eq]
@[simp] theorem State.storeBytes_mem (s : State) (a : Nat) (l : List Byte) : (s.storeBytes a l).mem = s.mem := by rw [State.storeBytes_eq]
@[simp] theorem State.storeBytes_owner (s : State) (a : Nat) (l : List Byte) : (s.storeBytes a l).owner = s.owner := by rw [State.storeBytes_eq]
@[simp] theorem State.storeBytes_h1 (s : State) (a : Nat) (l : List Byte) : (s.storeBytes a l).h1 = s.h1 := by rw [State.storeBytes_eq]
@[simp] theorem State.storeBytes_h2 (s : State) (a : Nat) (l : List Byte) : (s.storeBytes a l).h2 = s.h2 := by rw [State.storeBytes_eq]
@[simp] theorem State.storeBytes_h1FpTrap (s : State) (a : Nat) (l : List Byte) : (s.storeBytes a l).h1FpTrap = s.h1FpTrap := by rw [State.storeBytes_eq]
@[simp] theorem State.storeBytes_free (s : State) (a : Nat) (l : List Byte) : (s.storeBytes a l).free = s.free := by rw [State.storeBytes_eq]
@[simp] theorem State.storeBytes_x (s : State) (a : Nat) (l : List Byte) (q : Reg) : (s.storeBytes a l).x q = s.x q := by rw [State.storeBytes_eq]; rfl
@[simp] theorem State.storeBytes_f (s : State) (a : Nat) (l : List Byte) (q : Reg) : (s.storeBytes a l).f q = s.f q := by rw [State.storeBytes_eq]; rfl
@[simp] theorem State.storeBytes_cp0 (s : State) (a : Nat) (l : List Byte) (q : Reg) : (s.storeBytes a l).cp0 q = s.cp0 q := by rw [State.storeBytes_eq]; rfl
@[simp] theorem State.storeBytes_hiLo (s : State) (a : Nat) (l : List Byte) : (s.storeBytes a l).hiLo = s.hiLo := by rw [State.storeBytes_eq]; rfl
@[simp] theorem State.storeBytes_mode (s : State) (a : Nat) (l : List Byte) : (s.storeBytes a l).mode = s.mode := by rw [State.storeBytes_eq]; rfl
@[simp] theorem State.storeBytes_coc1 (s : State) (a : Nat) (l : List Byte) : (s.storeBytes a l).coc1 = s.coc1 := by rw [State.storeBytes_eq]; rfl
@[simp] theorem State.storeBytes_cop0Usable (s : State) (a : Nat) (l : List Byte) : (s.storeBytes a l).cop0Usable = s.cop0Usable := by rw [State.storeBytes_eq]; rfl
@[simp] theorem State.storeBytes_cop1Usable (s : State) (a : Nat) (l : List Byte) : (s.storeBytes a l).cop1Usable = s.cop1Usable := by rw [State.storeBytes_eq]; rfl
@[simp] theorem State.storeBytes_fetchByte (s : State) (a : Nat) (l : List Byte) (q : Nat) : (s.storeBytes a l).fetchByte q = s.fetchByte q := by rw [State.storeBytes_eq]; rfl

@[simp] theorem State.createD_gpr (s : State) (a : Nat) (k : Bool) : (s.createD a k).gpr = s.gpr := by rw [State.createD_eq]
@[simp] theorem State.createD_hi (s : State) (a : Nat) (k : Bool) : (s.createD a k).hi = s.hi := by rw [State.createD_eq]
@[simp] theorem State.createD_lo (s : State) (a : Nat) (k : Bool) : (s.createD a k).lo = s.lo := by rw [State.createD_eq]
@[simp] theorem State.createD_pc (s : State) (a : Nat) (k : Bool) : (s.createD a k).pc = s.pc := by rw [State.createD_eq]
@[simp] theorem State.createD_npc (s : State) (a : Nat) (k : Bool) : (s.createD a k).npc = s.npc := by rw [State.createD_eq]
@[simp] theorem State.createD_inDs (s : State) (a : Nat) (k : Bool) : (s.createD a k).inDs = s.inDs := by rw [State.createD_eq]
@[simp] theorem State.createD_cp0Regs (s : State) (a : Nat) (k : Bool) : (s.createD a k).cp0Regs = s.cp0Regs := by rw [State.createD_eq]
@[simp] theorem State.createD_fpr (s : State) (a : Nat) (k : Bool) : (s.createD a k).fpr = s.fpr := by rw [State.createD_eq]
@[simp] theorem State.createD_fcr0 (s : State) (a : Nat) (k : Bool) : (s.createD a k).fcr0 = s.fcr0 := by rw [State.createD_eq]
@[simp] theorem State.createD_fcr31 (s : State) (a : Nat) (k : Bool) : (s.createD a k).fcr31 = s.fcr31 := by rw [State.createD_eq]
@[simp] theorem State.createD_llbit (s : State) (a : Nat) (k : Bool) : (s.createD a k).llbit = s.llbit := by rw [State.createD_eq]
@[simp] theorem State.createD_icache (s : State) (a : Nat) (k : Bool) : (s.createD a k).icache = s.icache := by rw [State.createD_eq]
@[simp] theorem State.createD_nonCacheBuf (s : State) (a : Nat) (k : Bool) : (s.createD a k).nonCacheBuf = s.nonCacheBuf := by rw [State.createD_eq]
@[simp] theorem State.createD_mem (s : State) (a : Nat) (k : Bool) : (s.createD a k).mem = s.mem := by rw [State.createD_eq]
@[simp] theorem State.createD_owner (s : State) (a : Nat) (k : Bool) : (s.createD a k).owner = s.owner := by rw [State.createD_eq]
@[simp] theorem State.createD_h1 (s : State) (a : Nat) (k : Bool) : (s.createD a k).h1 = s.h1 := by rw [State.createD_eq]
@[simp] theorem State.createD_h2 (s : State) (a : Nat) (k : Bool) : (s.createD a k).h2 = s.h2 := by rw [State.createD_eq]
@[simp] theorem State.createD_h1FpTrap (s : State) (a : Nat) (k : Bool) : (s.createD a k).h1FpTrap = s.h1FpTrap := by rw [State.createD_eq]
@[simp] theorem State.createD_platform (s : State) (a : Nat) (k : Bool) : (s.createD a k).platform = s.platform := by rw [State.createD_eq]
@[simp] theorem State.createD_x (s : State) (a : Nat) (k : Bool) (q : Reg) : (s.createD a k).x q = s.x q := by rw [State.createD_eq]; rfl
@[simp] theorem State.createD_f (s : State) (a : Nat) (k : Bool) (q : Reg) : (s.createD a k).f q = s.f q := by rw [State.createD_eq]; rfl
@[simp] theorem State.createD_cp0 (s : State) (a : Nat) (k : Bool) (q : Reg) : (s.createD a k).cp0 q = s.cp0 q := by rw [State.createD_eq]; rfl
@[simp] theorem State.createD_hiLo (s : State) (a : Nat) (k : Bool) : (s.createD a k).hiLo = s.hiLo := by rw [State.createD_eq]; rfl
@[simp] theorem State.createD_mode (s : State) (a : Nat) (k : Bool) : (s.createD a k).mode = s.mode := by rw [State.createD_eq]; rfl
@[simp] theorem State.createD_coc1 (s : State) (a : Nat) (k : Bool) : (s.createD a k).coc1 = s.coc1 := by rw [State.createD_eq]; rfl
@[simp] theorem State.createD_cop0Usable (s : State) (a : Nat) (k : Bool) : (s.createD a k).cop0Usable = s.cop0Usable := by rw [State.createD_eq]; rfl
@[simp] theorem State.createD_cop1Usable (s : State) (a : Nat) (k : Bool) : (s.createD a k).cop1Usable = s.cop1Usable := by rw [State.createD_eq]; rfl
@[simp] theorem State.createD_fetchByte (s : State) (a : Nat) (k : Bool) (q : Nat) : (s.createD a k).fetchByte q = s.fetchByte q := by rw [State.createD_eq]; rfl

@[simp] theorem State.fillI_gpr (s : State) (a : Nat) (k : Bool) : (s.fillI a k).gpr = s.gpr := by rw [State.fillI_eq]
@[simp] theorem State.fillI_hi (s : State) (a : Nat) (k : Bool) : (s.fillI a k).hi = s.hi := by rw [State.fillI_eq]
@[simp] theorem State.fillI_lo (s : State) (a : Nat) (k : Bool) : (s.fillI a k).lo = s.lo := by rw [State.fillI_eq]
@[simp] theorem State.fillI_pc (s : State) (a : Nat) (k : Bool) : (s.fillI a k).pc = s.pc := by rw [State.fillI_eq]
@[simp] theorem State.fillI_npc (s : State) (a : Nat) (k : Bool) : (s.fillI a k).npc = s.npc := by rw [State.fillI_eq]
@[simp] theorem State.fillI_inDs (s : State) (a : Nat) (k : Bool) : (s.fillI a k).inDs = s.inDs := by rw [State.fillI_eq]
@[simp] theorem State.fillI_cp0Regs (s : State) (a : Nat) (k : Bool) : (s.fillI a k).cp0Regs = s.cp0Regs := by rw [State.fillI_eq]
@[simp] theorem State.fillI_fpr (s : State) (a : Nat) (k : Bool) : (s.fillI a k).fpr = s.fpr := by rw [State.fillI_eq]
@[simp] theorem State.fillI_fcr0 (s : State) (a : Nat) (k : Bool) : (s.fillI a k).fcr0 = s.fcr0 := by rw [State.fillI_eq]
@[simp] theorem State.fillI_fcr31 (s : State) (a : Nat) (k : Bool) : (s.fillI a k).fcr31 = s.fcr31 := by rw [State.fillI_eq]
@[simp] theorem State.fillI_llbit (s : State) (a : Nat) (k : Bool) : (s.fillI a k).llbit = s.llbit := by rw [State.fillI_eq]
@[simp] theorem State.fillI_dcache (s : State) (a : Nat) (k : Bool) : (s.fillI a k).dcache = s.dcache := by rw [State.fillI_eq]
@[simp] theorem State.fillI_writebackBuf (s : State) (a : Nat) (k : Bool) : (s.fillI a k).writebackBuf = s.writebackBuf := by rw [State.fillI_eq]
@[simp] theorem State.fillI_nonCacheBuf (s : State) (a : Nat) (k : Bool) : (s.fillI a k).nonCacheBuf = s.nonCacheBuf := by rw [State.fillI_eq]
@[simp] theorem State.fillI_mem (s : State) (a : Nat) (k : Bool) : (s.fillI a k).mem = s.mem := by rw [State.fillI_eq]
@[simp] theorem State.fillI_owner (s : State) (a : Nat) (k : Bool) : (s.fillI a k).owner = s.owner := by rw [State.fillI_eq]
@[simp] theorem State.fillI_h1 (s : State) (a : Nat) (k : Bool) : (s.fillI a k).h1 = s.h1 := by rw [State.fillI_eq]
@[simp] theorem State.fillI_h2 (s : State) (a : Nat) (k : Bool) : (s.fillI a k).h2 = s.h2 := by rw [State.fillI_eq]
@[simp] theorem State.fillI_h1FpTrap (s : State) (a : Nat) (k : Bool) : (s.fillI a k).h1FpTrap = s.h1FpTrap := by rw [State.fillI_eq]
@[simp] theorem State.fillI_platform (s : State) (a : Nat) (k : Bool) : (s.fillI a k).platform = s.platform := by rw [State.fillI_eq]
@[simp] theorem State.fillI_free (s : State) (a : Nat) (k : Bool) : (s.fillI a k).free = s.free := by rw [State.fillI_eq]
@[simp] theorem State.fillI_x (s : State) (a : Nat) (k : Bool) (q : Reg) : (s.fillI a k).x q = s.x q := by rw [State.fillI_eq]; rfl
@[simp] theorem State.fillI_f (s : State) (a : Nat) (k : Bool) (q : Reg) : (s.fillI a k).f q = s.f q := by rw [State.fillI_eq]; rfl
@[simp] theorem State.fillI_cp0 (s : State) (a : Nat) (k : Bool) (q : Reg) : (s.fillI a k).cp0 q = s.cp0 q := by rw [State.fillI_eq]; rfl
@[simp] theorem State.fillI_hiLo (s : State) (a : Nat) (k : Bool) : (s.fillI a k).hiLo = s.hiLo := by rw [State.fillI_eq]; rfl
@[simp] theorem State.fillI_mode (s : State) (a : Nat) (k : Bool) : (s.fillI a k).mode = s.mode := by rw [State.fillI_eq]; rfl
@[simp] theorem State.fillI_coc1 (s : State) (a : Nat) (k : Bool) : (s.fillI a k).coc1 = s.coc1 := by rw [State.fillI_eq]; rfl
@[simp] theorem State.fillI_cop0Usable (s : State) (a : Nat) (k : Bool) : (s.fillI a k).cop0Usable = s.cop0Usable := by rw [State.fillI_eq]; rfl
@[simp] theorem State.fillI_cop1Usable (s : State) (a : Nat) (k : Bool) : (s.fillI a k).cop1Usable = s.cop1Usable := by rw [State.fillI_eq]; rfl
@[simp] theorem State.fillI_dataByte (s : State) (a : Nat) (k : Bool) (q : Nat) : (s.fillI a k).dataByte q = s.dataByte q := by rw [State.fillI_eq]; rfl

@[simp] theorem State.touchI_gpr (s : State) (a : Nat) : (s.touchI a).gpr = s.gpr := by rw [State.touchI_eq]
@[simp] theorem State.touchI_hi (s : State) (a : Nat) : (s.touchI a).hi = s.hi := by rw [State.touchI_eq]
@[simp] theorem State.touchI_lo (s : State) (a : Nat) : (s.touchI a).lo = s.lo := by rw [State.touchI_eq]
@[simp] theorem State.touchI_pc (s : State) (a : Nat) : (s.touchI a).pc = s.pc := by rw [State.touchI_eq]
@[simp] theorem State.touchI_npc (s : State) (a : Nat) : (s.touchI a).npc = s.npc := by rw [State.touchI_eq]
@[simp] theorem State.touchI_inDs (s : State) (a : Nat) : (s.touchI a).inDs = s.inDs := by rw [State.touchI_eq]
@[simp] theorem State.touchI_cp0Regs (s : State) (a : Nat) : (s.touchI a).cp0Regs = s.cp0Regs := by rw [State.touchI_eq]
@[simp] theorem State.touchI_fpr (s : State) (a : Nat) : (s.touchI a).fpr = s.fpr := by rw [State.touchI_eq]
@[simp] theorem State.touchI_fcr0 (s : State) (a : Nat) : (s.touchI a).fcr0 = s.fcr0 := by rw [State.touchI_eq]
@[simp] theorem State.touchI_fcr31 (s : State) (a : Nat) : (s.touchI a).fcr31 = s.fcr31 := by rw [State.touchI_eq]
@[simp] theorem State.touchI_llbit (s : State) (a : Nat) : (s.touchI a).llbit = s.llbit := by rw [State.touchI_eq]
@[simp] theorem State.touchI_dcache (s : State) (a : Nat) : (s.touchI a).dcache = s.dcache := by rw [State.touchI_eq]
@[simp] theorem State.touchI_writebackBuf (s : State) (a : Nat) : (s.touchI a).writebackBuf = s.writebackBuf := by rw [State.touchI_eq]
@[simp] theorem State.touchI_nonCacheBuf (s : State) (a : Nat) : (s.touchI a).nonCacheBuf = s.nonCacheBuf := by rw [State.touchI_eq]
@[simp] theorem State.touchI_mem (s : State) (a : Nat) : (s.touchI a).mem = s.mem := by rw [State.touchI_eq]
@[simp] theorem State.touchI_owner (s : State) (a : Nat) : (s.touchI a).owner = s.owner := by rw [State.touchI_eq]
@[simp] theorem State.touchI_h1 (s : State) (a : Nat) : (s.touchI a).h1 = s.h1 := by rw [State.touchI_eq]
@[simp] theorem State.touchI_h2 (s : State) (a : Nat) : (s.touchI a).h2 = s.h2 := by rw [State.touchI_eq]
@[simp] theorem State.touchI_h1FpTrap (s : State) (a : Nat) : (s.touchI a).h1FpTrap = s.h1FpTrap := by rw [State.touchI_eq]
@[simp] theorem State.touchI_platform (s : State) (a : Nat) : (s.touchI a).platform = s.platform := by rw [State.touchI_eq]
@[simp] theorem State.touchI_free (s : State) (a : Nat) : (s.touchI a).free = s.free := by rw [State.touchI_eq]
@[simp] theorem State.touchI_x (s : State) (a : Nat) (q : Reg) : (s.touchI a).x q = s.x q := by rw [State.touchI_eq]; rfl
@[simp] theorem State.touchI_f (s : State) (a : Nat) (q : Reg) : (s.touchI a).f q = s.f q := by rw [State.touchI_eq]; rfl
@[simp] theorem State.touchI_cp0 (s : State) (a : Nat) (q : Reg) : (s.touchI a).cp0 q = s.cp0 q := by rw [State.touchI_eq]; rfl
@[simp] theorem State.touchI_hiLo (s : State) (a : Nat) : (s.touchI a).hiLo = s.hiLo := by rw [State.touchI_eq]; rfl
@[simp] theorem State.touchI_mode (s : State) (a : Nat) : (s.touchI a).mode = s.mode := by rw [State.touchI_eq]; rfl
@[simp] theorem State.touchI_coc1 (s : State) (a : Nat) : (s.touchI a).coc1 = s.coc1 := by rw [State.touchI_eq]; rfl
@[simp] theorem State.touchI_cop0Usable (s : State) (a : Nat) : (s.touchI a).cop0Usable = s.cop0Usable := by rw [State.touchI_eq]; rfl
@[simp] theorem State.touchI_cop1Usable (s : State) (a : Nat) : (s.touchI a).cop1Usable = s.cop1Usable := by rw [State.touchI_eq]; rfl
@[simp] theorem State.touchI_dataByte (s : State) (a : Nat) (q : Nat) : (s.touchI a).dataByte q = s.dataByte q := by rw [State.touchI_eq]; rfl

@[simp] theorem State.drainSome_gpr (s : State) : s.drainSome.gpr = s.gpr := by rw [State.drainSome_eq]
@[simp] theorem State.drainSome_hi (s : State) : s.drainSome.hi = s.hi := by rw [State.drainSome_eq]
@[simp] theorem State.drainSome_lo (s : State) : s.drainSome.lo = s.lo := by rw [State.drainSome_eq]
@[simp] theorem State.drainSome_pc (s : State) : s.drainSome.pc = s.pc := by rw [State.drainSome_eq]
@[simp] theorem State.drainSome_npc (s : State) : s.drainSome.npc = s.npc := by rw [State.drainSome_eq]
@[simp] theorem State.drainSome_inDs (s : State) : s.drainSome.inDs = s.inDs := by rw [State.drainSome_eq]
@[simp] theorem State.drainSome_cp0Regs (s : State) : s.drainSome.cp0Regs = s.cp0Regs := by rw [State.drainSome_eq]
@[simp] theorem State.drainSome_fpr (s : State) : s.drainSome.fpr = s.fpr := by rw [State.drainSome_eq]
@[simp] theorem State.drainSome_fcr0 (s : State) : s.drainSome.fcr0 = s.fcr0 := by rw [State.drainSome_eq]
@[simp] theorem State.drainSome_fcr31 (s : State) : s.drainSome.fcr31 = s.fcr31 := by rw [State.drainSome_eq]
@[simp] theorem State.drainSome_llbit (s : State) : s.drainSome.llbit = s.llbit := by rw [State.drainSome_eq]
@[simp] theorem State.drainSome_icache (s : State) : s.drainSome.icache = s.icache := by rw [State.drainSome_eq]
@[simp] theorem State.drainSome_dcache (s : State) : s.drainSome.dcache = s.dcache := by rw [State.drainSome_eq]
@[simp] theorem State.drainSome_owner (s : State) : s.drainSome.owner = s.owner := by rw [State.drainSome_eq]
@[simp] theorem State.drainSome_h1 (s : State) : s.drainSome.h1 = s.h1 := by rw [State.drainSome_eq]
@[simp] theorem State.drainSome_h2 (s : State) : s.drainSome.h2 = s.h2 := by rw [State.drainSome_eq]
@[simp] theorem State.drainSome_h1FpTrap (s : State) : s.drainSome.h1FpTrap = s.h1FpTrap := by rw [State.drainSome_eq]
@[simp] theorem State.drainSome_platform (s : State) : s.drainSome.platform = s.platform := by rw [State.drainSome_eq]
@[simp] theorem State.drainSome_x (s : State)  (q : Reg) : s.drainSome.x q = s.x q := by rw [State.drainSome_eq]; rfl
@[simp] theorem State.drainSome_f (s : State)  (q : Reg) : s.drainSome.f q = s.f q := by rw [State.drainSome_eq]; rfl
@[simp] theorem State.drainSome_cp0 (s : State)  (q : Reg) : s.drainSome.cp0 q = s.cp0 q := by rw [State.drainSome_eq]; rfl
@[simp] theorem State.drainSome_hiLo (s : State) : s.drainSome.hiLo = s.hiLo := by rw [State.drainSome_eq]; rfl
@[simp] theorem State.drainSome_mode (s : State) : s.drainSome.mode = s.mode := by rw [State.drainSome_eq]; rfl
@[simp] theorem State.drainSome_coc1 (s : State) : s.drainSome.coc1 = s.coc1 := by rw [State.drainSome_eq]; rfl
@[simp] theorem State.drainSome_cop0Usable (s : State) : s.drainSome.cop0Usable = s.cop0Usable := by rw [State.drainSome_eq]; rfl
@[simp] theorem State.drainSome_cop1Usable (s : State) : s.drainSome.cop1Usable = s.cop1Usable := by rw [State.drainSome_eq]; rfl

@[simp] theorem State.drainAll_gpr (s : State) : s.drainAll.gpr = s.gpr := by rw [State.drainAll_eq]
@[simp] theorem State.drainAll_hi (s : State) : s.drainAll.hi = s.hi := by rw [State.drainAll_eq]
@[simp] theorem State.drainAll_lo (s : State) : s.drainAll.lo = s.lo := by rw [State.drainAll_eq]
@[simp] theorem State.drainAll_pc (s : State) : s.drainAll.pc = s.pc := by rw [State.drainAll_eq]
@[simp] theorem State.drainAll_npc (s : State) : s.drainAll.npc = s.npc := by rw [State.drainAll_eq]
@[simp] theorem State.drainAll_inDs (s : State) : s.drainAll.inDs = s.inDs := by rw [State.drainAll_eq]
@[simp] theorem State.drainAll_cp0Regs (s : State) : s.drainAll.cp0Regs = s.cp0Regs := by rw [State.drainAll_eq]
@[simp] theorem State.drainAll_fpr (s : State) : s.drainAll.fpr = s.fpr := by rw [State.drainAll_eq]
@[simp] theorem State.drainAll_fcr0 (s : State) : s.drainAll.fcr0 = s.fcr0 := by rw [State.drainAll_eq]
@[simp] theorem State.drainAll_fcr31 (s : State) : s.drainAll.fcr31 = s.fcr31 := by rw [State.drainAll_eq]
@[simp] theorem State.drainAll_llbit (s : State) : s.drainAll.llbit = s.llbit := by rw [State.drainAll_eq]
@[simp] theorem State.drainAll_icache (s : State) : s.drainAll.icache = s.icache := by rw [State.drainAll_eq]
@[simp] theorem State.drainAll_dcache (s : State) : s.drainAll.dcache = s.dcache := by rw [State.drainAll_eq]
@[simp] theorem State.drainAll_owner (s : State) : s.drainAll.owner = s.owner := by rw [State.drainAll_eq]
@[simp] theorem State.drainAll_h1 (s : State) : s.drainAll.h1 = s.h1 := by rw [State.drainAll_eq]
@[simp] theorem State.drainAll_h2 (s : State) : s.drainAll.h2 = s.h2 := by rw [State.drainAll_eq]
@[simp] theorem State.drainAll_h1FpTrap (s : State) : s.drainAll.h1FpTrap = s.h1FpTrap := by rw [State.drainAll_eq]
@[simp] theorem State.drainAll_platform (s : State) : s.drainAll.platform = s.platform := by rw [State.drainAll_eq]
@[simp] theorem State.drainAll_free (s : State) : s.drainAll.free = s.free := by rw [State.drainAll_eq]
@[simp] theorem State.drainAll_x (s : State)  (q : Reg) : s.drainAll.x q = s.x q := by rw [State.drainAll_eq]; rfl
@[simp] theorem State.drainAll_f (s : State)  (q : Reg) : s.drainAll.f q = s.f q := by rw [State.drainAll_eq]; rfl
@[simp] theorem State.drainAll_cp0 (s : State)  (q : Reg) : s.drainAll.cp0 q = s.cp0 q := by rw [State.drainAll_eq]; rfl
@[simp] theorem State.drainAll_hiLo (s : State) : s.drainAll.hiLo = s.hiLo := by rw [State.drainAll_eq]; rfl
@[simp] theorem State.drainAll_mode (s : State) : s.drainAll.mode = s.mode := by rw [State.drainAll_eq]; rfl
@[simp] theorem State.drainAll_coc1 (s : State) : s.drainAll.coc1 = s.coc1 := by rw [State.drainAll_eq]; rfl
@[simp] theorem State.drainAll_cop0Usable (s : State) : s.drainAll.cop0Usable = s.cop0Usable := by rw [State.drainAll_eq]; rfl
@[simp] theorem State.drainAll_cop1Usable (s : State) : s.drainAll.cop1Usable = s.cop1Usable := by rw [State.drainAll_eq]; rfl

/-! ### Leaving the write buffers (R64, R65) -/

theorem mem_flatten_drop {c : Host.Cell} {n : Nat} {q : List BufferedWrite} (h : c ∈ (q.drop n).flatten) : c ∈ q.flatten := by
  obtain ⟨w, hw, hc⟩ := List.mem_flatten.mp h
  exact List.mem_flatten.mpr ⟨w, List.mem_of_mem_drop hw, hc⟩

/-- Bytes that leave a write buffer for memory change nothing the processor sees. -/
theorem State.busByte_drain {s : State} (h : s.Coherent) (hm : Memory.wf s.mem = true) (n m b : Nat) :
    (s.drain n m).busByte b = s.busByte b := by
  unfold State.busByte
  simp only [State.drain_writebackBuf, State.drain_nonCacheBuf]
  have e1 : pending s.writebackBuf.flatten b = (pending (s.writebackBuf.drop n).flatten b).or (pending (s.writebackBuf.take n).flatten b) := by
    rw [← pending_append, ← List.flatten_append, List.take_append_drop]
  have e2 : pending s.nonCacheBuf.flatten b = (pending (s.nonCacheBuf.drop m).flatten b).or (pending (s.nonCacheBuf.take m).flatten b) := by
    rw [← pending_append, ← List.flatten_append, List.take_append_drop]
  have e3 : Memory.read (s.drain n m).mem b = (pending (s.nonCacheBuf.take m).flatten b).getD
      ((pending (s.writebackBuf.take n).flatten b).getD (Memory.read s.mem b)) := by
    show Memory.read (Memory.writeCells (Memory.writeCells s.mem _) _) b = _
    rw [Memory.read_writeCells (Memory.wf_writeCells hm), Memory.read_writeCells hm]
  by_cases hc : s.platform.cacheable b = true
  · have hn := h.pending_others hc
    rw [hn] at e2
    have hn1 : pending (s.nonCacheBuf.drop m).flatten b = none := by
      cases hx : pending (s.nonCacheBuf.drop m).flatten b with
      | none => rfl
      | some _ => rw [hx] at e2; cases e2
    have hn2 : pending (s.nonCacheBuf.take m).flatten b = none := by
      rw [hn1] at e2; exact e2.symm
    rw [e3, hn, hn1, hn2, e1]
    cases pending (s.writebackBuf.drop n).flatten b <;> cases pending (s.writebackBuf.take n).flatten b <;> rfl
  · have hn := h.pending_writebacks hc
    rw [hn] at e1
    have hn1 : pending (s.writebackBuf.drop n).flatten b = none := by
      cases hx : pending (s.writebackBuf.drop n).flatten b with
      | none => rfl
      | some _ => rw [hx] at e1; cases e1
    have hn2 : pending (s.writebackBuf.take n).flatten b = none := by
      rw [hn1] at e1; exact e1.symm
    rw [e3, hn, hn1, hn2, e2]
    cases pending (s.nonCacheBuf.drop m).flatten b <;> cases pending (s.nonCacheBuf.take m).flatten b <;> rfl

theorem State.wf_drain {s : State} (hm : Memory.wf s.mem = true) (n m : Nat) : Memory.wf (s.drain n m).mem = true :=
  Memory.wf_writeCells (Memory.wf_writeCells hm)

/-- Draining keeps the data cache in agreement and changes no byte a load sees. -/
theorem State.drain_spec {s : State} (h : s.Coherent) (hm : Memory.wf s.mem = true) (n m : Nat) :
    (s.drain n m).Coherent ∧ SameData s (s.drain n m) := by
  have hb := State.busByte_drain h hm n m
  refine ⟨⟨fun i hi => (h.sets i hi).congr (fun _ _ _ _ o _ => hb _), fun c hc => h.writebacks c (mem_flatten_drop hc),
    fun c hc => h.others c (mem_flatten_drop hc)⟩, fun b => ?_⟩
  rw [State.dataByte_eq, State.dataByte_eq, hb]
  rfl

theorem State.drainSome_spec {s : State} (h : s.Coherent) (hm : Memory.wf s.mem = true) :
    s.drainSome.Coherent ∧ SameData s s.drainSome ∧ Memory.wf s.drainSome.mem = true := by
  unfold State.drainSome
  split
  · exact ⟨h, fun _ => rfl, hm⟩
  · have := State.drain_spec h hm (Config.drainCount s.free) (Config.drainCount (s.free + 1))
    exact ⟨this.1.withFree _, this.2, State.wf_drain hm _ _⟩

/-- With both buffers empty nothing leaves them, and nothing else happens. -/
theorem State.drainSome_empty {s : State} (h1 : s.writebackBuf = []) (h2 : s.nonCacheBuf = []) : s.drainSome = s := by
  unfold State.drainSome; rw [h1, h2]

/-- After `sync`'s operation both buffers are empty and memory holds what the processor sees beneath its data cache. -/
theorem State.drainAll_spec {s : State} (h : s.Coherent) (hm : Memory.wf s.mem = true) :
    s.drainAll.Coherent ∧ SameData s s.drainAll ∧ s.drainAll.writebackBuf = [] ∧ s.drainAll.nonCacheBuf = [] ∧
    (∀ b, Memory.read s.drainAll.mem b = s.busByte b) ∧ Memory.wf s.drainAll.mem = true := by
  have h1 := State.drain_spec h hm s.writebackBuf.length s.nonCacheBuf.length
  have e1 : s.drainAll.writebackBuf = [] := by simp [State.drainAll]
  have e2 : s.drainAll.nonCacheBuf = [] := by simp [State.drainAll]
  refine ⟨h1.1, h1.2, e1, e2, fun b => ?_, State.wf_drain hm _ _⟩
  rw [← State.busByte_drain h hm s.writebackBuf.length s.nonCacheBuf.length b]
  show Memory.read s.drainAll.mem b = s.drainAll.busByte b
  unfold State.busByte
  rw [e1, e2]; rfl

/-! ### What a byte at an address reads as, fetched -/

theorem State.fetchByte_eq (s : State) (b : Nat) :
    s.fetchByte b = if s.platform.cacheable b = true then
      (((s.iset b).find (s.platform.tagOf .instruction b)).map fun w =>
        ((s.iset b).line w).data.getD (s.platform.offsetOf b) 0#8).getD (Memory.read s.mem b)
      else Memory.read s.mem b := by
  unfold State.fetchByte State.iHit
  cases (s.iset b).find (s.platform.tagOf .instruction b) <;> rfl

end Sys2Proof.Machine
end

