-- ==== Sys2Proof/Laws/Decode.lean ====
section
/-! SUPPORT. The fields of each word format, and each format from its fields: what the encoder puts in a field the decoder reads
there, and a word is the format of its own fields. -/

namespace Sys2Proof

theorem append_toNat {n m : Nat} (x : BitVec n) (y : BitVec m) : (x ++ y).toNat = x.toNat * 2 ^ m + y.toNat := by
  rw [BitVec.toNat_append, ← Nat.shiftLeft_add_eq_or_of_lt y.isLt, Nat.shiftLeft_eq]

theorem toNat_encR (op : BitVec 6) (rs rt rd sa : BitVec 5) (func : BitVec 6) :
    (encR op rs rt rd sa func).toNat =
      op.toNat * 67108864 + rs.toNat * 2097152 + rt.toNat * 65536 + rd.toNat * 2048 + sa.toNat * 64 + func.toNat := by
  have h1 := append_toNat op (rs ++ (rt ++ (rd ++ (sa ++ func))))
  have h2 := append_toNat rs (rt ++ (rd ++ (sa ++ func)))
  have h3 := append_toNat rt (rd ++ (sa ++ func))
  have h4 := append_toNat rd (sa ++ func)
  have h5 := append_toNat sa func
  have h : (encR op rs rt rd sa func).toNat = (op ++ (rs ++ (rt ++ (rd ++ (sa ++ func))))).toNat := rfl
  omega

theorem toNat_encI (op : BitVec 6) (rs rt : BitVec 5) (imm : BitVec 16) :
    (encI op rs rt imm).toNat = op.toNat * 67108864 + rs.toNat * 2097152 + rt.toNat * 65536 + imm.toNat := by
  have h1 := append_toNat op (rs ++ (rt ++ imm))
  have h2 := append_toNat rs (rt ++ imm)
  have h3 := append_toNat rt imm
  have h : (encI op rs rt imm).toNat = (op ++ (rs ++ (rt ++ imm))).toNat := rfl
  omega

theorem toNat_encJ (op : BitVec 6) (target : BitVec 26) : (encJ op target).toNat = op.toNat * 67108864 + target.toNat := by
  have h1 := append_toNat op target
  have h : (encJ op target).toNat = (op ++ target).toNat := rfl
  omega

theorem toNat_encCode (code : BitVec 20) (func : BitVec 6) : (encCode code func).toNat = code.toNat * 64 + func.toNat := by
  have h1 := append_toNat 0#6 (code ++ func)
  have h2 := append_toNat code func
  have h : (encCode code func).toNat = (0#6 ++ (code ++ func)).toNat := rfl
  have h0 : (0#6).toNat = 0 := rfl
  omega

theorem field_toNat (w : Word) (lo n : Nat) : (w.extractLsb' lo n).toNat = w.toNat / 2 ^ lo % 2 ^ n := by
  rw [BitVec.extractLsb'_toNat, Nat.shiftRight_eq_div_pow]

@[simp] theorem opF_encR (op : BitVec 6) (rs rt rd sa : BitVec 5) (func : BitVec 6) : opF (encR op rs rt rd sa func) = op := by
  apply BitVec.eq_of_toNat_eq
  have l_op := op.isLt
  have l_rs := rs.isLt
  have l_rt := rt.isLt
  have l_rd := rd.isLt
  have l_sa := sa.isLt
  have l_func := func.isLt
  rw [opF, field_toNat, toNat_encR]
  omega

@[simp] theorem rsF_encR (op : BitVec 6) (rs rt rd sa : BitVec 5) (func : BitVec 6) : rsF (encR op rs rt rd sa func) = rs := by
  apply BitVec.eq_of_toNat_eq
  have l_op := op.isLt
  have l_rs := rs.isLt
  have l_rt := rt.isLt
  have l_rd := rd.isLt
  have l_sa := sa.isLt
  have l_func := func.isLt
  rw [rsF, field_toNat, toNat_encR]
  omega

@[simp] theorem rtF_encR (op : BitVec 6) (rs rt rd sa : BitVec 5) (func : BitVec 6) : rtF (encR op rs rt rd sa func) = rt := by
  apply BitVec.eq_of_toNat_eq
  have l_op := op.isLt
  have l_rs := rs.isLt
  have l_rt := rt.isLt
  have l_rd := rd.isLt
  have l_sa := sa.isLt
  have l_func := func.isLt
  rw [rtF, field_toNat, toNat_encR]
  omega

@[simp] theorem rdF_encR (op : BitVec 6) (rs rt rd sa : BitVec 5) (func : BitVec 6) : rdF (encR op rs rt rd sa func) = rd := by
  apply BitVec.eq_of_toNat_eq
  have l_op := op.isLt
  have l_rs := rs.isLt
  have l_rt := rt.isLt
  have l_rd := rd.isLt
  have l_sa := sa.isLt
  have l_func := func.isLt
  rw [rdF, field_toNat, toNat_encR]
  omega

@[simp] theorem saF_encR (op : BitVec 6) (rs rt rd sa : BitVec 5) (func : BitVec 6) : saF (encR op rs rt rd sa func) = sa := by
  apply BitVec.eq_of_toNat_eq
  have l_op := op.isLt
  have l_rs := rs.isLt
  have l_rt := rt.isLt
  have l_rd := rd.isLt
  have l_sa := sa.isLt
  have l_func := func.isLt
  rw [saF, field_toNat, toNat_encR]
  omega

@[simp] theorem funcF_encR (op : BitVec 6) (rs rt rd sa : BitVec 5) (func : BitVec 6) : funcF (encR op rs rt rd sa func) = func := by
  apply BitVec.eq_of_toNat_eq
  have l_op := op.isLt
  have l_rs := rs.isLt
  have l_rt := rt.isLt
  have l_rd := rd.isLt
  have l_sa := sa.isLt
  have l_func := func.isLt
  rw [funcF, field_toNat, toNat_encR]
  omega

@[simp] theorem opF_encI (op : BitVec 6) (rs rt : BitVec 5) (imm : BitVec 16) : opF (encI op rs rt imm) = op := by
  apply BitVec.eq_of_toNat_eq
  have l_op := op.isLt
  have l_rs := rs.isLt
  have l_rt := rt.isLt
  have l_imm := imm.isLt
  rw [opF, field_toNat, toNat_encI]
  omega

@[simp] theorem rsF_encI (op : BitVec 6) (rs rt : BitVec 5) (imm : BitVec 16) : rsF (encI op rs rt imm) = rs := by
  apply BitVec.eq_of_toNat_eq
  have l_op := op.isLt
  have l_rs := rs.isLt
  have l_rt := rt.isLt
  have l_imm := imm.isLt
  rw [rsF, field_toNat, toNat_encI]
  omega

@[simp] theorem rtF_encI (op : BitVec 6) (rs rt : BitVec 5) (imm : BitVec 16) : rtF (encI op rs rt imm) = rt := by
  apply BitVec.eq_of_toNat_eq
  have l_op := op.isLt
  have l_rs := rs.isLt
  have l_rt := rt.isLt
  have l_imm := imm.isLt
  rw [rtF, field_toNat, toNat_encI]
  omega

@[simp] theorem immF_encI (op : BitVec 6) (rs rt : BitVec 5) (imm : BitVec 16) : immF (encI op rs rt imm) = imm := by
  apply BitVec.eq_of_toNat_eq
  have l_op := op.isLt
  have l_rs := rs.isLt
  have l_rt := rt.isLt
  have l_imm := imm.isLt
  rw [immF, field_toNat, toNat_encI]
  omega

@[simp] theorem opF_encJ (op : BitVec 6) (target : BitVec 26) : opF (encJ op target) = op := by
  apply BitVec.eq_of_toNat_eq
  have l_op := op.isLt
  have l_target := target.isLt
  rw [opF, field_toNat, toNat_encJ]
  omega

@[simp] theorem targetF_encJ (op : BitVec 6) (target : BitVec 26) : targetF (encJ op target) = target := by
  apply BitVec.eq_of_toNat_eq
  have l_op := op.isLt
  have l_target := target.isLt
  rw [targetF, field_toNat, toNat_encJ]
  omega

@[simp] theorem opF_encCode (code : BitVec 20) (func : BitVec 6) : opF (encCode code func) = 0#6 := by
  apply BitVec.eq_of_toNat_eq
  have l_code := code.isLt
  have l_func := func.isLt
  rw [opF, field_toNat, toNat_encCode]
  show _ = 0; omega

@[simp] theorem codeF_encCode (code : BitVec 20) (func : BitVec 6) : codeF (encCode code func) = code := by
  apply BitVec.eq_of_toNat_eq
  have l_code := code.isLt
  have l_func := func.isLt
  rw [codeF, field_toNat, toNat_encCode]
  omega

@[simp] theorem funcF_encCode (code : BitVec 20) (func : BitVec 6) : funcF (encCode code func) = func := by
  apply BitVec.eq_of_toNat_eq
  have l_code := code.isLt
  have l_func := func.isLt
  rw [funcF, field_toNat, toNat_encCode]
  omega

/-- A word is the format of its own fields. -/
theorem encR_fields (w : Word) : encR (opF w) (rsF w) (rtF w) (rdF w) (saF w) (funcF w) = w := by
  apply BitVec.eq_of_toNat_eq
  have h_op := field_toNat w 26 6
  have h_rs := field_toNat w 21 5
  have h_rt := field_toNat w 16 5
  have h_rd := field_toNat w 11 5
  have h_sa := field_toNat w 6 5
  have h_func := field_toNat w 0 6
  have hw := w.isLt
  rw [toNat_encR]
  unfold opF rsF rtF rdF saF funcF
  omega

/-- A word is the format of its own fields. -/
theorem encI_fields (w : Word) : encI (opF w) (rsF w) (rtF w) (immF w) = w := by
  apply BitVec.eq_of_toNat_eq
  have h_op := field_toNat w 26 6
  have h_rs := field_toNat w 21 5
  have h_rt := field_toNat w 16 5
  have h_imm := field_toNat w 0 16
  have hw := w.isLt
  rw [toNat_encI]
  unfold opF rsF rtF immF
  omega

/-- A word is the format of its own fields. -/
theorem encJ_fields (w : Word) : encJ (opF w) (targetF w) = w := by
  apply BitVec.eq_of_toNat_eq
  have h_op := field_toNat w 26 6
  have h_target := field_toNat w 0 26
  have hw := w.isLt
  rw [toNat_encJ]
  unfold opF targetF
  omega

/-- A word with opcode 0 is the format of its code and its function. -/
theorem encCode_fields {w : Word} (h : opF w = 0#6) : encCode (codeF w) (funcF w) = w := by
  apply BitVec.eq_of_toNat_eq
  have h_op := field_toNat w 26 6
  have h_code := field_toNat w 6 20
  have h_func := field_toNat w 0 6
  have hw := w.isLt
  have h0 : (w.extractLsb' 26 6).toNat = 0 := congrArg BitVec.toNat h
  rw [toNat_encCode]
  unfold codeF funcF
  omega

/-- The four bytes of a word, put together again. -/
theorem wordOfBytes_byteOf (w : Word) : wordOfBytes (byteOf w 0) (byteOf w 1) (byteOf w 2) (byteOf w 3) = w := by
  apply BitVec.eq_of_toNat_eq
  have h1 := append_toNat (byteOf w 3) (byteOf w 2 ++ (byteOf w 1 ++ byteOf w 0))
  have h2 := append_toNat (byteOf w 2) (byteOf w 1 ++ byteOf w 0)
  have h3 := append_toNat (byteOf w 1) (byteOf w 0)
  have e0 := field_toNat w (8 * 0) 8
  have e1 := field_toNat w (8 * 1) 8
  have e2 := field_toNat w (8 * 2) 8
  have e3 := field_toNat w (8 * 3) 8
  have hw := w.isLt
  have h : (wordOfBytes (byteOf w 0) (byteOf w 1) (byteOf w 2) (byteOf w 3)).toNat =
    (byteOf w 3 ++ (byteOf w 2 ++ (byteOf w 1 ++ byteOf w 0))).toNat := rfl
  unfold byteOf at *
  omega

/-- Byte `i` of a word made of four bytes. -/
theorem byteOf_wordOfBytes (b0 b1 b2 b3 : Byte) :
    byteOf (wordOfBytes b0 b1 b2 b3) 0 = b0 ∧ byteOf (wordOfBytes b0 b1 b2 b3) 1 = b1 ∧
    byteOf (wordOfBytes b0 b1 b2 b3) 2 = b2 ∧ byteOf (wordOfBytes b0 b1 b2 b3) 3 = b3 := by
  have h1 := append_toNat b3 (b2 ++ (b1 ++ b0))
  have h2 := append_toNat b2 (b1 ++ b0)
  have h3 := append_toNat b1 b0
  have l0 := b0.isLt
  have l1 := b1.isLt
  have l2 := b2.isLt
  have l3 := b3.isLt
  have h : (wordOfBytes b0 b1 b2 b3).toNat = (b3 ++ (b2 ++ (b1 ++ b0))).toNat := rfl
  refine ⟨?_, ?_, ?_, ?_⟩ <;>
  · apply BitVec.eq_of_toNat_eq
    unfold byteOf
    rw [field_toNat]
    omega
end Sys2Proof
end

