-- ==== Sys2Proof/Laws/Launch.lean ====
section
/-! SUPPORT. What a launch state holds: its memory, and what its platform permits. -/

namespace Sys2Proof.Machine

/-- The memory of a launch is in canonical form. -/
theorem State.launch_mem_wf (l : Launch) : Memory.wf (State.launch l).mem = true := Memory.wf_writeCells rfl

/-- The byte of memory at an address is the last byte that the launch puts there, and otherwise what an unlisted one reads as. -/
theorem State.launch_mem_read (l : Launch) (a : Nat) :
    Memory.read (State.launch l).mem a = (pending l.cells a).getD (Memory.read [] a) :=
  Memory.read_writeCells rfl

/-- By default an address is permitted, to any mode and kind, exactly when it is in the domain of `L.mem` (R373). -/
theorem State.launch_addrOK {l : Launch} (h : l.regions = none) (a : Word) (m : Mode) (k : Access) :
    (State.launch l).addrOK a m k = l.inDomain a.toNat := by
  unfold State.addrOK State.launch Launch.platform Launch.domainRegions Launch.inDomain
  simp only [h, Option.getD_none, List.any_map]
  congr 1
  funext p
  cases m <;> cases k <;> simp [Region.contains]

/-- By default no access ends in a bus error (R373). -/
theorem State.launch_busErr {l : Launch} (h : l.regions = none) (a : Nat) (k : Access) : (State.launch l).busErr a k = false := by
  simp [State.busErr, State.launch, Launch.platform, Launch.domainRegions, h]

end Sys2Proof.Machine
end

