-- ==== Sys2Proof/Laws/Lines.lean ====
section
/-! SUPPORT. Which line of which set an ordinary access or a fill touches (R70, R291): one lemma for each of the operations that
fill a line or store into one. -/

namespace Sys2Proof.Machine

/-- Addresses of one line select the same set and look for the same tag. -/
theorem State.dset_congr {s : State} {a b : Nat} (h : s.platform.lineOf b = s.platform.lineOf a) : s.dset b = s.dset a := by
  unfold State.dset; rw [((s.platform.lineOf_eq_iff .data b a).mp h).1]

theorem State.dHit_congr {s : State} {a b : Nat} (h : s.platform.lineOf b = s.platform.lineOf a) : s.dHit b = s.dHit a := by
  unfold State.dHit; rw [State.dset_congr h, ((s.platform.lineOf_eq_iff .data b a).mp h).2]

/-- Writing back a line of the set changes nothing beneath a line of the set that is absent. -/
theorem State.busLine_writebackIfDirty {s : State} (h : s.Coherent) {a : Nat} (hm : s.dHit a = none) (v : Way) :
    (s.writebackIfDirty a v).busLine a = s.busLine a := by
  by_cases hvd : ((s.dset a).line v).valid = true ∧ ((s.dset a).line v).dirty = true
  · have e : s.writebackIfDirty a v = s.writeback a v := by
      unfold State.writebackIfDirty; simp [hvd.1, hvd.2, State.writeback]
    rw [e]
    unfold State.busLine
    apply List.map_congr_left
    intro j hj
    show (s.writeback a v).busByte (s.platform.lineOf a + j) = _
    rw [State.busByte_writeback h a v hvd.1 hvd.2, if_neg]
    rintro ⟨_, ht⟩
    have hl := s.platform.lineOf_add a (List.mem_range.mp hj)
    have htag := ((s.platform.lineOf_eq_iff .data _ a).mp hl).2
    exact State.line_of_miss hm v hvd.1 (ht.symm.trans htag)
  · have e : s.writebackIfDirty a v = s := by
      unfold State.writebackIfDirty
      have : (((s.dset a).line v).valid && ((s.dset a).line v).dirty) = false := by
        cases hv : ((s.dset a).line v).valid <;> cases hd : ((s.dset a).line v).dirty <;> simp_all
      simp [this]
    rw [e]

/-- What leaves the data cache when a line is put over way `v`. -/
theorem State.installD_displaces (s : State) (a : Nat) (v : Way) (d : Bool) (l : List Byte) (k : Bool) :
    Displaces s (s.installD a v d l k) a v := by
  constructor
  · intro hv
    show (if _ then _ else _) = if _ then _ else _
    rw [hv]; rfl
  · intro hv
    show (if _ then _ else _) = _
    rw [hv]; rfl

/-- The rest of a set in which a line has been placed. -/
theorem CacheSet.place_placed (c : CacheSet) (v : Way) (l : Line) (k : Bool) : Placed c (c.place v l k) v k := by
  cases v <;> exact ⟨rfl, rfl, rfl⟩

/-- EVERYTHING A FILL (D) DOES to the cache on a miss. -/
theorem State.fillD_fills {s : State} (h : s.Coherent) {a : Nat} (hm : s.dHit a = none) (k : Bool) :
    FillsD s (s.fillD a k) a k := by
  unfold State.fillD
  rw [hm]
  refine ⟨?_, ?_, State.installD_displaces _ _ _ _ _ _, ?_⟩
  · show (((s.writebackIfDirty a _).putDset a _).dset a).line _ = _
    rw [State.dset_putDset_same, CacheSet.line_place, if_pos rfl, State.busLine_writebackIfDirty h hm]
  · show Placed _ (((s.writebackIfDirty a _).putDset a _).dset a) _ _
    rw [State.dset_putDset_same]
    exact CacheSet.place_placed _ _ _ _
  · intro b hb
    show ((s.writebackIfDirty a _).putDset a _).dset b = _
    rw [State.dset_putDset, if_neg (by exact hb)]; rfl

/-- EVERYTHING A FILL (I) DOES to the cache on a miss. -/
theorem State.fillI_fills {s : State} {a : Nat} (hm : s.iHit a = none) (k : Bool) : FillsI s (s.fillI a k) a k := by
  unfold State.fillI
  rw [hm]
  refine ⟨?_, ?_, ?_⟩
  · show ((s.putIset a _).iset a).line _ = _
    rw [State.iset_putIset_same, CacheSet.line_place, if_pos rfl]
  · show Placed _ ((s.putIset a _).iset a) _ _
    rw [State.iset_putIset_same]
    exact CacheSet.place_placed _ _ _ _
  · intro b hb
    show (s.putIset a _).iset b = _
    rw [State.iset_putIset, if_neg hb]

/-- A fill of a line that is present does nothing. -/
theorem State.fillD_hit {s : State} {a : Nat} (h : (s.dHit a).isSome = true) (k : Bool) : s.fillD a k = s := by
  unfold State.fillD
  cases hw : s.dHit a with
  | some w => rfl
  | none => rw [hw] at h; cases h

theorem State.fillI_hit {s : State} {a : Nat} (h : (s.iHit a).isSome = true) (k : Bool) : s.fillI a k = s := by
  unfold State.fillI
  cases hw : s.iHit a with
  | some w => rfl
  | none => rw [hw] at h; cases h

/-- EVERYTHING A LOAD DOES to the data cache. -/
theorem State.touchD_through {s : State} (h : s.Coherent) (a : Nat) : LoadsThrough s (s.touchD a) a := by
  refine ⟨fun hc hm => ?_, fun hn => ?_⟩
  · unfold State.touchD
    rw [if_pos hc]; exact State.fillD_fills h hm false
  · have e : s.touchD a = s := by
      unfold State.touchD
      rcases hn with hc | hh
      · rw [if_neg (by simp [hc])]
      · rw [State.fillD_hit hh]; split <;> rfl
    rw [e]; exact ⟨rfl, rfl⟩

/-- EVERYTHING A FETCH DOES to the instruction cache. -/
theorem State.touchI_through (s : State) (a : Nat) : FetchesThrough s (s.touchI a) a := by
  refine ⟨fun hc hm => ?_, fun hn => ?_⟩
  · unfold State.touchI
    rw [if_pos hc]; exact State.fillI_fills hm false
  · unfold State.touchI
    rcases hn with hc | hh
    · rw [if_neg (by simp [hc])]
    · rw [State.fillI_hit hh]; split <;> rfl

/-- It says nothing of the rest of the state. -/
theorem LoadsThrough.congr {s t u : State} {a : Nat} (h : LoadsThrough s t a) (hd : u.dcache = t.dcache)
    (hw : u.writebackBuf = t.writebackBuf) (hp : u.platform = t.platform) : LoadsThrough s u a := by
  have e : ∀ b, u.dset b = t.dset b := fun b => by unfold State.dset; rw [hd, hp]
  unfold LoadsThrough FillsD Displaces WrittenBack
  simp only [e, hd, hw]
  exact h

/-! ### Stores -/

/-- What a store to a line that way `w` holds leaves of the cache: the line there and dirty, the rest as before. -/
def KeepsWay (s t : State) (a : Nat) (w : Way) : Prop :=
  t.dHit a = some w ∧ ((t.dset a).line w).dirty = true ∧ (t.dset a).line w.other = (s.dset a).line w.other ∧
  (t.dset a).lru = (s.dset a).lru ∧ (t.dset a).lock = (s.dset a).lock ∧ t.writebackBuf = s.writebackBuf ∧
  ∀ b, s.platform.setOf .data b ≠ s.platform.setOf .data a → t.dset b = s.dset b

theorem KeepsWay.trans {s t u : State} {a : Nat} {w : Way} (hp : t.platform = s.platform) (h : KeepsWay s t a w)
    (g : KeepsWay t u a w) : KeepsWay s u a w := by
  obtain ⟨_, _, h3, h4, h5, h6, h7⟩ := h
  obtain ⟨g1, g2, g3, g4, g5, g6, g7⟩ := g
  exact ⟨g1, g2, g3.trans h3, g4.trans h4, g5.trans h5, g6.trans h6, fun b hb => (g7 b (by rw [hp]; exact hb)).trans (h7 b hb)⟩

/-- One byte stored into a line that is present. -/
theorem State.pokeD_keeps {s : State} (h : s.Coherent) {a b : Nat} {w : Way} (hl : s.platform.lineOf b = s.platform.lineOf a)
    (hw : s.dHit a = some w) (v : Byte) : KeepsWay s (s.pokeD b v) a w := by
  have hset := (s.platform.lineOf_eq_iff .data b a).mp hl
  have hline := State.line_of_dHit hw
  have hb : s.dHit b = some w := (State.dHit_congr hl).trans hw
  have e : s.pokeD b v = s.putDset a ((s.dset a).setLine w
      { (s.dset a).line w with dirty := true, data := ((s.dset a).line w).data.set (s.platform.offsetOf b) v }) := by
    unfold State.pokeD
    rw [hb, State.dset_congr hl]
    show s.putDset b _ = _
    unfold State.putDset
    rw [hset.1]
  have hself : ((s.dset a).setLine w
      { (s.dset a).line w with dirty := true, data := ((s.dset a).line w).data.set (s.platform.offsetOf b) v }).line w =
      { (s.dset a).line w with dirty := true, data := ((s.dset a).line w).data.set (s.platform.offsetOf b) v } := by
    rw [CacheSet.line_setLine, if_pos rfl]
  have hoth : ((s.dset a).setLine w
      { (s.dset a).line w with dirty := true, data := ((s.dset a).line w).data.set (s.platform.offsetOf b) v }).line w.other =
      (s.dset a).line w.other := by
    rw [CacheSet.line_setLine, if_neg (Way.other_ne w)]
  rw [e]
  refine ⟨?_, ?_, ?_, ?_, ?_, rfl, ?_⟩
  · show ((s.putDset a _).dset a).find (s.platform.tagOf .data a) = _
    rw [State.dset_putDset_same]
    refine CacheSet.find_of_valid (CacheSet.distinct_of_ways w ?_) ?_ ?_
    · rw [hself, hoth]; exact (h.distinctAt a).other w
    · rw [hself]; exact hline.1
    · rw [hself]; exact hline.2
  · rw [State.dset_putDset_same, hself]
  · rw [State.dset_putDset_same, hoth]
  · rw [State.dset_putDset_same]; cases w <;> rfl
  · rw [State.dset_putDset_same]; cases w <;> rfl
  · intro q hq
    rw [State.dset_putDset, if_neg hq]

/-- One byte stored at a cache address whose line is present. -/
theorem State.storeCached_keeps {s : State} (h : s.Coherent) {a b : Nat} {w : Way} (hc : s.platform.cacheable a = true)
    (hl : s.platform.lineOf b = s.platform.lineOf a) (hw : s.dHit a = some w) (v : Byte) : KeepsWay s (s.storeCached b v) a w := by
  have hcb : s.platform.cacheable b = true := (s.platform.cacheable_congr hl).trans hc
  have e : s.touchD b = s := by
    unfold State.touchD
    rw [if_pos hcb, State.fillD_hit (by rw [State.dHit_congr hl, hw]; rfl)]
  unfold State.storeCached
  rw [if_pos hcb, e]
  exact State.pokeD_keeps h hl hw v

/-- Several bytes stored in a line that is present. -/
theorem State.storeAllCached_keeps {a : Nat} {w : Way} (bytes : List Byte) : ∀ {s : State} {b : Nat}, s.Coherent →
    s.platform.cacheable a = true → (∀ i, i < bytes.length → s.platform.lineOf (b + i) = s.platform.lineOf a) →
    s.dHit a = some w → bytes ≠ [] → KeepsWay s (s.storeAllCached b bytes) a w := by
  induction bytes with
  | nil => intro s b _ _ _ _ hb; exact absurd rfl hb
  | cons v bs ih =>
    intro s b h hc hl hw _
    have h1 := State.storeCached_keeps h hc (hl 0 (by simp)) hw v
    have hp : (s.storeCached b v).platform = s.platform := State.storeCached_platform s b v
    rw [State.storeAllCached]
    by_cases hbs : bs = []
    · subst hbs; exact h1
    · refine h1.trans hp (ih (State.storeCached_spec h b v).1 (by rw [hp]; exact hc) ?_ h1.1 hbs)
      intro i hi
      rw [hp, show b + 1 + i = b + (i + 1) by omega]
      exact hl (i + 1) (by simpa using hi)

/-- EVERYTHING A STORE DOES to the data cache, within the line of its first byte. -/
theorem State.storeAllCached_dirties {s : State} (h : s.Coherent) {a : Nat} {bytes : List Byte} (hc : s.platform.cacheable a = true)
    (hl : ∀ i, i < bytes.length → s.platform.lineOf (a + i) = s.platform.lineOf a) (hb : bytes ≠ []) :
    Dirties s (s.storeAllCached a bytes) a := by
  obtain ⟨v, bs, rfl⟩ := List.exists_cons_of_ne_nil hb
  cases hw : s.dHit a with
  | some w =>
    obtain ⟨k1, k2, k3, k4, k5, k6, k7⟩ := State.storeAllCached_keeps (v :: bs) h hc hl hw hb
    refine ⟨fun u hu => ?_, fun hn => ?_, k7⟩
    · rw [hw] at hu; cases hu; exact ⟨k1, k2, k3, k4, k5, k6⟩
    · rw [hw] at hn; cases hn
  | none =>
    have hf := State.fillD_fills h hw false
    have hcoh := (State.fillD_spec h a false).1
    have hp := State.fillD_platform s a false
    have hhit : (s.fillD a false).dHit a = some (s.dset a).lru := by
      unfold State.dHit
      rw [hp]
      exact CacheSet.find_of_valid (hcoh.distinctAt a) (by rw [hf.1]) (by rw [hf.1])
    have e : s.storeAllCached a (v :: bs) = (s.fillD a false).storeAllCached a (v :: bs) := by
      have e1 : s.storeCached a v = (s.fillD a false).storeCached a v := by
        have t1 : s.touchD a = s.fillD a false := if_pos hc
        have t2 : (s.fillD a false).touchD a = s.fillD a false :=
          (if_pos (by rw [hp]; exact hc)).trans (State.fillD_hit (by rw [hhit]; rfl) false)
        unfold State.storeCached
        rw [hp, t1, t2, if_pos hc, if_pos hc]
      rw [State.storeAllCached, State.storeAllCached, e1]
    rw [e]
    obtain ⟨k1, k2, k3, k4, k5, k6, k7⟩ :=
      State.storeAllCached_keeps (v :: bs) hcoh (by rw [hp]; exact hc) (by rw [hp]; exact hl) hhit hb
    obtain ⟨_, ⟨p1, p2, p3⟩, ⟨d1, d2⟩, f4⟩ := hf
    refine ⟨fun u hu => ?_, fun _ => ⟨k1, k2, ⟨k3.trans p1, k4.trans p2, k5.trans p3⟩, ?_, ?_⟩, ?_⟩
    · rw [hw] at hu; cases hu
    · intro hv; unfold WrittenBack; rw [k6]; exact d1 hv
    · intro hv; rw [k6]; exact d2 hv
    · intro b hb'; rw [k7 b (by rw [hp]; exact hb')]; exact f4 b hb'

/-- The bytes of a store all of whose addresses are cache addresses, or none of whose is. -/
theorem Platform.uncachedCells_cached (p : Platform) : ∀ {bytes : List Byte} {a : Nat},
    (∀ i, i < bytes.length → p.cacheable (a + i) = true) → p.uncachedCells a bytes = []
  | [], _, _ => rfl
  | b :: bs, a, h => by
    have h0 := h 0 (by simp)
    have ih := p.uncachedCells_cached (bytes := bs) (a := a + 1) fun i hi => by
      rw [show a + 1 + i = a + (i + 1) by omega]; exact h (i + 1) (by simpa using hi)
    unfold Platform.uncachedCells at ih ⊢
    rw [lineCells, List.filter_cons_of_neg (by simpa using h0), ih]

theorem Platform.uncachedCells_all (p : Platform) : ∀ {bytes : List Byte} {a : Nat},
    (∀ i, i < bytes.length → p.cacheable (a + i) = false) → p.uncachedCells a bytes = lineCells a bytes
  | [], _, _ => rfl
  | b :: bs, a, h => by
    have h0 := h 0 (by simp)
    have ih := p.uncachedCells_all (bytes := bs) (a := a + 1) fun i hi => by
      rw [show a + 1 + i = a + (i + 1) by omega]; exact h (i + 1) (by simpa using hi)
    unfold Platform.uncachedCells at ih ⊢
    rw [lineCells, List.filter_cons_of_pos (by simpa using h0), ih]

theorem State.storeAllCached_uncached {s : State} : ∀ {bytes : List Byte} {a : Nat},
    (∀ i, i < bytes.length → s.platform.cacheable (a + i) = false) → s.storeAllCached a bytes = s
  | [], _, _ => rfl
  | b :: bs, a, h => by
    have h0 := h 0 (by simp)
    have e : s.storeCached a b = s := if_neg (by simpa using h0)
    rw [State.storeAllCached, e]
    exact State.storeAllCached_uncached fun i hi => by
      rw [show a + 1 + i = a + (i + 1) by omega]; exact h (i + 1) (by simpa using hi)

theorem State.storeAllCached_nonCacheBuf : ∀ (bytes : List Byte) (s : State) (a : Nat),
    (s.storeAllCached a bytes).nonCacheBuf = s.nonCacheBuf
  | [], _, _ => rfl
  | b :: bs, s, a => by
    rw [State.storeAllCached, State.storeAllCached_nonCacheBuf bs, State.storeCached_nonCacheBuf]

/-- WHERE A STORE GOES: into the line of a cache address, or into the non-cache write buffer. -/
theorem State.storeBytes_through {s : State} (h : s.Coherent) {a : Nat} {bytes : List Byte} (hb : bytes ≠ []) :
    StoresThrough s (s.storeBytes a bytes) a bytes := by
  obtain ⟨v, bs, rfl⟩ := List.exists_cons_of_ne_nil hb
  constructor
  · intro hc
    have e : s.storeBytes a (v :: bs) = s.storeAllCached a (v :: bs) := by
      unfold State.storeBytes; rw [s.platform.uncachedCells_cached hc]; rfl
    rw [e]
    exact ⟨State.storeAllCached_nonCacheBuf _ _ _, fun hl => State.storeAllCached_dirties h (hc 0 (by simp)) hl hb⟩
  · intro hc
    unfold State.storeBytes
    rw [State.storeAllCached_uncached hc, s.platform.uncachedCells_all hc]
    exact ⟨rfl, rfl, rfl⟩

/-- It says nothing of the rest of the state. -/
theorem StoresThrough.congr {s t u : State} {a : Nat} {bytes : List Byte} (h : StoresThrough s t a bytes)
    (hd : u.dcache = t.dcache) (hw : u.writebackBuf = t.writebackBuf) (hn : u.nonCacheBuf = t.nonCacheBuf)
    (hp : u.platform = t.platform) : StoresThrough s u a bytes := by
  have e : ∀ b, u.dset b = t.dset b := fun b => by unfold State.dset; rw [hd, hp]
  have e' : ∀ b, u.dHit b = t.dHit b := fun b => by unfold State.dHit; rw [e, hp]
  unfold StoresThrough Dirties Displaces WrittenBack
  simp only [e, e', hd, hw, hn]
  exact h

end Sys2Proof.Machine
end

