-- ==== Sys2Proof/Laws/Registers.lean ====
section
/-! SUPPORT. What reading a register after writing one gives, the bits of a word with a field replaced, and what taking an
exception and returning from it leave in each CP0 register. -/

namespace Sys2Proof.Machine

/-! ### General and FPU registers -/

@[simp] theorem State.x_zero (s : State) : s.x 0#5 = 0#32 := rfl

theorem regIdx_inj {p q : Reg} : regIdx p = regIdx q ↔ p = q := by
  constructor
  · intro h
    exact BitVec.eq_of_toNat_eq (congrArg Fin.val h)
  · intro h; rw [h]

theorem Vector_get_set {α : Type} (v : Vector α 32) (i j : Fin 32) (a : α) :
    (v.set i a).get j = if i = j then a else v.get j := by
  have h := Vector.getElem_set (xs := v) (i := i.val) (x := a) (j := j.val) i.isLt j.isLt
  simp only [Vector.get_eq_getElem]
  rw [h]
  simp [Fin.ext_iff]

/-- A read after a write (R20, R21). -/
theorem State.x_setX (s : State) (r q : Reg) (v : Word) :
    (s.setX r v).x q = if q = r then (if r = 0#5 then 0#32 else v) else s.x q := by
  unfold State.x State.setX
  by_cases hq : q = 0#5
  · subst hq
    by_cases hr : r = 0#5
    · simp [hr]
    · simp [Ne.symm hr]
  · by_cases hr : r = 0#5
    · subst hr; simp [hq]
    · simp only [hq, hr, if_false, Vector_get_set, regIdx_inj]
      by_cases h : q = r
      · simp [h]
      · simp [h, Ne.symm h]

@[simp] theorem State.x_setX_same (s : State) (r : Reg) (v : Word) :
    (s.setX r v).x r = if r = 0#5 then 0#32 else v := by simp [State.x_setX]

theorem State.x_setX_of_ne (s : State) {r q : Reg} (v : Word) (h : q ≠ r) : (s.setX r v).x q = s.x q := by
  simp [State.x_setX, h]

/-- A read of an FPU register after a write (R35). -/
theorem State.f_setF (s : State) (r q : Reg) (v : Word) : (s.setF r v).f q = if q = r then v else s.f q := by
  unfold State.f State.setF
  simp only [Vector_get_set, regIdx_inj]
  by_cases h : q = r
  · simp [h]
  · simp [h, Ne.symm h]

/-- A read of a CP0 register after a write (R31). -/
theorem State.cp0_setCp0 (s : State) (r q : Reg) (v : Word) : (s.setCp0 r v).cp0 q = if q = r then v else s.cp0 q := by
  unfold State.cp0 State.setCp0
  simp only [Vector_get_set, regIdx_inj]
  by_cases h : q = r
  · simp [h]
  · simp [h, Ne.symm h]

/-- HI and LO after both have been written. -/
@[simp] theorem State.hiLo_setHiLo (s : State) (v : DWord) : (s.setHiLo v).hiLo = v := by
  show v.extractLsb' 32 32 ++ v.extractLsb' 0 32 = v
  ext i hi
  simp only [BitVec.getElem_append, BitVec.getElem_extractLsb']
  split
  · simp [BitVec.getElem_eq_testBit_toNat, BitVec.getLsbD]
  · rename_i h
    simp only [BitVec.getLsbD]
    rw [BitVec.getElem_eq_testBit_toNat]
    congr 1; omega

/-! ### A word with a field replaced -/

theorem getLsbD_setField (w : Word) (lo n : Nat) (v : BitVec n) (i : Nat) (hi : i < 32) :
    (setField w lo n v).getLsbD i = if lo ≤ i ∧ i < lo + n then v.getLsbD (i - lo) else w.getLsbD i := by
  unfold setField
  simp only [BitVec.getLsbD_or, BitVec.getLsbD_and, BitVec.getLsbD_not, BitVec.getLsbD_shiftLeft, BitVec.getLsbD_setWidth,
    BitVec.getLsbD_allOnes, hi, decide_true, Bool.true_and]
  by_cases h1 : lo ≤ i
  · have hlt : ¬ i < lo := by omega
    have hs : i - lo < 32 := by omega
    by_cases h2 : i < lo + n
    · have h3 : i - lo < n := by omega
      simp [h1, h2, h3, hlt, hs]
    · have h3 : ¬ i - lo < n := by omega
      have h4 : v.getLsbD (i - lo) = false := BitVec.getLsbD_of_ge v _ (by omega)
      simp [h2, h3, h4]
  · have hlt : i < lo := by omega
    simp [h1, hlt]

theorem getLsbD_setBit (w : Word) (k : Nat) (b : Bool) (i : Nat) (hi : i < 32) :
    (setBit w k b).getLsbD i = if i = k then b else w.getLsbD i := by
  unfold setBit
  rw [getLsbD_setField _ _ _ _ _ hi]
  by_cases h : i = k
  · subst h; simp
  · rw [if_neg (by omega), if_neg h]

/-! ### Taking an exception and returning -/

theorem State.trapCp0_cp0 (s : State) (e : Exc) (q : Reg) :
    (s.trapCp0 e).cp0 q =
      if q = statusReg then setBit (s.cp0 statusReg) 1 true
      else if q = causeReg then s.causeAfter e
      else if q = epcReg then (if s.exl then s.cp0 epcReg else s.restartAddress)
      else if q = badVAddrReg then (match e with | .addressError v _ => v | _ => s.cp0 badVAddrReg)
      else s.cp0 q := by
  unfold State.trapCp0
  by_cases h1 : q = statusReg
  · simp [State.cp0_setCp0, h1]
  · by_cases h2 : q = causeReg
    · subst h2
      cases e <;> simp [State.cp0_setCp0, causeReg, statusReg, badVAddrReg]
    · by_cases h3 : q = epcReg
      · subst h3
        cases e <;> by_cases hx : s.exl = true <;>
          simp [State.cp0_setCp0, causeReg, statusReg, badVAddrReg, epcReg, hx]
      · by_cases h4 : q = badVAddrReg
        · subst h4
          cases e <;> by_cases hx : s.exl = true <;>
            simp [State.cp0_setCp0, causeReg, statusReg, badVAddrReg, epcReg, hx]
        · cases e <;> by_cases hx : s.exl = true <;> simp [State.cp0_setCp0, h1, h2, h3, h4, hx]

/-- Each CP0 register after an exception is taken (R341). -/
theorem State.trapEntry_cp0 (s : State) (e : Exc) (q : Reg) : (s.trapEntry e).cp0 q = (s.trapCp0 e).cp0 q := rfl

theorem State.trapEntry_exl (s : State) (e : Exc) : (s.trapEntry e).exl = true := by
  show ((s.trapEntry e).cp0 statusReg).getLsbD 1 = true
  rw [State.trapEntry_cp0, State.trapCp0_cp0, if_pos rfl, getLsbD_setBit _ _ _ _ (by decide), if_pos rfl]

/-- An exception is taken in kernel mode (R355, R357). -/
theorem State.trapEntry_mode (s : State) (e : Exc) : (s.trapEntry e).mode = some .kernel := by
  unfold State.mode
  rw [State.trapEntry_exl]
  rfl

theorem raise_eq (e : Exc) (s : State) : raise e s = .next (s.trapEntry e) := rfl

theorem State.finish_eq (s : State) (r : Reg) (v : Word) : s.finish r v = .next (s.setX r v).seq := rfl

end Sys2Proof.Machine
end

