-- ==== Sys2Proof/Laws/Outcome.lean ====
section
/-! SUPPORT. What the shared operations that check before they act can answer: one lemma for when they go through, one for
everything they can do when they answer a next state. -/

namespace Sys2Proof.Machine

/-- The present mode is needed and known. -/
theorem State.withMode_next {s t : State} {k : Mode → Result} (h : s.withMode k = .next t) :
    ∃ m, s.mode = some m ∧ k m = .next t := by
  unfold State.withMode at h
  cases hm : s.mode with
  | some m => rw [hm] at h; exact ⟨m, rfl, h⟩
  | none => rw [hm] at h; cases h

theorem raise_next {e : Exc} {s t : State} (h : raise e s = .next t) : t = s.trapEntry e := by
  cases h; rfl

/-! ### Loads, stores and cache functions -/

theorem State.load_ok {s : State} {a : Word} {n : Nat} (h : LoadOK s a n) (f : State → State) :
    s.load a n f = .next (f (s.touchD a.toNat)).seq := by
  obtain ⟨h1, m, h2, h3, h4⟩ := h
  simp [State.load, State.checkedAccess, State.withMode, h1, h2, h3, h4]

theorem State.store_ok {s : State} {a : Word} {n : Nat} (h : StoreOK s a n) (first : Word) (l : List Byte) :
    s.store a n first l = .next (s.storeBytes first.toNat l).seq := by
  obtain ⟨h1, m, h2, h3⟩ := h
  simp [State.store, State.checkedAccess, State.withMode, h1, h2, h3]

theorem State.checkedAccess_store_ok {s : State} {a : Word} {n : Nat} (h : StoreOK s a n) (r : Result) :
    s.checkedAccess a .store n r = r := by
  obtain ⟨h1, m, h2, h3⟩ := h
  simp [State.checkedAccess, State.withMode, h1, h2, h3]

theorem State.cacheOp_ok {s : State} {base : Reg} {offset : BitVec 16} (h : CacheOK s (s.effAddr base offset))
    (op : Nat → Result) : s.cacheOp base offset op = op (s.effAddr base offset).toNat := by
  obtain ⟨m, h2, h3⟩ := h
  simp [State.cacheOp, State.withMode, h2, h3]

/-- Everything a checked access can do when it answers a next state: the access, or an exception. -/
theorem State.checkedAccess_next {s t : State} {a : Word} {k : Access} {n : Nat} {r : Result}
    (h : s.checkedAccess a k n r = .next t) : r = .next t ∨ ∃ e, t = s.trapEntry e := by
  unfold State.checkedAccess at h
  split at h
  · exact .inr ⟨_, raise_next h⟩
  · obtain ⟨m, _, h⟩ := State.withMode_next h
    split at h
    · exact .inr ⟨_, raise_next h⟩
    · split at h
      · exact .inr ⟨_, raise_next h⟩
      · exact .inl h

theorem State.load_next {s t : State} {a : Word} {n : Nat} {f : State → State} (h : s.load a n f = .next t) :
    t = (f (s.touchD a.toNat)).seq ∨ ∃ e, t = s.trapEntry e := by
  rcases State.checkedAccess_next h with h | h
  · exact .inl (by cases h; rfl)
  · exact .inr h

theorem State.store_next {s t : State} {a first : Word} {n : Nat} {l : List Byte} (h : s.store a n first l = .next t) :
    t = (s.storeBytes first.toNat l).seq ∨ ∃ e, t = s.trapEntry e := by
  rcases State.checkedAccess_next h with h | h
  · exact .inl (by cases h; rfl)
  · exact .inr h

theorem State.cacheOp_next {s t : State} {base : Reg} {offset : BitVec 16} {op : Nat → Result}
    (h : s.cacheOp base offset op = .next t) :
    op (s.effAddr base offset).toNat = .next t ∨ ∃ e, t = s.trapEntry e := by
  unfold State.cacheOp at h
  obtain ⟨m, _, h⟩ := State.withMode_next h
  split at h
  · exact .inr ⟨_, raise_next h⟩
  · exact .inl h

/-! ### Coprocessor checks -/

theorem State.withCop0_ok {s : State} (h : Cop0OK s) (k : Result) : s.withCop0 k = k := by
  unfold State.withCop0; rw [h]; rfl

theorem State.withCop1_ok {s : State} (h : Cop1OK s) (k : Result) : s.withCop1 k = k := by
  unfold State.withCop1; rw [h]; rfl

/-- Everything a coprocessor check can do when it answers a next state: what follows it, or CoprocessorUnusable. -/
theorem State.withCop_next {s t : State} {z : BitVec 2} {u : Option Bool} {k : Result} (h : s.withCop z u k = .next t) :
    (u = some true ∧ k = .next t) ∨ (u = some false ∧ t = s.trapEntry (.coprocessorUnusable z)) := by
  cases u with
  | none => cases h
  | some b =>
    cases b with
    | true => exact .inl ⟨rfl, h⟩
    | false => exact .inr ⟨rfl, raise_next h⟩

theorem State.withCop0_next {s t : State} {k : Result} (h : s.withCop0 k = .next t) : k = .next t ∨ ∃ e, t = s.trapEntry e := by
  rcases State.withCop_next h with ⟨_, h⟩ | ⟨_, h⟩
  · exact .inl h
  · exact .inr ⟨_, h⟩

theorem State.withCop1_next {s t : State} {k : Result} (h : s.withCop1 k = .next t) : k = .next t ∨ ∃ e, t = s.trapEntry e := by
  rcases State.withCop_next h with ⟨_, h⟩ | ⟨_, h⟩
  · exact .inl h
  · exact .inr ⟨_, h⟩

/-- An access to a CP0 register that goes on. -/
theorem State.withCp0Reg_next {s t : State} {n : Reg} {listed : Bool} {k : Result} (h : s.withCp0Reg n listed k = .next t) :
    k = .next t := by
  unfold State.withCp0Reg at h
  split at h
  · cases h
  · split at h
    · exact h
    · cases h

theorem State.withCp0Reg_readable {s : State} {r : Reg} (h : Cp0Readable s r) (k : Result) :
    s.withCp0Reg r (readableCp0 r) k = k := by
  unfold State.withCp0Reg
  rcases h with rfl | rfl | rfl | rfl | rfl | ⟨h, h1, h2⟩
  iterate 5 rfl
  rw [if_neg (by simp [isTimerReg, h1, h2]), if_pos (by simp [h])]

theorem State.withCp0Reg_writable {s : State} {r : Reg} (h : Cp0Writable s r) (k : Result) :
    s.withCp0Reg r (writableCp0 r) k = k := by
  unfold State.withCp0Reg
  rcases h with rfl | rfl | rfl | rfl | ⟨h, h1, h2⟩
  iterate 4 rfl
  rw [if_neg (by simp [isTimerReg, h1, h2]), if_pos (by simp [h])]

/-! ### Fetching -/

/-- The checks of a fetch, when they pass. -/
theorem State.fetchChecked_ok {s : State} {m : Mode} (h1 : s.pc.toNat % 4 = 0) (h2 : s.mode = some m)
    (h3 : s.addrOK s.pc m .fetch = true) (h4 : s.busErr s.pc.toNat .fetch = false) (go : Result) : s.fetchChecked go = go := by
  simp [State.fetchChecked, State.withMode, h1, h2, h3, h4]

/-- Everything the checks of a fetch can do when they answer a next state. -/
theorem State.fetchChecked_next {s t : State} {go : Result} (h : s.fetchChecked go = .next t) :
    go = .next t ∨ ∃ e, t = (s.trapEntry e).recordNone s := by
  unfold State.fetchChecked at h
  split at h
  · exact .inr ⟨_, by cases h; rfl⟩
  · obtain ⟨m, _, h⟩ := State.withMode_next h
    split at h
    · exact .inr ⟨_, by cases h; rfl⟩
    · split at h
      · exact .inr ⟨_, by cases h; rfl⟩
      · exact .inl h

/-! ### The history -/

/-- When a word written to FCR31 raises FloatingPoint, bit by bit. -/
theorem fpTrapPending_iff (v : Word) : fpTrapPending v = true ↔
    (v.getLsbD 17 = true ∨ ∃ b, b < 5 ∧ v.getLsbD (12 + b) = true ∧ v.getLsbD (7 + b) = true) := by
  have e : (v.extractLsb' 12 5 &&& v.extractLsb' 7 5) = 0#5 ↔
      ¬ ∃ b, b < 5 ∧ v.getLsbD (12 + b) = true ∧ v.getLsbD (7 + b) = true := by
    rw [BitVec.eq_of_getLsbD_eq_iff]
    simp only [BitVec.getLsbD_and, BitVec.getLsbD_extractLsb', BitVec.getLsbD_zero]
    constructor
    · rintro h ⟨b, hb, h1, h2⟩
      simpa [hb, h1, h2] using h b hb
    · intro h b hb
      by_contra hc
      exact h ⟨b, hb, by simpa [hb] using hc⟩
  unfold fpTrapPending
  rw [Bool.or_eq_true, bne_iff_ne, Ne, e, not_not, or_comm]

/-- The `ctc1` that R379 marks is the one that raises FloatingPoint. -/
theorem State.ctc1Traps_iff (s : State) (i : Instr) : s.ctc1Traps i = true ↔ RaisesFloat s i := by
  constructor
  · intro h
    cases i <;> simp only [State.ctc1Traps, reduceCtorEq] at h
    case ctc1 rt fs =>
      simp only [Bool.and_eq_true, beq_iff_eq] at h
      obtain ⟨⟨rfl, h2⟩, h3⟩ := h
      exact ⟨rt, rfl, h2, (fpTrapPending_iff _).mp h3⟩
  · rintro ⟨rt, rfl, h1, h2⟩
    simp [State.ctc1Traps, show s.cop1Usable = some true from h1, (fpTrapPending_iff _).mpr h2]

/-- What recording an executed instruction does to the history. -/
theorem State.recordInstr_recorded (s u : State) (i : Instr) : Recorded s u (u.recordInstr s i) i :=
  ⟨rfl, rfl, fun h => if_pos h, fun h => if_neg (by rw [show u.inDs = false from h]; decide), s.ctc1Traps_iff i, rfl⟩

theorem recordResult_next {s t : State} {i : Instr} {r : Result} (h : recordResult s i r = .next t) :
    ∃ u, r = .next u ∧ t = u.recordInstr s i := by
  cases r with
  | next u => exact ⟨u, rfl, by cases h; rfl⟩
  | fault f => cases h
  | refused r => cases h

/-- EVERYTHING A STEP CAN DO when it answers a next state: an exception in the fetch, a reserved word, or an instruction. -/
theorem step_next {s t : State} (h : step s = .next t) :
    (∃ e, t = (s.drainSome.trapEntry e).recordNone s.drainSome) ∨
    t = (s.drainSome.fetched.trapEntry .reservedInstruction).recordNone s.drainSome.fetched ∨
    ∃ i u, decode s.drainSome.fetchedWord = .instr i ∧ s.drainSome.fetched.restrictionAt i = none ∧
      exec i s.drainSome.fetched = .next u ∧ t = u.recordInstr s.drainSome.fetched i := by
  unfold step at h
  split at h
  · cases h
  · rcases State.fetchChecked_next h with h | h
    · cases hd : decode s.drainSome.fetchedWord with
      | reject r =>
        rw [hd] at h
        cases r with
        | reserved => exact .inr (.inl (by cases h; rfl))
        | namedOnly => cases h
        | blankCell => cases h
        | nonzeroField => cases h
      | instr i =>
        rw [hd] at h
        change s.drainSome.fetched.runInstr i = .next t at h
        unfold State.runInstr at h
        cases hr : s.drainSome.fetched.restrictionAt i with
        | some r => rw [hr] at h; cases h
        | none =>
          rw [hr] at h
          obtain ⟨u, hu, ht⟩ := recordResult_next h
          exact .inr (.inr ⟨i, u, rfl, hr, hu, ht⟩)
    · exact .inl h

end Sys2Proof.Machine
end

