-- ==== Sys2Proof/Laws/PerInstr.lean ====
section
/-! SUPPORT. The opcode table (R94) row by row: the fixed bits of each instruction's row, and that the word the encoder writes
has them. One lemma per constructor of `Instr`. -/

namespace Sys2Proof.Laws.TableRow

/-- The mask and the match of an instruction's row (R94). -/
def row : Instr → Word × Word
  | .add _ _ _ => (0xfc0007ff#32, 0x00000020#32)
  | .addi _ _ _ => (0xfc000000#32, 0x20000000#32)
  | .addiu _ _ _ => (0xfc000000#32, 0x24000000#32)
  | .addu _ _ _ => (0xfc0007ff#32, 0x00000021#32)
  | .and _ _ _ => (0xfc0007ff#32, 0x00000024#32)
  | .andi _ _ _ => (0xfc000000#32, 0x30000000#32)
  | .lui _ _ => (0xffe00000#32, 0x3c000000#32)
  | .nop => (0xffffffff#32, 0x00000000#32)
  | .nor _ _ _ => (0xfc0007ff#32, 0x00000027#32)
  | .or _ _ _ => (0xfc0007ff#32, 0x00000025#32)
  | .ori _ _ _ => (0xfc000000#32, 0x34000000#32)
  | .slt _ _ _ => (0xfc0007ff#32, 0x0000002a#32)
  | .slti _ _ _ => (0xfc000000#32, 0x28000000#32)
  | .sltiu _ _ _ => (0xfc000000#32, 0x2c000000#32)
  | .sltu _ _ _ => (0xfc0007ff#32, 0x0000002b#32)
  | .sub _ _ _ => (0xfc0007ff#32, 0x00000022#32)
  | .subu _ _ _ => (0xfc0007ff#32, 0x00000023#32)
  | .xor _ _ _ => (0xfc0007ff#32, 0x00000026#32)
  | .xori _ _ _ => (0xfc000000#32, 0x38000000#32)
  | .sll _ _ _ => (0xffe0003f#32, 0x00000000#32)
  | .sllv _ _ _ => (0xfc0007ff#32, 0x00000004#32)
  | .sra _ _ _ => (0xffe0003f#32, 0x00000003#32)
  | .srav _ _ _ => (0xfc0007ff#32, 0x00000007#32)
  | .srl _ _ _ => (0xffe0003f#32, 0x00000002#32)
  | .srlv _ _ _ => (0xfc0007ff#32, 0x00000006#32)
  | .div _ _ => (0xfc00ffff#32, 0x0000001a#32)
  | .divu _ _ => (0xfc00ffff#32, 0x0000001b#32)
  | .mult _ _ => (0xfc00ffff#32, 0x00000018#32)
  | .multu _ _ => (0xfc00ffff#32, 0x00000019#32)
  | .mfhi _ => (0xffff07ff#32, 0x00000010#32)
  | .mflo _ => (0xffff07ff#32, 0x00000012#32)
  | .mthi _ => (0xfc1fffff#32, 0x00000011#32)
  | .mtlo _ => (0xfc1fffff#32, 0x00000013#32)
  | .beq _ _ _ => (0xfc000000#32, 0x10000000#32)
  | .beql _ _ _ => (0xfc000000#32, 0x50000000#32)
  | .bgez _ _ => (0xfc1f0000#32, 0x04010000#32)
  | .bgezal _ _ => (0xfc1f0000#32, 0x04110000#32)
  | .bgezall _ _ => (0xfc1f0000#32, 0x04130000#32)
  | .bgezl _ _ => (0xfc1f0000#32, 0x04030000#32)
  | .bgtz _ _ => (0xfc1f0000#32, 0x1c000000#32)
  | .bgtzl _ _ => (0xfc1f0000#32, 0x5c000000#32)
  | .blez _ _ => (0xfc1f0000#32, 0x18000000#32)
  | .blezl _ _ => (0xfc1f0000#32, 0x58000000#32)
  | .bltz _ _ => (0xfc1f0000#32, 0x04000000#32)
  | .bltzal _ _ => (0xfc1f0000#32, 0x04100000#32)
  | .bltzall _ _ => (0xfc1f0000#32, 0x04120000#32)
  | .bltzl _ _ => (0xfc1f0000#32, 0x04020000#32)
  | .bne _ _ _ => (0xfc000000#32, 0x14000000#32)
  | .bnel _ _ _ => (0xfc000000#32, 0x54000000#32)
  | .j _ => (0xfc000000#32, 0x08000000#32)
  | .jal _ => (0xfc000000#32, 0x0c000000#32)
  | .jalr _ _ => (0xfc1f07ff#32, 0x00000009#32)
  | .jr _ => (0xfc1fffff#32, 0x00000008#32)
  | .lb _ _ _ => (0xfc000000#32, 0x80000000#32)
  | .lbu _ _ _ => (0xfc000000#32, 0x90000000#32)
  | .lh _ _ _ => (0xfc000000#32, 0x84000000#32)
  | .lhu _ _ _ => (0xfc000000#32, 0x94000000#32)
  | .lw _ _ _ => (0xfc000000#32, 0x8c000000#32)
  | .lwl _ _ _ => (0xfc000000#32, 0x88000000#32)
  | .lwr _ _ _ => (0xfc000000#32, 0x98000000#32)
  | .sb _ _ _ => (0xfc000000#32, 0xa0000000#32)
  | .sh _ _ _ => (0xfc000000#32, 0xa4000000#32)
  | .sw _ _ _ => (0xfc000000#32, 0xac000000#32)
  | .swl _ _ _ => (0xfc000000#32, 0xa8000000#32)
  | .swr _ _ _ => (0xfc000000#32, 0xb8000000#32)
  | .brk _ => (0xfc00003f#32, 0x0000000d#32)
  | .syscall _ => (0xfc00003f#32, 0x0000000c#32)
  | .eret => (0xffffffff#32, 0x42000018#32)
  | .mfc0 _ _ => (0xffe007ff#32, 0x40000000#32)
  | .mtc0 _ _ => (0xffe007ff#32, 0x40800000#32)
  | .bc1f _ => (0xffff0000#32, 0x45000000#32)
  | .bc1fl _ => (0xffff0000#32, 0x45020000#32)
  | .bc1t _ => (0xffff0000#32, 0x45010000#32)
  | .bc1tl _ => (0xffff0000#32, 0x45030000#32)
  | .cfc1 _ _ => (0xffe007ff#32, 0x44400000#32)
  | .ctc1 _ _ => (0xffe007ff#32, 0x44c00000#32)
  | .lwc1 _ _ _ => (0xfc000000#32, 0xc4000000#32)
  | .mfc1 _ _ => (0xffe007ff#32, 0x44000000#32)
  | .mtc1 _ _ => (0xffe007ff#32, 0x44800000#32)
  | .swc1 _ _ _ => (0xfc000000#32, 0xe4000000#32)
  | .clo _ _ => (0xfc1f07ff#32, 0x00000017#32)
  | .clz _ _ => (0xfc1f07ff#32, 0x00000016#32)
  | .madd _ _ => (0xfc00ffff#32, 0x0000001c#32)
  | .maddu _ _ => (0xfc00ffff#32, 0x0000001d#32)
  | .msub _ _ => (0xfc00ffff#32, 0x0000002e#32)
  | .msubu _ _ => (0xfc00ffff#32, 0x0000002f#32)
  | .max _ _ _ => (0xfc0007ff#32, 0x0000002c#32)
  | .min _ _ _ => (0xfc0007ff#32, 0x0000002d#32)
  | .movn _ _ _ => (0xfc0007ff#32, 0x0000000b#32)
  | .movz _ _ _ => (0xfc0007ff#32, 0x0000000a#32)
  | .ext _ _ _ _ => (0xfc00003f#32, 0x7c000000#32)
  | .ins _ _ _ _ => (0xfc00003f#32, 0x7c000004#32)
  | .seb _ _ => (0xffe007ff#32, 0x7c000420#32)
  | .seh _ _ => (0xffe007ff#32, 0x7c000620#32)
  | .bitrev _ _ => (0xffe007ff#32, 0x7c000520#32)
  | .rotr _ _ _ => (0xffe0003f#32, 0x00200002#32)
  | .rotrv _ _ _ => (0xfc0007ff#32, 0x00000046#32)
  | .wsbh _ _ => (0xffe007ff#32, 0x7c0000a0#32)
  | .wsbw _ _ => (0xffe007ff#32, 0x7c0000e0#32)
  | .cacheIndexInvalidateI _ _ => (0xfc1f0000#32, 0xbc040000#32)
  | .cacheIndexUnlockI _ _ => (0xfc1f0000#32, 0xbc060000#32)
  | .cacheHitInvalidateI _ _ => (0xfc1f0000#32, 0xbc080000#32)
  | .cacheFillI _ _ => (0xfc1f0000#32, 0xbc0a0000#32)
  | .cacheFillLockI _ _ => (0xfc1f0000#32, 0xbc0b0000#32)
  | .cacheIndexWritebackInvalidateD _ _ => (0xfc1f0000#32, 0xbc140000#32)
  | .cacheIndexUnlockD _ _ => (0xfc1f0000#32, 0xbc160000#32)
  | .cacheCreateDirtyD _ _ => (0xfc1f0000#32, 0xbc180000#32)
  | .cacheHitInvalidateD _ _ => (0xfc1f0000#32, 0xbc190000#32)
  | .cacheHitWritebackD _ _ => (0xfc1f0000#32, 0xbc1a0000#32)
  | .cacheHitWritebackInvalidateD _ _ => (0xfc1f0000#32, 0xbc1b0000#32)
  | .cacheCreateDirtyLockD _ _ => (0xfc1f0000#32, 0xbc1c0000#32)
  | .cacheFillD _ _ => (0xfc1f0000#32, 0xbc1e0000#32)
  | .cacheFillLockD _ _ => (0xfc1f0000#32, 0xbc1f0000#32)
  | .sync => (0xffffffff#32, 0x0000000f#32)
  | .ll _ _ _ => (0xfc000000#32, 0xc0000000#32)
  | .sc _ _ _ => (0xfc000000#32, 0xe0000000#32)

/-- The word of the instruction has the fixed bits of its row. -/
def Statement (i : Instr) : Prop := encode i &&& (row i).1 = (row i).2

theorem and_cons {n m : Nat} (a a' : BitVec n) (b b' c : BitVec m) (h : b &&& b' = c) :
    (a ++ b) &&& (a' ++ b') = (a &&& a') ++ c := by
  rw [← h]; exact BitVec.and_append

theorem encR_and (a a' : BitVec 6) (b c d e b' c' d' e' : BitVec 5) (f f' : BitVec 6) :
    encR a b c d e f &&& encR a' b' c' d' e' f' = encR (a &&& a') (b &&& b') (c &&& c') (d &&& d') (e &&& e') (f &&& f') :=
  and_cons _ _ _ _ _ (and_cons _ _ _ _ _ (and_cons _ _ _ _ _ (and_cons _ _ _ _ _ (and_cons _ _ _ _ _ rfl))))

theorem encI_and (a a' : BitVec 6) (b c b' c' : BitVec 5) (d d' : BitVec 16) :
    encI a b c d &&& encI a' b' c' d' = encI (a &&& a') (b &&& b') (c &&& c') (d &&& d') :=
  and_cons _ _ _ _ _ (and_cons _ _ _ _ _ (and_cons _ _ _ _ _ rfl))

theorem encJ_and (a a' : BitVec 6) (b b' : BitVec 26) : encJ a b &&& encJ a' b' = encJ (a &&& a') (b &&& b') :=
  and_cons _ _ _ _ _ rfl

theorem encCode_and (a a' : BitVec 20) (b b' : BitVec 6) :
    encCode a b &&& (63#6 ++ (a' ++ b')) = encCode (a &&& a') (b &&& b') :=
  and_cons _ _ _ _ _ (and_cons _ _ _ _ _ rfl)

theorem add (rd : Reg) (rs : Reg) (rt : Reg) : Statement (.add rd rs rt) := by
  have h := encR_and 0x00#6 63#6 rs rt rd 0#5 0#5 0#5 0#5 31#5 0x20#6 63#6
  simp only [BitVec.and_zero] at h
  exact h

theorem addi (rt : Reg) (rs : Reg) (imm : BitVec 16) : Statement (.addi rt rs imm) := by
  have h := encI_and 0x08#6 63#6 rs rt 0#5 0#5 imm 0#16
  simp only [BitVec.and_zero] at h
  exact h

theorem addiu (rt : Reg) (rs : Reg) (imm : BitVec 16) : Statement (.addiu rt rs imm) := by
  have h := encI_and 0x09#6 63#6 rs rt 0#5 0#5 imm 0#16
  simp only [BitVec.and_zero] at h
  exact h

theorem addu (rd : Reg) (rs : Reg) (rt : Reg) : Statement (.addu rd rs rt) := by
  have h := encR_and 0x00#6 63#6 rs rt rd 0#5 0#5 0#5 0#5 31#5 0x21#6 63#6
  simp only [BitVec.and_zero] at h
  exact h

theorem and (rd : Reg) (rs : Reg) (rt : Reg) : Statement (.and rd rs rt) := by
  have h := encR_and 0x00#6 63#6 rs rt rd 0#5 0#5 0#5 0#5 31#5 0x24#6 63#6
  simp only [BitVec.and_zero] at h
  exact h

theorem andi (rt : Reg) (rs : Reg) (imm : BitVec 16) : Statement (.andi rt rs imm) := by
  have h := encI_and 0x0c#6 63#6 rs rt 0#5 0#5 imm 0#16
  simp only [BitVec.and_zero] at h
  exact h

theorem lui (rt : Reg) (imm : BitVec 16) : Statement (.lui rt imm) := by
  have h := encI_and 0x0f#6 63#6 0#5 rt 31#5 0#5 imm 0#16
  simp only [BitVec.and_zero] at h
  exact h

theorem nop : Statement (.nop) := by
  have h := encR_and 0x00#6 63#6 0#5 0#5 0#5 0#5 31#5 31#5 31#5 31#5 0x00#6 63#6
  exact h

theorem nor (rd : Reg) (rs : Reg) (rt : Reg) : Statement (.nor rd rs rt) := by
  have h := encR_and 0x00#6 63#6 rs rt rd 0#5 0#5 0#5 0#5 31#5 0x27#6 63#6
  simp only [BitVec.and_zero] at h
  exact h

theorem or (rd : Reg) (rs : Reg) (rt : Reg) : Statement (.or rd rs rt) := by
  have h := encR_and 0x00#6 63#6 rs rt rd 0#5 0#5 0#5 0#5 31#5 0x25#6 63#6
  simp only [BitVec.and_zero] at h
  exact h

theorem ori (rt : Reg) (rs : Reg) (imm : BitVec 16) : Statement (.ori rt rs imm) := by
  have h := encI_and 0x0d#6 63#6 rs rt 0#5 0#5 imm 0#16
  simp only [BitVec.and_zero] at h
  exact h

theorem slt (rd : Reg) (rs : Reg) (rt : Reg) : Statement (.slt rd rs rt) := by
  have h := encR_and 0x00#6 63#6 rs rt rd 0#5 0#5 0#5 0#5 31#5 0x2a#6 63#6
  simp only [BitVec.and_zero] at h
  exact h

theorem slti (rt : Reg) (rs : Reg) (imm : BitVec 16) : Statement (.slti rt rs imm) := by
  have h := encI_and 0x0a#6 63#6 rs rt 0#5 0#5 imm 0#16
  simp only [BitVec.and_zero] at h
  exact h

theorem sltiu (rt : Reg) (rs : Reg) (imm : BitVec 16) : Statement (.sltiu rt rs imm) := by
  have h := encI_and 0x0b#6 63#6 rs rt 0#5 0#5 imm 0#16
  simp only [BitVec.and_zero] at h
  exact h

theorem sltu (rd : Reg) (rs : Reg) (rt : Reg) : Statement (.sltu rd rs rt) := by
  have h := encR_and 0x00#6 63#6 rs rt rd 0#5 0#5 0#5 0#5 31#5 0x2b#6 63#6
  simp only [BitVec.and_zero] at h
  exact h

theorem sub (rd : Reg) (rs : Reg) (rt : Reg) : Statement (.sub rd rs rt) := by
  have h := encR_and 0x00#6 63#6 rs rt rd 0#5 0#5 0#5 0#5 31#5 0x22#6 63#6
  simp only [BitVec.and_zero] at h
  exact h

theorem subu (rd : Reg) (rs : Reg) (rt : Reg) : Statement (.subu rd rs rt) := by
  have h := encR_and 0x00#6 63#6 rs rt rd 0#5 0#5 0#5 0#5 31#5 0x23#6 63#6
  simp only [BitVec.and_zero] at h
  exact h

theorem xor (rd : Reg) (rs : Reg) (rt : Reg) : Statement (.xor rd rs rt) := by
  have h := encR_and 0x00#6 63#6 rs rt rd 0#5 0#5 0#5 0#5 31#5 0x26#6 63#6
  simp only [BitVec.and_zero] at h
  exact h

theorem xori (rt : Reg) (rs : Reg) (imm : BitVec 16) : Statement (.xori rt rs imm) := by
  have h := encI_and 0x0e#6 63#6 rs rt 0#5 0#5 imm 0#16
  simp only [BitVec.and_zero] at h
  exact h

theorem sll (rd : Reg) (rt : Reg) (sa : BitVec 5) : Statement (.sll rd rt sa) := by
  have h := encR_and 0x00#6 63#6 0#5 rt rd sa 31#5 0#5 0#5 0#5 0x00#6 63#6
  simp only [BitVec.and_zero] at h
  exact h

theorem sllv (rd : Reg) (rt : Reg) (rs : Reg) : Statement (.sllv rd rt rs) := by
  have h := encR_and 0x00#6 63#6 rs rt rd 0#5 0#5 0#5 0#5 31#5 0x04#6 63#6
  simp only [BitVec.and_zero] at h
  exact h

theorem sra (rd : Reg) (rt : Reg) (sa : BitVec 5) : Statement (.sra rd rt sa) := by
  have h := encR_and 0x00#6 63#6 0#5 rt rd sa 31#5 0#5 0#5 0#5 0x03#6 63#6
  simp only [BitVec.and_zero] at h
  exact h

theorem srav (rd : Reg) (rt : Reg) (rs : Reg) : Statement (.srav rd rt rs) := by
  have h := encR_and 0x00#6 63#6 rs rt rd 0#5 0#5 0#5 0#5 31#5 0x07#6 63#6
  simp only [BitVec.and_zero] at h
  exact h

theorem srl (rd : Reg) (rt : Reg) (sa : BitVec 5) : Statement (.srl rd rt sa) := by
  have h := encR_and 0x00#6 63#6 0#5 rt rd sa 31#5 0#5 0#5 0#5 0x02#6 63#6
  simp only [BitVec.and_zero] at h
  exact h

theorem srlv (rd : Reg) (rt : Reg) (rs : Reg) : Statement (.srlv rd rt rs) := by
  have h := encR_and 0x00#6 63#6 rs rt rd 0#5 0#5 0#5 0#5 31#5 0x06#6 63#6
  simp only [BitVec.and_zero] at h
  exact h

theorem div (rs : Reg) (rt : Reg) : Statement (.div rs rt) := by
  have h := encR_and 0x00#6 63#6 rs rt 0#5 0#5 0#5 0#5 31#5 31#5 0x1a#6 63#6
  simp only [BitVec.and_zero] at h
  exact h

theorem divu (rs : Reg) (rt : Reg) : Statement (.divu rs rt) := by
  have h := encR_and 0x00#6 63#6 rs rt 0#5 0#5 0#5 0#5 31#5 31#5 0x1b#6 63#6
  simp only [BitVec.and_zero] at h
  exact h

theorem mult (rs : Reg) (rt : Reg) : Statement (.mult rs rt) := by
  have h := encR_and 0x00#6 63#6 rs rt 0#5 0#5 0#5 0#5 31#5 31#5 0x18#6 63#6
  simp only [BitVec.and_zero] at h
  exact h

theorem multu (rs : Reg) (rt : Reg) : Statement (.multu rs rt) := by
  have h := encR_and 0x00#6 63#6 rs rt 0#5 0#5 0#5 0#5 31#5 31#5 0x19#6 63#6
  simp only [BitVec.and_zero] at h
  exact h

theorem mfhi (rd : Reg) : Statement (.mfhi rd) := by
  have h := encR_and 0x00#6 63#6 0#5 0#5 rd 0#5 31#5 31#5 0#5 31#5 0x10#6 63#6
  simp only [BitVec.and_zero] at h
  exact h

theorem mflo (rd : Reg) : Statement (.mflo rd) := by
  have h := encR_and 0x00#6 63#6 0#5 0#5 rd 0#5 31#5 31#5 0#5 31#5 0x12#6 63#6
  simp only [BitVec.and_zero] at h
  exact h

theorem mthi (rs : Reg) : Statement (.mthi rs) := by
  have h := encR_and 0x00#6 63#6 rs 0#5 0#5 0#5 0#5 31#5 31#5 31#5 0x11#6 63#6
  simp only [BitVec.and_zero] at h
  exact h

theorem mtlo (rs : Reg) : Statement (.mtlo rs) := by
  have h := encR_and 0x00#6 63#6 rs 0#5 0#5 0#5 0#5 31#5 31#5 31#5 0x13#6 63#6
  simp only [BitVec.and_zero] at h
  exact h

theorem beq (rs : Reg) (rt : Reg) (offset : BitVec 16) : Statement (.beq rs rt offset) := by
  have h := encI_and 0x04#6 63#6 rs rt 0#5 0#5 offset 0#16
  simp only [BitVec.and_zero] at h
  exact h

theorem beql (rs : Reg) (rt : Reg) (offset : BitVec 16) : Statement (.beql rs rt offset) := by
  have h := encI_and 0x14#6 63#6 rs rt 0#5 0#5 offset 0#16
  simp only [BitVec.and_zero] at h
  exact h

theorem bgez (rs : Reg) (offset : BitVec 16) : Statement (.bgez rs offset) := by
  have h := encI_and 0x01#6 63#6 rs 1#5 0#5 31#5 offset 0#16
  simp only [BitVec.and_zero] at h
  exact h

theorem bgezal (rs : Reg) (offset : BitVec 16) : Statement (.bgezal rs offset) := by
  have h := encI_and 0x01#6 63#6 rs 17#5 0#5 31#5 offset 0#16
  simp only [BitVec.and_zero] at h
  exact h

theorem bgezall (rs : Reg) (offset : BitVec 16) : Statement (.bgezall rs offset) := by
  have h := encI_and 0x01#6 63#6 rs 19#5 0#5 31#5 offset 0#16
  simp only [BitVec.and_zero] at h
  exact h

theorem bgezl (rs : Reg) (offset : BitVec 16) : Statement (.bgezl rs offset) := by
  have h := encI_and 0x01#6 63#6 rs 3#5 0#5 31#5 offset 0#16
  simp only [BitVec.and_zero] at h
  exact h

theorem bgtz (rs : Reg) (offset : BitVec 16) : Statement (.bgtz rs offset) := by
  have h := encI_and 0x07#6 63#6 rs 0#5 0#5 31#5 offset 0#16
  simp only [BitVec.and_zero] at h
  exact h

theorem bgtzl (rs : Reg) (offset : BitVec 16) : Statement (.bgtzl rs offset) := by
  have h := encI_and 0x17#6 63#6 rs 0#5 0#5 31#5 offset 0#16
  simp only [BitVec.and_zero] at h
  exact h

theorem blez (rs : Reg) (offset : BitVec 16) : Statement (.blez rs offset) := by
  have h := encI_and 0x06#6 63#6 rs 0#5 0#5 31#5 offset 0#16
  simp only [BitVec.and_zero] at h
  exact h

theorem blezl (rs : Reg) (offset : BitVec 16) : Statement (.blezl rs offset) := by
  have h := encI_and 0x16#6 63#6 rs 0#5 0#5 31#5 offset 0#16
  simp only [BitVec.and_zero] at h
  exact h

theorem bltz (rs : Reg) (offset : BitVec 16) : Statement (.bltz rs offset) := by
  have h := encI_and 0x01#6 63#6 rs 0#5 0#5 31#5 offset 0#16
  simp only [BitVec.and_zero] at h
  exact h

theorem bltzal (rs : Reg) (offset : BitVec 16) : Statement (.bltzal rs offset) := by
  have h := encI_and 0x01#6 63#6 rs 16#5 0#5 31#5 offset 0#16
  simp only [BitVec.and_zero] at h
  exact h

theorem bltzall (rs : Reg) (offset : BitVec 16) : Statement (.bltzall rs offset) := by
  have h := encI_and 0x01#6 63#6 rs 18#5 0#5 31#5 offset 0#16
  simp only [BitVec.and_zero] at h
  exact h

theorem bltzl (rs : Reg) (offset : BitVec 16) : Statement (.bltzl rs offset) := by
  have h := encI_and 0x01#6 63#6 rs 2#5 0#5 31#5 offset 0#16
  simp only [BitVec.and_zero] at h
  exact h

theorem bne (rs : Reg) (rt : Reg) (offset : BitVec 16) : Statement (.bne rs rt offset) := by
  have h := encI_and 0x05#6 63#6 rs rt 0#5 0#5 offset 0#16
  simp only [BitVec.and_zero] at h
  exact h

theorem bnel (rs : Reg) (rt : Reg) (offset : BitVec 16) : Statement (.bnel rs rt offset) := by
  have h := encI_and 0x15#6 63#6 rs rt 0#5 0#5 offset 0#16
  simp only [BitVec.and_zero] at h
  exact h

theorem j (target : BitVec 26) : Statement (.j target) := by
  have h := encJ_and 0x02#6 63#6 target 0#26
  simp only [BitVec.and_zero] at h
  exact h

theorem jal (target : BitVec 26) : Statement (.jal target) := by
  have h := encJ_and 0x03#6 63#6 target 0#26
  simp only [BitVec.and_zero] at h
  exact h

theorem jalr (rd : Reg) (rs : Reg) : Statement (.jalr rd rs) := by
  have h := encR_and 0x00#6 63#6 rs 0#5 rd 0#5 0#5 31#5 0#5 31#5 0x09#6 63#6
  simp only [BitVec.and_zero] at h
  exact h

theorem jr (rs : Reg) : Statement (.jr rs) := by
  have h := encR_and 0x00#6 63#6 rs 0#5 0#5 0#5 0#5 31#5 31#5 31#5 0x08#6 63#6
  simp only [BitVec.and_zero] at h
  exact h

theorem lb (rt : Reg) (base : Reg) (offset : BitVec 16) : Statement (.lb rt base offset) := by
  have h := encI_and 0x20#6 63#6 base rt 0#5 0#5 offset 0#16
  simp only [BitVec.and_zero] at h
  exact h

theorem lbu (rt : Reg) (base : Reg) (offset : BitVec 16) : Statement (.lbu rt base offset) := by
  have h := encI_and 0x24#6 63#6 base rt 0#5 0#5 offset 0#16
  simp only [BitVec.and_zero] at h
  exact h

theorem lh (rt : Reg) (base : Reg) (offset : BitVec 16) : Statement (.lh rt base offset) := by
  have h := encI_and 0x21#6 63#6 base rt 0#5 0#5 offset 0#16
  simp only [BitVec.and_zero] at h
  exact h

theorem lhu (rt : Reg) (base : Reg) (offset : BitVec 16) : Statement (.lhu rt base offset) := by
  have h := encI_and 0x25#6 63#6 base rt 0#5 0#5 offset 0#16
  simp only [BitVec.and_zero] at h
  exact h

theorem lw (rt : Reg) (base : Reg) (offset : BitVec 16) : Statement (.lw rt base offset) := by
  have h := encI_and 0x23#6 63#6 base rt 0#5 0#5 offset 0#16
  simp only [BitVec.and_zero] at h
  exact h

theorem lwl (rt : Reg) (base : Reg) (offset : BitVec 16) : Statement (.lwl rt base offset) := by
  have h := encI_and 0x22#6 63#6 base rt 0#5 0#5 offset 0#16
  simp only [BitVec.and_zero] at h
  exact h

theorem lwr (rt : Reg) (base : Reg) (offset : BitVec 16) : Statement (.lwr rt base offset) := by
  have h := encI_and 0x26#6 63#6 base rt 0#5 0#5 offset 0#16
  simp only [BitVec.and_zero] at h
  exact h

theorem sb (rt : Reg) (base : Reg) (offset : BitVec 16) : Statement (.sb rt base offset) := by
  have h := encI_and 0x28#6 63#6 base rt 0#5 0#5 offset 0#16
  simp only [BitVec.and_zero] at h
  exact h

theorem sh (rt : Reg) (base : Reg) (offset : BitVec 16) : Statement (.sh rt base offset) := by
  have h := encI_and 0x29#6 63#6 base rt 0#5 0#5 offset 0#16
  simp only [BitVec.and_zero] at h
  exact h

theorem sw (rt : Reg) (base : Reg) (offset : BitVec 16) : Statement (.sw rt base offset) := by
  have h := encI_and 0x2b#6 63#6 base rt 0#5 0#5 offset 0#16
  simp only [BitVec.and_zero] at h
  exact h

theorem swl (rt : Reg) (base : Reg) (offset : BitVec 16) : Statement (.swl rt base offset) := by
  have h := encI_and 0x2a#6 63#6 base rt 0#5 0#5 offset 0#16
  simp only [BitVec.and_zero] at h
  exact h

theorem swr (rt : Reg) (base : Reg) (offset : BitVec 16) : Statement (.swr rt base offset) := by
  have h := encI_and 0x2e#6 63#6 base rt 0#5 0#5 offset 0#16
  simp only [BitVec.and_zero] at h
  exact h

theorem brk (code : BitVec 20) : Statement (.brk code) := by
  have h := encCode_and code 0#20 0x0d#6 63#6
  simp only [BitVec.and_zero] at h
  exact h

theorem syscall (code : BitVec 20) : Statement (.syscall code) := by
  have h := encCode_and code 0#20 0x0c#6 63#6
  simp only [BitVec.and_zero] at h
  exact h

theorem eret : Statement (.eret) := by
  have h := encR_and 0x10#6 63#6 16#5 0#5 0#5 0#5 31#5 31#5 31#5 31#5 0x18#6 63#6
  exact h

theorem mfc0 (rt : Reg) (rd : Reg) : Statement (.mfc0 rt rd) := by
  have h := encR_and 0x10#6 63#6 0#5 rt rd 0#5 31#5 0#5 0#5 31#5 0x00#6 63#6
  simp only [BitVec.and_zero] at h
  exact h

theorem mtc0 (rt : Reg) (rd : Reg) : Statement (.mtc0 rt rd) := by
  have h := encR_and 0x10#6 63#6 4#5 rt rd 0#5 31#5 0#5 0#5 31#5 0x00#6 63#6
  simp only [BitVec.and_zero] at h
  exact h

theorem bc1f (offset : BitVec 16) : Statement (.bc1f offset) := by
  have h := encI_and 0x11#6 63#6 8#5 0#5 31#5 31#5 offset 0#16
  simp only [BitVec.and_zero] at h
  exact h

theorem bc1fl (offset : BitVec 16) : Statement (.bc1fl offset) := by
  have h := encI_and 0x11#6 63#6 8#5 2#5 31#5 31#5 offset 0#16
  simp only [BitVec.and_zero] at h
  exact h

theorem bc1t (offset : BitVec 16) : Statement (.bc1t offset) := by
  have h := encI_and 0x11#6 63#6 8#5 1#5 31#5 31#5 offset 0#16
  simp only [BitVec.and_zero] at h
  exact h

theorem bc1tl (offset : BitVec 16) : Statement (.bc1tl offset) := by
  have h := encI_and 0x11#6 63#6 8#5 3#5 31#5 31#5 offset 0#16
  simp only [BitVec.and_zero] at h
  exact h

theorem cfc1 (rt : Reg) (fs : Reg) : Statement (.cfc1 rt fs) := by
  have h := encR_and 0x11#6 63#6 2#5 rt fs 0#5 31#5 0#5 0#5 31#5 0x00#6 63#6
  simp only [BitVec.and_zero] at h
  exact h

theorem ctc1 (rt : Reg) (fs : Reg) : Statement (.ctc1 rt fs) := by
  have h := encR_and 0x11#6 63#6 6#5 rt fs 0#5 31#5 0#5 0#5 31#5 0x00#6 63#6
  simp only [BitVec.and_zero] at h
  exact h

theorem lwc1 (ft : Reg) (base : Reg) (offset : BitVec 16) : Statement (.lwc1 ft base offset) := by
  have h := encI_and 0x31#6 63#6 base ft 0#5 0#5 offset 0#16
  simp only [BitVec.and_zero] at h
  exact h

theorem mfc1 (rt : Reg) (fs : Reg) : Statement (.mfc1 rt fs) := by
  have h := encR_and 0x11#6 63#6 0#5 rt fs 0#5 31#5 0#5 0#5 31#5 0x00#6 63#6
  simp only [BitVec.and_zero] at h
  exact h

theorem mtc1 (rt : Reg) (fs : Reg) : Statement (.mtc1 rt fs) := by
  have h := encR_and 0x11#6 63#6 4#5 rt fs 0#5 31#5 0#5 0#5 31#5 0x00#6 63#6
  simp only [BitVec.and_zero] at h
  exact h

theorem swc1 (ft : Reg) (base : Reg) (offset : BitVec 16) : Statement (.swc1 ft base offset) := by
  have h := encI_and 0x39#6 63#6 base ft 0#5 0#5 offset 0#16
  simp only [BitVec.and_zero] at h
  exact h

theorem clo (rd : Reg) (rs : Reg) : Statement (.clo rd rs) := by
  have h := encR_and 0x00#6 63#6 rs 0#5 rd 0#5 0#5 31#5 0#5 31#5 0x17#6 63#6
  simp only [BitVec.and_zero] at h
  exact h

theorem clz (rd : Reg) (rs : Reg) : Statement (.clz rd rs) := by
  have h := encR_and 0x00#6 63#6 rs 0#5 rd 0#5 0#5 31#5 0#5 31#5 0x16#6 63#6
  simp only [BitVec.and_zero] at h
  exact h

theorem madd (rs : Reg) (rt : Reg) : Statement (.madd rs rt) := by
  have h := encR_and 0x00#6 63#6 rs rt 0#5 0#5 0#5 0#5 31#5 31#5 0x1c#6 63#6
  simp only [BitVec.and_zero] at h
  exact h

theorem maddu (rs : Reg) (rt : Reg) : Statement (.maddu rs rt) := by
  have h := encR_and 0x00#6 63#6 rs rt 0#5 0#5 0#5 0#5 31#5 31#5 0x1d#6 63#6
  simp only [BitVec.and_zero] at h
  exact h

theorem msub (rs : Reg) (rt : Reg) : Statement (.msub rs rt) := by
  have h := encR_and 0x00#6 63#6 rs rt 0#5 0#5 0#5 0#5 31#5 31#5 0x2e#6 63#6
  simp only [BitVec.and_zero] at h
  exact h

theorem msubu (rs : Reg) (rt : Reg) : Statement (.msubu rs rt) := by
  have h := encR_and 0x00#6 63#6 rs rt 0#5 0#5 0#5 0#5 31#5 31#5 0x2f#6 63#6
  simp only [BitVec.and_zero] at h
  exact h

theorem max (rd : Reg) (rs : Reg) (rt : Reg) : Statement (.max rd rs rt) := by
  have h := encR_and 0x00#6 63#6 rs rt rd 0#5 0#5 0#5 0#5 31#5 0x2c#6 63#6
  simp only [BitVec.and_zero] at h
  exact h

theorem min (rd : Reg) (rs : Reg) (rt : Reg) : Statement (.min rd rs rt) := by
  have h := encR_and 0x00#6 63#6 rs rt rd 0#5 0#5 0#5 0#5 31#5 0x2d#6 63#6
  simp only [BitVec.and_zero] at h
  exact h

theorem movn (rd : Reg) (rs : Reg) (rt : Reg) : Statement (.movn rd rs rt) := by
  have h := encR_and 0x00#6 63#6 rs rt rd 0#5 0#5 0#5 0#5 31#5 0x0b#6 63#6
  simp only [BitVec.and_zero] at h
  exact h

theorem movz (rd : Reg) (rs : Reg) (rt : Reg) : Statement (.movz rd rs rt) := by
  have h := encR_and 0x00#6 63#6 rs rt rd 0#5 0#5 0#5 0#5 31#5 0x0a#6 63#6
  simp only [BitVec.and_zero] at h
  exact h

theorem ext (rt : Reg) (rs : Reg) (msbd : BitVec 5) (lsb : BitVec 5) : Statement (.ext rt rs msbd lsb) := by
  have h := encR_and 0x1f#6 63#6 rs rt msbd lsb 0#5 0#5 0#5 0#5 0x00#6 63#6
  simp only [BitVec.and_zero] at h
  exact h

theorem ins (rt : Reg) (rs : Reg) (msb : BitVec 5) (lsb : BitVec 5) : Statement (.ins rt rs msb lsb) := by
  have h := encR_and 0x1f#6 63#6 rs rt msb lsb 0#5 0#5 0#5 0#5 0x04#6 63#6
  simp only [BitVec.and_zero] at h
  exact h

theorem seb (rd : Reg) (rt : Reg) : Statement (.seb rd rt) := by
  have h := encR_and 0x1f#6 63#6 0#5 rt rd 16#5 31#5 0#5 0#5 31#5 0x20#6 63#6
  simp only [BitVec.and_zero] at h
  exact h

theorem seh (rd : Reg) (rt : Reg) : Statement (.seh rd rt) := by
  have h := encR_and 0x1f#6 63#6 0#5 rt rd 24#5 31#5 0#5 0#5 31#5 0x20#6 63#6
  simp only [BitVec.and_zero] at h
  exact h

theorem bitrev (rd : Reg) (rt : Reg) : Statement (.bitrev rd rt) := by
  have h := encR_and 0x1f#6 63#6 0#5 rt rd 20#5 31#5 0#5 0#5 31#5 0x20#6 63#6
  simp only [BitVec.and_zero] at h
  exact h

theorem rotr (rd : Reg) (rt : Reg) (sa : BitVec 5) : Statement (.rotr rd rt sa) := by
  have h := encR_and 0x00#6 63#6 1#5 rt rd sa 31#5 0#5 0#5 0#5 0x02#6 63#6
  simp only [BitVec.and_zero] at h
  exact h

theorem rotrv (rd : Reg) (rt : Reg) (rs : Reg) : Statement (.rotrv rd rt rs) := by
  have h := encR_and 0x00#6 63#6 rs rt rd 1#5 0#5 0#5 0#5 31#5 0x06#6 63#6
  simp only [BitVec.and_zero] at h
  exact h

theorem wsbh (rd : Reg) (rt : Reg) : Statement (.wsbh rd rt) := by
  have h := encR_and 0x1f#6 63#6 0#5 rt rd 2#5 31#5 0#5 0#5 31#5 0x20#6 63#6
  simp only [BitVec.and_zero] at h
  exact h

theorem wsbw (rd : Reg) (rt : Reg) : Statement (.wsbw rd rt) := by
  have h := encR_and 0x1f#6 63#6 0#5 rt rd 3#5 31#5 0#5 0#5 31#5 0x20#6 63#6
  simp only [BitVec.and_zero] at h
  exact h

theorem cacheIndexInvalidateI (base : Reg) (offset : BitVec 16) : Statement (.cacheIndexInvalidateI base offset) := by
  have h := encI_and 0x2f#6 63#6 base 4#5 0#5 31#5 offset 0#16
  simp only [BitVec.and_zero] at h
  exact h

theorem cacheIndexUnlockI (base : Reg) (offset : BitVec 16) : Statement (.cacheIndexUnlockI base offset) := by
  have h := encI_and 0x2f#6 63#6 base 6#5 0#5 31#5 offset 0#16
  simp only [BitVec.and_zero] at h
  exact h

theorem cacheHitInvalidateI (base : Reg) (offset : BitVec 16) : Statement (.cacheHitInvalidateI base offset) := by
  have h := encI_and 0x2f#6 63#6 base 8#5 0#5 31#5 offset 0#16
  simp only [BitVec.and_zero] at h
  exact h

theorem cacheFillI (base : Reg) (offset : BitVec 16) : Statement (.cacheFillI base offset) := by
  have h := encI_and 0x2f#6 63#6 base 10#5 0#5 31#5 offset 0#16
  simp only [BitVec.and_zero] at h
  exact h

theorem cacheFillLockI (base : Reg) (offset : BitVec 16) : Statement (.cacheFillLockI base offset) := by
  have h := encI_and 0x2f#6 63#6 base 11#5 0#5 31#5 offset 0#16
  simp only [BitVec.and_zero] at h
  exact h

theorem cacheIndexWritebackInvalidateD (base : Reg) (offset : BitVec 16) : Statement (.cacheIndexWritebackInvalidateD base offset) := by
  have h := encI_and 0x2f#6 63#6 base 20#5 0#5 31#5 offset 0#16
  simp only [BitVec.and_zero] at h
  exact h

theorem cacheIndexUnlockD (base : Reg) (offset : BitVec 16) : Statement (.cacheIndexUnlockD base offset) := by
  have h := encI_and 0x2f#6 63#6 base 22#5 0#5 31#5 offset 0#16
  simp only [BitVec.and_zero] at h
  exact h

theorem cacheCreateDirtyD (base : Reg) (offset : BitVec 16) : Statement (.cacheCreateDirtyD base offset) := by
  have h := encI_and 0x2f#6 63#6 base 24#5 0#5 31#5 offset 0#16
  simp only [BitVec.and_zero] at h
  exact h

theorem cacheHitInvalidateD (base : Reg) (offset : BitVec 16) : Statement (.cacheHitInvalidateD base offset) := by
  have h := encI_and 0x2f#6 63#6 base 25#5 0#5 31#5 offset 0#16
  simp only [BitVec.and_zero] at h
  exact h

theorem cacheHitWritebackD (base : Reg) (offset : BitVec 16) : Statement (.cacheHitWritebackD base offset) := by
  have h := encI_and 0x2f#6 63#6 base 26#5 0#5 31#5 offset 0#16
  simp only [BitVec.and_zero] at h
  exact h

theorem cacheHitWritebackInvalidateD (base : Reg) (offset : BitVec 16) : Statement (.cacheHitWritebackInvalidateD base offset) := by
  have h := encI_and 0x2f#6 63#6 base 27#5 0#5 31#5 offset 0#16
  simp only [BitVec.and_zero] at h
  exact h

theorem cacheCreateDirtyLockD (base : Reg) (offset : BitVec 16) : Statement (.cacheCreateDirtyLockD base offset) := by
  have h := encI_and 0x2f#6 63#6 base 28#5 0#5 31#5 offset 0#16
  simp only [BitVec.and_zero] at h
  exact h

theorem cacheFillD (base : Reg) (offset : BitVec 16) : Statement (.cacheFillD base offset) := by
  have h := encI_and 0x2f#6 63#6 base 30#5 0#5 31#5 offset 0#16
  simp only [BitVec.and_zero] at h
  exact h

theorem cacheFillLockD (base : Reg) (offset : BitVec 16) : Statement (.cacheFillLockD base offset) := by
  have h := encI_and 0x2f#6 63#6 base 31#5 0#5 31#5 offset 0#16
  simp only [BitVec.and_zero] at h
  exact h

theorem sync : Statement (.sync) := by
  have h := encR_and 0x00#6 63#6 0#5 0#5 0#5 0#5 31#5 31#5 31#5 31#5 0x0f#6 63#6
  exact h

theorem ll (rt : Reg) (base : Reg) (offset : BitVec 16) : Statement (.ll rt base offset) := by
  have h := encI_and 0x30#6 63#6 base rt 0#5 0#5 offset 0#16
  simp only [BitVec.and_zero] at h
  exact h

theorem sc (rt : Reg) (base : Reg) (offset : BitVec 16) : Statement (.sc rt base offset) := by
  have h := encI_and 0x38#6 63#6 base rt 0#5 0#5 offset 0#16
  simp only [BitVec.and_zero] at h
  exact h

end Sys2Proof.Laws.TableRow
end

