-- ==== Sys2Proof/Tests/Slice0.lean ====
section
/-! SUPPORT. Tests: what WellFormed refuses, the decoding of one written-out word for every constructor, one instruction at a
time on a small state, and for each obligation that has hypotheses a state that meets them. The words and the results are those
of the spec's vector tables (95_test_vectors.md, parts 1 and 2); where a test has another source its comment says so. -/

set_option maxRecDepth 100000

namespace Sys2Proof.Tests

open Sys2Proof.Machine

/-! ### Well-formedness: one ill-formed term for each check -/

theorem test_illformed_link_rs31 : (Instr.bgezal 31#5 16#16).wellFormed = false ∧
    (Instr.bgezall 31#5 16#16).wellFormed = false ∧ (Instr.bltzal 31#5 16#16).wellFormed = false ∧
    (Instr.bltzall 31#5 16#16).wellFormed = false ∧ (Instr.bgezal 31#5 16#16).brokenByFields = some .c := by decide
theorem test_illformed_jalr_rd_rs : (Instr.jalr 2#5 2#5).wellFormed = false ∧
    (Instr.jalr 2#5 2#5).brokenByFields = some .e := by decide
theorem test_illformed_ext_size : (Instr.ext 2#5 1#5 16#5 16#5).wellFormed = false ∧
    (Instr.ext 2#5 1#5 16#5 16#5).brokenByFields = some .h ∧ (Instr.ext 2#5 1#5 15#5 16#5).wellFormed = true := by decide
theorem test_illformed_ins_size : (Instr.ins 2#5 1#5 3#5 8#5).wellFormed = false ∧
    (Instr.ins 2#5 1#5 3#5 8#5).brokenByFields = some .i ∧ (Instr.ins 2#5 1#5 8#5 8#5).wellFormed = true := by decide
theorem test_illformed_cfc1_fs : (Instr.cfc1 2#5 5#5).wellFormed = false ∧ (Instr.cfc1 2#5 5#5).brokenByFields = some .j := by decide
theorem test_illformed_ctc1_fs : (Instr.ctc1 2#5 0#5).wellFormed = false ∧ (Instr.ctc1 2#5 30#5).brokenByFields = some .k := by decide
theorem test_illformed_sll_nop : (Instr.sll 0#5 0#5 0#5).wellFormed = false ∧ Instr.nop.wellFormed = true ∧
    (Instr.sll 0#5 0#5 1#5).wellFormed = true := by decide

/-! ### Decoding: the words of the vector tables, written out field by field -/

theorem test_decode_arithmetic_logic :
    decode 0b000000_00001_00010_00011_00000_100000#32 = .instr (.add 3#5 1#5 2#5) ∧
    decode 0b001000_00001_00010_1000000000000000#32 = .instr (.addi 2#5 1#5 32768#16) ∧
    decode 0b001001_00001_00010_1000000000000000#32 = .instr (.addiu 2#5 1#5 32768#16) ∧
    decode 0b000000_00001_00010_00011_00000_100001#32 = .instr (.addu 3#5 1#5 2#5) ∧
    decode 0b000000_00001_00010_00011_00000_100100#32 = .instr (.and 3#5 1#5 2#5) ∧
    decode 0b001100_00001_00010_1111111111111111#32 = .instr (.andi 2#5 1#5 65535#16) ∧
    decode 0b001111_00000_00001_1111111111111111#32 = .instr (.lui 1#5 65535#16) ∧
    decode 0b000000_00001_00010_00011_00000_100111#32 = .instr (.nor 3#5 1#5 2#5) ∧
    decode 0b000000_00001_00010_00011_00000_100101#32 = .instr (.or 3#5 1#5 2#5) ∧
    decode 0b001101_00000_00010_1111111111111111#32 = .instr (.ori 2#5 0#5 65535#16) ∧
    decode 0b000000_00001_00010_00011_00000_101010#32 = .instr (.slt 3#5 1#5 2#5) ∧
    decode 0b001010_00001_00010_1000000000000000#32 = .instr (.slti 2#5 1#5 32768#16) := by decide

theorem test_decode_arithmetic_logic_2 :
    decode 0b001011_00001_00010_1111111111111111#32 = .instr (.sltiu 2#5 1#5 65535#16) ∧
    decode 0b000000_00001_00010_00011_00000_101011#32 = .instr (.sltu 3#5 1#5 2#5) ∧
    decode 0b000000_00001_00010_00011_00000_100010#32 = .instr (.sub 3#5 1#5 2#5) ∧
    decode 0b000000_00001_00010_00011_00000_100011#32 = .instr (.subu 3#5 1#5 2#5) ∧
    decode 0b000000_00001_00010_00011_00000_100110#32 = .instr (.xor 3#5 1#5 2#5) ∧
    decode 0b001110_00001_00010_1000000000000000#32 = .instr (.xori 2#5 1#5 32768#16) ∧
    decode 0b000000_00000_00000_00000_00000_000000#32 = .instr .nop := by decide

theorem test_decode_shifts :
    decode 0b000000_00000_00001_00010_11111_000000#32 = .instr (.sll 2#5 1#5 31#5) ∧
    decode 0b000000_00010_00001_00011_00000_000100#32 = .instr (.sllv 3#5 1#5 2#5) ∧
    decode 0b000000_00000_00001_00010_11111_000011#32 = .instr (.sra 2#5 1#5 31#5) ∧
    decode 0b000000_00010_00001_00011_00000_000111#32 = .instr (.srav 3#5 1#5 2#5) ∧
    decode 0b000000_00000_00001_00010_11111_000010#32 = .instr (.srl 2#5 1#5 31#5) ∧
    decode 0b000000_00010_00001_00011_00000_000110#32 = .instr (.srlv 3#5 1#5 2#5) := by decide

theorem test_decode_multiply_divide :
    decode 0b000000_00001_00010_00000_00000_011010#32 = .instr (.div 1#5 2#5) ∧
    decode 0b000000_00001_00010_00000_00000_011011#32 = .instr (.divu 1#5 2#5) ∧
    decode 0b000000_00001_00010_00000_00000_011000#32 = .instr (.mult 1#5 2#5) ∧
    decode 0b000000_00001_00010_00000_00000_011001#32 = .instr (.multu 1#5 2#5) ∧
    decode 0b000000_00000_00000_00011_00000_010000#32 = .instr (.mfhi 3#5) ∧
    decode 0b000000_00000_00000_00011_00000_010010#32 = .instr (.mflo 3#5) ∧
    decode 0b000000_00001_00000_00000_00000_010001#32 = .instr (.mthi 1#5) ∧
    decode 0b000000_00001_00000_00000_00000_010011#32 = .instr (.mtlo 1#5) := by decide

theorem test_decode_branches_jumps :
    decode 0b000100_00001_00010_1000000000000000#32 = .instr (.beq 1#5 2#5 32768#16) ∧
    decode 0b010100_00001_00010_0000000000010000#32 = .instr (.beql 1#5 2#5 16#16) ∧
    decode 0b000001_00001_00001_0000000000010000#32 = .instr (.bgez 1#5 16#16) ∧
    decode 0b000001_00001_10001_0000000000010000#32 = .instr (.bgezal 1#5 16#16) ∧
    decode 0b000001_00001_10011_0000000000010000#32 = .instr (.bgezall 1#5 16#16) ∧
    decode 0b000001_00001_00011_0000000000010000#32 = .instr (.bgezl 1#5 16#16) ∧
    decode 0b000111_00001_00000_0000000000010000#32 = .instr (.bgtz 1#5 16#16) ∧
    decode 0b010111_00001_00000_0000000000010000#32 = .instr (.bgtzl 1#5 16#16) ∧
    decode 0b000110_00001_00000_0000000000010000#32 = .instr (.blez 1#5 16#16) ∧
    decode 0b010110_00001_00000_0000000000010000#32 = .instr (.blezl 1#5 16#16) ∧
    decode 0b000001_00001_00000_0000000000010000#32 = .instr (.bltz 1#5 16#16) ∧
    decode 0b000001_00001_10000_1111111111111100#32 = .instr (.bltzal 1#5 65532#16) := by decide

theorem test_decode_branches_jumps_2 :
    decode 0b000001_00001_10010_0000000000010000#32 = .instr (.bltzall 1#5 16#16) ∧
    decode 0b000001_00001_00010_0000000000010000#32 = .instr (.bltzl 1#5 16#16) ∧
    decode 0b000101_00001_00010_0000000000010000#32 = .instr (.bne 1#5 2#5 16#16) ∧
    decode 0b010101_00001_00010_0000000000010000#32 = .instr (.bnel 1#5 2#5 16#16) ∧
    decode 0b000010_11111111111111111111111111#32 = .instr (.j 67108863#26) ∧
    decode 0b000011_00000000000000010000000000#32 = .instr (.jal 1024#26) ∧
    decode 0b000000_00010_00000_00101_00000_001001#32 = .instr (.jalr 5#5 2#5) ∧
    decode 0b000000_00010_00000_00000_00000_001000#32 = .instr (.jr 2#5) := by decide

theorem test_decode_loads_stores :
    decode 0b100000_00001_00010_0000000000000111#32 = .instr (.lb 2#5 1#5 7#16) ∧
    decode 0b100100_00001_00010_0000000000000111#32 = .instr (.lbu 2#5 1#5 7#16) ∧
    decode 0b100001_00001_00010_0000000000000110#32 = .instr (.lh 2#5 1#5 6#16) ∧
    decode 0b100101_00001_00010_0000000000000110#32 = .instr (.lhu 2#5 1#5 6#16) ∧
    decode 0b100011_00001_00010_0000000000000100#32 = .instr (.lw 2#5 1#5 4#16) ∧
    decode 0b100010_00001_00010_0000000000000011#32 = .instr (.lwl 2#5 1#5 3#16) ∧
    decode 0b100110_00001_00010_0000000000000011#32 = .instr (.lwr 2#5 1#5 3#16) ∧
    decode 0b101000_00001_00010_0000000000000111#32 = .instr (.sb 2#5 1#5 7#16) ∧
    decode 0b101001_00001_00010_0000000000000100#32 = .instr (.sh 2#5 1#5 4#16) ∧
    decode 0b101011_00001_00010_0000000000000100#32 = .instr (.sw 2#5 1#5 4#16) ∧
    decode 0b101010_00001_00010_0000000000000011#32 = .instr (.swl 2#5 1#5 3#16) ∧
    decode 0b101110_00001_00010_0000000000000011#32 = .instr (.swr 2#5 1#5 3#16) := by decide

theorem test_decode_system :
    decode 0b000000_00000000000000000111_001101#32 = .instr (.brk 7#20) ∧
    decode 0b000000_00010010001101000101_001100#32 = .instr (.syscall 74565#20) ∧
    decode 0b010000_10000_00000_00000_00000_011000#32 = .instr .eret ∧
    decode 0b010000_00000_00010_01100_00000_000000#32 = .instr (.mfc0 2#5 12#5) ∧
    decode 0b010000_00100_00010_01100_00000_000000#32 = .instr (.mtc0 2#5 12#5) := by decide

theorem test_decode_fpu :
    decode 0b010001_01000_00000_0000000000000011#32 = .instr (.bc1f 3#16) ∧
    decode 0b010001_01000_00010_0000000000000011#32 = .instr (.bc1fl 3#16) ∧
    decode 0b010001_01000_00001_0000000000000011#32 = .instr (.bc1t 3#16) ∧
    decode 0b010001_01000_00011_0000000000000011#32 = .instr (.bc1tl 3#16) ∧
    decode 0b010001_00010_00010_11111_00000_000000#32 = .instr (.cfc1 2#5 31#5) ∧
    decode 0b010001_00110_00010_11111_00000_000000#32 = .instr (.ctc1 2#5 31#5) ∧
    decode 0b110001_00001_00100_1111111111111100#32 = .instr (.lwc1 4#5 1#5 65532#16) ∧
    decode 0b010001_00000_00010_00100_00000_000000#32 = .instr (.mfc1 2#5 4#5) ∧
    decode 0b010001_00100_00010_00100_00000_000000#32 = .instr (.mtc1 2#5 4#5) ∧
    decode 0b111001_00001_00100_0000000000000100#32 = .instr (.swc1 4#5 1#5 4#16) := by decide

theorem test_decode_allegrex_alu :
    decode 0b000000_00001_00000_00011_00000_010111#32 = .instr (.clo 3#5 1#5) ∧
    decode 0b000000_00001_00000_00011_00000_010110#32 = .instr (.clz 3#5 1#5) ∧
    decode 0b000000_00001_00010_00000_00000_011100#32 = .instr (.madd 1#5 2#5) ∧
    decode 0b000000_00001_00010_00000_00000_011101#32 = .instr (.maddu 1#5 2#5) ∧
    decode 0b000000_00001_00010_00000_00000_101110#32 = .instr (.msub 1#5 2#5) ∧
    decode 0b000000_00001_00010_00000_00000_101111#32 = .instr (.msubu 1#5 2#5) ∧
    decode 0b000000_00001_00010_00011_00000_101100#32 = .instr (.max 3#5 1#5 2#5) ∧
    decode 0b000000_00001_00010_00011_00000_101101#32 = .instr (.min 3#5 1#5 2#5) ∧
    decode 0b000000_00001_00010_00011_00000_001011#32 = .instr (.movn 3#5 1#5 2#5) ∧
    decode 0b000000_00001_00010_00011_00000_001010#32 = .instr (.movz 3#5 1#5 2#5) ∧
    decode 0b011111_00001_00010_10111_00100_000000#32 = .instr (.ext 2#5 1#5 23#5 4#5) ∧
    decode 0b011111_00001_00010_11011_00100_000100#32 = .instr (.ins 2#5 1#5 27#5 4#5) := by decide

theorem test_decode_allegrex_alu_2 :
    decode 0b011111_00000_00001_00011_10000_100000#32 = .instr (.seb 3#5 1#5) ∧
    decode 0b011111_00000_00001_00011_11000_100000#32 = .instr (.seh 3#5 1#5) ∧
    decode 0b011111_00000_00001_00011_10100_100000#32 = .instr (.bitrev 3#5 1#5) ∧
    decode 0b000000_00001_00001_00011_11111_000010#32 = .instr (.rotr 3#5 1#5 31#5) ∧
    decode 0b000000_00010_00001_00011_00001_000110#32 = .instr (.rotrv 3#5 1#5 2#5) ∧
    decode 0b011111_00000_00001_00011_00010_100000#32 = .instr (.wsbh 3#5 1#5) ∧
    decode 0b011111_00000_00001_00011_00011_100000#32 = .instr (.wsbw 3#5 1#5) := by decide

theorem test_decode_cache_sync :
    decode 0b101111_00100_00100_0000000000000000#32 = .instr (.cacheIndexInvalidateI 4#5 0#16) ∧
    decode 0b101111_00100_00110_0000000000000000#32 = .instr (.cacheIndexUnlockI 4#5 0#16) ∧
    decode 0b101111_00100_01000_0000000001000000#32 = .instr (.cacheHitInvalidateI 4#5 64#16) ∧
    decode 0b101111_00100_01010_0000000000000000#32 = .instr (.cacheFillI 4#5 0#16) ∧
    decode 0b101111_00100_01011_0000000000000000#32 = .instr (.cacheFillLockI 4#5 0#16) ∧
    decode 0b101111_00100_10100_0000000000000000#32 = .instr (.cacheIndexWritebackInvalidateD 4#5 0#16) ∧
    decode 0b101111_00100_10110_0000000000000000#32 = .instr (.cacheIndexUnlockD 4#5 0#16) ∧
    decode 0b101111_00100_11000_0000000000000000#32 = .instr (.cacheCreateDirtyD 4#5 0#16) ∧
    decode 0b101111_00100_11001_0000000000000000#32 = .instr (.cacheHitInvalidateD 4#5 0#16) ∧
    decode 0b101111_00100_11010_0000000000000000#32 = .instr (.cacheHitWritebackD 4#5 0#16) ∧
    decode 0b101111_00100_11011_0000000000000000#32 = .instr (.cacheHitWritebackInvalidateD 4#5 0#16) ∧
    decode 0b101111_00100_11100_0000000000000000#32 = .instr (.cacheCreateDirtyLockD 4#5 0#16) := by decide

theorem test_decode_cache_sync_2 :
    decode 0b101111_00100_11110_0000000000000000#32 = .instr (.cacheFillD 4#5 0#16) ∧
    decode 0b101111_00100_11111_0000000000000000#32 = .instr (.cacheFillLockD 4#5 0#16) ∧
    decode 0b000000_00000_00000_00000_00000_001111#32 = .instr .sync := by decide

theorem test_decode_linked :
    decode 0b110000_00001_00010_0000000000000100#32 = .instr (.ll 2#5 1#5 4#16) ∧
    decode 0b111000_00001_00010_0000000000000100#32 = .instr (.sc 2#5 1#5 4#16) := by decide

/-- R99: `sll r0, r0, 1` is an ordinary `sll`. The rest are the words of part 2.0 without an instruction. -/
theorem test_decode_rejects :
    decode 0x00000040#32 = .instr (.sll 0#5 0#5 1#5) ∧
    decode 0x0000000E#32 = .reject .reserved ∧ decode 0x68000000#32 = .reject .reserved ∧
    decode 0x04040000#32 = .reject .reserved ∧ decode 0x42000001#32 = .reject .reserved ∧
    decode 0xBC800000#32 = .reject .reserved ∧ decode 0xBC9D0000#32 = .reject .reserved ∧
    decode 0x70000000#32 = .reject .namedOnly ∧ decode 0x46000000#32 = .reject .namedOnly ∧
    decode 0xD0000000#32 = .reject .namedOnly ∧ decode 0x00221860#32 = .reject .nonzeroField ∧
    decode 0x0000004F#32 = .reject .nonzeroField ∧ decode 0x00411802#32 = .reject .blankCell ∧
    decode 0x7C011820#32 = .reject .blankCell := by decide

theorem test_decode_table_word : decodeTableWord 32 0x00221820 = some (.add 3#5 1#5 2#5) ∧
    decodeTableWord 32 0x0000000E = none := by decide

/-! ### One instruction at a time -/

/-- The start of the vector tables: `cur` = 0x1000, kernel mode with CU0 = CU1 = 1, the bytes `80 91 A2 B3 C4 D5 E6 F7` at
0x2000. -/
def start : State :=
  { State.reset with
    pc := 0x1000#32, npc := 0x1004#32
    cp0Regs := State.reset.cp0Regs.set 12 0x30000000#32
    mem := [(0x2000, 0x80#8), (0x2001, 0x91#8), (0x2002, 0xA2#8), (0x2003, 0xB3#8),
            (0x2004, 0xC4#8), (0x2005, 0xD5#8), (0x2006, 0xE6#8), (0x2007, 0xF7#8)] }

/-- The start with `x[1]` and `x[2]`. -/
def on (a b : Word) : State := (start.setX 1#5 a).setX 2#5 b

/-- The start with HI and LO. -/
def acc (a b hi lo : Word) : State := ((on a b).setHi hi).setLo lo

/-- The start in another Status. -/
def inStatus (status : Word) : State := (on 0x2000#32 0#32).setCp0 statusReg status

/-- What `f` sees after the instruction, if it answers a next state. -/
def see {α : Type} (i : Instr) (s : State) (f : State → α) : Option α :=
  match exec i s with
  | .next t => some (f t)
  | _ => none

/-- What an exception leaves: ExcCode, EPC, the program counter. -/
def trap (t : State) : BitVec 5 × Word × Word := ((t.cp0 causeReg).extractLsb' 2 5, t.cp0 epcReg, t.pc)

/-- ExcCode and BadVAddr. -/
def trapAt (t : State) : BitVec 5 × Word := ((t.cp0 causeReg).extractLsb' 2 5, t.cp0 badVAddrReg)

/-- Where the machine goes next. -/
def flow (t : State) : Word × Word := (t.pc, t.npc)

/-- The eight bytes at 0x2000 that a load sees. -/
def data (t : State) : List Byte := (List.range 8).map fun i => t.dataByte (0x2000 + i)

/-- The refusal of an instruction, if it is refused. -/
def refusal (i : Instr) (s : State) : Option Refusal :=
  match exec i s with
  | .refused r => some r
  | _ => none

theorem test_add : see (.add 3#5 1#5 2#5) (on 0x7FFFFFFF#32 0x80000000#32) (·.x 3#5) = some 0xFFFFFFFF#32 := by decide
theorem test_add_overflow : see (.add 3#5 1#5 2#5) (on 0x7FFFFFFF#32 0x1#32) trap =
    some (12#5, 0x1000#32, 0x80000180#32) := by decide
theorem test_addi : see (.addi 2#5 1#5 32767#16) (on 0x7FFF8000#32 0x0#32) (·.x 2#5) = some 0x7FFFFFFF#32 := by decide
theorem test_addi_overflow : see (.addi 2#5 1#5 65535#16) (on 0x80000000#32 0x0#32) trap =
    some (12#5, 0x1000#32, 0x80000180#32) := by decide
theorem test_addiu : see (.addiu 2#5 1#5 32768#16) (on 0x1000#32 0x0#32) (·.x 2#5) = some 0xFFFF9000#32 := by decide
theorem test_addu : see (.addu 3#5 1#5 2#5) (on 0xFFFFFFFF#32 0x1#32) (·.x 3#5) = some 0x0#32 := by decide
theorem test_and : see (.and 3#5 1#5 2#5) (on 0xFFFF0000#32 0xFF00FF00#32) (·.x 3#5) = some 0xFF000000#32 := by decide
theorem test_andi : see (.andi 2#5 1#5 65535#16) (on 0xDEADBEEF#32 0x0#32) (·.x 2#5) = some 0xBEEF#32 := by decide
theorem test_lui : see (.lui 1#5 65535#16) (on 0x0#32 0x0#32) (·.x 1#5) = some 0xFFFF0000#32 := by decide
theorem test_nop : see (.nop) (on 0x0#32 0x0#32) flow = some (0x1004#32, 0x1008#32) := by decide
theorem test_nor : see (.nor 3#5 1#5 2#5) (on 0xFFFF0000#32 0xFF00FF00#32) (·.x 3#5) = some 0xFF#32 := by decide
theorem test_or : see (.or 3#5 1#5 2#5) (on 0xFFFF0000#32 0xFF00FF00#32) (·.x 3#5) = some 0xFFFFFF00#32 := by decide
theorem test_ori : see (.ori 2#5 0#5 65535#16) (on 0x0#32 0x0#32) (·.x 2#5) = some 0xFFFF#32 := by decide
theorem test_slt : see (.slt 3#5 1#5 2#5) (on 0x80000000#32 0x7FFFFFFF#32) (·.x 3#5) = some 0x1#32 := by decide
theorem test_slti : see (.slti 2#5 1#5 32768#16) (on 0xFFFF7FFF#32 0x0#32) (·.x 2#5) = some 0x1#32 := by decide
theorem test_sltiu : see (.sltiu 2#5 1#5 65535#16) (on 0xFFFFFFFE#32 0x0#32) (·.x 2#5) = some 0x1#32 := by decide
theorem test_sltiu_edge : see (.sltiu 2#5 1#5 32768#16) (on 0xFFFF8000#32 0x0#32) (·.x 2#5) = some 0x0#32 := by decide
theorem test_sltu : see (.sltu 3#5 1#5 2#5) (on 0x7FFFFFFF#32 0x80000000#32) (·.x 3#5) = some 0x1#32 := by decide
theorem test_sub : see (.sub 3#5 1#5 2#5) (on 0x80000000#32 0x80000000#32) (·.x 3#5) = some 0x0#32 := by decide
theorem test_sub_overflow : see (.sub 3#5 1#5 2#5) (on 0x0#32 0x80000000#32) trap =
    some (12#5, 0x1000#32, 0x80000180#32) := by decide
theorem test_subu : see (.subu 3#5 1#5 2#5) (on 0x80000000#32 0x1#32) (·.x 3#5) = some 0x7FFFFFFF#32 := by decide
theorem test_xor : see (.xor 3#5 1#5 2#5) (on 0xFFFF0000#32 0xFF00FF00#32) (·.x 3#5) = some 0xFFFF00#32 := by decide
theorem test_xori : see (.xori 2#5 1#5 32768#16) (on 0xFFFF8000#32 0x0#32) (·.x 2#5) = some 0xFFFF0000#32 := by decide

theorem test_sll : see (.sll 2#5 1#5 1#5) (on 0xC0000001#32 0x0#32) (·.x 2#5) = some 0x80000002#32 := by decide
theorem test_sllv : see (.sllv 3#5 1#5 2#5) (on 0x1#32 0xFFFFFFFF#32) (·.x 3#5) = some 0x80000000#32 := by decide
theorem test_sra : see (.sra 2#5 1#5 31#5) (on 0xDEADBEEF#32 0x0#32) (·.x 2#5) = some 0xFFFFFFFF#32 := by decide
theorem test_srav : see (.srav 3#5 1#5 2#5) (on 0xDEADBEEF#32 0x108#32) (·.x 3#5) = some 0xFFDEADBE#32 := by decide
theorem test_srl : see (.srl 2#5 1#5 31#5) (on 0xDEADBEEF#32 0x0#32) (·.x 2#5) = some 0x1#32 := by decide
theorem test_srlv : see (.srlv 3#5 1#5 2#5) (on 0xDEADBEEF#32 0xFFFFFFE8#32) (·.x 3#5) = some 0xDEADBE#32 := by decide

theorem test_div : see (.div 1#5 2#5) (on 0xFFFFFFF9#32 0x2#32) (fun t => (t.hi, t.lo)) =
    some (0xFFFFFFFF#32, 0xFFFFFFFD#32) := by decide
theorem test_divu : see (.divu 1#5 2#5) (on 0xFFFFFFF9#32 0x2#32) (fun t => (t.hi, t.lo)) =
    some (0x1#32, 0x7FFFFFFC#32) := by decide
/-- R151, D11: a division by zero raises nothing and goes on. -/
theorem test_div_zero_goes_on : see (.div 1#5 2#5) (on 0x5#32 0x0#32) flow = some (0x1004#32, 0x1008#32) := by decide
theorem test_mult : see (.mult 1#5 2#5) (on 0xFFFFFFFD#32 0x5#32) (fun t => (t.hi, t.lo)) =
    some (0xFFFFFFFF#32, 0xFFFFFFF1#32) := by decide
theorem test_multu : see (.multu 1#5 2#5) (on 0xFFFFFFFD#32 0x5#32) (fun t => (t.hi, t.lo)) =
    some (0x4#32, 0xFFFFFFF1#32) := by decide
theorem test_mfhi : see (.mfhi 3#5) (acc 0#32 0#32 0x12345678#32 1#32) (·.x 3#5) = some 0x12345678#32 := by decide
theorem test_mflo : see (.mflo 3#5) (acc 0#32 0#32 1#32 0x9ABCDEF0#32) (·.x 3#5) = some 0x9ABCDEF0#32 := by decide
theorem test_mthi : see (.mthi 1#5) (acc 0xDEADBEEF#32 0#32 1#32 2#32) (fun t => (t.hi, t.lo)) =
    some (0xDEADBEEF#32, 2#32) := by decide
theorem test_mtlo : see (.mtlo 1#5) (acc 0xDEADBEEF#32 0#32 1#32 2#32) (fun t => (t.hi, t.lo)) =
    some (1#32, 0xDEADBEEF#32) := by decide

theorem test_beq : see (.beq 1#5 2#5 32767#16) (on 0x9#32 0x9#32) flow = some (0x1004#32, 0x21000#32) := by decide
theorem test_beq_not : see (.beq 1#5 2#5 16#16) (on 0x9#32 0x8#32) flow = some (0x1004#32, 0x1008#32) := by decide
theorem test_beql_not : see (.beql 1#5 2#5 16#16) (on 0x9#32 0x8#32) flow = some (0x1008#32, 0x100C#32) := by decide
theorem test_bgez : see (.bgez 1#5 16#16) (on 0x0#32 0x0#32) flow = some (0x1004#32, 0x1044#32) := by decide
theorem test_bgez_not : see (.bgez 1#5 16#16) (on 0x80000000#32 0x0#32) flow = some (0x1004#32, 0x1008#32) := by decide
theorem test_bgezal_not : see (.bgezal 1#5 16#16) (on 0x80000000#32 0x0#32) (fun t => (t.pc, t.npc, t.x 31#5)) =
    some (0x1004#32, 0x1008#32, 0x1008#32) := by decide
theorem test_bgezal_rs31 : refusal (.bgezal 31#5 16#16) start = some (.restriction .c) := by decide
theorem test_bgezall_not : see (.bgezall 1#5 16#16) (on 0xFFFFFFFF#32 0x0#32) (fun t => (t.pc, t.npc, t.x 31#5)) =
    some (0x1008#32, 0x100C#32, 0x1008#32) := by decide
theorem test_bgezl : see (.bgezl 1#5 16#16) (on 0x0#32 0x0#32) flow = some (0x1004#32, 0x1044#32) := by decide
theorem test_bgtz_not : see (.bgtz 1#5 16#16) (on 0x0#32 0x0#32) flow = some (0x1004#32, 0x1008#32) := by decide
theorem test_bgtz : see (.bgtz 1#5 16#16) (on 0x7FFFFFFF#32 0x0#32) flow = some (0x1004#32, 0x1044#32) := by decide
theorem test_bgtzl_not : see (.bgtzl 1#5 16#16) (on 0x80000000#32 0x0#32) flow =
    some (0x1008#32, 0x100C#32) := by decide
theorem test_blez : see (.blez 1#5 16#16) (on 0x80000000#32 0x0#32) flow = some (0x1004#32, 0x1044#32) := by decide
theorem test_blez_not : see (.blez 1#5 16#16) (on 0x1#32 0x0#32) flow = some (0x1004#32, 0x1008#32) := by decide
theorem test_blezl : see (.blezl 1#5 16#16) (on 0x0#32 0x0#32) flow = some (0x1004#32, 0x1044#32) := by decide
theorem test_bltz_not : see (.bltz 1#5 16#16) (on 0x0#32 0x0#32) flow = some (0x1004#32, 0x1008#32) := by decide
theorem test_bltz : see (.bltz 1#5 16#16) (on 0xFFFFFFFF#32 0x0#32) flow = some (0x1004#32, 0x1044#32) := by decide
theorem test_bltzal : see (.bltzal 1#5 65532#16) (on 0x80000000#32 0x0#32) (fun t => (t.pc, t.npc, t.x 31#5)) =
    some (0x1004#32, 0xFF4#32, 0x1008#32) := by decide
theorem test_bltzall : see (.bltzall 1#5 16#16) (on 0xFFFFFFFF#32 0x0#32) (fun t => (t.pc, t.npc, t.x 31#5)) =
    some (0x1004#32, 0x1044#32, 0x1008#32) := by decide
theorem test_bltzl : see (.bltzl 1#5 16#16) (on 0xFFFFFFFF#32 0x0#32) flow = some (0x1004#32, 0x1044#32) := by decide
theorem test_bne_not : see (.bne 1#5 2#5 16#16) (on 0x9#32 0x9#32) flow = some (0x1004#32, 0x1008#32) := by decide
theorem test_bnel : see (.bnel 1#5 2#5 16#16) (on 0x9#32 0x8#32) flow = some (0x1004#32, 0x1044#32) := by decide
theorem test_j : see (.j 67108863#26) (on 0x0#32 0x0#32) flow = some (0x1004#32, 0xFFFFFFC#32) := by decide
/-- `cur` = 0x0FFFFFFC: the region is the delay slot's. -/
theorem test_jal_region : see (.jal 1024#26) { start with pc := 0x0FFFFFFC#32, npc := 0x10000000#32 } (fun t => (t.pc, t.npc, t.x 31#5)) =
    some (0x10000000#32, 0x10001000#32, 0x10000004#32) := by decide
theorem test_jalr : see (.jalr 5#5 2#5) (on 0x0#32 0x2000#32) (fun t => (t.pc, t.npc, t.x 5#5)) =
    some (0x1004#32, 0x2000#32, 0x1008#32) := by decide
theorem test_jalr_rd_rs : refusal (.jalr 2#5 2#5) start = some (.restriction .e) := by decide
theorem test_jr : see (.jr 2#5) (on 0x0#32 0x2002#32) flow = some (0x1004#32, 0x2002#32) := by decide

theorem test_lb : see (.lb 2#5 1#5 7#16) (on 0x2000#32 0x0#32) (·.x 2#5) = some 0xFFFFFFF7#32 := by decide
theorem test_lbu : see (.lbu 2#5 1#5 7#16) (on 0x2000#32 0x0#32) (·.x 2#5) = some 0xF7#32 := by decide
theorem test_lh : see (.lh 2#5 1#5 6#16) (on 0x2000#32 0x0#32) (·.x 2#5) = some 0xFFFFF7E6#32 := by decide
theorem test_lh_misaligned : see (.lh 2#5 1#5 1#16) (on 0x2000#32 0x0#32) trapAt = some (4#5, 0x2001#32) := by decide
theorem test_lhu : see (.lhu 2#5 1#5 6#16) (on 0x2000#32 0x0#32) (·.x 2#5) = some 0xF7E6#32 := by decide
theorem test_lw : see (.lw 2#5 1#5 4#16) (on 0x2000#32 0x0#32) (·.x 2#5) = some 0xF7E6D5C4#32 := by decide
theorem test_lw_wraps : see (.lw 2#5 1#5 0x2004#16) (on 0xFFFFFFFC#32 0x0#32) (·.x 2#5) =
    some 0xB3A29180#32 := by decide
theorem test_lwl : see (.lwl 2#5 1#5 1#16) (on 0x2000#32 0x11223344#32) (·.x 2#5) = some 0x91803344#32 := by decide
theorem test_lwr : see (.lwr 2#5 1#5 1#16) (on 0x2000#32 0x11223344#32) (·.x 2#5) = some 0x11B3A291#32 := by decide
theorem test_sb : see (.sb 2#5 1#5 7#16) (on 0x2000#32 0x12345678#32) data =
    some [0x80#8, 0x91#8, 0xA2#8, 0xB3#8, 0xC4#8, 0xD5#8, 0xE6#8, 0x78#8] := by decide
theorem test_sh : see (.sh 2#5 1#5 4#16) (on 0x2000#32 0x12345678#32) data =
    some [0x80#8, 0x91#8, 0xA2#8, 0xB3#8, 0x78#8, 0x56#8, 0xE6#8, 0xF7#8] := by decide
theorem test_sh_misaligned : see (.sh 2#5 1#5 3#16) (on 0x2000#32 0x12345678#32) trapAt =
    some (5#5, 0x2003#32) := by decide
theorem test_sw : see (.sw 2#5 1#5 4#16) (on 0x2000#32 0x12345678#32) data =
    some [0x80#8, 0x91#8, 0xA2#8, 0xB3#8, 0x78#8, 0x56#8, 0x34#8, 0x12#8] := by decide
theorem test_sw_base : see (.sw 1#5 1#5 0#16) (on 0x2000#32 0x12345678#32) data =
    some [0x00#8, 0x20#8, 0x00#8, 0x00#8, 0xC4#8, 0xD5#8, 0xE6#8, 0xF7#8] := by decide
theorem test_swl : see (.swl 2#5 1#5 1#16) (on 0x2000#32 0x12345678#32) data =
    some [0x34#8, 0x12#8, 0xA2#8, 0xB3#8, 0xC4#8, 0xD5#8, 0xE6#8, 0xF7#8] := by decide
theorem test_swr : see (.swr 2#5 1#5 1#16) (on 0x2000#32 0x12345678#32) data =
    some [0x80#8, 0x78#8, 0x56#8, 0x34#8, 0xC4#8, 0xD5#8, 0xE6#8, 0xF7#8] := by decide
/-- R40, R61, R64 (no vector): a store to a non-cache address waits in the non-cache write buffer, as one write; a load sees it,
memory does not. -/
theorem test_sh_uncached :
    see (.sh 2#5 1#5 0#16) { on 0x2000#32 0x3412#32 with platform := { Platform.reset with regions :=
      [{ base := 0, size := 65536, modes := [.kernel], kinds := [.load, .store], cached := false, busErrors := [] }] } }
      (fun t => (t.dataByte 0x2000, Memory.read t.mem 0x2000, t.nonCacheBuf)) =
    some (0x12#8, 0x80#8, [[(0x2000, 0x12#8), (0x2001, 0x34#8)]]) := by decide

theorem test_break : see (.brk 7#20) (on 0x0#32 0x0#32) trap = some (9#5, 0x1000#32, 0x80000180#32) := by decide
/-- R343, R350: in a delay slot EPC is the branch's address and BD is 1. -/
theorem test_syscall_slot : see (.syscall 0#20) { start with inDs := true } (fun t => (trap t, (t.cp0 causeReg).getLsbD 31)) =
    some ((8#5, 0xFFC#32, 0x80000180#32), true) := by decide
theorem test_eret_exl : see .eret ((((start.setCp0 statusReg 0x30000002#32).setCp0 epcReg 0x2000#32).setCp0
    errorEpcReg 0x4000#32).setLlbit true) (fun t => (t.cp0 statusReg, t.llbit, t.pc, t.npc)) = some (0x30000000#32, false, 0x2000#32, 0x2004#32) := by decide
theorem test_eret_erl : see .eret ((((start.setCp0 statusReg 0x30000006#32).setCp0 epcReg 0x2000#32).setCp0
    errorEpcReg 0x4000#32).setLlbit true) (fun t => (t.cp0 statusReg, t.llbit, t.pc, t.npc)) = some (0x30000002#32, false, 0x4000#32, 0x4004#32) := by decide
theorem test_mfc0_unusable : see (.mfc0 2#5 12#5) (inStatus 0x20000010#32) (fun t => (trap t, t.x 2#5)) =
    some ((11#5, 0x1000#32, 0x80000180#32), 0#32) := by decide
theorem test_mfc0 : see (.mfc0 2#5 12#5) (inStatus 0x20000012#32) (·.x 2#5) = some 0x20000012#32 := by decide
theorem test_mtc0 : see (.mtc0 2#5 13#5) (on 0x0#32 0xFFFFFFFF#32) (·.cp0 causeReg) = some 0xFFFFFFFF#32 := by decide
theorem test_mtc0_badvaddr : refusal (.mtc0 2#5 8#5) start = some .unlistedCp0Register := by decide

theorem test_bc1f : see (.bc1f 3#16) (start.setFcr31 0xFF7FFFFF#32) flow = some (0x1004#32, 0x1010#32) := by decide
theorem test_bc1fl_not : see (.bc1fl 3#16) (start.setFcr31 0x800000#32) flow = some (0x1008#32, 0x100C#32) := by decide
theorem test_bc1t : see (.bc1t 3#16) (start.setFcr31 0x800000#32) flow = some (0x1004#32, 0x1010#32) := by decide
theorem test_bc1t_not : see (.bc1t 3#16) (start.setFcr31 0x0#32) flow = some (0x1004#32, 0x1008#32) := by decide
theorem test_bc1tl_not : see (.bc1tl 3#16) (start.setFcr31 0x0#32) flow = some (0x1008#32, 0x100C#32) := by decide
theorem test_cfc1 : see (.cfc1 2#5 31#5) (start.setFcr31 0x00800F80#32) (·.x 2#5) = some 0x00800F80#32 := by decide
theorem test_ctc1 : see (.ctc1 2#5 31#5) (on 0x0#32 0x10400#32) (fun t => (t.fcr31, t.pc)) =
    some (0x00010400#32, 0x1004#32) := by decide
theorem test_ctc1_traps : see (.ctc1 2#5 31#5) (on 0x0#32 0x1080#32) (fun t => (t.fcr31, trap t)) =
    some (0x00001080#32, (15#5, 0x1000#32, 0x80000180#32)) := by decide
theorem test_lwc1 : see (.lwc1 4#5 1#5 4#16) (on 0x2000#32 0x0#32) (·.f 4#5) = some 0xF7E6D5C4#32 := by decide
theorem test_lwc1_unusable : see (.lwc1 4#5 1#5 2#16) (inStatus 0x10000000#32) trap =
    some (11#5, 0x1000#32, 0x80000180#32) := by decide
theorem test_mfc1 : see (.mfc1 2#5 4#5) (start.setF 4#5 0xFFFFFFFF#32) (·.x 2#5) = some 0xFFFFFFFF#32 := by decide
theorem test_mtc1 : see (.mtc1 2#5 4#5) (on 0x0#32 0x3F800000#32) (·.f 4#5) = some 0x3F800000#32 := by decide
theorem test_swc1 : see (.swc1 4#5 1#5 4#16) ((on 0x2000#32 0#32).setF 4#5 0x12345678#32) data =
    some [0x80#8, 0x91#8, 0xA2#8, 0xB3#8, 0x78#8, 0x56#8, 0x34#8, 0x12#8] := by decide

theorem test_clo : see (.clo 3#5 1#5) (on 0xFFFFFFFE#32 0x0#32) (·.x 3#5) = some 0x1F#32 := by decide
theorem test_clz : see (.clz 3#5 1#5) (on 0x7FFFFFFF#32 0x0#32) (·.x 3#5) = some 0x1#32 := by decide
theorem test_clz_zero : see (.clz 3#5 1#5) (on 0x0#32 0x0#32) (·.x 3#5) = some 0x20#32 := by decide
theorem test_madd : see (.madd 1#5 2#5) (acc 0xFFFFFFFE#32 0x3#32 0x0#32 0x5#32) (fun t => (t.hi, t.lo)) =
    some (0xFFFFFFFF#32, 0xFFFFFFFF#32) := by decide
theorem test_maddu : see (.maddu 1#5 2#5) (acc 0xFFFFFFFE#32 0x3#32 0x0#32 0x5#32) (fun t => (t.hi, t.lo)) =
    some (0x2#32, 0xFFFFFFFF#32) := by decide
theorem test_msub : see (.msub 1#5 2#5) (acc 0xFFFFFFFE#32 0x3#32 0x0#32 0x5#32) (fun t => (t.hi, t.lo)) =
    some (0x0#32, 0xB#32) := by decide
theorem test_msubu : see (.msubu 1#5 2#5) (acc 0xFFFFFFFE#32 0x3#32 0x0#32 0x5#32) (fun t => (t.hi, t.lo)) =
    some (0xFFFFFFFD#32, 0xB#32) := by decide
theorem test_max : see (.max 3#5 1#5 2#5) (on 0x80000000#32 0x7FFFFFFF#32) (·.x 3#5) = some 0x7FFFFFFF#32 := by decide
theorem test_min : see (.min 3#5 1#5 2#5) (on 0x80000000#32 0x7FFFFFFF#32) (·.x 3#5) = some 0x80000000#32 := by decide
theorem test_movn : see (.movn 3#5 1#5 2#5) ((on 0x55#32 0x80000000#32).setX 3#5 0xAA#32) (·.x 3#5) =
    some 0x55#32 := by decide
theorem test_movn_not : see (.movn 3#5 1#5 0#5) ((on 0x55#32 0x80000000#32).setX 3#5 0xAA#32) (·.x 3#5) =
    some 0xAA#32 := by decide
theorem test_movz : see (.movz 3#5 1#5 0#5) ((on 0x55#32 0x80000000#32).setX 3#5 0xAA#32) (·.x 3#5) =
    some 0x55#32 := by decide
theorem test_movz_not : see (.movz 3#5 1#5 2#5) ((on 0x55#32 0x80000000#32).setX 3#5 0xAA#32) (·.x 3#5) =
    some 0xAA#32 := by decide
theorem test_ext : see (.ext 2#5 1#5 23#5 4#5) (on 0x12345678#32 0x0#32) (·.x 2#5) = some 0x234567#32 := by decide
theorem test_ext_size : refusal (.ext 2#5 1#5 16#5 16#5) start = some (.restriction .h) := by decide
theorem test_ins : see (.ins 2#5 1#5 27#5 4#5) (on 0xDEADBEEF#32 0x12345678#32) (·.x 2#5) =
    some 0x1ADBEEF8#32 := by decide
theorem test_ins_size : refusal (.ins 2#5 1#5 3#5 8#5) start = some (.restriction .i) := by decide
theorem test_seb : see (.seb 3#5 1#5) (on 0x80#32 0x0#32) (·.x 3#5) = some 0xFFFFFF80#32 := by decide
theorem test_seh : see (.seh 3#5 1#5) (on 0x8000#32 0x0#32) (·.x 3#5) = some 0xFFFF8000#32 := by decide
theorem test_bitrev : see (.bitrev 3#5 1#5) (on 0xDEADBEEF#32 0x0#32) (·.x 3#5) = some 0xF77DB57B#32 := by decide
theorem test_rotr : see (.rotr 3#5 1#5 1#5) (on 0x80000001#32 0x0#32) (·.x 3#5) = some 0xC0000000#32 := by decide
theorem test_rotrv : see (.rotrv 3#5 1#5 2#5) (on 0x80000001#32 0x21#32) (·.x 3#5) = some 0xC0000000#32 := by decide
theorem test_wsbh : see (.wsbh 3#5 1#5) (on 0xAABBCCDD#32 0x0#32) (·.x 3#5) = some 0xBBAADDCC#32 := by decide
theorem test_wsbw : see (.wsbw 3#5 1#5) (on 0xAABBCCDD#32 0x0#32) (·.x 3#5) = some 0xDDCCBBAA#32 := by decide

/-! ### Cache functions: the sequence of part 2.9 on the set of 0x2000, and sources said in the comments -/

/-- `x[4]` = 0x2000, and the set of 0x2000 in the data and the instruction cache as given. -/
def cached (c : CacheSet) : State := (((start.setX 4#5 0x2000#32).putDset 0x2000 c).putIset 0x2000 c)

/-- A line of the set of 0x2000: valid or not, dirty or not, a tag, and bytes all `b`. -/
def lineOf (valid dirty : Bool) (tag : Nat) (b : Byte) : Line :=
  { valid := valid, dirty := dirty, tag := tag, data := List.replicate 64 b }

/-- Both ways valid and clean, way A with the line of 0x2000 (tag 1), way B with tag 2; the LRU bit to A, unlocked. -/
def bothValid : CacheSet := { lru := .A, lock := false, wayA := lineOf true false 1 0x11#8, wayB := lineOf true false 2 0x22#8 }

/-- Way A valid with the line of 0x2000, dirty, and locked: the LRU bit to B. -/
def lockedA : CacheSet := { lru := .B, lock := true, wayA := lineOf true true 1 0x11#8, wayB := lineOf false false 0 0#8 }

/-- Which ways of a set are valid, its LRU bit and its Lock bit. -/
def shape (c : CacheSet) : Bool × Bool × Way × Bool := (c.wayA.valid, c.wayB.valid, c.lru, c.lock)

/-- The data-cache set of 0x2000 after the instruction. -/
def dShape (t : State) : Bool × Bool × Way × Bool := shape (t.dset 0x2000)

/-- The instruction-cache set of 0x2000 after the instruction. -/
def iShape (t : State) : Bool × Bool × Way × Bool := shape (t.iset 0x2000)

/-- R292, IndexSelect case 1: both ways valid, the way the LRU bit points to. -/
theorem test_index_invalidate_i : see (.cacheIndexInvalidateI 4#5 0#16) (cached bothValid) iShape =
    some (false, true, .A, false) := by decide
/-- R292, case 2: the one valid way, and the Lock bit is cleared. -/
theorem test_index_invalidate_i_one : see (.cacheIndexInvalidateI 4#5 0#16) (cached lockedA) iShape =
    some (false, false, .B, false) := by decide
theorem test_index_unlock_i : see (.cacheIndexUnlockI 4#5 0#16) (cached lockedA) iShape = some (true, false, .B, false) := by decide
/-- R294: the locked way loses its lock with its line. -/
theorem test_hit_invalidate_i : see (.cacheHitInvalidateI 4#5 0#16) (cached lockedA) iShape =
    some (false, false, .B, false) := by decide
/-- R295: the address of another line of the set; the LRU way A is replaced and the LRU bit moves. -/
theorem test_fill_i : see (.cacheFillI 4#5 0#16) ((cached bothValid).setX 4#5 0x8000#32) (fun t => (iShape t, (t.iset 0x8000).wayA.tag)) =
    some ((true, true, .B, false), 4) := by decide
theorem test_fill_lock_i : see (.cacheFillLockI 4#5 0#16) (cached CacheSet.empty) iShape = some (true, false, .B, true) := by decide
/-- R297: a dirty line is written back before it is dropped. -/
theorem test_index_writeback_invalidate_d : see (.cacheIndexWritebackInvalidateD 4#5 0#16) (cached lockedA)
    (fun t => (dShape t, t.dataByte 0x2005, t.writebackBuf.map List.length)) = some ((false, false, .B, false), 0x11#8, [64]) := by decide
theorem test_index_unlock_d : see (.cacheIndexUnlockD 4#5 0#16) (cached lockedA) dShape = some (true, false, .B, false) := by decide
/-- R299: a miss takes the LRU way; the new line is dirty. -/
theorem test_create_dirty_d : see (.cacheCreateDirtyD 4#5 0#16) (cached CacheSet.empty)
    (fun t => (dShape t, (t.dset 0x2000).wayA.dirty)) = some ((true, false, .B, false), true) := by decide
theorem test_create_dirty_lock_d : see (.cacheCreateDirtyLockD 4#5 0#16) (cached CacheSet.empty) dShape =
    some (true, false, .B, true) := by decide
/-- R300: no writeback: the byte beneath the cache is seen again. -/
theorem test_hit_invalidate_d : see (.cacheHitInvalidateD 4#5 0#16) (cached lockedA)
    (fun t => (dShape t, t.dataByte 0x2005, t.writebackBuf.length)) = some ((false, false, .B, false), 0xD5#8, 0) := by decide
/-- R301: written back, kept, clean. -/
theorem test_hit_writeback_d : see (.cacheHitWritebackD 4#5 0#16) (cached lockedA)
    (fun t => (dShape t, (t.dset 0x2000).wayA.dirty, (t.writebackBuf.flatten.head? : Option Host.Cell))) =
    some ((true, false, .B, true), false, some (0x2000, 0x11#8)) := by decide
/-- Step 3 of the sequence, with a dirty line. -/
theorem test_hit_writeback_invalidate_d : see (.cacheHitWritebackInvalidateD 4#5 0#16) (cached lockedA)
    (fun t => (dShape t, t.dataByte 0x2005)) = some ((false, false, .B, false), 0x11#8) := by decide
/-- Step 2 of the sequence: Lock = 1, way B is filled and the LRU bit stays at B. -/
theorem test_fill_d : see (.cacheFillD 4#5 0#16) ((cached lockedA).setX 4#5 0x8000#32) dShape = some (true, true, .B, true) := by decide
/-- Step 1 of the sequence. -/
theorem test_fill_lock_d : see (.cacheFillLockD 4#5 0#16) (cached CacheSet.empty) dShape = some (true, false, .B, true) := by decide
/-- R65, R307: what waited in the buffers is in memory. -/
theorem test_sync : see .sync { start with writebackBuf := [[(0x2000, 0x11#8)]], nonCacheBuf := [[(0x3000, 0x22#8)]] }
    (fun t => (Memory.read t.mem 0x2000, Memory.read t.mem 0x3000, t.writebackBuf.length, t.nonCacheBuf.length)) =
    some (0x11#8, 0x22#8, 0, 0) := by decide

theorem test_ll : see (.ll 2#5 1#5 4#16) (on 0x2000#32 0#32) (fun t => (t.x 2#5, t.llbit)) = some (0xF7E6D5C4#32, true) := by decide
theorem test_sc : see (.sc 2#5 1#5 4#16) ((on 0x2000#32 0xAABBCCDD#32).setLlbit true) (fun t => (data t, t.x 2#5, t.llbit)) =
    some ([0x80#8, 0x91#8, 0xA2#8, 0xB3#8, 0xDD#8, 0xCC#8, 0xBB#8, 0xAA#8], 1#32, true) := by decide
theorem test_sc_fails : see (.sc 2#5 1#5 4#16) (on 0x2000#32 0xAABBCCDD#32) (fun t => (data t, t.x 2#5)) =
    some ([0x80#8, 0x91#8, 0xA2#8, 0xB3#8, 0xC4#8, 0xD5#8, 0xE6#8, 0xF7#8], 0#32) := by decide

/-! ### A whole step -/

/-- What `f` sees after a step. -/
def seeStep {α : Type} (s : State) (f : State → α) : Option α :=
  match step s with
  | .next t => some (f t)
  | _ => none

/-- A launch with what R373 requires, `lui r1, 0x1234` at 0x1000, and 32-byte lines in 4 and 8 sets. -/
def bareLaunch (pc : Word) : Launch :=
  { image := [(0x1000, [0x34#8, 0x12#8, 0x01#8, 0x3C#8])], pc := pc, haltPC := 0x2000#32, fcr0 := 0#32, llbit := false,
    lineBits := 5, iSetBits := 2, dSetBits := 3 }

/-- R373 (no vector): the default launch, at `lui r1, 0x1234`. -/
theorem test_step_after_launch : seeStep (State.launch (bareLaunch 0x1000#32)) (fun t => (t.x 1#5, t.pc, t.h1)) =
    some (0x12340000#32, 0x1004#32, some (.lui 1#5 0x1234#16)) := by decide
/-- R373: running past the end of the launch memory is an AddressError at the fetch. -/
theorem test_step_past_launch_memory : seeStep (State.launch (bareLaunch 0x1004#32)) trapAt = some (4#5, 0x1004#32) := by decide
/-- R7, R373: a launch whose own AddrOK and BusErr permit the address next to its memory and end the fetch there in a bus error. -/
theorem test_step_launch_bus_error : seeStep (State.launch { bareLaunch 0x1004#32 with
      regions := some [{ base := 0x1000, size := 0x100, modes := [.kernel], kinds := [.fetch], cached := false,
                         busErrors := [.fetch] }] }) trap = some (6#5, 0x1004#32, 0x80000180#32) := by decide
/-- R379: after a branch the history has it as last instruction and as owner of the slot, and the one before it next. -/
theorem test_step_history : seeStep (({ start with h1 := some .sync } : State).withFetchWord 32 0x10000004)
      (fun t => (t.h1, t.h2, t.owner, t.h1FpTrap)) =
    some (some (.beq 0#5 0#5 4#16), some .sync, some (.beq 0#5 0#5 4#16), false) := by decide
/-- R379, R246: a `ctc1` that raises FloatingPoint is marked, one that does not is not. -/
theorem test_step_history_float :
    seeStep ((start.setX 2#5 0x00020000#32).withFetchWord 32 0x44C2F800) (fun t => (t.h1, t.h1FpTrap)) =
      some (some (.ctc1 2#5 31#5), true) ∧
    seeStep ((start.setX 2#5 0x0001F000#32).withFetchWord 32 0x44C2F800) (fun t => (t.h1, t.h1FpTrap)) =
      some (some (.ctc1 2#5 31#5), false) := by decide
/-- The first instruction after reset: `lui r1, 0x1234` placed at the reset vector (log entry 29). -/
theorem test_step_after_reset : seeStep (State.reset.withFetchWord 32 0x3C011234) (fun t => (t.x 1#5, t.pc, t.h1)) =
    some (0x12340000#32, 0xBFC00004#32, some (.lui 1#5 0x1234#16)) := by decide
/-- Part 2.0: a fetch at a misaligned address. -/
theorem test_step_misaligned_fetch : seeStep { start with pc := 0x1002#32 } trapAt = some (4#5, 0x1002#32) := by decide
/-- Part 2.0: a reserved word, in user mode as well (R97, R100). -/
theorem test_step_reserved : seeStep (start.withFetchWord 32 0x0000000E) trap = some (10#5, 0x1000#32, 0x80000180#32) := by decide

/-! ### The obligations' hypotheses: states that meet them -/

/-- The state after an instruction that answers a next state. -/
def nextOf (i : Instr) (s : State) : State :=
  match exec i s with
  | .next t => t
  | _ => s

theorem exec_nextOf {i : Instr} {s : State} (h : see i s (fun _ => true) = some true) : exec i s = .next (nextOf i s) := by
  unfold see at h; unfold nextOf
  cases he : exec i s with
  | next t => rfl
  | fault f => rw [he] at h; cases h
  | refused r => rw [he] at h; cases h

theorem coherent_of_empty {s : State} (hd : s.dcache = []) (hw : s.writebackBuf = []) (hn : s.nonCacheBuf = []) :
    s.Coherent where
  sets i _ := by
    rw [hd]
    have none_valid : ∀ w, ¬ (CacheSet.empty.line w).valid = true := by intro w; cases w <;> decide
    exact ⟨fun w hv => absurd hv (none_valid w), fun w hv => absurd hv (none_valid w), fun w hv => absurd hv (none_valid w),
      fun hv => absurd hv (none_valid .A)⟩
  writebacks c hc := by simp [hw] at hc
  others c hc := by simp [hn] at hc

theorem start_coherent : start.Coherent := coherent_of_empty rfl rfl rfl

theorem start_inv : start.Inv where
  memory := by decide
  sequence _ := by decide
  owned := by decide
  slot i h := by cases h
  trapped h := by cases h
  fetchDistinct i h := by cases h

/-- A coherent state with a dirty, locked line of 0x2000 in way A. -/
def locked : State := (start.setX 1#5 0x2000#32).putDset 0x2000 lockedA

theorem locked_coherent : locked.Coherent := by
  refine State.Coherent.putDset (s := start.setX 1#5 0x2000#32) (coherent_of_empty rfl rfl rfl) 0x2000 ?_
  refine ⟨fun w hv => ?_, fun w hv hd => ?_, fun w hv _ => ?_, fun _ hv => by cases hv⟩
  · cases w
    · decide
    · cases hv
  · cases w
    · cases hd
    · cases hv
  · cases w
    · decide
    · cases hv

/-- The start with a restricted platform: user mode may not touch the upper half, and its last line answers with bus errors. -/
def guarded (status : Word) : State :=
  { inStatus status with
    platform := { Platform.reset with regions :=
      [{ base := 0, size := 0x80000000, modes := [.user, .kernel], kinds := [.fetch, .load, .store, .cacheop],
         cached := false, busErrors := [] },
       { base := 0x80000000, size := 0x80000000, modes := [.kernel], kinds := [.fetch, .load, .store, .cacheop],
         cached := true, busErrors := [] },
       { base := 0xFFFFFFC0, size := 64, modes := [], kinds := [], cached := true, busErrors := [.fetch, .load, .cacheop] }] } }

theorem guarded_coherent (status : Word) : (guarded status).Coherent := coherent_of_empty rfl rfl rfl

/-- One state for each kind of word, and words of R96 to R98 at the edges of their cells. -/
theorem witness_RejectedWords :
    (FetchOK (start.withFetchWord 32 0x0000000E).drainSome ∧
      ReservedCell (start.withFetchWord 32 0x0000000E).drainSome.fetchedWord) ∧
    (FetchOK (start.withFetchWord 32 0x70000000).drainSome ∧
      NamedOnly (start.withFetchWord 32 0x70000000).drainSome.fetchedWord) ∧
    (FetchOK (start.withFetchWord 32 0x00411802).drainSome ∧
      BlankCell (start.withFetchWord 32 0x00411802).drainSome.fetchedWord) ∧
    (FetchOK (start.withFetchWord 32 0x0000004F).drainSome ∧
      NonzeroField (start.withFetchWord 32 0x0000004F).drainSome.fetchedWord) := by
  have e1 : (start.withFetchWord 32 0x0000000E).drainSome.fetchedWord = 0x0000000E#32 := by decide
  have e2 : (start.withFetchWord 32 0x70000000).drainSome.fetchedWord = 0x70000000#32 := by decide
  have e3 : (start.withFetchWord 32 0x00411802).drainSome.fetchedWord = 0x00411802#32 := by decide
  have e4 : (start.withFetchWord 32 0x0000004F).drainSome.fetchedWord = 0x0000004F#32 := by decide
  rw [e1, e2, e3, e4]
  exact ⟨⟨⟨by decide, by decide, .kernel, by decide, by decide, by decide⟩, by unfold ReservedCell; decide⟩,
    ⟨⟨by decide, by decide, .kernel, by decide, by decide, by decide⟩, by unfold NamedOnly; decide⟩,
    ⟨⟨by decide, by decide, .kernel, by decide, by decide, by decide⟩, by unfold BlankCell; decide⟩,
    ⟨by decide, by decide, .kernel, by decide, by decide, by decide⟩, .inl ⟨by decide, by unfold NonzeroSpecial; decide⟩⟩

/-- R97, R306: SPECIAL 0x30 and 0x3f, REGIMM 4, 15, 20 and 31, the COP0 functions 0 and 0x10, cache functions 3 and 29. -/
theorem test_reserved_cells :
    [0x00000030#32, 0x0000003F#32, 0x04040000#32, 0x040F0000#32, 0x04140000#32, 0x041F0000#32,
      0x42000000#32, 0x42000010#32, 0xBC030000#32, 0xBC1D0000#32, 0x68000000#32, 0xEC000000#32].map decode =
    List.replicate 12 (.reject .reserved) := by decide

/-- R98: MFHC1, an FPU operation, LWC2, VFPU7; then SPECIAL 5, `rs` = 2 of func 2, COP0 `rs` = 8, BC `rt` = 4, BSHFL `sa` = 1. -/
theorem test_unstated_cells :
    [0x44600000#32, 0x46000000#32, 0xC8000000#32, 0xFC000000#32].map decode = List.replicate 4 (.reject .namedOnly) ∧
    [0x00000005#32, 0x00400002#32, 0x41000000#32, 0x45040000#32, 0x7C000060#32].map decode =
      List.replicate 5 (.reject .blankCell) := by decide

/-- An `add` to be fetched. -/
def fetching : State := start.withFetchWord 32 0x00221820

theorem fetching_ok : FetchOK fetching.drainSome := ⟨by decide, by decide, .kernel, by decide, by decide, by decide⟩

theorem witness_StepRunsDecoded : FetchOK fetching.drainSome ∧
    decode fetching.drainSome.fetchedWord = .instr (.add 3#5 1#5 2#5) ∧
    fetching.drainSome.fetched.restrictionAt (.add 3#5 1#5 2#5) = none ∧ fetching.writebackBuf.isEmpty = true ∧
    fetching.nonCacheBuf.isEmpty = true ∧
    (fetching.drainSome.platform.cacheable fetching.pc.toNat = true ∧ fetching.drainSome.iHit fetching.pc.toNat = none) ∧
    (guarded 0#32).drainSome.platform.cacheable (guarded 0#32).pc.toNat = false ∧
    ((cached bothValid).drainSome.iHit 0x2000).isSome = true ∧
    RaisesFloat (start.setX 2#5 0x00001080#32) (.ctc1 2#5 31#5) ∧
    ¬ RaisesFloat (start.setX 2#5 0x00002080#32) (.ctc1 2#5 31#5) ∧
    (∃ u, exec (.add 3#5 1#5 2#5) fetching.drainSome.fetched = .next u) ∧
    ∃ r, exec (.cfc1 2#5 5#5) fetching.drainSome.fetched = .refused r :=
  ⟨fetching_ok, by decide, by decide, by decide, by decide, by decide, by decide, by decide,
    ⟨2#5, rfl, by unfold Cop1OK; decide, .inr ⟨0, by decide, by decide, by decide⟩⟩,
    by
      rintro ⟨rt, h, -, h17 | ⟨b, hb, h1, h2⟩⟩ <;> cases h
      · exact absurd h17 (by decide)
      · match b, hb with
        | 0, _ => exact absurd h1 (by decide)
        | 1, _ => exact absurd h2 (by decide)
        | 2, _ => exact absurd h1 (by decide)
        | 3, _ => exact absurd h1 (by decide)
        | 4, _ => exact absurd h1 (by decide),
    ⟨_, rfl⟩, ⟨.restriction .j, rfl⟩⟩

/-- One state for each restriction on neighbours, and one that breaks none. -/
theorem witness_RestrictionsRefused :
    (FetchOK (({ start with inDs := true } : State).withFetchWord 32 0x10000004).drainSome ∧
      decode (({ start with inDs := true } : State).withFetchWord 32 0x10000004).drainSome.fetchedWord =
        .instr (.beq 0#5 0#5 4#16) ∧
      Violates (({ start with inDs := true } : State).withFetchWord 32 0x10000004).drainSome.fetched (.beq 0#5 0#5 4#16)) ∧
    Violates { start with inDs := true } (.jr 2#5) ∧ Violates { start with inDs := true } .eret ∧
    Violates { start with inDs := true, owner := some (.jal 0#26) } (.addiu 31#5 31#5 4#16) ∧
    Violates { start with inDs := true, owner := some (.jalr 5#5 2#5) } (.addu 2#5 0#5 0#5) ∧
    Violates { start with inDs := true, owner := some (.bc1t 3#16) } (.ctc1 2#5 31#5) ∧
    Violates { start with h2 := some (.mtc0 2#5 14#5) } .eret ∧
    Violates { start with h1 := some (.cfc1 2#5 31#5) } (.addu 3#5 2#5 0#5) ∧
    Violates { start with h1 := some (.ctc1 2#5 31#5) } (.bc1t 3#16) ∧
    Violates { start with h1 := some (.ctc1 2#5 31#5), h1FpTrap := true } (.ctc1 2#5 31#5) ∧
    (FetchOK fetching.drainSome ∧ ¬ Violates fetching.drainSome.fetched (.add 3#5 1#5 2#5)) := by
  refine ⟨⟨⟨by decide, by decide, .kernel, by decide, by decide, by decide⟩, by decide, ?_⟩, ?_, ?_, ?_, ?_, ?_, ?_, ?_, ?_, ?_,
    fetching_ok, ?_⟩
  · exact .inl ⟨by decide, .inl (by decide)⟩
  · exact .inl ⟨rfl, .inr (.inr (.inl rfl))⟩
  · exact .inl ⟨rfl, .inr (.inr (.inr rfl))⟩
  · exact .inr (.inl ⟨rfl, _, rfl, .inl ⟨rfl, rfl⟩⟩)
  · exact .inr (.inl ⟨rfl, _, rfl, .inr (.inr ⟨5#5, 2#5, rfl, .inr rfl⟩)⟩)
  · exact .inr (.inl ⟨rfl, _, rfl, .inr (.inl ⟨rfl, rfl⟩)⟩)
  · exact .inr (.inr (.inl ⟨rfl, 2#5, 14#5, .inr rfl⟩))
  · exact .inr (.inr (.inr (.inl ⟨2#5, 31#5, rfl, by decide, .inl (by decide)⟩)))
  · exact .inr (.inr (.inr (.inr ⟨2#5, 31#5, rfl, .inl rfl⟩)))
  · exact .inr (.inr (.inr (.inr ⟨2#5, 31#5, rfl, .inr ⟨rfl, rfl⟩⟩)))
  · have hd : fetching.drainSome.fetched.inDs = false := by decide
    have h1 : fetching.drainSome.fetched.h1 = none := by decide
    rintro (⟨h, _⟩ | ⟨h, _⟩ | ⟨h, _⟩ | ⟨_, _, h, _⟩ | ⟨_, _, h, _⟩)
    · rw [hd] at h; cases h
    · rw [hd] at h; cases h
    · cases h
    · rw [h1] at h; cases h
    · rw [h1] at h; cases h

theorem witness_FieldRestrictionsRefused : (Instr.bgezal 31#5 0#16).brokenByFields = some .c ∧
    (Instr.jalr 0#5 0#5).brokenByFields = some .e ∧ (Instr.ext 2#5 1#5 31#5 1#5).brokenByFields = some .h ∧
    (Instr.ins 2#5 1#5 30#5 31#5).brokenByFields = some .i ∧ (Instr.cfc1 2#5 30#5).brokenByFields = some .j ∧
    (Instr.ctc1 2#5 0#5).brokenByFields = some .k := by decide

theorem witness_FetchExceptions :
    (({ start with pc := 0x1003#32 } : State).halted = false ∧ ({ start with pc := 0x1003#32 } : State).pc.toNat % 4 ≠ 0) ∧
    (({ guarded 0x10#32 with pc := 0x80000000#32 } : State).halted = false ∧
      ({ guarded 0x10#32 with pc := 0x80000000#32 } : State).mode = some .user ∧
      ({ guarded 0x10#32 with pc := 0x80000000#32 } : State).addrOK 0x80000000#32 .user .fetch = false) ∧
    (({ guarded 0#32 with pc := 0xFFFFFFFC#32 } : State).halted = false ∧
      ({ guarded 0#32 with pc := 0xFFFFFFFC#32 } : State).mode = some .kernel ∧
      ({ guarded 0#32 with pc := 0xFFFFFFFC#32 } : State).addrOK 0xFFFFFFFC#32 .kernel .fetch = true ∧
      ({ guarded 0#32 with pc := 0xFFFFFFFC#32 } : State).busErr 0xFFFFFFFC .fetch = true) ∧
    ((inStatus 0x18#32).halted = false ∧ (inStatus 0x18#32).pc.toNat % 4 = 0 ∧ ReservedMode (inStatus 0x18#32)) := by
  unfold ReservedMode; decide

/-- The last representable results and the first ones that are not. -/
theorem witness_AddSubTrapOnOverflow :
    ((on 0x7FFFFFFE#32 1#32).x 1#5).toInt + ((on 0x7FFFFFFE#32 1#32).x 2#5).toInt = 2147483647 ∧
    ((on 0x7FFFFFFF#32 1#32).x 1#5).toInt + ((on 0x7FFFFFFF#32 1#32).x 2#5).toInt = 2147483648 ∧
    ((on 0x80000001#32 0#32).x 1#5).toInt + (0xFFFF#16).toInt = -2147483648 ∧
    ((on 0x80000000#32 0#32).x 1#5).toInt + (0xFFFF#16).toInt = -2147483649 ∧
    ((on 0xFFFFFFFF#32 0x80000000#32).x 1#5).toInt - ((on 0xFFFFFFFF#32 0x80000000#32).x 2#5).toInt = 2147483647 ∧
    ((on 0#32 0x80000000#32).x 1#5).toInt - ((on 0#32 0x80000000#32).x 2#5).toInt = 2147483648 := by decide

theorem witness_BitFields : (0#5).toNat + ((31#5).toNat + 1) ≤ 32 ∧ 32 < (1#5).toNat + ((31#5).toNat + 1) ∧
    (31#5).toNat ≤ (31#5).toNat ∧ (30#5).toNat < (31#5).toNat := by decide

theorem witness_SelectAndMove : (on 1#32 1#32).x 2#5 ≠ 0#32 ∧ (on 1#32 0#32).x 2#5 = 0#32 := by decide

theorem witness_Divide : (on 0x80000000#32 1#32).x 2#5 ≠ 0#32 ∧
    ¬ ((on 0x80000000#32 1#32).x 1#5 = 0x80000000#32 ∧ (on 0x80000000#32 1#32).x 2#5 = 0xFFFFFFFF#32) ∧
    ¬ ((on 0x80000001#32 0xFFFFFFFF#32).x 1#5 = 0x80000000#32 ∧ (on 0x80000001#32 0xFFFFFFFF#32).x 2#5 = 0xFFFFFFFF#32) := by
  decide

theorem witness_DivideOpenResult : (on 5#32 0#32).x 2#5 = 0#32 ∧
    ((on 0x80000000#32 0xFFFFFFFF#32).x 1#5 = 0x80000000#32 ∧ (on 0x80000000#32 0xFFFFFFFF#32).x 2#5 = 0xFFFFFFFF#32) := by decide

theorem witness_LinkBranches : (30#5 : Reg) ≠ 31#5 ∧ (0#5 : Reg) ≠ 31#5 := by decide

theorem witness_Jumps : (0#5 : Reg) ≠ 31#5 ∧ (31#5 : Reg) ≠ 30#5 := by decide

/-- An access that misses, one that hits, and one outside the cache. -/
theorem witness_through :
    (start.platform.cacheable (start.effAddr 0#5 0#16).toNat = true ∧ start.dHit (start.effAddr 0#5 0#16).toNat = none) ∧
    (LoadOK locked (locked.effAddr 1#5 0#16) 4 ∧ StoreOK locked (locked.effAddr 1#5 0#16) 4 ∧
      locked.platform.cacheable (locked.effAddr 1#5 0#16).toNat = true ∧ locked.dHit (locked.effAddr 1#5 0#16).toNat = some .A ∧
      ∀ i, i < 4 → locked.platform.lineOf ((locked.effAddr 1#5 0#16).toNat + i) = locked.platform.lineOf (locked.effAddr 1#5 0#16).toNat) ∧
    (LoadOK (guarded 0#32) ((guarded 0#32).effAddr 0#5 0#16) 4 ∧ StoreOK (guarded 0#32) ((guarded 0#32).effAddr 0#5 0#16) 4 ∧
      ∀ i, i < 4 → (guarded 0#32).platform.cacheable (((guarded 0#32).effAddr 0#5 0#16).toNat + i) = false) :=
  ⟨by decide,
   ⟨⟨by decide, .kernel, by decide, by decide, by decide⟩, ⟨by decide, .kernel, by decide, by decide⟩, by decide, by decide,
    by decide⟩,
   ⟨by decide, .kernel, by decide, by decide, by decide⟩, ⟨by decide, .kernel, by decide, by decide⟩, by decide⟩

/-- Loads at the first and the last address of each alignment (what each does to the cache: `witness_through`). -/
theorem witness_AlignedLoads : start.Coherent ∧
    LoadOK start (start.effAddr 0#5 0#16) 4 ∧ LoadOK start (start.effAddr 0#5 0xFFFC#16) 4 ∧
    LoadOK start (start.effAddr 0#5 0xFFFE#16) 2 ∧ LoadOK start (start.effAddr 0#5 0xFFFF#16) 1 :=
  ⟨start_coherent, ⟨by decide, .kernel, by decide, by decide, by decide⟩, ⟨by decide, .kernel, by decide, by decide, by decide⟩,
   ⟨by decide, .kernel, by decide, by decide, by decide⟩, ⟨by decide, .kernel, by decide, by decide, by decide⟩⟩

/-- Every place in a word, the last word of the address space among them. -/
theorem witness_UnalignedLoads : start.Coherent ∧ LoadOK start (start.effAddr 0#5 0#16) 1 ∧
    LoadOK start (start.effAddr 0#5 1#16) 1 ∧ LoadOK start (start.effAddr 0#5 2#16) 1 ∧
    LoadOK start (start.effAddr 0#5 0xFFFF#16) 1 :=
  ⟨start_coherent, ⟨by decide, .kernel, by decide, by decide, by decide⟩, ⟨by decide, .kernel, by decide, by decide, by decide⟩,
   ⟨by decide, .kernel, by decide, by decide, by decide⟩, ⟨by decide, .kernel, by decide, by decide, by decide⟩⟩

/-- The state after `lwr r2, 1(r1)`. -/
def afterLwr : State := nextOf (.lwr 2#5 1#5 1#16) (on 0x2000#32 0#32)

theorem witness_UnalignedWordLoadPair : (on 0x2000#32 0#32).Coherent ∧ (2#5 : Reg) ≠ 1#5 ∧ (2#5 : Reg) ≠ 0#5 ∧
    ((on 0x2000#32 0#32).effAddr 1#5 1#16).toNat + 3 < 4294967296 ∧
    (on 0x2000#32 0#32).effAddr 1#5 4#16 = (on 0x2000#32 0#32).effAddr 1#5 1#16 + 3#32 ∧
    LoadOK (on 0x2000#32 0#32) ((on 0x2000#32 0#32).effAddr 1#5 1#16) 1 ∧
    LoadOK afterLwr ((on 0x2000#32 0#32).effAddr 1#5 4#16) 1 ∧
    exec (.lwr 2#5 1#5 1#16) (on 0x2000#32 0#32) = .next afterLwr ∧
    exec (.lwl 2#5 1#5 4#16) afterLwr = .next (nextOf (.lwl 2#5 1#5 4#16) afterLwr) :=
  ⟨coherent_of_empty rfl rfl rfl, by decide, by decide, by decide, by decide,
   ⟨by decide, .kernel, by decide, by decide, by decide⟩, ⟨by decide, .kernel, by decide, by decide, by decide⟩,
   exec_nextOf (by decide), exec_nextOf (by decide)⟩

theorem witness_AlignedStores : start.Coherent ∧ StoreOK start (start.effAddr 0#5 0#16) 4 ∧
    StoreOK start (start.effAddr 0#5 0xFFFC#16) 4 ∧ StoreOK start (start.effAddr 0#5 0xFFFE#16) 2 ∧
    StoreOK start (start.effAddr 0#5 0xFFFF#16) 1 :=
  ⟨start_coherent, ⟨by decide, .kernel, by decide, by decide⟩, ⟨by decide, .kernel, by decide, by decide⟩,
   ⟨by decide, .kernel, by decide, by decide⟩, ⟨by decide, .kernel, by decide, by decide⟩⟩

theorem witness_UnalignedStores : locked.Coherent ∧ StoreOK locked (locked.effAddr 1#5 0#16) 1 ∧
    StoreOK locked (locked.effAddr 1#5 1#16) 1 ∧ StoreOK locked (locked.effAddr 1#5 2#16) 1 ∧
    StoreOK locked (locked.effAddr 1#5 3#16) 1 :=
  ⟨locked_coherent, ⟨by decide, .kernel, by decide, by decide⟩, ⟨by decide, .kernel, by decide, by decide⟩,
   ⟨by decide, .kernel, by decide, by decide⟩, ⟨by decide, .kernel, by decide, by decide⟩⟩

/-- The state after `swr r2, 1(r1)`. -/
def afterSwr : State := nextOf (.swr 2#5 1#5 1#16) (on 0x2000#32 7#32)

theorem witness_UnalignedWordStorePair : (on 0x2000#32 7#32).Coherent ∧
    ((on 0x2000#32 7#32).effAddr 1#5 1#16).toNat + 3 < 4294967296 ∧
    (on 0x2000#32 7#32).effAddr 1#5 4#16 = (on 0x2000#32 7#32).effAddr 1#5 1#16 + 3#32 ∧
    StoreOK (on 0x2000#32 7#32) ((on 0x2000#32 7#32).effAddr 1#5 1#16) 1 ∧
    StoreOK afterSwr ((on 0x2000#32 7#32).effAddr 1#5 4#16) 1 ∧
    exec (.swr 2#5 1#5 1#16) (on 0x2000#32 7#32) = .next afterSwr ∧
    exec (.swl 2#5 1#5 4#16) afterSwr = .next (nextOf (.swl 2#5 1#5 4#16) afterSwr) :=
  ⟨coherent_of_empty rfl rfl rfl, by decide, by decide, ⟨by decide, .kernel, by decide, by decide⟩,
   ⟨by decide, .kernel, by decide, by decide⟩, exec_nextOf (by decide), exec_nextOf (by decide)⟩

/-- A misaligned, a forbidden and a bus-error access, a forbidden cache function, and an access without a mode. -/
theorem witness_AccessExceptions :
    (dataAccess (.swc1 2#5 1#5 1#16) = some (.store, 4, 1#5, 1#16) ∧ start.cop1Usable = some true ∧
      (start.effAddr 1#5 1#16).toNat % 4 ≠ 0) ∧
    (dataAccess (.sb 2#5 0#5 0x8000#16) = some (.store, 1, 0#5, 0x8000#16) ∧ (guarded 0x10#32).mode = some .user ∧
      (guarded 0x10#32).addrOK ((guarded 0x10#32).effAddr 0#5 0x8000#16) .user .store = false) ∧
    (dataAccess (.lw 2#5 0#5 0xFFFC#16) = some (.load, 4, 0#5, 0xFFFC#16) ∧ (guarded 0#32).mode = some .kernel ∧
      ((guarded 0#32).effAddr 0#5 0xFFFC#16).toNat % 4 = 0 ∧
      (guarded 0#32).addrOK ((guarded 0#32).effAddr 0#5 0xFFFC#16) .kernel .load = true ∧
      (guarded 0#32).busErr ((guarded 0#32).effAddr 0#5 0xFFFC#16).toNat .load = true) ∧
    (cacheAccess (.cacheFillD 0#5 0x8000#16) = some (0#5, 0x8000#16) ∧
      (guarded 0x10#32).addrOK ((guarded 0x10#32).effAddr 0#5 0x8000#16) .user .cacheop = false) ∧
    ReservedMode (inStatus 0x18#32) := by
  unfold ReservedMode; decide

theorem witness_LoadLinkedStoreConditional : start.Coherent ∧ (start.setLlbit true).Coherent ∧
    LoadOK start (start.effAddr 0#5 0xFFFC#16) 4 ∧ StoreOK start (start.effAddr 0#5 0xFFFC#16) 4 ∧
    StoreOK (start.setLlbit true) ((start.setLlbit true).effAddr 0#5 0#16) 4 ∧ (start.setLlbit true).llbit = true ∧
    start.llbit = false :=
  ⟨start_coherent, coherent_of_empty rfl rfl rfl, ⟨by decide, .kernel, by decide, by decide, by decide⟩,
   ⟨by decide, .kernel, by decide, by decide⟩, ⟨by decide, .kernel, by decide, by decide⟩, rfl, rfl⟩

/-- Outside and inside a delay slot, with and without an address, with a coprocessor's number; an exception with its handler. -/
theorem witness_TrapEntry : (start.platform.handlers = Handlers.general ∧
      HandledBy start.platform.handlers (.addressError 1#32 .load) (Handler.general 4#5)) ∧
    (Takes start (start.trapEntry (.coprocessorUnusable 1#2)) (.coprocessorUnusable 1#2) ∧ start.exl = false) ∧
    (Takes { start with inDs := true } (({ start with inDs := true } : State).trapEntry (.addressError 1#32 .load))
      (.addressError 1#32 .load) ∧ ({ start with inDs := true } : State).exl = false) :=
  ⟨⟨rfl, .inr (.inl ⟨_, _, rfl, by decide, rfl⟩)⟩, ⟨rfl, by decide⟩, rfl, by decide⟩

theorem witness_NestedException : Takes (inStatus 2#32) ((inStatus 2#32).trapEntry .integerOverflow) .integerOverflow ∧
    (inStatus 2#32).exl = true ∧ HandledBy (inStatus 2#32).platform.handlers .integerOverflow (Handler.general 12#5) :=
  ⟨rfl, by decide, .inl ⟨rfl, rfl⟩⟩

theorem witness_ReturnFromException : Takes (inStatus 0x10#32) ((inStatus 0x10#32).trapEntry (.systemCall 0#20)) (.systemCall 0#20) ∧
    (inStatus 0x10#32).exl = false ∧ (inStatus 0x10#32).erl = false ∧ (inStatus 0x10#32).platform.cop0 = CopRule.general0 ∧
    Cop0OK ((inStatus 0x10#32).trapEntry (.systemCall 0#20)) := ⟨rfl, by decide, by decide, rfl, by unfold Cop0OK; decide⟩

/-- In kernel mode, with ERL, and in user mode with CU0. -/
theorem witness_ExceptionReturn : Cop0OK (inStatus 2#32) ∧ Cop0OK (inStatus 6#32) ∧ Cop0OK (inStatus 0x10000010#32) ∧
    (inStatus 6#32).erl = true ∧ (inStatus 2#32).erl = false :=
  ⟨by unfold Cop0OK; decide, by unfold Cop0OK; decide, by unfold Cop0OK; decide, by decide, by decide⟩

/-- Registers of D24's lists, one outside them, and one that the other choice of R34 makes storage. -/
theorem witness_Cp0Moves : Cop0OK start ∧ Cp0Readable start 8#5 ∧ Cp0Writable start 14#5 ∧ ¬ Cp0Writable start 8#5 ∧
    ¬ Cp0Readable start 10#5 ∧ Cp0Writable { start with platform := { Platform.reset with cp0Storage := true } } 10#5 := by
  unfold Cop0OK Cp0Readable Cp0Writable; decide

theorem witness_CoprocessorUnusable : (Instr.eret).brokenByFields = none ∧ usesCop0 .eret = true ∧
    (inStatus 0x10#32).cop0Usable = some false ∧ (inStatus 0x10#32).mode = some .user ∧
    (inStatus 0x8#32).mode = some .supervisor ∧ (inStatus 0x10#32).platform.cop0 = CopRule.general0 ∧
    ReservedMode (inStatus 0x18#32) ∧ (inStatus 0x18#32).cop0Usable = none ∧
    (Instr.ctc1 2#5 31#5).brokenByFields = none ∧ usesCop1 (.ctc1 2#5 31#5) = true ∧
    (inStatus 0#32).cop1Usable = some false ∧ (inStatus 0#32).platform.cop1 = CopRule.general1 ∧
    ({ inStatus 0x18#32 with platform := { Platform.reset with cop1 := .byMode [.kernel] [] } } : State).cop1Usable = none := by
  unfold ReservedMode; decide

theorem witness_Cp0ChangesOnlyAsStated :
    exec (.mtc0 2#5 14#5) (inStatus 0x10#32) = .next (nextOf (.mtc0 2#5 14#5) (inStatus 0x10#32)) ∧
    ¬ Cop0OK (inStatus 0x10#32) := ⟨exec_nextOf (by decide), by unfold Cop0OK; decide⟩

theorem witness_FpuBranches : Cop1OK start := by unfold Cop1OK; decide

/-- `ctc1` at the edges: Cause and Enable bits that do not meet, that do, and the Unimplemented Cause bit. -/
theorem witness_FpuControlMoves : start.cop1Usable = some true ∧
    (((on 0#32 0x00010400#32).x 2#5).getLsbD 17 = false ∧ ∀ i, i < 5 →
      ¬ (((on 0#32 0x00010400#32).x 2#5).getLsbD (12 + i) = true ∧ ((on 0#32 0x00010400#32).x 2#5).getLsbD (7 + i) = true)) ∧
    (((on 0#32 0x00010800#32).x 2#5).getLsbD (12 + 4) = true ∧ ((on 0#32 0x00010800#32).x 2#5).getLsbD (7 + 4) = true) ∧
    ((on 0#32 0x00020000#32).x 2#5).getLsbD 17 = true := by decide

theorem witness_FpuDataMoves : start.Coherent ∧ Cop1OK start ∧ LoadOK start (start.effAddr 0#5 0xFFFC#16) 4 ∧
    StoreOK start (start.effAddr 0#5 0xFFFC#16) 4 :=
  ⟨start_coherent, by unfold Cop1OK; decide, ⟨by decide, .kernel, by decide, by decide, by decide⟩,
   ⟨by decide, .kernel, by decide, by decide⟩⟩

theorem witness_SpecialRegisterWriters : exec (.mthi 1#5) start = .next (nextOf (.mthi 1#5) start) := exec_nextOf (by decide)

theorem witness_GeneralRegisterFrame : exec (.add 3#5 1#5 2#5) start = .next (nextOf (.add 3#5 1#5 2#5) start) ∧
    dstReg (.add 3#5 1#5 2#5) ≠ some 4#5 := ⟨exec_nextOf (by decide), by decide⟩

theorem witness_DataFrame : locked.Coherent ∧ Memory.wf locked.mem = true ∧ changesData (.cacheHitWritebackD 1#5 0#16) = false ∧
    exec (.cacheHitWritebackD 1#5 0#16) locked = .next (nextOf (.cacheHitWritebackD 1#5 0#16) locked) :=
  ⟨locked_coherent, by decide, rfl, exec_nextOf (by decide)⟩

/-- The dirty line of 0x2000 in both caches, where a cache function that read it would meet a bus error. -/
def errorAtLine : State :=
  { locked with
    icache := (cached lockedA).icache
    platform := { Platform.reset with regions :=
      [{ base := 0, size := 4294967296, modes := [.kernel], kinds := [.cacheop], cached := true, busErrors := [.cacheop] }] } }

theorem errorAtLine_coherent : errorAtLine.Coherent := by
  refine State.Coherent.putDset (s := { errorAtLine with dcache := [] }) (coherent_of_empty rfl rfl rfl) 0x2000 ?_
  refine ⟨fun w hv => ?_, fun w hv hd => ?_, fun w hv _ => ?_, fun _ hv => by cases hv⟩
  · cases w
    · decide
    · cases hv
  · cases w
    · cases hd
    · cases hv
  · cases w
    · decide
    · cases hv

/-- A Fill that hits where a bus error stands. -/
theorem witness_fill_hit : errorAtLine.Coherent ∧ CacheOK errorAtLine (errorAtLine.effAddr 1#5 0#16) ∧
    ¬ FillOK errorAtLine (errorAtLine.effAddr 1#5 0#16).toNat ∧
    (errorAtLine.iHit (errorAtLine.effAddr 1#5 0#16).toNat).isSome = true ∧
    (errorAtLine.dHit (errorAtLine.effAddr 1#5 0#16).toNat).isSome = true :=
  ⟨errorAtLine_coherent, ⟨.kernel, by decide, by decide⟩, by unfold FillOK; decide, by decide, by decide⟩

/-- A hit and a miss without a bus error (with one: `witness_fill_hit`). -/
theorem witness_InstructionCacheFunctions : CacheOK start (start.effAddr 0#5 0#16) ∧ FillOK start (start.effAddr 0#5 0#16).toNat ∧
    start.iHit (start.effAddr 0#5 0#16).toNat = none ∧ (cached bothValid).iHit 0x2000 = some .A ∧
    CacheOK (cached bothValid) ((cached bothValid).effAddr 4#5 0#16) :=
  ⟨⟨.kernel, by decide, by decide⟩, by unfold FillOK; decide, by decide, by decide, ⟨.kernel, by decide, by decide⟩⟩

theorem witness_DataCacheMaintenance : locked.Coherent ∧ CacheOK locked (locked.effAddr 1#5 0#16) ∧
    locked.dHit (locked.effAddr 1#5 0#16).toNat = some .A ∧ CacheOK locked (locked.effAddr 0#5 0#16) ∧
    locked.dHit (locked.effAddr 0#5 0#16).toNat = none :=
  ⟨locked_coherent, ⟨.kernel, by decide, by decide⟩, by decide, ⟨.kernel, by decide, by decide⟩, by decide⟩

theorem witness_DataCacheFills : (locked.Coherent ∧ CacheOK locked (locked.effAddr 0#5 0#16) ∧
      FillOK locked (locked.effAddr 0#5 0#16).toNat ∧ locked.dHit (locked.effAddr 0#5 0#16).toNat = none) ∧
    ((guarded 0#32).Coherent ∧ CacheOK (guarded 0#32) ((guarded 0#32).effAddr 0#5 0xFFFF#16) ∧
      (guarded 0#32).busErr ((guarded 0#32).platform.lineOf ((guarded 0#32).effAddr 0#5 0xFFFF#16).toNat) .cacheop = true ∧
      (guarded 0#32).dHit ((guarded 0#32).effAddr 0#5 0xFFFF#16).toNat = none ∧
      (guarded 0#32).iHit ((guarded 0#32).effAddr 0#5 0xFFFF#16).toNat = none) :=
  ⟨⟨locked_coherent, ⟨.kernel, by decide, by decide⟩, by unfold FillOK; decide, by decide⟩,
   guarded_coherent _, ⟨.kernel, by decide, by decide⟩, by decide, by decide, by decide⟩

theorem witness_CreateDirtyExclusive : start.Coherent ∧ CacheOK start (start.effAddr 0#5 0#16) ∧
    start.platform.cacheable (start.effAddr 0#5 0#16).toNat = true ∧ (guarded 0#32).Coherent ∧
    CacheOK (guarded 0#32) ((guarded 0#32).effAddr 0#5 0#16) ∧
    (guarded 0#32).platform.cacheable ((guarded 0#32).effAddr 0#5 0#16).toNat = false :=
  ⟨start_coherent, ⟨.kernel, by decide, by decide⟩, by decide, guarded_coherent _, ⟨.kernel, by decide, by decide⟩, by decide⟩

theorem witness_HitInvalidateDropsLine : locked.Coherent ∧ CacheOK locked (locked.effAddr 1#5 0#16) ∧
    locked.dHit (locked.effAddr 1#5 0#16).toNat = some .A :=
  ⟨locked_coherent, ⟨.kernel, by decide, by decide⟩, by decide⟩

theorem witness_SyncEmptiesBuffers : locked.Coherent ∧ Memory.wf locked.mem = true := ⟨locked_coherent, by decide⟩

theorem witness_NewCodeBecomesVisible : locked.Inv ∧ locked.Coherent ∧ CacheOK locked (locked.effAddr 1#5 0#16) :=
  ⟨⟨by decide, fun _ => by decide, by decide, fun _ h => (by cases h), fun h => (by cases h), fun _ h => (by cases h)⟩,
   locked_coherent, ⟨.kernel, by decide, by decide⟩⟩

/-- A load of another line of the set, a Fill and a Create of the data cache, and a Fill of the instruction cache. -/
theorem witness_LockedLineStays :
    (exec (.cacheCreateDirtyD 1#5 0x6000#16) locked = .next (nextOf (.cacheCreateDirtyD 1#5 0x6000#16) locked) ∧
     exec (.cacheFillI 4#5 0x6000#16) (cached lockedA) = .next (nextOf (.cacheFillI 4#5 0x6000#16) (cached lockedA)) ∧
     ((cached lockedA).iset 0x2000).locked .A = true ∧ (((cached lockedA).iset 0x2000).line .A).valid = true) ∧
    locked.Coherent ∧ (dataAccess (.lw 2#5 1#5 0x6000#16)).isSome = true ∧
    exec (.lw 2#5 1#5 0x6000#16) locked = .next (nextOf (.lw 2#5 1#5 0x6000#16) locked) ∧
    exec (.cacheFillD 1#5 0x6000#16) locked = .next (nextOf (.cacheFillD 1#5 0x6000#16) locked) ∧
    (locked.dset 0x2000).locked .A = true ∧ ((locked.dset 0x2000).line .A).valid = true :=
  ⟨⟨exec_nextOf (by decide), exec_nextOf (by decide), by decide, by decide⟩,
   locked_coherent, by decide, exec_nextOf (by decide), exec_nextOf (by decide), by decide, by decide⟩

/-- A step that answers a next state, from a state that meets both invariants. -/
theorem witness_StepKeepsInv : start.Inv ∧ start.Coherent ∧ ∃ t, step start = .next t := by
  refine ⟨start_inv, start_coherent, ?_⟩
  have h : seeStep start (fun _ => true) = some true := by decide
  unfold seeStep at h
  cases he : step start with
  | next t => exact ⟨t, rfl⟩
  | fault f => rw [he] at h; cases h
  | refused r => rw [he] at h; cases h

/-- The same state for the other invariant. -/
theorem witness_StepKeepsCoherent : start.Inv ∧ start.Coherent ∧ ∃ t, step start = .next t := witness_StepKeepsInv

/-- A launch with two parts, the later one over the first byte of the first. -/
def launched : Launch :=
  { bareLaunch 0x1000#32 with image := [(0x1000, [0x34#8, 0x12#8, 0x01#8, 0x3C#8]), (0x1000, [0x78#8])] }

theorem witness_ResetState :
    (launched.image = [] ++ (0x1000, [0x34#8, 0x12#8, 0x01#8, 0x3C#8]) :: [(0x1000, [0x78#8])] ∧
      ∀ part ∈ [((0x1000 : Nat), [0x78#8])], ¬ (part.1 ≤ 0x1000 + 1 ∧ 0x1000 + 1 < part.1 + part.2.length)) ∧
    launched.image = [(0x1000, [0x34#8, 0x12#8, 0x01#8, 0x3C#8])] ++ (0x1000, [0x78#8]) :: [] ∧
    launched.status = launchStatus ∧ launched.regions = none ∧
    ({ launched with regions := some [] } : Launch).regions = some [] ∧ launched.icache = [] ∧ launched.dcache = [] ∧
    ({ launched with pc := 0x1004#32 } : Launch).pc.toNat % 4 = 0 ∧
    ({ launched with pc := 0x1004#32 } : Launch).inDomain ({ launched with pc := 0x1004#32 } : Launch).pc.toNat = false ∧
    ({ launched with pc := 0x1004#32 } : Launch).pc ≠ launched.haltPC ∧
    (State.launch { launched with pc := 0x1004#32 }).mode = some .kernel := by decide

theorem witness_DecodeOfEncode : Instr.isSpelledNop (.sll 0#5 0#5 1#5) = false := by decide

theorem witness_EncodeOfDecode : decode 0x00221820#32 = .instr (.add 3#5 1#5 2#5) := by decide

end Sys2Proof.Tests
end

section
/-! ## Why a step stops

The one fault of the machine is raised before the fetch (R365). After it no shared operation faults, and each refuses only for a
reason the spec gives, if its continuation does. `GoesOn` says this of an answer; the lemmas go from the shared operations to
`exec` and from there to the step. -/

namespace Sys2Proof.Machine

/-- The answer of a machine that is not halted: a next state, or a refusal that a rule of the spec states. -/
def GoesOn : Result → Prop
  | .next _ => True
  | .fault _ => False
  | .refused r => statedRefusal r = true

theorem goesOn_iff (r : Result) : GoesOn r ↔ SafeOutcome r ∧ r ≠ .fault .haltReached := by
  cases r with
  | next t => simp [GoesOn, SafeOutcome]
  | fault f => cases f; simp [GoesOn, SafeOutcome]
  | refused r => simp [GoesOn, SafeOutcome]

theorem goesOn_next (t : State) : GoesOn (.next t) := trivial

theorem goesOn_raise (e : Exc) (s : State) : GoesOn (raise e s) := trivial

theorem goesOn_restriction (r : Restriction) : GoesOn (.refused (.restriction r)) := rfl

theorem GoesOn.ite {p : Prop} [Decidable p] {a b : Result} (ha : GoesOn a) (hb : GoesOn b) : GoesOn (if p then a else b) := by
  split
  · exact ha
  · exact hb

/-! ### The checks -/

theorem State.withMode_goesOn {s : State} {k : Mode → Result} (hk : ∀ m, GoesOn (k m)) : GoesOn (s.withMode k) := by
  unfold State.withMode
  cases s.mode with
  | some m => exact hk m
  | none => rfl

theorem State.withCop_goesOn (s : State) (z : BitVec 2) (usable : Option Bool) {k : Result} (hk : GoesOn k) :
    GoesOn (s.withCop z usable k) := by
  unfold State.withCop
  match usable with
  | some true => exact hk
  | some false => exact goesOn_raise _ s
  | none => rfl

theorem State.withCop0_goesOn (s : State) {k : Result} (hk : GoesOn k) : GoesOn (s.withCop0 k) := s.withCop_goesOn _ _ hk

theorem State.withCop1_goesOn (s : State) {k : Result} (hk : GoesOn k) : GoesOn (s.withCop1 k) := s.withCop_goesOn _ _ hk

theorem State.withCp0Reg_goesOn (s : State) (n : Reg) (listed : Bool) {k : Result} (hk : GoesOn k) :
    GoesOn (s.withCp0Reg n listed k) :=
  .ite rfl (.ite hk rfl)

theorem State.checkedAccess_goesOn (s : State) (a : Word) (k : Access) (n : Nat) {r : Result} (hr : GoesOn r) :
    GoesOn (s.checkedAccess a k n r) :=
  .ite (goesOn_raise _ s) (State.withMode_goesOn fun _ => .ite (goesOn_raise _ s) (.ite (goesOn_raise _ s) hr))

theorem State.fetchChecked_goesOn (s : State) {go : Result} (hgo : GoesOn go) : GoesOn (s.fetchChecked go) :=
  .ite trivial (State.withMode_goesOn fun _ => .ite trivial (.ite trivial hgo))

/-! ### The shared operations -/

theorem State.load_goesOn (s : State) (a : Word) (n : Nat) (write : State → State) : GoesOn (s.load a n write) :=
  s.checkedAccess_goesOn a .load n (goesOn_next _)

theorem State.store_goesOn (s : State) (a : Word) (n : Nat) (first : Word) (l : List Byte) : GoesOn (s.store a n first l) :=
  s.checkedAccess_goesOn a .store n (goesOn_next _)

theorem State.cacheOp_goesOn {s : State} {base : Reg} {offset : BitVec 16} {op : Nat → Result} (hop : ∀ a, GoesOn (op a)) :
    GoesOn (s.cacheOp base offset op) :=
  State.withMode_goesOn fun _ => .ite (goesOn_raise _ s) (hop _)

theorem State.fillOp_goesOn (s : State) (a : Nat) (side : CacheSide) (hit : Bool) (filled : State) :
    GoesOn (s.fillOp a side hit filled) :=
  .ite (goesOn_next _) (.ite (goesOn_raise _ s) (goesOn_next _))

theorem State.createOp_goesOn (s : State) (a : Nat) (lockIt : Bool) : GoesOn (s.createOp a lockIt) :=
  .ite (goesOn_next _) rfl

/-! ### Every instruction -/

/-- No instruction faults, and each is refused only for a reason the spec gives. -/
theorem exec_goesOn (i : Instr) (s : State) : GoesOn (exec i s) := by
  cases i
  -- a restriction on the instruction's own fields (R380)
  case bgezal | bgezall | bltzal | bltzall | jalr | ext | ins => exact .ite (goesOn_restriction _) (goesOn_next _)
  case cfc1 =>
    exact .ite (s.withCop1_goesOn (goesOn_next _)) (.ite (s.withCop1_goesOn (goesOn_next _)) (goesOn_restriction _))
  case ctc1 => exact .ite (s.withCop1_goesOn (.ite (goesOn_raise _ _) (goesOn_next _))) (goesOn_restriction _)
  -- an overflow trap (R111), or two ways to complete
  case add | addi | sub => exact .ite (goesOn_raise _ s) (goesOn_next _)
  case div | divu | movn | movz => exact .ite (goesOn_next _) (goesOn_next _)
  -- loads and stores (R200)
  case lb | lbu | lh | lhu | lw | lwl | lwr | ll => exact s.load_goesOn _ _ fun _ => _
  case sb | sh | sw | swl | swr => exact s.store_goesOn _ _ _ _
  case sc => exact s.checkedAccess_goesOn _ _ _ (goesOn_next _)
  -- coprocessors (R225, R240)
  case eret => exact s.withCop0_goesOn (goesOn_next _)
  case mfc0 | mtc0 => exact s.withCop0_goesOn (s.withCp0Reg_goesOn _ _ (goesOn_next _))
  case bc1f | bc1fl | bc1t | bc1tl | mfc1 | mtc1 => exact s.withCop1_goesOn (goesOn_next _)
  case lwc1 => exact s.withCop1_goesOn (s.load_goesOn _ _ _)
  case swc1 => exact s.withCop1_goesOn (s.store_goesOn _ _ _ _)
  -- the cache functions (R290)
  case cacheFillI | cacheFillLockI | cacheFillD | cacheFillLockD =>
    exact State.cacheOp_goesOn fun _ => s.fillOp_goesOn _ _ _ _
  case cacheCreateDirtyD | cacheCreateDirtyLockD => exact State.cacheOp_goesOn fun _ => s.createOp_goesOn _ _
  case cacheIndexUnlockI | cacheIndexUnlockD => exact State.cacheOp_goesOn fun _ => goesOn_next _
  case cacheIndexInvalidateI | cacheHitInvalidateI | cacheIndexWritebackInvalidateD | cacheHitInvalidateD
      | cacheHitWritebackInvalidateD =>
    refine State.cacheOp_goesOn (op := fun _ => _) fun _ => ?_
    split <;> exact goesOn_next _
  case cacheHitWritebackD =>
    refine State.cacheOp_goesOn (op := fun _ => _) fun _ => ?_
    split
    · exact .ite (goesOn_next _) (goesOn_next _)
    · exact goesOn_next _
  -- every other instruction answers a next state
  all_goals exact goesOn_next _

/-! ### A step -/

theorem recordResult_goesOn (s : State) (i : Instr) {r : Result} (hr : GoesOn r) : GoesOn (recordResult s i r) := by
  cases r with
  | next u => exact goesOn_next _
  | fault f => exact hr
  | refused r => exact hr

theorem State.runInstr_goesOn (s : State) (i : Instr) : GoesOn (s.runInstr i) := by
  unfold State.runInstr
  cases s.restrictionAt i with
  | some r => exact goesOn_restriction r
  | none => exact recordResult_goesOn s i (exec_goesOn i s)

theorem State.runDecoded_goesOn (s : State) (d : Decoded) : GoesOn (s.runDecoded d) := by
  cases d with
  | instr i => exact s.runInstr_goesOn i
  | reject r =>
    cases r with
    | reserved => exact goesOn_next _
    | namedOnly | blankCell | nonzeroField => rfl

theorem State.halted_iff (s : State) : s.halted = true ↔ s.platform.haltPC = some s.pc ∧ s.inDs = false := by
  simp [State.halted]

theorem step_of_halted {s : State} (h : s.halted = true) : step s = .fault .haltReached := if_pos h

/-- A step from a state that is not halted. -/
theorem step_goesOn {s : State} (h : s.halted = false) : GoesOn (step s) := by
  unfold step
  rw [if_neg (by simp [h])]
  exact s.drainSome.fetchChecked_goesOn (State.runDecoded_goesOn _ _)

/-- Settles O8, by whether the state is halted. -/
theorem stepStopsOnlyAsStated : Obligations.StepStopsOnlyAsStated := by
  intro s
  rw [← s.halted_iff]
  cases h : s.halted with
  | true => simp [step_of_halted h, SafeOutcome]
  | false =>
    obtain ⟨safe, noHalt⟩ := (goesOn_iff _).mp (step_goesOn h)
    exact ⟨safe, by simp [noHalt]⟩

end Sys2Proof.Machine
end

section
/-! ## What an instruction can do

Every next state of `exec` is reached in two parts: the instruction's effect on everything but the program counter (`Effect`),
and how the run goes on from there (`Sequel`). `exec_next` says so of all 116 instructions at once; the statements about every
instruction are case analyses of the two relations. -/

namespace Sys2Proof.Machine

/-- The data-cache functions that neither fill nor create a line (R297, R298, R300 to R302). -/
def maintainsD : Instr → Bool
  | .cacheIndexWritebackInvalidateD _ _ | .cacheIndexUnlockD _ _ | .cacheHitInvalidateD _ _ | .cacheHitWritebackD _ _
  | .cacheHitWritebackInvalidateD _ _ => true
  | _ => false

/-- The instruction-cache functions that do not fill a line (R292 to R294). -/
def maintainsI : Instr → Bool
  | .cacheIndexInvalidateI _ _ | .cacheIndexUnlockI _ _ | .cacheHitInvalidateI _ _ => true
  | _ => false

/-- The line of way `w` has become invalid, and the other way is as before; of the LRU and Lock bits nothing is said. -/
structure CacheSet.Drops (c : CacheSet) (w : Way) (c' : CacheSet) : Prop where
  dropped : c'.line w = { c.line w with valid := false }
  other : c'.line w.other = c.line w.other

/-- What an instruction does to everything but the program counter, when it completes or before it raises. -/
inductive Effect : Instr → State → State → Prop
  | nothing {i s} : Effect i s s
  | setX {i s} (r : Reg) (v : Word) (dst : dstField i = some r) : Effect i s (s.setX r v)
  | setHiLo {i s} (hi lo : Word) (n : Nat) (writes : writesHiLo i = true) : Effect i s { s with hi := hi, lo := lo, free := n }
  | setCp0 {s} (rt rd : Reg) (usable : Cop0OK s) (v : Word) : Effect (.mtc0 rt rd) s (s.setCp0 rd v)
  | setF {s} (rt fs : Reg) (v : Word) : Effect (.mtc1 rt fs) s (s.setF fs v)
  | setFcr31 {s} (rt fs : Reg) (v : Word) : Effect (.ctc1 rt fs) s (s.setFcr31 v)
  | load {i s} (a : Nat) (rt : Reg) (v : Word) (dst : dstField i = some rt) : Effect i s ((s.touchD a).setX rt v)
  | loadLinked {s} (rt base : Reg) (offset : BitVec 16) (a : Nat) (v : Word) :
      Effect (.ll rt base offset) s (((s.touchD a).setX rt v).setLlbit true)
  | loadF {s} (ft base : Reg) (offset : BitVec 16) (a : Nat) (v : Word) :
      Effect (.lwc1 ft base offset) s ((s.touchD a).setF ft v)
  | store {i s} (a : Nat) (bytes : List Byte) (stores : changesData i = true) : Effect i s (s.storeBytes a bytes)
  | storeLinked {s} (rt base : Reg) (offset : BitVec 16) (a : Nat) (bytes : List Byte) (v : Word) :
      Effect (.sc rt base offset) s ((s.storeBytes a bytes).setX rt v)
  | fillI {i s} (a : Nat) (k : Bool) : Effect i s (s.fillI a k)
  | unlockI {i s} (a : Nat) (maintains : maintainsI i = true) : Effect i s (s.putIset a { s.iset a with lock := false })
  | dropI {i s} (a : Nat) (w : Way) (c : CacheSet) (maintains : maintainsI i = true) (drops : (s.iset a).Drops w c) :
      Effect i s (s.putIset a c)
  | fillD {i s} (a : Nat) (k : Bool) : Effect i s (s.fillD a k)
  | createD {i s} (a : Nat) (k : Bool) (cached : s.platform.cacheable a = true) (creates : changesData i = true) :
      Effect i s (s.createD a k)
  | unlockD {i s} (a : Nat) (maintains : maintainsD i = true) : Effect i s (s.putDset a { s.dset a with lock := false })
  | dropD {i s} (a : Nat) (w : Way) (c : CacheSet) (maintains : maintainsD i = true) (loses : changesData i = true)
      (drops : (s.dset a).Drops w c) : Effect i s (s.putDset a c)
  | evictD {i s} (a : Nat) (w : Way) (c : CacheSet) (maintains : maintainsD i = true) (drops : (s.dset a).Drops w c) :
      Effect i s ((s.writebackIfDirty a w).putDset a c)
  | cleanD {i s} (a : Nat) (w : Way) (maintains : maintainsD i = true) (hit : s.dHit a = some w)
      (dirty : ((s.dset a).line w).dirty = true) : Effect i s ((s.writeback a w).putDset a ((s.dset a).clean w))
  | sync {s} : Effect .sync s s.drainAll

/-- How the run goes on after an instruction's effect: the next instruction, a delay slot (R26), or a handler (R341). -/
inductive Sequel : Instr → State → State → Prop
  | seq {i u} : Sequel i u u.seq
  | branchTo {i u} (target : Word) (slot : hasDelaySlot i = true) : Sequel i u (u.branchTo target)
  | fallThrough {i u} (slot : hasDelaySlot i = true) : Sequel i u u.fallThrough
  | nullifySlot {i u} : Sequel i u u.nullifySlot
  | eretReturn {u} (usable : Cop0OK u) : Sequel .eret u u.eretReturn
  | trapEntry {i u} (e : Exc) : Sequel i u (u.trapEntry e)

/-- An answer of the instruction `i` in the state `s` that is a next state is reached by an effect and a sequel of `i`. -/
def Completes (i : Instr) (s : State) : Result → Prop
  | .next t => ∃ u, Effect i s u ∧ Sequel i u t
  | .fault _ | .refused _ => True

/-! ### The shared operations -/

theorem CacheSet.drops_invalidate (c : CacheSet) (w : Way) : c.Drops w (c.invalidate w) :=
  ⟨by rw [CacheSet.line_invalidate, if_pos rfl], by rw [CacheSet.line_invalidate, if_neg w.other_ne]⟩

/-- The Lock bit has no part in it. -/
theorem CacheSet.Drops.of_line {c d c' : CacheSet} {w : Way} (h : d.Drops w c') (e : ∀ v, d.line v = c.line v) : c.Drops w c' :=
  ⟨by rw [h.dropped, e], by rw [h.other, e]⟩

theorem CacheSet.drops_releaseLock_invalidate (c : CacheSet) (w : Way) : c.Drops w ((c.releaseLock w).invalidate w) :=
  (CacheSet.drops_invalidate _ w).of_line (CacheSet.line_releaseLock c w)

theorem CacheSet.drops_of_indexSelect {c c' : CacheSet} {w : Way} (h : c.indexSelect = (some w, c')) :
    c.Drops w (c'.invalidate w) := by
  refine (c'.drops_invalidate w).of_line fun v => ?_
  unfold CacheSet.indexSelect at h
  split at h <;> cases h
  · rfl
  · exact c.line_lock false v
  · exact c.line_lock false v

section
variable {i : Instr} {s : State}

theorem Effect.completes {u : State} (h : Effect i s u) : Completes i s (.next u.seq) := ⟨u, h, .seq⟩

theorem completes_raise (e : Exc) : Completes i s (raise e s) := ⟨s, .nothing, .trapEntry e⟩

theorem Completes.ite {p : Prop} [Decidable p] {a b : Result} (ha : Completes i s a) (hb : Completes i s b) :
    Completes i s (if p then a else b) := by
  split
  · exact ha
  · exact hb

theorem completes_finish (v : Word) {r : Reg} (h : dstField i = some r) : Completes i s (s.finish r v) :=
  (Effect.setX r v h).completes

theorem completes_withMode {k : Mode → Result} (hk : ∀ m, Completes i s (k m)) : Completes i s (s.withMode k) := by
  unfold State.withMode
  cases s.mode with
  | some m => exact hk m
  | none => trivial

theorem completes_withCop {z : BitVec 2} {usable : Option Bool} {k : Result} (hk : usable = some true → Completes i s k) :
    Completes i s (s.withCop z usable k) := by
  unfold State.withCop
  match usable with
  | some true => exact hk rfl
  | some false => exact completes_raise _
  | none => trivial

theorem completes_withCop0 {k : Result} (hk : Cop0OK s → Completes i s k) : Completes i s (s.withCop0 k) := completes_withCop hk

theorem completes_withCop1 {k : Result} (hk : Completes i s k) : Completes i s (s.withCop1 k) := completes_withCop fun _ => hk

theorem completes_withCp0Reg {n : Reg} {listed : Bool} {k : Result} (hk : Completes i s k) :
    Completes i s (s.withCp0Reg n listed k) :=
  .ite trivial (.ite hk trivial)

theorem completes_checkedAccess {a : Word} {k : Access} {n : Nat} {r : Result} (hr : Completes i s r) :
    Completes i s (s.checkedAccess a k n r) :=
  .ite (completes_raise _) (completes_withMode fun _ => .ite (completes_raise _) (.ite (completes_raise _) hr))

theorem completes_load {a : Word} {n : Nat} {write : State → State} (h : Effect i s (write (s.touchD a.toNat))) :
    Completes i s (s.load a n write) :=
  completes_checkedAccess h.completes

theorem completes_loadX {a : Word} {n : Nat} {rt : Reg} {v : Word} (h : dstField i = some rt) :
    Completes i s (s.load a n fun t => t.setX rt v) :=
  completes_load (write := fun t => t.setX rt v) (.load _ _ _ h)

theorem completes_store {a first : Word} {n : Nat} {bytes : List Byte} (h : changesData i = true) :
    Completes i s (s.store a n first bytes) :=
  completes_checkedAccess (Effect.store _ _ h).completes

theorem completes_cacheOp {base : Reg} {offset : BitVec 16} {op : Nat → Result}
    (hop : Completes i s (op (s.effAddr base offset).toNat)) : Completes i s (s.cacheOp base offset op) :=
  completes_withMode fun _ => .ite (completes_raise _) hop

theorem completes_fillOp {a : Nat} {side : CacheSide} {hit : Bool} {filled : State} (h : Effect i s filled) :
    Completes i s (s.fillOp a side hit filled) :=
  .ite Effect.nothing.completes (.ite (completes_raise _) h.completes)

theorem completes_createOp {a : Nat} {lockIt : Bool} (h : changesData i = true) : Completes i s (s.createOp a lockIt) := by
  unfold State.createOp
  split
  next cached => exact (Effect.createD a lockIt cached h).completes
  next => trivial

theorem Effect.completes_branch {u : State} (h : Effect i s u) (slot : hasDelaySlot i = true) (taken : Bool)
    (offset : BitVec 16) : Completes i s (u.branch taken offset) := by
  cases taken with
  | true => exact ⟨u, h, .branchTo _ slot⟩
  | false => exact ⟨u, h, .fallThrough slot⟩

theorem Effect.completes_branchLikely {u : State} (h : Effect i s u) (slot : hasDelaySlot i = true) (taken : Bool)
    (offset : BitVec 16) : Completes i s (u.branchLikely taken offset) := by
  cases taken with
  | true => exact ⟨u, h, .branchTo _ slot⟩
  | false => exact ⟨u, h, .nullifySlot⟩

end

/-! ### Every instruction -/

theorem exec_completes (i : Instr) (s : State) : Completes i s (exec i s) := by
  cases i
  -- an overflow trap (R111), a refusal of the fields (R380), or a register write
  case add | addi | sub => exact .ite (completes_raise _) (completes_finish _ rfl)
  case ext | ins => exact .ite trivial (completes_finish _ rfl)
  case movn => exact .ite Effect.nothing.completes (completes_finish _ rfl)
  case movz => exact .ite (completes_finish _ rfl) Effect.nothing.completes
  -- HI and LO (R150)
  case div | divu => exact .ite (Effect.setHiLo _ _ _ rfl).completes (Effect.setHiLo _ _ _ rfl).completes
  case mult | multu | madd | maddu | msub | msubu | mthi | mtlo => exact (Effect.setHiLo _ _ _ rfl).completes
  -- branches and jumps (R165)
  case beq | bne | bgez | bgtz | blez | bltz => exact Effect.nothing.completes_branch rfl _ _
  case beql | bnel | bgezl | bgtzl | blezl | bltzl => exact Effect.nothing.completes_branchLikely rfl _ _
  case bgezal | bltzal => exact .ite trivial ((Effect.setX _ _ rfl).completes_branch rfl _ _)
  case bgezall | bltzall => exact .ite trivial ((Effect.setX _ _ rfl).completes_branchLikely rfl _ _)
  case j | jr => exact ⟨s, .nothing, .branchTo _ rfl⟩
  case jal => exact ⟨_, .setX _ _ rfl, .branchTo _ rfl⟩
  case jalr rd rs => exact .ite trivial ⟨_, .setX rd _ rfl, .branchTo _ rfl⟩
  case bc1f | bc1t => exact completes_withCop1 (Effect.nothing.completes_branch rfl _ _)
  case bc1fl | bc1tl => exact completes_withCop1 (Effect.nothing.completes_branchLikely rfl _ _)
  -- loads and stores (R200)
  case lb | lbu | lh | lhu | lw | lwl | lwr => exact completes_loadX rfl
  case ll =>
    unfold exec execLl
    exact completes_load (.loadLinked ..)
  case lwc1 =>
    unfold exec execLwc1
    exact completes_withCop1 (completes_load (.loadF ..))
  case sb | sh | sw | swl | swr => exact completes_store rfl
  case swc1 => exact completes_withCop1 (completes_store rfl)
  case sc rt base offset =>
    refine completes_checkedAccess (Effect.completes ?_)
    unfold State.storeIfLinked
    split
    · exact .storeLinked ..
    · exact .setX rt _ rfl
  -- exceptions and coprocessors (R225, R240)
  case brk | syscall => exact completes_raise _
  case eret => exact completes_withCop0 fun usable => ⟨s, .nothing, .eretReturn usable⟩
  case mfc0 => exact completes_withCop0 fun _ => completes_withCp0Reg (completes_finish _ rfl)
  case mtc0 => exact completes_withCop0 fun usable => completes_withCp0Reg (Effect.setCp0 _ _ usable _).completes
  case mfc1 => exact completes_withCop1 (completes_finish _ rfl)
  case mtc1 => exact completes_withCop1 (Effect.setF ..).completes
  case cfc1 =>
    exact .ite (completes_withCop1 (completes_finish _ rfl)) (.ite (completes_withCop1 (completes_finish _ rfl)) trivial)
  case ctc1 =>
    exact .ite (completes_withCop1 (.ite ⟨_, .setFcr31 .., .trapEntry _⟩ (Effect.setFcr31 ..).completes)) trivial
  -- the cache functions (R290) and sync
  case cacheFillI | cacheFillLockI =>
    simp only [exec, execCacheFillI, execCacheFillLockI]
    exact completes_cacheOp (completes_fillOp (.fillI ..))
  case cacheFillD | cacheFillLockD =>
    simp only [exec, execCacheFillD, execCacheFillLockD]
    exact completes_cacheOp (completes_fillOp (.fillD ..))
  case cacheCreateDirtyD | cacheCreateDirtyLockD =>
    simp only [exec, execCacheCreateDirtyD, execCacheCreateDirtyLockD]
    exact completes_cacheOp (completes_createOp rfl)
  case cacheIndexUnlockI =>
    unfold exec execCacheIndexUnlockI
    exact completes_cacheOp (Effect.unlockI _ rfl).completes
  case cacheIndexUnlockD =>
    unfold exec execCacheIndexUnlockD
    exact completes_cacheOp (Effect.unlockD _ rfl).completes
  case cacheIndexInvalidateI =>
    unfold exec execCacheIndexInvalidateI
    refine completes_cacheOp ?_
    split
    next w c hsel => exact (Effect.dropI _ w _ rfl (CacheSet.drops_of_indexSelect hsel)).completes
    next => exact Effect.nothing.completes
  case cacheIndexWritebackInvalidateD =>
    unfold exec execCacheIndexWritebackInvalidateD
    refine completes_cacheOp ?_
    split
    next w c hsel => exact (Effect.evictD _ w _ rfl (CacheSet.drops_of_indexSelect hsel)).completes
    next => exact Effect.nothing.completes
  case cacheHitInvalidateI =>
    unfold exec execCacheHitInvalidateI
    refine completes_cacheOp ?_
    split
    next w _ => exact (Effect.dropI _ w _ rfl (CacheSet.drops_releaseLock_invalidate _ w)).completes
    next => exact Effect.nothing.completes
  case cacheHitInvalidateD =>
    unfold exec execCacheHitInvalidateD
    refine completes_cacheOp ?_
    split
    next w _ => exact (Effect.dropD _ w _ rfl rfl (CacheSet.drops_releaseLock_invalidate _ w)).completes
    next => exact Effect.nothing.completes
  case cacheHitWritebackInvalidateD =>
    unfold exec execCacheHitWritebackInvalidateD
    refine completes_cacheOp ?_
    split
    next w _ => exact (Effect.evictD _ w _ rfl (CacheSet.drops_releaseLock_invalidate _ w)).completes
    next => exact Effect.nothing.completes
  case cacheHitWritebackD =>
    unfold exec execCacheHitWritebackD
    refine completes_cacheOp ?_
    split
    next w hit =>
      split
      next dirty => exact (Effect.cleanD _ w rfl hit dirty).completes
      next => exact Effect.nothing.completes
    next => exact Effect.nothing.completes
  case sync => exact Effect.sync.completes
  case nop => exact Effect.nothing.completes
  -- every other instruction writes one register
  all_goals exact completes_finish _ rfl

/-- EVERYTHING AN INSTRUCTION CAN DO when it answers a next state. -/
theorem exec_next {i : Instr} {s t : State} (h : exec i s = .next t) : ∃ u, Effect i s u ∧ Sequel i u t := by
  have hc := exec_completes i s
  rw [h] at hc
  exact hc

end Sys2Proof.Machine
end

section
/-! ## The registers of every instruction -/

namespace Sys2Proof.Machine

/-! ### General registers (R20, R21) -/

/-- A write to the destination leaves every other register as it is; one to register 0 leaves that too (R21). -/
theorem State.x_setX_of_dst {i : Instr} {q r : Reg} (dst : dstField i = some q) (hr : dstReg i ≠ some r) (s : State) (v : Word) :
    (s.setX q v).x r = s.x r := by
  by_cases hq : r = q
  · have hz : r = 0#5 := by_contra fun hz => hr (by simp [dstReg, dst, ← hq, hz])
    rw [hz, State.x_zero, State.x_zero]
  · exact s.x_setX_of_ne v hq

theorem Effect.x_eq {i : Instr} {s u : State} (h : Effect i s u) {r : Reg} (hr : dstReg i ≠ some r) : u.x r = s.x r := by
  cases h with
  | setX q v dst => exact State.x_setX_of_dst dst hr s v
  | load a q v dst => rw [State.x_setX_of_dst dst hr, State.touchD_x]
  | loadLinked q _ _ a v => rw [State.setLlbit_x, State.x_setX_of_dst rfl hr, State.touchD_x]
  | storeLinked q _ _ a bytes v => rw [State.x_setX_of_dst rfl hr, State.storeBytes_x]
  | setHiLo => rfl
  | _ => simp

theorem Sequel.x_eq {i : Instr} {u t : State} (h : Sequel i u t) (r : Reg) : t.x r = u.x r := by cases h <;> rfl

/-- Settles O48: only the instruction's effect writes general registers, and of them the destination alone. -/
theorem generalRegisterFrame : Obligations.GeneralRegisterFrame := by
  intro i s t h
  obtain ⟨u, effect, sequel⟩ := exec_next h
  exact ⟨fun r hr => (sequel.x_eq r).trans (effect.x_eq hr), t.x_zero⟩

/-! ### LLbit, HI, LO, the FPU registers, FCR0, FCR31, and the launch parameters (R30, R35 to R39) -/

section
variable {i : Instr} {s u t : State}

theorem Effect.llbit_eq (h : Effect i s u) : u.llbit = s.llbit ∨ ∃ rt b o, i = .ll rt b o := by
  cases h with
  | loadLinked => exact .inr ⟨_, _, _, rfl⟩
  | _ => exact .inl (by simp)

theorem Effect.hiLo_eq (h : Effect i s u) : (u.hi = s.hi ∧ u.lo = s.lo) ∨ writesHiLo i = true := by
  cases h with
  | setHiLo _ _ _ writes => exact .inr writes
  | _ => exact .inl (by simp)

theorem Effect.fpr_eq (h : Effect i s u) : u.fpr = s.fpr ∨ (∃ rt fs, i = .mtc1 rt fs) ∨ ∃ ft b o, i = .lwc1 ft b o := by
  cases h with
  | setF => exact .inr (.inl ⟨_, _, rfl⟩)
  | loadF => exact .inr (.inr ⟨_, _, _, rfl⟩)
  | _ => exact .inl (by simp)

theorem Effect.fcr31_eq (h : Effect i s u) : u.fcr31 = s.fcr31 ∨ ∃ rt fs, i = .ctc1 rt fs := by
  cases h with
  | setFcr31 => exact .inr ⟨_, _, rfl⟩
  | _ => exact .inl (by simp)

theorem Effect.fcr0_eq (h : Effect i s u) : u.fcr0 = s.fcr0 := by cases h <;> simp

theorem Effect.platform_eq (h : Effect i s u) : u.platform = s.platform := by cases h <;> simp [State.fillD_platform]

theorem Sequel.llbit_eq (h : Sequel i u t) : t.llbit = u.llbit ∨ i = .eret := by
  cases h with
  | eretReturn => exact .inr rfl
  | _ => exact .inl rfl

/-- How the run goes on changes none of the other registers (R26, R228, R341). -/
theorem Sequel.special_eq (h : Sequel i u t) :
    t.hi = u.hi ∧ t.lo = u.lo ∧ t.fpr = u.fpr ∧ t.fcr31 = u.fcr31 ∧ t.fcr0 = u.fcr0 ∧ t.platform = u.platform := by
  cases h <;> exact ⟨rfl, rfl, rfl, rfl, rfl, rfl⟩

end

/-- Settles O47, register by register: which effect writes it. -/
theorem specialRegisterWriters : Obligations.SpecialRegisterWriters := by
  intro i s t h
  obtain ⟨u, effect, sequel⟩ := exec_next h
  obtain ⟨hi, lo, fpr, fcr31, fcr0, platform⟩ := sequel.special_eq
  refine ⟨?_, ?_, ?_, ?_, fcr0.trans effect.fcr0_eq, platform.trans effect.platform_eq⟩
  · rcases sequel.llbit_eq with e | eret
    · rw [e]
      exact effect.llbit_eq.imp_right .inl
    · exact .inr (.inr eret)
  · rw [hi, lo]; exact effect.hiLo_eq
  · rw [fpr]; exact effect.fpr_eq
  · rw [fcr31]; exact effect.fcr31_eq

end Sys2Proof.Machine
end

section
/-! ## The two invariants of every step

`State.Inv` and `State.Coherent` look at different parts of the state; each is followed through what leaves the write buffers, the
fetch, the instruction's effect and its sequel. -/

namespace Sys2Proof.Machine

/-! ### Lines of the instruction cache (R291) -/

/-- No line is in both ways of a set of the instruction cache. -/
def State.FetchDistinct (s : State) : Prop := ∀ n, (Cache.get s.icache n).Distinct

theorem CacheSet.Drops.distinct {c c' : CacheSet} {w : Way} (h : c.Drops w c') : c'.Distinct :=
  CacheSet.distinct_of_ways w (by simp [h.dropped])

/-- A line placed in a set that does not hold it. -/
theorem CacheSet.distinct_place {c : CacheSet} (v : Way) {l : Line} (k : Bool) (miss : c.find l.tag = none) :
    (c.place v l k).Distinct := by
  refine CacheSet.distinct_of_ways v fun _ hv => ?_
  rw [CacheSet.line_place, if_neg v.other_ne] at hv
  rw [CacheSet.line_place, CacheSet.line_place, if_pos rfl, if_neg v.other_ne]
  exact (CacheSet.find_none miss v.other hv).symm

theorem State.FetchDistinct.putIset {s : State} (h : s.FetchDistinct) (a : Nat) {c : CacheSet} (hc : c.Distinct) :
    (s.putIset a c).FetchDistinct := by
  intro n
  rw [State.putIset_icache, Cache.get_put]
  split
  · exact hc
  · exact h n

theorem State.FetchDistinct.fillI {s : State} (h : s.FetchDistinct) (a : Nat) (k : Bool) : (s.fillI a k).FetchDistinct := by
  unfold State.fillI
  cases miss : s.iHit a with
  | some w => exact h
  | none => exact h.putIset a (CacheSet.distinct_place _ k miss)

theorem State.FetchDistinct.fetched {s : State} (h : s.FetchDistinct) : s.fetched.FetchDistinct := by
  unfold State.fetched State.touchI
  split
  · exact h.fillI _ _
  · exact h

theorem Effect.fetchDistinct {i : Instr} {s u : State} (h : Effect i s u) (hs : s.FetchDistinct) : u.FetchDistinct := by
  cases h with
  | fillI a k => exact hs.fillI a k
  | unlockI a => exact hs.putIset a (hs _)
  | dropI a w c _ drops => exact hs.putIset a drops.distinct
  | _ => simpa [State.FetchDistinct] using hs

theorem Sequel.icache_eq {i : Instr} {u t : State} (h : Sequel i u t) : t.icache = u.icache := by cases h <;> rfl

/-! ### Main memory in canonical form (R50) -/

/-- Of all instructions only `sync` writes main memory. -/
theorem Effect.memory_wf {i : Instr} {s u : State} (h : Effect i s u) (hs : Memory.wf s.mem = true) : Memory.wf u.mem = true := by
  cases h with
  | sync => exact State.wf_drain hs _ _
  | _ => simpa using hs

theorem Sequel.mem_eq {i : Instr} {u t : State} (h : Sequel i u t) : t.mem = u.mem := by cases h <;> rfl

theorem State.wf_drainSome {s : State} (h : Memory.wf s.mem = true) : Memory.wf s.drainSome.mem = true := by
  unfold State.drainSome
  split
  · exact h
  · exact State.wf_drain h _ _

/-! ### The program counter and the history (R27, R379) -/

/-- Outside a delay slot the next word follows; only a branch or jump leads into one (R25, R26). -/
theorem Sequel.sequence {i : Instr} {u t : State} (h : Sequel i u t) :
    (t.inDs = false → t.npc = t.pc + 4#32) ∧ (t.inDs = true → hasDelaySlot i = true) := by
  cases h with
  | branchTo _ slot | fallThrough slot => exact ⟨(nomatch ·), fun _ => slot⟩
  | nullifySlot => exact ⟨fun _ => by rw [State.nullifySlot_npc, State.nullifySlot_pc, BitVec.add_assoc]; rfl, (nomatch ·)⟩
  | seq | eretReturn | trapEntry => exact ⟨fun _ => rfl, (nomatch ·)⟩

theorem State.ctc1Traps_ctc1 {s : State} {i : Instr} (h : s.ctc1Traps i = true) : ∃ rt fs, i = .ctc1 rt fs := by
  obtain ⟨rt, rfl, _⟩ := (s.ctc1Traps_iff i).mp h
  exact ⟨rt, _, rfl⟩

/-- The history of an executed instruction agrees with the sequel of the instruction. -/
theorem State.inv_recordInstr {i : Instr} {s u t : State} (sequel : Sequel i u t) (memory : Memory.wf t.mem = true)
    (distinct : t.FetchDistinct) : (t.recordInstr s i).Inv where
  memory := memory
  sequence := sequel.sequence.1
  owned := by
    show t.inDs = (if t.inDs then some i else none).isSome
    cases t.inDs <;> rfl
  slot j hj := by
    change (if t.inDs then some i else none) = some j at hj
    split at hj
    next slot => cases hj; exact ⟨sequel.sequence.2 slot, rfl⟩
    next => cases hj
  trapped h := by
    obtain ⟨rt, fs, rfl⟩ := State.ctc1Traps_ctc1 (i := i) h
    exact ⟨rt, fs, rfl⟩
  fetchDistinct := distinct

/-- A step that takes an exception before it executes an instruction. -/
theorem State.inv_recordNone {s : State} (b : State) (e : Exc) (memory : Memory.wf s.mem = true) (distinct : s.FetchDistinct) :
    ((s.trapEntry e).recordNone b).Inv where
  memory := memory
  sequence _ := rfl
  owned := rfl
  slot _ h := by cases h
  trapped h := by cases h
  fetchDistinct := distinct

/-- Settles O58, through everything a step can do (`step_next`). -/
theorem stepKeepsInv : Obligations.StepKeepsInv := by
  intro s t inv h
  have memory : Memory.wf s.drainSome.mem = true := State.wf_drainSome inv.memory
  have memory' : Memory.wf s.drainSome.fetched.mem = true := by rwa [State.fetched, State.touchI_mem]
  have distinct : s.drainSome.FetchDistinct := by
    unfold State.FetchDistinct
    rw [State.drainSome_icache]
    exact inv.fetchDistinct
  rcases step_next h with ⟨e, rfl⟩ | rfl | ⟨i, v, _, _, hexec, rfl⟩
  · exact State.inv_recordNone _ e memory distinct
  · exact State.inv_recordNone _ _ memory' distinct.fetched
  · obtain ⟨u, effect, sequel⟩ := exec_next hexec
    refine State.inv_recordInstr sequel ?_ ?_
    · rw [sequel.mem_eq]
      exact effect.memory_wf memory'
    · unfold State.FetchDistinct
      rw [sequel.icache_eq]
      exact effect.fetchDistinct distinct.fetched

/-! ### The data cache and what lies beneath it (R41, R63, R70) -/

/-- Coherence is of the data cache, the write buffers, memory and the platform. -/
theorem State.Coherent.congr {s t : State} (h : s.Coherent) (dcache : t.dcache = s.dcache)
    (writebackBuf : t.writebackBuf = s.writebackBuf) (nonCacheBuf : t.nonCacheBuf = s.nonCacheBuf) (mem : t.mem = s.mem)
    (platform : t.platform = s.platform) : t.Coherent where
  sets := by
    have bus : t.busByte = s.busByte := by
      funext a
      unfold State.busByte
      rw [writebackBuf, nonCacheBuf, mem]
    rw [dcache, bus, platform]
    exact h.sets
  writebacks := by rw [writebackBuf, platform]; exact h.writebacks
  others := by rw [nonCacheBuf, platform]; exact h.others

/-- A line made invalid without a writeback: what remains agrees. -/
theorem State.Coherent.drop {s : State} (h : s.Coherent) (a : Nat) {w : Way} {c : CacheSet} (drops : (s.dset a).Drops w c) :
    (s.putDset a c).Coherent :=
  h.putDset a ((h.set a).replace drops.dropped drops.other (by simp) (by simp) (by simp) (by simp))

/-- Clearing the Lock bit leaves the lines of the set. -/
theorem State.Coherent.unlock {s : State} (h : s.Coherent) (a : Nat) :
    (s.putDset a { s.dset a with lock := false }).Coherent :=
  h.putDset a ((h.set a).replace (v := .A) rfl rfl ((h.set a).whole .A) ((h.set a).clean .A) ((h.set a).dirtyCached .A)
    (h.distinctAt a))

/-- A dirty line that has been written back and made clean agrees with what lies beneath (R301). -/
theorem State.Coherent.clean {s : State} (h : s.Coherent) {a : Nat} {w : Way} (hit : s.dHit a = some w)
    (dirty : ((s.dset a).line w).dirty = true) : ((s.writeback a w).putDset a ((s.dset a).clean w)).Coherent := by
  obtain ⟨valid, _⟩ := State.line_of_dHit hit
  have coh := (State.writeback_spec h a w valid dirty).1
  have agrees := coh.set a
  refine coh.putDset a (agrees.replace (v := w) (l := { (s.dset a).line w with dirty := false })
    (by rw [CacheSet.line_clean, if_pos rfl]) (by rw [CacheSet.line_clean, if_neg w.other_ne]; rfl) (agrees.whole w) ?_
    (fun _ => (nomatch ·)) fun _ => (coh.distinctAt a).other w valid)
  intro _ _ _ o ho
  obtain ⟨hset, htag, hoff⟩ := s.platform.split_lineAddr .data (s.platform.setOf_lt .data a) ho (tag := ((s.dset a).line w).tag)
  show _ = (s.writeback a w).busByte (s.platform.lineAddr .data (s.platform.setOf .data a) ((s.dset a).line w).tag + o)
  rw [State.busByte_writeback h a w valid dirty, if_pos ⟨hset, htag⟩, hoff]

theorem Effect.coherent {i : Instr} {s u : State} (h : Effect i s u) (hs : s.Coherent) (memory : Memory.wf s.mem = true) :
    u.Coherent := by
  cases h with
  | load a => exact (State.touchD_spec hs a).1.congr rfl rfl rfl rfl rfl
  | loadLinked _ _ _ a => exact (State.touchD_spec hs a).1.congr rfl rfl rfl rfl rfl
  | loadF _ _ _ a => exact (State.touchD_spec hs a).1.congr rfl rfl rfl rfl rfl
  | store a bytes => exact (State.storeBytes_spec hs a).1
  | storeLinked _ _ _ a bytes => exact (State.storeBytes_spec (bytes := bytes) hs a).1.congr rfl rfl rfl rfl rfl
  | fillI a k => exact hs.congr (by simp) (by simp) (by simp) (by simp) (by simp)
  | fillD a k => exact (State.fillD_spec hs a k).1
  | createD a k cached => exact (State.createD_spec hs cached k).1
  | unlockD a => exact hs.unlock a
  | dropD a w c _ _ drops => exact hs.drop a drops
  | evictD a w c _ drops => exact (State.drop_spec hs a w drops.dropped drops.other).1
  | cleanD a w _ hit dirty => exact hs.clean hit dirty
  | sync => exact (State.drainAll_spec hs memory).1
  | _ => exact hs.congr rfl rfl rfl rfl rfl

theorem Sequel.coherent {i : Instr} {u t : State} (h : Sequel i u t) (hu : u.Coherent) : t.Coherent := by
  cases h <;> exact hu.congr rfl rfl rfl rfl rfl

/-- Settles O59, through everything a step can do (`step_next`). -/
theorem stepKeepsCoherent : Obligations.StepKeepsCoherent := by
  intro s t inv coh h
  obtain ⟨drained, _, memory⟩ := State.drainSome_spec coh inv.memory
  have fetched : s.drainSome.fetched.Coherent := drained.congr (by simp [State.fetched]) (by simp [State.fetched])
    (by simp [State.fetched]) (by simp [State.fetched]) (by simp [State.fetched])
  rcases step_next h with ⟨e, rfl⟩ | rfl | ⟨i, v, _, _, hexec, rfl⟩
  · exact drained.congr rfl rfl rfl rfl rfl
  · exact fetched.congr rfl rfl rfl rfl rfl
  · obtain ⟨u, effect, sequel⟩ := exec_next hexec
    have memory' : Memory.wf s.drainSome.fetched.mem = true := by rwa [State.fetched, State.touchI_mem]
    exact (sequel.coherent (effect.coherent fetched memory')).congr rfl rfl rfl rfl rfl

end Sys2Proof.Machine
end

section
/-! ## Locked lines (R291)

The LRU bit of a set with a locked line points to the other way, and `place` leaves that bit while the set is locked. So what is
placed where the LRU bit points never lands on a locked line. -/

namespace Sys2Proof.Machine

/-! ### One set -/

/-- A line of `c` that is locked and valid is so in `c'`, in the same way and under the same tag. -/
def CacheSet.KeepsLocked (c c' : CacheSet) : Prop := ∀ w, c.locked w = true → (c.line w).valid = true →
  c'.locked w = true ∧ (c'.line w).valid = true ∧ (c'.line w).tag = (c.line w).tag

theorem CacheSet.KeepsLocked.refl (c : CacheSet) : c.KeepsLocked c := fun _ locked valid => ⟨locked, valid, rfl⟩

theorem CacheSet.KeepsLocked.trans {c d e : CacheSet} (h : c.KeepsLocked d) (g : d.KeepsLocked e) : c.KeepsLocked e := by
  intro w locked valid
  obtain ⟨locked₁, valid₁, tag₁⟩ := h w locked valid
  obtain ⟨locked₂, valid₂, tag₂⟩ := g w locked₁ valid₁
  exact ⟨locked₂, valid₂, tag₂.trans tag₁⟩

theorem CacheSet.locked_iff (c : CacheSet) (w : Way) : c.locked w = true ↔ c.lock = true ∧ c.lru = w.other := by
  simp [CacheSet.locked]

/-- Placing a line leaves a locked set locked, and its LRU bit where it points. -/
theorem CacheSet.locked_place {c : CacheSet} {w : Way} (h : c.locked w = true) (v : Way) (l : Line) (k : Bool) :
    (c.place v l k).locked w = true := by
  obtain ⟨lock, lru⟩ := (c.locked_iff w).mp h
  exact (CacheSet.locked_iff _ w).mpr ⟨by simp [CacheSet.place, lock], by simpa [CacheSet.place, lock] using lru⟩

theorem CacheSet.line_place_lru {c : CacheSet} {w : Way} (h : c.locked w = true) (l : Line) (k : Bool) :
    (c.place c.lru l k).line w = c.line w := by
  obtain ⟨_, lru⟩ := (c.locked_iff w).mp h
  rw [CacheSet.line_place, if_neg (by rw [lru]; exact w.other_ne.symm)]

theorem CacheSet.keepsLocked_place_lru (c : CacheSet) (l : Line) (k : Bool) : c.KeepsLocked (c.place c.lru l k) := by
  intro w locked valid
  rw [CacheSet.line_place_lru locked]
  exact ⟨CacheSet.locked_place locked _ l k, valid, rfl⟩

/-- A line placed where the set holds its tag. -/
theorem CacheSet.keepsLocked_place_hit {c : CacheSet} {v : Way} {l : Line} (hit : c.find l.tag = some v) (valid : l.valid = true)
    (k : Bool) : c.KeepsLocked (c.place v l k) := by
  intro w locked validw
  refine ⟨CacheSet.locked_place locked v l k, ?_⟩
  rw [CacheSet.line_place]
  split
  next e => exact ⟨valid, by rw [e, (CacheSet.find_some hit).2]⟩
  next => exact ⟨validw, rfl⟩

/-- A line changed in its bytes and its Dirty bit only. -/
theorem CacheSet.keepsLocked_setLine {c : CacheSet} {v : Way} {l : Line} (valid : l.valid = (c.line v).valid)
    (tag : l.tag = (c.line v).tag) : c.KeepsLocked (c.setLine v l) := by
  intro w locked validw
  refine ⟨by cases v <;> exact locked, ?_⟩
  rw [CacheSet.line_setLine]
  split
  next e => subst e; exact ⟨valid.trans validw, tag⟩
  next => exact ⟨validw, rfl⟩

/-! ### The data cache -/

/-- No valid and locked line of the data cache has been replaced. -/
def State.KeepsLockedD (s t : State) : Prop := ∀ a, (s.dset a).KeepsLocked (t.dset a)

theorem State.KeepsLockedD.refl (s : State) : s.KeepsLockedD s := fun _ => .refl _

theorem State.KeepsLockedD.trans {s t u : State} (h : s.KeepsLockedD t) (g : t.KeepsLockedD u) : s.KeepsLockedD u :=
  fun a => (h a).trans (g a)

theorem State.keepsLockedD_putDset {s : State} {a : Nat} {c : CacheSet} (h : (s.dset a).KeepsLocked c) :
    s.KeepsLockedD (s.putDset a c) := by
  intro b
  rw [State.dset_putDset]
  split
  next e =>
    have same : s.dset b = s.dset a := by unfold State.dset; rw [e]
    rw [same]
    exact h
  next => exact .refl _

theorem State.keepsLockedD_installD (s : State) (a : Nat) (dirty : Bool) (data : List Byte) (k : Bool) :
    s.KeepsLockedD (s.installD a (s.dset a).lru dirty data k) :=
  State.keepsLockedD_putDset (s := s.writebackIfDirty a (s.dset a).lru) ((s.dset a).keepsLocked_place_lru _ k)

theorem State.keepsLockedD_fillD (s : State) (a : Nat) (k : Bool) : s.KeepsLockedD (s.fillD a k) := by
  unfold State.fillD
  split
  · exact .refl s
  · exact s.keepsLockedD_installD a false _ k

theorem State.keepsLockedD_createD (s : State) (a : Nat) (k : Bool) : s.KeepsLockedD (s.createD a k) := by
  unfold State.createD
  split
  next w hit =>
    refine State.keepsLockedD_putDset (CacheSet.keepsLocked_place_hit ?_ rfl k)
    exact hit
  next => exact s.keepsLockedD_installD a true _ k

theorem State.keepsLockedD_touchD (s : State) (a : Nat) : s.KeepsLockedD (s.touchD a) := by
  unfold State.touchD
  split
  · exact s.keepsLockedD_fillD a false
  · exact .refl s

theorem State.keepsLockedD_pokeD (s : State) (a : Nat) (v : Byte) : s.KeepsLockedD (s.pokeD a v) := by
  unfold State.pokeD
  split
  · exact State.keepsLockedD_putDset (CacheSet.keepsLocked_setLine rfl rfl)
  · exact .refl s

theorem State.keepsLockedD_storeCached (s : State) (a : Nat) (v : Byte) : s.KeepsLockedD (s.storeCached a v) := by
  unfold State.storeCached
  split
  · exact (s.keepsLockedD_touchD a).trans ((s.touchD a).keepsLockedD_pokeD a v)
  · exact .refl s

theorem State.keepsLockedD_storeAllCached (bytes : List Byte) :
    ∀ (s : State) (a : Nat), s.KeepsLockedD (s.storeAllCached a bytes) := by
  induction bytes with
  | nil => exact fun s _ => .refl s
  | cons v bytes ih => exact fun s a => (s.keepsLockedD_storeCached a v).trans (ih (s.storeCached a v) (a + 1))

/-- Only the functions that write back, invalidate or unlock take a line from a set it is locked in. -/
theorem Effect.keepsLockedD {i : Instr} {s u : State} (h : Effect i s u) (hi : maintainsD i = false) : s.KeepsLockedD u := by
  cases h with
  | load a | loadLinked _ _ _ a | loadF _ _ _ a => exact s.keepsLockedD_touchD a
  | store a bytes | storeLinked _ _ _ a bytes => exact State.keepsLockedD_storeAllCached bytes s a
  | fillD a k => exact s.keepsLockedD_fillD a k
  | createD a k => exact s.keepsLockedD_createD a k
  | unlockD _ maintains | dropD _ _ _ maintains | evictD _ _ _ maintains | cleanD _ _ maintains =>
    rw [hi] at maintains; cases maintains
  | fillI a k => rw [State.fillI_eq]; exact .refl s
  | _ => exact .refl s

theorem Sequel.dset_eq {i : Instr} {u t : State} (h : Sequel i u t) (a : Nat) : t.dset a = u.dset a := by cases h <;> rfl

theorem dataAccess_of_maintainsD {i : Instr} (h : maintainsD i = true) : dataAccess i = none := by
  unfold maintainsD at h
  split at h
  iterate 5 rfl
  cases h

/-! ### The instruction cache -/

/-- A locked line of the instruction cache is as it was, and locked. -/
def State.KeepsLockedI (s t : State) : Prop := ∀ a w, (s.iset a).locked w = true →
  (t.iset a).locked w = true ∧ (t.iset a).line w = (s.iset a).line w

theorem State.KeepsLockedI.refl (s : State) : s.KeepsLockedI s := fun _ _ locked => ⟨locked, rfl⟩

theorem State.keepsLockedI_fillI (s : State) (a : Nat) (k : Bool) : s.KeepsLockedI (s.fillI a k) := by
  unfold State.fillI
  split
  · exact .refl s
  · intro b w locked
    rw [State.iset_putIset]
    split
    next e =>
      have same : s.iset b = s.iset a := by unfold State.iset; rw [e]
      rw [same] at locked ⊢
      exact ⟨CacheSet.locked_place locked _ _ k, CacheSet.line_place_lru locked _ k⟩
    next => exact ⟨locked, rfl⟩

theorem State.keepsLockedI_fetched (s : State) : s.KeepsLockedI s.fetched := by
  unfold State.fetched State.touchI
  split
  · exact s.keepsLockedI_fillI _ false
  · exact .refl s

/-- Only the functions that invalidate or unlock take a line from a set it is locked in. -/
theorem Effect.keepsLockedI {i : Instr} {s u : State} (h : Effect i s u) (hi : maintainsI i = false) : s.KeepsLockedI u := by
  cases h with
  | fillI a k => exact s.keepsLockedI_fillI a k
  | unlockI _ maintains | dropI _ _ _ maintains => rw [hi] at maintains; cases maintains
  | _ => intro a w locked; simpa [State.iset, State.fillD_platform] using locked

theorem Sequel.iset_eq {i : Instr} {u t : State} (h : Sequel i u t) (a : Nat) : t.iset a = u.iset a := by cases h <;> rfl

/-- Settles O57: each cache by the effect of the instruction, and the fetch by its fill. -/
theorem lockedLineStays : Obligations.LockedLineStays := by
  intro i s t a w _
  refine ⟨fun hi h locked valid => ?_, fun hi h locked _ => ?_, fun locked _ => s.keepsLockedI_fetched a w locked⟩
  · have hm : maintainsD i = false := by
      rcases hi with access | ⟨_, _, rfl⟩ | ⟨_, _, rfl⟩ | ⟨_, _, rfl⟩ | ⟨_, _, rfl⟩
      · by_contra hm
        rw [dataAccess_of_maintainsD (by simpa using hm)] at access
        cases access
      all_goals rfl
    obtain ⟨u, effect, sequel⟩ := exec_next h
    rw [sequel.dset_eq]
    exact effect.keepsLockedD hm a w locked valid
  · have hm : maintainsI i = false := by rcases hi with ⟨_, _, rfl⟩ | ⟨_, _, rfl⟩ <;> rfl
    obtain ⟨u, effect, sequel⟩ := exec_next h
    rw [sequel.iset_eq]
    exact effect.keepsLockedI hm a w locked

end Sys2Proof.Machine
end

section
/-! ## The rows of the opcode table (R94)

The word of an instruction has the fixed bits of its row (Laws.TableRow), and decodes to it: the decoder goes to the table that the
opcode names, and finds there the cell of the instruction. -/

namespace Sys2Proof

/-! ### The tables under an opcode (R85) -/

theorem decode_special {w : Word} (h : opF w = 0x00#6) : decode w = decodeSpecial w := by unfold decode; rw [h]; rfl

theorem decode_regimm {w : Word} (h : opF w = 0x01#6) : decode w = decodeRegimm w := by unfold decode; rw [h]; rfl

theorem decode_cop0 {w : Word} (h : opF w = 0x10#6) : decode w = decodeCop0 w := by unfold decode; rw [h]; rfl

theorem decode_cop1 {w : Word} (h : opF w = 0x11#6) : decode w = decodeCop1 w := by unfold decode; rw [h]; rfl

theorem decode_special3 {w : Word} (h : opF w = 0x1f#6) : decode w = decodeSpecial3 w := by unfold decode; rw [h]; rfl

theorem decode_cache {w : Word} (h : opF w = 0x2f#6) : decode w = decodeCache w := by unfold decode; rw [h]; rfl

/-- The decoder reads back what the encoder writes (R93), table by table. -/
theorem decode_encode (i : Instr) (h : i.isSpelledNop = false) : decode (encode i) = .instr i := by
  cases i
  case sync => decide
  case sll rd rt sa =>
    have notNop : ¬ (rt = 0#5 ∧ rd = 0#5 ∧ sa = 0#5) := by
      rintro ⟨rfl, rfl, rfl⟩
      cases h
    simp [encode, decode_special, decodeSpecial, notNop]
  case bltz | bgez | bltzl | bgezl | bltzal | bgezal | bltzall | bgezall => simp [encode, decode_regimm, decodeRegimm]
  case mfc0 | mtc0 | eret => simp [encode, decode_cop0, decodeCop0, ifZero]
  case mfc1 | mtc1 | cfc1 | ctc1 | bc1f | bc1t | bc1fl | bc1tl => simp [encode, decode_cop1, decodeCop1, ifZero]
  case ext | ins | wsbh | wsbw | seb | seh | bitrev => simp [encode, decode_special3, decodeSpecial3]
  case cacheIndexInvalidateI | cacheIndexUnlockI | cacheHitInvalidateI | cacheFillI | cacheFillLockI
      | cacheIndexWritebackInvalidateD | cacheIndexUnlockD | cacheCreateDirtyD | cacheHitInvalidateD | cacheHitWritebackD
      | cacheHitWritebackInvalidateD | cacheCreateDirtyLockD | cacheFillD | cacheFillLockD =>
    simp [encode, decode_cache, decodeCache]
  case addi | addiu | slti | sltiu | andi | ori | xori | lui | beq | bne | blez | bgtz | beql | bnel | blezl | bgtzl | j | jal
      | lb | lbu | lh | lhu | lw | lwl | lwr | sb | sh | sw | swl | swr | ll | sc | lwc1 | swc1 =>
    simp [encode, decode, ifZero]
  -- every other instruction stands in SPECIAL
  all_goals simp [encode, decode_special, decodeSpecial, ifZero]

end Sys2Proof

namespace Sys2Proof.Machine

open Sys2Proof.Laws (TableRow.Statement TableRow.row)

/-- An instruction has the row that the opcode table gives it. -/
theorem hasRow_of_statement {i : Instr} (h : TableRow.Statement i) : HasRow i (TableRow.row i).1 (TableRow.row i).2 :=
  ⟨h, decode_encode i⟩

theorem HasRows.nil : HasRows [] := nofun

theorem HasRows.cons {i : Instr} {mask bits : Word} {rows : List (Instr × Word × Word)} (h : HasRow i mask bits)
    (t : HasRows rows) : HasRows ((i, mask, bits) :: rows) :=
  List.forall_mem_cons.mpr ⟨h, t⟩

end Sys2Proof.Machine
end

section
/-! ## Branches and jumps (R26, R165, R183 to R186, R241 to R244) -/

namespace Sys2Proof.Machine

open Sys2Proof.Laws

/-! ### Targets -/

/-- The sign-extended word offset of a branch, as a number. -/
theorem signExtend_wordOffset (offset : BitVec 16) : (offset ++ 0#2).signExtend 32 = BitVec.ofInt 32 (4 * offset.toInt) := by
  have h : (offset ++ 0#2).toInt = 4 * offset.toInt := by
    rw [BitVec.toInt_append]
    simp
  rw [BitVec.signExtend, h]

theorem branchTarget_eq (s : State) (offset : BitVec 16) : branchTarget s.pc offset = targetOf s offset := by
  unfold branchTarget targetOf
  rw [signExtend_wordOffset, BitVec.ofInt_add, BitVec.ofInt_add, BitVec.ofInt_natCast, BitVec.ofNat_toNat, BitVec.setWidth_eq]
  rfl

/-- A region jump goes to a word of the 256 MB region of the delay slot (R183). -/
theorem toNat_jumpTarget (cur : Word) (target : BitVec 26) :
    (jumpTarget cur target).toNat = (cur + 4#32).toNat / 268435456 * 268435456 + 4 * target.toNat := by
  have bound := (cur + 4#32).isLt
  have whole : (jumpTarget cur target).toNat = _ := append_toNat ((cur + 4#32).extractLsb' 28 4) (target ++ 0#2)
  rw [whole, append_toNat, field_toNat]
  generalize cur + 4#32 = slot at *
  show slot.toNat / 2 ^ 28 % 2 ^ 4 * 2 ^ 28 + (target.toNat * 2 ^ 2 + 0) = _
  omega

/-! ### Branches -/

theorem State.branch_branches (s : State) {taken : Bool} {p : Prop} (h : taken = true ↔ p) (offset : BitVec 16) :
    ∃ t, s.branch taken offset = .next t ∧ Branches s t p (targetOf s offset) := by
  refine ⟨_, rfl, ?_⟩
  cases taken with
  | true => exact ⟨rfl, fun _ => ⟨rfl, rfl⟩, rfl, rfl, fun _ => branchTarget_eq s offset, fun hp => absurd (h.mp rfl) hp⟩
  | false => exact ⟨rfl, fun _ => ⟨rfl, rfl⟩, rfl, rfl, fun hp => (nomatch h.mpr hp), fun _ => rfl⟩

theorem State.branchLikely_likely (s : State) {taken : Bool} {p : Prop} (h : taken = true ↔ p) (offset : BitVec 16) :
    ∃ t, s.branchLikely taken offset = .next t ∧ OnlyPc s t ∧ SameMemory s t ∧ LikelyPc s t p (targetOf s offset) := by
  refine ⟨_, rfl, ?_⟩
  cases taken with
  | true =>
    exact ⟨rfl, fun _ => ⟨rfl, rfl⟩, fun _ => ⟨rfl, branchTarget_eq s offset, rfl⟩, fun hp => absurd (h.mp rfl) hp⟩
  | false => exact ⟨rfl, fun _ => ⟨rfl, rfl⟩, fun hp => (nomatch h.mpr hp), fun _ => ⟨rfl, rfl, rfl⟩⟩

theorem atLeastZero_iff (v : Word) : atLeastZero v = true ↔ 0 ≤ v.toInt := decide_eq_true_iff

theorem aboveZero_iff (v : Word) : aboveZero v = true ↔ 0 < v.toInt := decide_eq_true_iff

theorem atMostZero_iff (v : Word) : atMostZero v = true ↔ v.toInt ≤ 0 := decide_eq_true_iff

theorem belowZero_iff (v : Word) : belowZero v = true ↔ v.toInt < 0 := decide_eq_true_iff

/-- Settles O25: each is `branchLikely` on its condition. -/
theorem likelyBranches : Obligations.LikelyBranches := by
  intro rs rt offset s
  refine ⟨?_, s.branchLikely_likely beq_iff_eq offset, s.branchLikely_likely bne_iff_ne offset,
    s.branchLikely_likely (atLeastZero_iff _) offset, s.branchLikely_likely (aboveZero_iff _) offset,
    s.branchLikely_likely (atMostZero_iff _) offset, s.branchLikely_likely (belowZero_iff _) offset⟩
  exact .cons (hasRow_of_statement (TableRow.beql rs rt offset)) <| .cons (hasRow_of_statement (TableRow.bnel rs rt offset)) <|
    .cons (hasRow_of_statement (TableRow.bgezl rs offset)) <| .cons (hasRow_of_statement (TableRow.bgtzl rs offset)) <|
    .cons (hasRow_of_statement (TableRow.blezl rs offset)) <| .cons (hasRow_of_statement (TableRow.bltzl rs offset)) .nil

/-- The branches on the FPU condition, where coprocessor 1 is usable. -/
theorem exec_bc1f {s : State} (h : Cop1OK s) (offset : BitVec 16) : exec (.bc1f offset) s = s.branch (!s.coc1) offset :=
  State.withCop1_ok h _

theorem exec_bc1t {s : State} (h : Cop1OK s) (offset : BitVec 16) : exec (.bc1t offset) s = s.branch s.coc1 offset :=
  State.withCop1_ok h _

theorem exec_bc1fl {s : State} (h : Cop1OK s) (offset : BitVec 16) : exec (.bc1fl offset) s = s.branchLikely (!s.coc1) offset :=
  State.withCop1_ok h _

theorem exec_bc1tl {s : State} (h : Cop1OK s) (offset : BitVec 16) : exec (.bc1tl offset) s = s.branchLikely s.coc1 offset :=
  State.withCop1_ok h _

/-- Settles O44: each is the branch, likely or not, on COC1 (R38). -/
theorem fpuBranches : Obligations.FpuBranches := by
  intro offset s
  refine ⟨?_, fun usable => ?_⟩
  · exact .cons (hasRow_of_statement (TableRow.bc1f offset)) <| .cons (hasRow_of_statement (TableRow.bc1t offset)) <|
      .cons (hasRow_of_statement (TableRow.bc1fl offset)) <| .cons (hasRow_of_statement (TableRow.bc1tl offset)) .nil
  · have clear : (!s.coc1) = true ↔ s.fcr31.getLsbD 23 = false := by simp [State.coc1]
    rw [exec_bc1f usable, exec_bc1t usable, exec_bc1fl usable, exec_bc1tl usable]
    exact ⟨s.branch_branches clear offset, s.branch_branches Iff.rfl offset, s.branchLikely_likely clear offset,
      s.branchLikely_likely Iff.rfl offset⟩

/-! ### Jumps -/

theorem State.link_links (s : State) (r : Reg) (target : Word) : Links s ((s.link r).branchTo target) r :=
  ⟨s.x_setX_same r _, fun _ hq => s.x_setX_of_ne _ hq, rfl, fun _ => ⟨rfl, rfl⟩⟩

/-- Settles O27, jump by jump. -/
theorem jumps : Obligations.Jumps := by
  intro rd rs target s
  refine ⟨?_, ?_, ?_, ?_, fun h => ?_, fun h => if_pos h⟩
  · exact .cons (hasRow_of_statement (TableRow.j target)) <| .cons (hasRow_of_statement (TableRow.jal target)) <|
      .cons (hasRow_of_statement (TableRow.jr rs)) <| .cons (hasRow_of_statement (TableRow.jalr rd rs)) .nil
  · exact ⟨_, rfl, rfl, fun _ => ⟨rfl, rfl⟩, rfl, rfl, toNat_jumpTarget s.pc target⟩
  · exact ⟨_, rfl, s.link_links linkReg _, rfl, rfl, toNat_jumpTarget s.pc target⟩
  · exact ⟨_, rfl, rfl, fun _ => ⟨rfl, rfl⟩, rfl, rfl, rfl⟩
  · exact ⟨_, if_neg h, s.link_links rd _, rfl, rfl, rfl⟩

end Sys2Proof.Machine
end

section
/-! ## Coprocessor instructions (R228 to R230, R241 to R250) -/

namespace Sys2Proof.Machine

open Sys2Proof.Laws

/-! ### Whole effects that several instructions share -/

/-- A register write and the advance, and nothing else. -/
theorem State.finish_writes (s : State) (r : Reg) (v : Word) : ∃ t, s.finish r v = .next t ∧ Writes s t r v :=
  ⟨_, rfl, s.x_setX_same r v, fun _ hq => s.x_setX_of_ne v hq, rfl, fun _ => ⟨rfl, rfl⟩, rfl, rfl, rfl⟩

/-- The access of a load leaves every byte as it reads, for a load and for a fetch. -/
theorem State.touchD_sameMemory {s : State} (h : s.Coherent) (a : Nat) : SameMemory s (s.touchD a) :=
  fun b => ⟨(State.touchD_spec h a).2 b, s.touchD_fetchByte a b⟩

/-- Everything that a store does when its checks pass. -/
theorem State.storeBytes_stores {s : State} (h : s.Coherent) (a : Nat) {bytes : List Byte} (hb : bytes ≠ []) :
    Stores s (s.storeBytes a bytes).seq a bytes := by
  refine ⟨(State.storeBytes_spec h a).2, fun b => State.storeBytes_fetchByte s a bytes b, ?_, ?_, ?_⟩
  · rw [State.storeBytes_eq]; rfl
  · exact (State.storeBytes_through h hb).congr rfl rfl rfl rfl
  · rw [State.storeBytes_eq]; exact ⟨rfl, rfl, rfl⟩

/-! ### Coprocessor 0 -/

theorem exec_eret {s : State} (h : Cop0OK s) : exec .eret s = .next s.eretReturn := State.withCop0_ok h _

/-- Of the CP0 registers `eret` writes Status only (R228). -/
theorem State.eretReturn_cp0 (s : State) (r : Reg) :
    s.eretReturn.cp0 r = if r = statusReg then s.eretStatus else s.cp0 r :=
  s.cp0_setCp0 statusReg r s.eretStatus

/-- Settles O40: what is not Status is as `eretReturn` leaves it by definition; Status bit by bit. -/
theorem exceptionReturn : Obligations.ExceptionReturn := by
  refine ⟨hasRow_of_statement TableRow.eret, fun s usable => ⟨_, exec_eret usable, rfl, fun _ => ⟨rfl, rfl⟩, rfl, rfl, rfl, rfl,
    fun i hi => ?_, fun r hr => ?_⟩⟩
  · rw [State.eretReturn_cp0, if_pos rfl, State.eretStatus, getLsbD_setBit _ _ _ _ hi]
  · rw [State.eretReturn_cp0, if_neg hr]

theorem exec_mfc0 {s : State} (h : Cop0OK s) (rt rd : Reg) :
    exec (.mfc0 rt rd) s = s.withCp0Reg rd (readableCp0 rd) (s.finish rt (s.cp0 rd)) := State.withCop0_ok h _

theorem exec_mtc0 {s : State} (h : Cop0OK s) (rt rd : Reg) :
    exec (.mtc0 rt rd) s = s.withCp0Reg rd (writableCp0 rd) (.next (s.setCp0 rd (s.x rt)).seq) := State.withCop0_ok h _

/-- Count and Compare are refused whatever the launch chooses (R360). -/
theorem State.withCp0Reg_timer (s : State) {r : Reg} (h : r = 9#5 ∨ r = 11#5) (listed : Bool) (k : Result) :
    s.withCp0Reg r listed k = .refused .timerRegister := by
  rcases h with rfl | rfl <;> rfl

/-- A register that is not listed, where the launch does not make the others storage (R34, log entry 17). -/
theorem State.withCp0Reg_unlisted {s : State} {r : Reg} (h1 : r ≠ 9#5) (h2 : r ≠ 11#5) {listed : Bool}
    (unlisted : ¬ (listed = true ∨ s.platform.cp0Storage = true)) (k : Result) :
    s.withCp0Reg r listed k = .refused .unlistedCp0Register := by
  unfold State.withCp0Reg
  rw [if_neg (by simp [isTimerReg, countReg, compareReg, h1, h2]), if_neg (by simpa using unlisted)]

theorem cp0Writable_iff {s : State} {r : Reg} (h1 : r ≠ 9#5) (h2 : r ≠ 11#5) :
    Cp0Writable s r ↔ writableCp0 r = true ∨ s.platform.cp0Storage = true := by
  simp [Cp0Writable, writableCp0, countReg, compareReg, h1, h2, or_assoc]

theorem cp0Readable_iff {s : State} {r : Reg} (h1 : r ≠ 9#5) (h2 : r ≠ 11#5) :
    Cp0Readable s r ↔ readableCp0 r = true ∨ s.platform.cp0Storage = true := by
  simp [Cp0Readable, readableCp0, writableCp0, countReg, compareReg, h1, h2, or_assoc]

/-- Settles O41, by what the access to the register answers. -/
theorem cp0Moves : Obligations.Cp0Moves := by
  intro rt rd s
  refine ⟨.cons (hasRow_of_statement (TableRow.mfc0 rt rd)) (.cons (hasRow_of_statement (TableRow.mtc0 rt rd)) .nil),
    fun usable => ?_⟩
  rw [exec_mfc0 usable, exec_mtc0 usable]
  refine ⟨fun readable => ?_, fun writable => ?_, fun timer => ?_, fun unreadable h1 h2 => ?_, fun unwritable h1 h2 => ?_⟩
  · rw [State.withCp0Reg_readable readable]
    exact s.finish_writes rt (s.cp0 rd)
  · rw [State.withCp0Reg_writable writable]
    exact ⟨_, rfl, (s.cp0_setCp0 rd rd _).trans (if_pos rfl), fun r hr => (s.cp0_setCp0 rd r _).trans (if_neg hr), rfl,
      fun _ => ⟨rfl, rfl⟩, rfl, rfl, rfl⟩
  · exact ⟨s.withCp0Reg_timer timer _ _, s.withCp0Reg_timer timer _ _⟩
  · exact State.withCp0Reg_unlisted h1 h2 (mt (cp0Readable_iff h1 h2).mpr unreadable) _
  · exact State.withCp0Reg_unlisted h1 h2 (mt (cp0Writable_iff h1 h2).mpr unwritable) _

/-! ### The FPU interface -/

theorem exec_cfc1_fcr0 {s : State} (h : Cop1OK s) (rt : Reg) : exec (.cfc1 rt 0#5) s = s.finish rt s.fcr0 :=
  State.withCop1_ok h _

theorem exec_cfc1_fcr31 {s : State} (h : Cop1OK s) (rt : Reg) : exec (.cfc1 rt 31#5) s = s.finish rt s.fcr31 :=
  State.withCop1_ok h _

theorem exec_ctc1 {s : State} (h : Cop1OK s) (rt : Reg) : exec (.ctc1 rt 31#5) s =
    if fpTrapPending (s.x rt) then raise .floatingPoint (s.setFcr31 (s.x rt)) else .next (s.setFcr31 (s.x rt)).seq :=
  State.withCop1_ok h _

/-- Settles O45; `ctc1` by whether the word it writes traps. -/
theorem fpuControlMoves : Obligations.FpuControlMoves := by
  intro rt fs s
  refine ⟨.cons (hasRow_of_statement (TableRow.cfc1 rt fs)) (.cons (hasRow_of_statement (TableRow.ctc1 rt fs)) .nil),
    fun usable => ?_⟩
  rw [exec_cfc1_fcr0 usable, exec_cfc1_fcr31 usable, exec_ctc1 usable]
  refine ⟨s.finish_writes rt s.fcr0, s.finish_writes rt s.fcr31, fun unimplemented disabled => ?_, fun pending => ?_⟩
  · have quiet : ¬ fpTrapPending (s.x rt) = true := by
      rw [fpTrapPending_iff]
      rintro (h | ⟨b, hb, h⟩)
      · rw [unimplemented] at h; cases h
      · exact disabled b hb h
    exact ⟨_, if_neg quiet, rfl, rfl, fun _ => ⟨rfl, rfl⟩, rfl, rfl, rfl⟩
  · exact ⟨_, if_pos ((fpTrapPending_iff _).mpr pending), rfl⟩

theorem exec_mfc1 {s : State} (h : Cop1OK s) (rt fs : Reg) : exec (.mfc1 rt fs) s = s.finish rt (s.f fs) :=
  State.withCop1_ok h _

theorem exec_mtc1 {s : State} (h : Cop1OK s) (rt fs : Reg) : exec (.mtc1 rt fs) s = .next (s.setF fs (s.x rt)).seq :=
  State.withCop1_ok h _

theorem exec_lwc1 {s : State} (h : Cop1OK s) {base : Reg} {offset : BitVec 16} (ok : LoadOK s (s.effAddr base offset) 4)
    (ft : Reg) : exec (.lwc1 ft base offset) s =
      .next ((s.touchD (s.effAddr base offset).toNat).setF ft (s.readWord (s.effAddr base offset))).seq :=
  (State.withCop1_ok h _).trans (State.load_ok ok _)

theorem exec_swc1 {s : State} (h : Cop1OK s) {base : Reg} {offset : BitVec 16} (ok : StoreOK s (s.effAddr base offset) 4)
    (ft : Reg) : exec (.swc1 ft base offset) s =
      .next (s.storeBytes (s.effAddr base offset).toNat (bytesFrom (s.f ft) 0 4)).seq :=
  (State.withCop1_ok h _).trans (State.store_ok ok _ _)

/-- Byte `i` of the word that the four bytes from `a` on make (R53). -/
theorem byteOf_wordAt (byteAt : Nat → Byte) (a : Nat) {i : Nat} (hi : i < 4) :
    byteOf (wordOfBytes (byteAt a) (byteAt (a + 1)) (byteAt (a + 2)) (byteAt (a + 3))) i = byteAt (a + i) := by
  obtain ⟨b0, b1, b2, b3⟩ := byteOf_wordOfBytes (byteAt a) (byteAt (a + 1)) (byteAt (a + 2)) (byteAt (a + 3))
  match i, hi with
  | 0, _ => exact b0
  | 1, _ => exact b1
  | 2, _ => exact b2
  | 3, _ => exact b3

/-- Settles O46: the moves by their one write, the load and the store by what every load and store does. -/
theorem fpuDataMoves : Obligations.FpuDataMoves := by
  intro r fs base offset s
  refine ⟨?_, fun coh usable => ⟨?_, ?_, fun ok => ?_, fun ok => ?_⟩⟩
  · exact .cons (hasRow_of_statement (TableRow.mfc1 r fs)) <| .cons (hasRow_of_statement (TableRow.mtc1 r fs)) <|
      .cons (hasRow_of_statement (TableRow.lwc1 fs base offset)) <|
      .cons (hasRow_of_statement (TableRow.swc1 fs base offset)) .nil
  · rw [exec_mfc1 usable]
    exact s.finish_writes r (s.f fs)
  · exact ⟨_, exec_mtc1 usable r fs, (s.f_setF fs fs _).trans (if_pos rfl), fun q hq => (s.f_setF fs q _).trans (if_neg hq), rfl,
      fun _ => ⟨rfl, rfl⟩, rfl, rfl, rfl⟩
  · refine ⟨_, exec_lwc1 usable ok fs, fun i hi => ?_, fun q hq => ?_, ?_, ?_, State.touchD_sameMemory coh _, ?_⟩
    · rw [State.seq_f, State.f_setF, if_pos rfl]
      exact byteOf_wordAt s.dataByte _ hi
    · rw [State.seq_f, State.f_setF, if_neg hq, State.touchD_f]
    · rw [State.touchD_eq]; rfl
    · exact (State.touchD_through coh _).congr rfl rfl rfl
    · rw [State.touchD_eq]; exact ⟨rfl, rfl, rfl⟩
  · exact ⟨_, exec_swc1 usable ok fs, State.storeBytes_stores coh _ (by simp [bytesFrom])⟩

end Sys2Proof.Machine
end

section
/-! ## One step (R25, R56, R57, R64, R379) -/

namespace Sys2Proof.Machine

/-! ### What a step is when nothing stops it -/

/-- A step that is not at the end of the run. -/
theorem step_of_not_halted {s : State} (h : s.halted = false) :
    step s = s.drainSome.fetchChecked (s.drainSome.fetched.runDecoded (decode s.drainSome.fetchedWord)) :=
  if_neg (by simp [h])

@[simp] theorem State.drainSome_halted (s : State) : s.drainSome.halted = s.halted := by simp [State.halted]

@[simp] theorem State.drainSome_addrOK (s : State) (a : Word) (m : Mode) (k : Access) :
    s.drainSome.addrOK a m k = s.addrOK a m k := by simp [State.addrOK]

@[simp] theorem State.drainSome_busErr (s : State) (a : Nat) (k : Access) : s.drainSome.busErr a k = s.busErr a k := by
  simp [State.busErr]

/-- A step whose fetch meets no exception and whose word is an instruction that may stand where it stands. -/
theorem step_of_instr {s : State} {i : Instr} (ok : FetchOK s.drainSome) (word : decode s.drainSome.fetchedWord = .instr i)
    (free : s.drainSome.fetched.restrictionAt i = none) :
    step s = recordResult s.drainSome.fetched i (exec i s.drainSome.fetched) := by
  obtain ⟨running, aligned, m, mode, permitted, noBusError⟩ := ok
  rw [s.drainSome_halted] at running
  rw [step_of_not_halted running, State.fetchChecked_ok aligned mode permitted noBusError, word]
  show s.drainSome.fetched.runInstr i = _
  unfold State.runInstr
  rw [free]

/-! ### What leaves the write buffers (R64, log entry 14) -/

/-- Before a step some of the oldest writes of each buffer reach memory, each whole. -/
theorem State.drainSome_form (s : State) : ∃ n m, s.drainSome = { s.drain n m with free := s.drainSome.free } := by
  unfold State.drainSome
  split
  next => exact ⟨0, 0, rfl⟩
  next => exact ⟨_, _, rfl⟩

/-- Settles O5: the step is the instruction's, recorded; the fetch fills at most a line; the buffers lose their oldest writes. -/
theorem stepRunsDecoded : Obligations.StepRunsDecoded := by
  intro s i ok word free
  have hstep := step_of_instr ok word free
  refine ⟨hstep, fun u hu => ?_, fun r hr => ?_, fun b hb => ?_, ?_, ?_, s.drainSome_form, s.drainSome_empty⟩
  · rw [hstep, hu]
    exact ⟨_, rfl, State.recordInstr_recorded _ u i⟩
  · rw [hstep, hr]
    rfl
  · rw [← s.drainSome_pc]
    exact byteOf_wordAt s.drainSome.fetchByte _ hb
  · exact State.touchI_eq _ _
  · unfold State.fetched
    rw [s.drainSome_pc]
    exact s.drainSome.touchI_through s.pc.toNat

/-! ### The exceptions of a fetch, in their order (R25, R56, R57) -/

section
variable {s : State} (go : Result)

theorem State.fetchChecked_misaligned (misaligned : s.pc.toNat % 4 ≠ 0) :
    s.fetchChecked go = s.fetchRaise (.addressError s.pc .fetch) := if_pos misaligned

theorem ReservedMode.mode_eq_none (h : ReservedMode s) : s.mode = none := by
  obtain ⟨exl, erl, ksu⟩ := h
  simp [State.mode, exl, erl, ksu]

theorem State.fetchChecked_reserved (aligned : s.pc.toNat % 4 = 0) (reserved : ReservedMode s) :
    s.fetchChecked go = .refused .reservedMode := by
  simp [State.fetchChecked, State.withMode, aligned, ReservedMode.mode_eq_none reserved]

variable {m : Mode}

theorem State.fetchChecked_forbidden (aligned : s.pc.toNat % 4 = 0) (mode : s.mode = some m)
    (forbidden : s.addrOK s.pc m .fetch = false) : s.fetchChecked go = s.fetchRaise (.addressError s.pc .fetch) := by
  simp [State.fetchChecked, State.withMode, aligned, mode, forbidden]

theorem State.fetchChecked_busErr (aligned : s.pc.toNat % 4 = 0) (mode : s.mode = some m)
    (permitted : s.addrOK s.pc m .fetch = true) (busError : s.busErr s.pc.toNat .fetch = true) :
    s.fetchChecked go = s.fetchRaise (.busError s.pc .fetch .instruction) := by
  simp [State.fetchChecked, State.withMode, aligned, mode, permitted, busError]

end

/-- Status is as it was when the fetch is checked. -/
theorem ReservedMode.drainSome {s : State} (h : ReservedMode s) : ReservedMode s.drainSome := by
  simpa [ReservedMode, State.exl, State.erl, State.ksu] using h

/-- Settles O9: what leaves the buffers before the fetch changes neither the program counter nor what the checks look at. -/
theorem fetchExceptions : Obligations.FetchExceptions := by
  intro s running
  rw [step_of_not_halted running]
  have pc := s.drainSome_pc
  refine ⟨fun u => rfl, fun aligned reserved => ?_, fun misaligned => ?_, fun m aligned mode forbidden => ?_,
    fun m aligned mode permitted busError => ?_⟩
  · exact State.fetchChecked_reserved _ (by rwa [pc]) reserved.drainSome
  · rw [State.fetchChecked_misaligned _ (by rwa [pc]), pc]
    rfl
  · rw [State.fetchChecked_forbidden _ (by rwa [pc]) (s.drainSome_mode.trans mode) (by rwa [pc, s.drainSome_addrOK]), pc]
    rfl
  · rw [State.fetchChecked_busErr _ (by rwa [pc]) (s.drainSome_mode.trans mode) (by rwa [pc, s.drainSome_addrOK])
      (by rwa [pc, s.drainSome_busErr]), pc]
    rfl

end Sys2Proof.Machine
end

section
/-! ## Where a run begins (R44, R371, R373) -/

namespace Sys2Proof.Machine

/-! ### Both invariants, where the caches are empty -/

theorem CacheSet.distinct_empty : CacheSet.empty.Distinct := nofun

/-- Empty buffers and an empty data cache agree with any memory. -/
theorem State.coherent_of_empty {s : State} (dcache : s.dcache = []) (writebackBuf : s.writebackBuf = [])
    (nonCacheBuf : s.nonCacheBuf = []) : s.Coherent where
  sets i _ := by
    rw [dcache]
    exact ⟨fun w => by cases w <;> exact nofun, fun w => by cases w <;> exact nofun, fun w => by cases w <;> exact nofun,
      CacheSet.distinct_empty⟩
  writebacks := by rw [writebackBuf]; exact nofun
  others := by rw [nonCacheBuf]; exact nofun

/-- The history is empty, and the run stands outside a delay slot. -/
theorem State.reset_inv : State.reset.Inv where
  memory := rfl
  sequence _ := rfl
  owned := rfl
  slot := nofun
  trapped := nofun
  fetchDistinct _ := CacheSet.distinct_empty

theorem State.reset_x (r : Reg) : State.reset.x r = 0#32 := by
  simp [State.x, State.reset, Vector.get_eq_getElem]

theorem State.launch_inv {l : Launch} (h : l.icache = []) : (State.launch l).Inv where
  memory := State.launch_mem_wf l
  sequence _ := rfl
  owned := rfl
  slot := nofun
  trapped := nofun
  fetchDistinct i := by
    show (Cache.get l.icache i).Distinct
    rw [h]
    exact CacheSet.distinct_empty

theorem State.launch_coherent {l : Launch} (h : l.dcache = []) : (State.launch l).Coherent :=
  State.coherent_of_empty h rfl rfl

/-! ### What a load and a fetch see where the caches are empty -/

theorem State.launch_dataByte {l : Launch} (h : l.dcache = []) (a : Nat) :
    (State.launch l).dataByte a = Memory.read (State.launch l).mem a := by
  have untouched : (State.launch l).dset a = CacheSet.empty := by
    show Cache.get l.dcache _ = _
    rw [h]; rfl
  rw [State.dataByte_eq, untouched]
  exact ite_self _

theorem State.launch_fetchByte {l : Launch} (h : l.icache = []) (a : Nat) :
    (State.launch l).fetchByte a = Memory.read (State.launch l).mem a := by
  have untouched : (State.launch l).iset a = CacheSet.empty := by
    show Cache.get l.icache _ = _
    rw [h]; rfl
  rw [State.fetchByte_eq, untouched]
  exact ite_self _

/-! ### The memory of a launch -/

/-- Parts that do not cover an address put no byte there. -/
theorem pending_parts_none {parts : List (Nat × List Byte)} {a : Nat}
    (h : ∀ part ∈ parts, ¬ (part.1 ≤ a ∧ a < part.1 + part.2.length)) :
    pending (parts.flatMap fun part => lineCells part.1 part.2) a = none := by
  refine pending_none fun c hc e => ?_
  obtain ⟨part, mem, cell⟩ := List.mem_flatMap.mp hc
  exact h part mem (e ▸ mem_lineCells cell)

/-- The byte that the last part which covers an address puts there (R373). -/
theorem State.launch_read_part {l : Launch} {before after : List (Nat × List Byte)} {base : Nat} {bytes : List Byte}
    (image : l.image = before ++ (base, bytes) :: after) {i : Nat} (hi : i < bytes.length)
    (last : ∀ part ∈ after, ¬ (part.1 ≤ base + i ∧ base + i < part.1 + part.2.length)) :
    Memory.read (State.launch l).mem (base + i) = bytes.getD i 0#8 := by
  rw [State.launch_mem_read, Launch.cells, image, List.flatMap_append, List.flatMap_cons, pending_append, pending_append,
    pending_parts_none last, pending_lineCells, if_pos ⟨Nat.le_add_right base i, Nat.add_lt_add_left hi base⟩,
    Nat.add_sub_cancel_left]
  rfl

theorem Launch.inDomain_iff (l : Launch) (a : Nat) :
    l.inDomain a = true ↔ ∃ part ∈ l.image, part.1 ≤ a ∧ a < part.1 + part.2.length := by
  simp [Launch.inDomain]

/-! ### The registers of a launch -/

theorem State.launch_cp0 (l : Launch) :
    (State.launch l).cp0 statusReg = l.status ∧ (State.launch l).cp0 causeReg = l.cause ∧
    (State.launch l).cp0 epcReg = l.epc ∧ (State.launch l).cp0 errorEpcReg = l.errorEpc ∧
    (State.launch l).cp0 badVAddrReg = l.badVAddr := by
  simp [State.cp0, State.launch, Launch.cp0Regs, Vector.get_eq_getElem, statusReg, causeReg, epcReg, errorEpcReg, badVAddrReg,
    regIdx]

/-- A launch in kernel mode, with EXL, ERL and BEV clear and both coprocessors usable, by the default of Status (R373). -/
theorem State.launch_status {l : Launch} (h : l.status = launchStatus) :
    (State.launch l).mode = some .kernel ∧ (State.launch l).exl = false ∧ (State.launch l).erl = false ∧
    (State.launch l).bev = false ∧ (State.launch l).cu0 = true ∧ (State.launch l).cu1 = true := by
  have status := (State.launch_cp0 l).1.trans h
  unfold State.mode State.exl State.erl State.ksu State.bev State.cu0 State.cu1
  rw [status]
  decide

/-- Running past the memory of the launch (R373). -/
theorem State.launch_step_past {l : Launch} {m : Mode} (mode : (State.launch l).mode = some m) (regions : l.regions = none)
    (running : l.pc ≠ l.haltPC) (aligned : l.pc.toNat % 4 = 0) (outside : l.inDomain l.pc.toNat = false) :
    step (State.launch l) =
      .next (((State.launch l).trapEntry (.addressError l.pc .fetch)).recordNone (State.launch l)) := by
  have halted : (State.launch l).halted = false := by
    simp [State.halted, State.launch, Launch.platform, Ne.symm running]
  rw [step_of_not_halted halted, State.drainSome_empty rfl rfl]
  exact State.fetchChecked_forbidden _ aligned mode ((State.launch_addrOK regions _ _ _).trans outside)

/-- Settles O60: the reset state is closed, so its clauses compute; a launch state by the lemmas on its parts. -/
theorem resetState : Obligations.ResetState := by
  refine ⟨⟨State.reset_inv, State.coherent_of_empty rfl rfl rfl, by decide, by decide, by decide, by decide, rfl, rfl,
    rfl, State.reset_x, rfl, rfl, rfl⟩, fun l => ?_⟩
  obtain ⟨status, cause, epc, errorEpc, badVAddr⟩ := State.launch_cp0 l
  refine ⟨State.launch_inv, State.launch_coherent, rfl, rfl, rfl, rfl, fun r hr => if_neg hr, fun r => rfl, rfl, rfl, rfl, rfl,
    rfl, status, cause, epc, errorEpc, badVAddr, rfl, rfl, rfl, rfl, rfl, rfl, rfl, rfl, rfl, fun rs hrs => ?_, rfl, rfl, rfl,
    rfl, rfl, rfl, rfl, fun hr => ⟨fun a m k => ?_, fun a k => State.launch_busErr hr a k⟩,
    fun before base bytes after i image hi last => ?_, State.launch_status,
    fun _ => State.launch_step_past⟩
  · simp [State.launch, Launch.platform, hrs]
  · rw [State.launch_addrOK hr]
    exact l.inDomain_iff _
  · have byte := State.launch_read_part image hi last
    exact ⟨byte, fun h => (State.launch_dataByte h _).trans byte, fun h => (State.launch_fetchByte h _).trans byte⟩

end Sys2Proof.Machine
end

section
/-! ## The bytes a load sees after every instruction (R63, R71)

A load sees another byte than before only after a store, the creation of a line, or the loss of one without a writeback
(`changesData`). Every other effect leaves the data cache, the write buffers and memory as they are, or moves bytes between them. -/

namespace Sys2Proof.Machine

/-! ### Two sets that hold the same bytes -/

/-- Of a set a load sees which lines are valid, their tags and their bytes; not the LRU, Lock and Dirty bits. -/
theorem CacheSet.view_congr {c d : CacheSet} (same : ∀ w, (c.line w).valid = (d.line w).valid ∧
    (c.line w).tag = (d.line w).tag ∧ (c.line w).data = (d.line w).data) : c.view = d.view := by
  obtain ⟨validA, tagA, dataA⟩ := same .A
  obtain ⟨validB, tagB, dataB⟩ := same .B
  have find (tag : Nat) : c.find tag = d.find tag := by
    simp only [CacheSet.line] at validA tagA validB tagB
    simp only [CacheSet.find, validA, tagA, validB, tagB]
  funext tag off
  unfold CacheSet.view
  rw [find]
  exact congrArg (Option.map · _) (funext fun w => by rw [(same w).2.2])

/-- Putting a set that holds the same bytes changes nothing a load sees. -/
theorem State.sameData_putDset {s : State} {a : Nat} {c : CacheSet} (same : c.view = (s.dset a).view) :
    SameData s (s.putDset a c) := by
  intro b
  rw [State.dataByte_putDset, State.dataByte_eq]
  by_cases hs : s.platform.setOf .data b = s.platform.setOf .data a
  · have selected : s.dset b = s.dset a := by unfold State.dset; rw [hs]
    rw [if_pos hs, same, selected]
  · rw [if_neg hs]

theorem CacheSet.view_unlock (c : CacheSet) : ({ c with lock := false } : CacheSet).view = c.view :=
  CacheSet.view_congr fun w => by rw [CacheSet.line_lock]; exact ⟨rfl, rfl, rfl⟩

theorem CacheSet.view_clean (c : CacheSet) (v : Way) : (c.clean v).view = c.view :=
  CacheSet.view_congr fun w => by
    rw [CacheSet.line_clean]
    split
    next h => rw [h]; exact ⟨rfl, rfl, rfl⟩
    next => exact ⟨rfl, rfl, rfl⟩

/-- A dirty line written back and made clean holds the bytes it held (R301). -/
theorem State.sameData_clean {s : State} (h : s.Coherent) {a : Nat} {w : Way} (hit : s.dHit a = some w)
    (dirty : ((s.dset a).line w).dirty = true) : SameData s ((s.writeback a w).putDset a ((s.dset a).clean w)) :=
  fun b => (State.sameData_putDset (s := s.writeback a w) ((s.dset a).view_clean w) b).trans
    ((State.writeback_spec h a w (State.line_of_dHit hit).1 dirty).2 b)

/-! ### Every instruction -/

theorem Effect.sameData {i : Instr} {s u : State} (h : Effect i s u) (hs : s.Coherent) (memory : Memory.wf s.mem = true)
    (keeps : changesData i = false) : SameData s u := by
  cases h with
  | load a => exact (State.touchD_spec hs a).2
  | loadLinked _ _ _ a => exact (State.touchD_spec hs a).2
  | loadF _ _ _ a => exact (State.touchD_spec hs a).2
  | fillD a k => exact (State.fillD_spec hs a k).2
  | fillI a k => exact fun b => s.fillI_dataByte a k b
  | unlockD a => exact State.sameData_putDset (s.dset a).view_unlock
  | evictD a w c _ drops => exact (State.drop_spec hs a w drops.dropped drops.other).2
  | cleanD a w _ hit dirty => exact State.sameData_clean hs hit dirty
  | sync => exact (State.drainAll_spec hs memory).2.1
  -- the effects of the instructions that may change a byte
  | store _ _ stores => rw [keeps] at stores; cases stores
  | storeLinked => cases keeps
  | createD _ _ _ creates => rw [keeps] at creates; cases creates
  | dropD _ _ _ _ loses => rw [keeps] at loses; cases loses
  -- the effects on registers and on the instruction cache
  | _ => exact fun _ => rfl

theorem Sequel.dataByte_eq {i : Instr} {u t : State} (h : Sequel i u t) (b : Nat) : t.dataByte b = u.dataByte b := by
  cases h <;> rfl

/-- Settles O49, through everything an instruction can do (`exec_next`). -/
theorem dataFrame : Obligations.DataFrame := by
  intro i s t coh memory keeps h b
  obtain ⟨u, effect, sequel⟩ := exec_next h
  rw [sequel.dataByte_eq b, effect.sameData coh memory keeps b]

end Sys2Proof.Machine
end

section
/-! ## Loads and stores (R55, R56, R200 to R212, R320, R321) -/

namespace Sys2Proof.Machine

open Sys2Proof.Laws

/-! ### The checks, in their order (R56, R346) -/

section
variable {s : State} {a : Word} {k : Access} {n : Nat} (access : Result)

theorem State.checkedAccess_misaligned (misaligned : a.toNat % n ≠ 0) :
    s.checkedAccess a k n access = .next (s.trapEntry (.addressError a k)) := if_pos misaligned

theorem State.withMode_reserved (reserved : ReservedMode s) (act : Mode → Result) : s.withMode act = .refused .reservedMode := by
  simp [State.withMode, ReservedMode.mode_eq_none reserved]

theorem State.checkedAccess_reserved (aligned : a.toNat % n = 0) (reserved : ReservedMode s) :
    s.checkedAccess a k n access = .refused .reservedMode :=
  (if_neg (not_not_intro aligned)).trans (State.withMode_reserved reserved _)

variable {m : Mode}

theorem State.checkedAccess_forbidden (aligned : a.toNat % n = 0) (mode : s.mode = some m) (forbidden : s.addrOK a m k = false) :
    s.checkedAccess a k n access = .next (s.trapEntry (.addressError a k)) := by
  simp [State.checkedAccess, State.withMode, aligned, mode, forbidden, raise_eq]

theorem State.checkedAccess_busErr (aligned : a.toNat % n = 0) (mode : s.mode = some m) (permitted : s.addrOK a m .load = true)
    (busError : s.busErr a.toNat .load = true) :
    s.checkedAccess a .load n access = .next (s.trapEntry (.busError a .load .data)) := by
  simp [State.checkedAccess, State.withMode, aligned, mode, permitted, busError, raise_eq]

theorem State.cacheOp_reserved (reserved : ReservedMode s) (base : Reg) (offset : BitVec 16) (op : Nat → Result) :
    s.cacheOp base offset op = .refused .reservedMode := State.withMode_reserved reserved _

theorem State.cacheOp_forbidden {base : Reg} {offset : BitVec 16} (mode : s.mode = some m)
    (forbidden : s.addrOK (s.effAddr base offset) m .cacheop = false) (op : Nat → Result) :
    s.cacheOp base offset op = .next (s.trapEntry (.addressError (s.effAddr base offset) .cacheop)) := by
  simp [State.cacheOp, State.withMode, mode, forbidden, raise_eq]

end

/-- Every load and store is an access behind the checks of its kind and alignment, once its coprocessor is usable. -/
theorem exec_dataAccess {i : Instr} {k : Access} {n : Nat} {base : Reg} {offset : BitVec 16} {s : State}
    (h : dataAccess i = some (k, n, base, offset)) (usable : usesCop1 i = true → Cop1OK s) :
    ∃ access, exec i s = s.checkedAccess (s.effAddr base offset) k n access := by
  cases i
  case lwc1 | swc1 => cases h; exact ⟨_, State.withCop1_ok (usable rfl) _⟩
  case lb | lbu | lh | lhu | lw | lwl | lwr | ll | sb | sh | sw | swl | swr | sc => cases h; exact ⟨_, rfl⟩
  all_goals cases h

/-- Every cache function is an operation on a line behind the check of its address. -/
theorem exec_cacheAccess {i : Instr} {base : Reg} {offset : BitVec 16} (h : cacheAccess i = some (base, offset)) (s : State) :
    ∃ op, exec i s = s.cacheOp base offset op := by
  cases i <;> cases h
  all_goals
    unfold exec
    exact ⟨_, rfl⟩

/-- Settles O34: the checks one after another, for an access of any instruction. -/
theorem accessExceptions : Obligations.AccessExceptions := by
  intro i base offset s
  constructor
  · intro k n h usable
    obtain ⟨access, e⟩ := exec_dataAccess h usable
    rw [e]
    refine ⟨fun misaligned => ⟨_, State.checkedAccess_misaligned access misaligned, rfl⟩,
      State.checkedAccess_reserved access,
      fun m aligned mode forbidden => ⟨_, State.checkedAccess_forbidden access aligned mode forbidden, rfl⟩, ?_⟩
    rintro m aligned mode permitted rfl busError
    exact ⟨_, State.checkedAccess_busErr access aligned mode permitted busError, rfl⟩
  · intro h
    obtain ⟨op, e⟩ := exec_cacheAccess h s
    rw [e]
    exact ⟨fun reserved => State.cacheOp_reserved reserved base offset op,
      fun m mode forbidden => ⟨_, State.cacheOp_forbidden mode forbidden op, rfl⟩⟩

/-! ### Loads (R200 to R207) -/

/-- Everything that a load does when its checks pass. -/
theorem State.load_loads {s : State} (coh : s.Coherent) {a : Word} {n : Nat} (ok : LoadOK s a n) (rt : Reg) (v : Word) :
    ∃ t, s.load a n (fun t => t.setX rt v) = .next t ∧ Loads s t a.toNat rt v := by
  refine ⟨_, State.load_ok ok _, State.x_setX_same _ rt v, fun q hq => ?_, ?_, ?_, State.touchD_sameMemory coh _, ?_⟩
  · rw [State.seq_x, State.x_setX_of_ne _ v hq, State.touchD_x]
  · rw [State.touchD_eq]; rfl
  · exact (State.touchD_through coh _).congr rfl rfl rfl
  · rw [State.touchD_eq]; exact ⟨rfl, rfl, rfl⟩

/-- The halfword at `a` as a number: the byte above counts 256 times (R53). -/
theorem State.toInt_readHalf (s : State) (a : Word) :
    (s.readHalf a).toInt = (s.dataByte (a.toNat + 1)).toInt * 256 + (s.dataByte a.toNat).toNat := by
  unfold State.readHalf
  rw [BitVec.toInt_append, if_neg (by decide), Int.mul_comm]
  rfl

theorem State.toNat_readHalf (s : State) (a : Word) :
    (s.readHalf a).toNat = (s.dataByte (a.toNat + 1)).toNat * 256 + (s.dataByte a.toNat).toNat :=
  append_toNat _ _

/-- Settles O28: each is a load of the value that its bytes make. -/
theorem alignedLoads : Obligations.AlignedLoads := by
  intro rt base offset s
  refine ⟨?_, fun coh => ⟨fun ok => ?_, fun ok => ?_, fun ok => ?_, fun ok => ?_, fun ok => ?_⟩⟩
  · exact .cons (hasRow_of_statement (TableRow.lb rt base offset)) <|
      .cons (hasRow_of_statement (TableRow.lbu rt base offset)) <|
      .cons (hasRow_of_statement (TableRow.lh rt base offset)) <|
      .cons (hasRow_of_statement (TableRow.lhu rt base offset)) <|
      .cons (hasRow_of_statement (TableRow.lw rt base offset)) .nil
  · exact State.load_loads coh ok rt _
  · rw [BitVec.ofNat_toNat]
    exact State.load_loads coh ok rt _
  · rw [← State.toInt_readHalf]
    exact State.load_loads coh ok rt _
  · rw [← State.toNat_readHalf, BitVec.ofNat_toNat]
    exact State.load_loads coh ok rt _
  · obtain ⟨t, next, loads⟩ := State.load_loads coh ok rt (s.readWord (s.effAddr base offset))
    exact ⟨t, _, next, loads, fun i hi => byteOf_wordAt s.dataByte _ hi⟩

/-! ### The bytes of the aligned word around an address (R206, R207) -/

/-- The place of an address in its word. -/
theorem byteLane_eq (a : Word) : byteLane a = a.toNat % 4 := by
  rw [byteLane, field_toNat]
  simp

theorem byteLane_lt (a : Word) : byteLane a < 4 := (a.extractLsb' 0 2).isLt

/-- The first byte of the word is the address with its two low bits cleared. -/
theorem toNat_wordBase (a : Word) : (wordBase a).toNat = a.toNat - a.toNat % 4 := by
  have mask : ∀ i (hi : i < 32), (~~~3#32)[i] = decide (2 ≤ i) := by decide
  have cleared : wordBase a = a >>> 2 <<< 2 := by
    ext i hi
    rw [wordBase, BitVec.getElem_and, mask, BitVec.getElem_shiftLeft]
    grind
  have bound := a.isLt
  rw [cleared, BitVec.toNat_shiftLeft, BitVec.toNat_ushiftRight, Nat.shiftLeft_eq, Nat.shiftRight_eq_div_pow]
  omega

theorem State.byteOf_readWord_wordBase (s : State) (a : Word) {i : Nat} (hi : i < 4) :
    byteOf (s.readWord (wordBase a)) i = s.dataByte (a.toNat - a.toNat % 4 + i) := by
  rw [← toNat_wordBase]
  exact byteOf_wordAt s.dataByte _ hi

theorem getLsbD_byteOf (v : Word) (i : Nat) {j : Nat} (hj : j < 8) : (byteOf v i).getLsbD j = v.getLsbD (8 * i + j) := by
  simp [byteOf, hj]

/-- `lwl` takes the low `k + 1` bytes of the memory word for the high ones of the register (R206). -/
theorem byteOf_mergeLeft {k i : Nat} (hk : k < 4) (hi : i < 4) (word old : Word) :
    byteOf (mergeLeft k word old) i = if 3 - k ≤ i then byteOf word (i + k - 3) else byteOf old i := by
  refine BitVec.eq_of_getLsbD_eq fun j hj => ?_
  rw [apply_ite (BitVec.getLsbD · j), getLsbD_byteOf _ _ hj, getLsbD_byteOf _ _ hj, getLsbD_byteOf _ _ hj]
  unfold mergeLeft
  match k, hk with
  | 0, _ => grind
  | 1, _ => grind
  | 2, _ => grind
  | 3, _ => grind

/-- `lwr` takes the high `4 - k` bytes of the memory word for the low ones of the register (R207). -/
theorem byteOf_mergeRight {k : Nat} (hk : k < 4) (i : Nat) (word old : Word) :
    byteOf (mergeRight k word old) i = if i < 4 - k then byteOf word (i + k) else byteOf old i := by
  refine BitVec.eq_of_getLsbD_eq fun j hj => ?_
  rw [apply_ite (BitVec.getLsbD · j), getLsbD_byteOf _ _ hj, getLsbD_byteOf _ _ hj, getLsbD_byteOf _ _ hj]
  unfold mergeRight
  match k, hk with
  | 0, _ => grind
  | 1, _ => grind
  | 2, _ => grind
  | 3, _ => grind

/-- What `lwl` at `a` makes of the register, byte by byte. -/
theorem State.byteOf_loadLeft (s : State) (a old : Word) {i : Nat} (hi : i < 4) :
    byteOf (mergeLeft (byteLane a) (s.readWord (wordBase a)) old) i =
      if 3 - a.toNat % 4 ≤ i then s.dataByte (a.toNat + i - 3) else byteOf old i := by
  rw [byteOf_mergeLeft (byteLane_lt a) hi, byteLane_eq]
  refine if_ctx_congr Iff.rfl (fun loaded => ?_) fun _ => rfl
  rw [s.byteOf_readWord_wordBase a (by omega)]
  exact congrArg s.dataByte (by omega)

/-- What `lwr` at `a` makes of the register, byte by byte. -/
theorem State.byteOf_loadRight (s : State) (a old : Word) (i : Nat) :
    byteOf (mergeRight (byteLane a) (s.readWord (wordBase a)) old) i =
      if i < 4 - a.toNat % 4 then s.dataByte (a.toNat + i) else byteOf old i := by
  rw [byteOf_mergeRight (byteLane_lt a), byteLane_eq]
  refine if_ctx_congr Iff.rfl (fun loaded => ?_) fun _ => rfl
  rw [s.byteOf_readWord_wordBase a (by omega)]
  exact congrArg s.dataByte (by omega)

/-- Settles O29: each is a load of the merge of the aligned word with the register. -/
theorem unalignedLoads : Obligations.UnalignedLoads := by
  intro rt base offset s
  refine ⟨.cons (hasRow_of_statement (TableRow.lwl rt base offset)) <|
    .cons (hasRow_of_statement (TableRow.lwr rt base offset)) .nil, fun coh ok => ⟨?_, ?_⟩⟩
  · obtain ⟨t, next, loads⟩ := State.load_loads coh ok rt (mergeLeft (byteLane (s.effAddr base offset)) _ (s.x rt))
    exact ⟨t, _, next, loads, fun i hi => s.byteOf_loadLeft _ _ hi⟩
  · obtain ⟨t, next, loads⟩ := State.load_loads coh ok rt (mergeRight (byteLane (s.effAddr base offset)) _ (s.x rt))
    exact ⟨t, _, next, loads, fun i _ => s.byteOf_loadRight _ _ i⟩

/-! ### Stores (R208 to R212) -/

/-- Everything that a store does when its checks pass. -/
theorem State.store_stores {s : State} (coh : s.Coherent) {a : Word} {n : Nat} (ok : StoreOK s a n) (first : Word)
    {bytes : List Byte} (hb : bytes ≠ []) : ∃ t, s.store a n first bytes = .next t ∧ Stores s t first.toNat bytes :=
  ⟨_, State.store_ok ok first bytes, State.storeBytes_stores coh first.toNat hb⟩

/-- Settles O31: each is a store of the low bytes of the register. -/
theorem alignedStores : Obligations.AlignedStores := by
  intro rt base offset s
  refine ⟨?_, fun coh => ⟨fun ok => ?_, fun ok => ?_, fun ok => ?_⟩⟩
  · exact .cons (hasRow_of_statement (TableRow.sb rt base offset)) <|
      .cons (hasRow_of_statement (TableRow.sh rt base offset)) <|
      .cons (hasRow_of_statement (TableRow.sw rt base offset)) .nil
  all_goals exact State.store_stores coh ok _ (List.cons_ne_nil _ _)

theorem bytesFrom_ne_nil (v : Word) (first : Nat) {n : Nat} (hn : 0 < n) : bytesFrom v first n ≠ [] := by
  simp [bytesFrom, hn.ne']

/-- The low `n` bytes of a word. -/
theorem bytesFrom_zero (v : Word) (n : Nat) : bytesFrom v 0 n = (List.range n).map fun i => byteOf v i := by
  simp [bytesFrom]

/-- Settles O32: `swl` stores from the first byte of the word, `swr` from the address. -/
theorem unalignedStores : Obligations.UnalignedStores := by
  intro rt base offset s
  refine ⟨.cons (hasRow_of_statement (TableRow.swl rt base offset)) <|
    .cons (hasRow_of_statement (TableRow.swr rt base offset)) .nil, fun coh ok => ?_⟩
  have lane := byteLane_lt (s.effAddr base offset)
  rw [← toNat_wordBase, ← byteLane_eq, ← bytesFrom_zero]
  exact ⟨State.store_stores coh ok _ (bytesFrom_ne_nil _ _ (by omega)),
    State.store_stores coh ok _ (bytesFrom_ne_nil _ _ (by omega))⟩

/-! ### Load linked and store conditional (R320, R321) -/

theorem exec_ll {s : State} {base : Reg} {offset : BitVec 16} (ok : LoadOK s (s.effAddr base offset) 4) (rt : Reg) :
    exec (.ll rt base offset) s =
      .next (((s.touchD (s.effAddr base offset).toNat).setX rt (s.readWord (s.effAddr base offset))).setLlbit true).seq :=
  State.load_ok ok fun t => (t.setX rt (s.readWord (s.effAddr base offset))).setLlbit true

theorem exec_sc {s : State} {base : Reg} {offset : BitVec 16} (ok : StoreOK s (s.effAddr base offset) 4) (rt : Reg) :
    exec (.sc rt base offset) s =
      .next ((s.storeIfLinked (s.effAddr base offset) (s.x rt)).setX rt (boolWord s.llbit)).seq :=
  State.checkedAccess_store_ok ok _

theorem State.storeIfLinked_linked {s : State} (linked : s.llbit = true) (a v : Word) :
    s.storeIfLinked a v = s.storeBytes a.toNat (bytesFrom v 0 4) := if_pos linked

theorem State.storeIfLinked_unlinked {s : State} (unlinked : s.llbit = false) (a v : Word) : s.storeIfLinked a v = s := by
  rw [State.storeIfLinked, unlinked]
  rfl

/-- Settles O35: `ll` is a load that also sets LLbit; `sc` is a store or nothing, and then a register write. -/
theorem loadLinkedStoreConditional : Obligations.LoadLinkedStoreConditional := by
  intro rt base offset s
  refine ⟨.cons (hasRow_of_statement (TableRow.ll rt base offset)) <|
    .cons (hasRow_of_statement (TableRow.sc rt base offset)) .nil, fun coh => ⟨fun ok => ?_, fun ok => ?_⟩⟩
  · refine ⟨_, _, exec_ll ok rt, rfl, State.x_setX_same _ rt _, fun i hi => byteOf_wordAt s.dataByte _ hi, fun q hq => ?_,
      (State.touchD_through coh _).congr rfl rfl rfl, State.touchD_sameMemory coh _, ?_, ?_⟩
    · rw [State.seq_x, State.setLlbit_x, State.x_setX_of_ne _ _ hq, State.touchD_x]
    · rw [State.touchD_eq]; exact ⟨rfl, rfl, rfl⟩
    · rw [State.touchD_eq]; rfl
  · rw [exec_sc ok]
    by_cases linked : s.llbit = true
    · rw [State.storeIfLinked_linked linked]
      have stores := State.storeBytes_stores coh (s.effAddr base offset).toNat (bytesFrom_ne_nil (s.x rt) 0 (n := 4) (by omega))
      have others := State.storeBytes_x s (s.effAddr base offset).toNat (bytesFrom (s.x rt) 0 4)
      have frame := State.storeBytes_eq (bytesFrom (s.x rt) 0 4) s (s.effAddr base offset).toNat
      generalize s.storeBytes (s.effAddr base offset).toNat (bytesFrom (s.x rt) 0 4) = u at stores others frame
      obtain ⟨stored, fetch, _, through, advanced⟩ := stores
      refine ⟨_, rfl, u.x_setX_same rt _, fun q hq => (u.x_setX_of_ne _ hq).trans (others q), advanced,
        fun _ => ⟨stored, through.congr rfl rfl rfl rfl⟩, fun unlinked => absurd linked (by simp [unlinked]), fetch, ?_⟩
      rw [frame]
      rfl
    · rw [State.storeIfLinked_unlinked (Bool.eq_false_of_not_eq_true linked)]
      exact ⟨_, rfl, s.x_setX_same rt _, fun q hq => s.x_setX_of_ne _ hq, ⟨rfl, rfl, rfl⟩, fun h => absurd h linked,
        fun _ => ⟨fun _ => ⟨rfl, rfl⟩, rfl, rfl, rfl⟩, fun _ => rfl, rfl⟩

end Sys2Proof.Machine
end

section
/-! ## The cache functions and sync (R71, R290 to R302, R307) -/

namespace Sys2Proof.Machine

open Sys2Proof.Laws

/-! ### A line dropped from its set (R291) -/

/-- A line made invalid is not found again. -/
theorem CacheSet.Drops.find_none {c c' : CacheSet} {w : Way} {tag : Nat} (drops : c.Drops w c') (distinct : c.Distinct)
    (found : c.find tag = some w) : c'.find tag = none := by
  obtain ⟨valid, holds⟩ := CacheSet.find_some found
  cases again : c'.find tag with
  | none => rfl
  | some v =>
    obtain ⟨valid', holds'⟩ := CacheSet.find_some again
    rcases Way.eq_or_other w v with rfl | rfl
    · rw [drops.dropped] at valid'
      cases valid'
    · rw [drops.other] at valid' holds'
      exact absurd (holds.trans holds'.symm) (distinct.other w valid valid')

theorem CacheSet.lru_releaseLock_invalidate (c : CacheSet) (w : Way) : ((c.releaseLock w).invalidate w).lru = c.lru := by
  cases w <;> rfl

theorem CacheSet.lock_releaseLock_invalidate (c : CacheSet) (w : Way) :
    ((c.releaseLock w).invalidate w).lock = (c.lock && !c.locked w) := by
  cases w <;> rfl

/-- A line made clean that was clean. -/
theorem CacheSet.clean_eq_self {c : CacheSet} {w : Way} (h : (c.line w).dirty = false) : c.clean w = c := by
  cases w with
  | A => rw [CacheSet.clean, ← h]; rfl
  | B => rw [CacheSet.clean, ← h]; rfl

/-- What `IndexSelect` takes, and the set it leaves, where a way is valid. -/
theorem CacheSet.indexSelect_cases {c c' : CacheSet} {w : Way} (h : c.indexSelect = (some w, c')) :
    (c.wayA.valid = true ∧ c.wayB.valid = true ∧ w = c.lru ∧ c' = c) ∨
    (c.wayA.valid = true ∧ c.wayB.valid = false ∧ w = .A ∧ c' = { c with lock := false }) ∨
    (c.wayA.valid = false ∧ c.wayB.valid = true ∧ w = .B ∧ c' = { c with lock := false }) := by
  unfold CacheSet.indexSelect at h
  split at h <;> cases h
  next validA validB => exact .inl ⟨validA, validB, rfl, rfl⟩
  next validA validB => exact .inr (.inl ⟨validA, validB, rfl, rfl⟩)
  next validA validB => exact .inr (.inr ⟨validA, validB, rfl, rfl⟩)

/-- `IndexSelect` takes a valid way, the one the LRU bit points to where both are valid. -/
theorem CacheSet.indexSelect_some {c c' : CacheSet} {w : Way} (h : c.indexSelect = (some w, c')) : (c.line w).valid = true ∧
    ∀ v, (c.line v).valid = true → ((c.line v.other).valid = true → c.lru = v) → v = w := by
  rcases CacheSet.indexSelect_cases h with ⟨validA, validB, rfl, _⟩ | ⟨validA, validB, rfl, _⟩ | ⟨validA, validB, rfl, _⟩
  · have valid : ∀ v, (c.line v).valid = true
      | .A => validA
      | .B => validB
    exact ⟨valid _, fun v _ last => (last (valid _)).symm⟩
  · exact ⟨validA, fun
      | .A, _, _ => rfl
      | .B, valid, _ => nomatch validB.symm.trans valid⟩
  · exact ⟨validB, fun
      | .A, valid, _ => nomatch validA.symm.trans valid
      | .B, _, _ => rfl⟩

/-- It takes none where neither way is valid. -/
theorem CacheSet.indexSelect_none {c c' : CacheSet} (h : c.indexSelect = (none, c')) (v : Way) : (c.line v).valid = false := by
  unfold CacheSet.indexSelect at h
  split at h <;> cases h
  next validA validB =>
    cases v with
    | A => exact validA
    | B => exact validB

/-! ### What a cache function leaves unchanged -/

theorem State.seq_onlyDset (s : State) (a : Nat) : OnlyDset s s.seq a := ⟨rfl, ⟨rfl, rfl, rfl⟩, fun _ _ => rfl⟩

theorem State.putDset_onlyDset (s : State) (a : Nat) (c : CacheSet) : OnlyDset s (s.putDset a c).seq a :=
  ⟨rfl, ⟨rfl, rfl, rfl⟩, fun b hb => (s.dset_putDset a b c).trans (if_neg hb)⟩

theorem State.evict_onlyDset (s : State) (a : Nat) (w : Way) (c : CacheSet) :
    OnlyDset s ((s.writebackIfDirty a w).putDset a c).seq a :=
  ⟨rfl, ⟨rfl, rfl, rfl⟩, fun b hb => ((s.writebackIfDirty a w).dset_putDset a b c).trans (if_neg hb)⟩

theorem State.evict_sameMemory {s : State} (h : s.Coherent) {a : Nat} {w : Way} {c : CacheSet} (drops : (s.dset a).Drops w c) :
    SameMemory s ((s.writebackIfDirty a w).putDset a c).seq :=
  fun b => ⟨(State.drop_spec h a w drops.dropped drops.other).2 b, rfl⟩

/-- A line that is dropped from its set is not hit any more. -/
theorem State.dHit_drop {s : State} {a : Nat} (distinct : (s.dset a).Distinct) {w : Way} {c : CacheSet}
    (hit : s.dHit a = some w) (drops : (s.dset a).Drops w c) : (s.putDset a c).dHit a = none := by
  rw [State.dHit, State.dset_putDset_same]
  exact drops.find_none distinct hit

/-! ### Lines written back (R291) -/

/-- An address hits a dirty line, or whatever line it hits is clean. -/
theorem State.dirty_hit_or_clean (s : State) (a : Nat) :
    (∃ w, s.dHit a = some w ∧ ((s.dset a).line w).dirty = true) ∨
    ∀ w, s.dHit a = some w → ((s.dset a).line w).dirty = false :=
  or_iff_not_imp_left.mpr fun none w hit => Bool.eq_false_of_not_eq_true fun dirty => none ⟨w, hit, dirty⟩

theorem State.writeback_eq_writebackIfDirty {s : State} {a : Nat} {w : Way} (valid : ((s.dset a).line w).valid = true)
    (dirty : ((s.dset a).line w).dirty = true) : s.writeback a w = s.writebackIfDirty a w := by
  simp [State.writebackIfDirty, State.writeback, valid, dirty]

theorem State.writebackIfDirty_of_clean {s : State} {a : Nat} {w : Way} (clean : ((s.dset a).line w).dirty = false) :
    s.writebackIfDirty a w = s := by
  simp [State.writebackIfDirty, clean]

theorem State.evict_writtenBack {s : State} {a : Nat} {w : Way} (valid : ((s.dset a).line w).valid = true) (c : CacheSet) :
    WrittenBack s ((s.writebackIfDirty a w).putDset a c).seq
      (s.platform.lineAddr .data (s.platform.setOf .data a) ((s.dset a).line w).tag) ((s.dset a).line w) := by
  simp [WrittenBack, State.writebackIfDirty, State.writeback, valid]

/-- The line that an address hits goes back to the address's line. -/
theorem State.evict_writtenBack_hit {s : State} {a : Nat} {w : Way} (hit : s.dHit a = some w) (c : CacheSet) :
    WrittenBack s ((s.writebackIfDirty a w).putDset a c).seq (s.platform.lineOf a) ((s.dset a).line w) := by
  obtain ⟨valid, tag⟩ := State.line_of_dHit hit
  rw [← State.lineAddr_of, ← tag]
  exact State.evict_writtenBack valid c

/-! ### What each function answers where its address is permitted -/

section
variable {s : State} {base : Reg} {offset : BitVec 16} (ok : CacheOK s (s.effAddr base offset)) {w : Way}
include ok

theorem exec_cacheIndexWritebackInvalidateD_some {c : CacheSet}
    (select : (s.dset (s.effAddr base offset).toNat).indexSelect = (some w, c)) :
    exec (.cacheIndexWritebackInvalidateD base offset) s =
      .next ((s.writebackIfDirty (s.effAddr base offset).toNat w).putDset (s.effAddr base offset).toNat (c.invalidate w)).seq := by
  show execCacheIndexWritebackInvalidateD base offset s = _
  rw [execCacheIndexWritebackInvalidateD, State.cacheOp_ok ok, select]

theorem exec_cacheIndexWritebackInvalidateD_none {c : CacheSet}
    (select : (s.dset (s.effAddr base offset).toNat).indexSelect = (none, c)) :
    exec (.cacheIndexWritebackInvalidateD base offset) s = .next s.seq := by
  show execCacheIndexWritebackInvalidateD base offset s = _
  rw [execCacheIndexWritebackInvalidateD, State.cacheOp_ok ok, select]

theorem exec_cacheIndexUnlockD : exec (.cacheIndexUnlockD base offset) s =
    .next (s.putDset (s.effAddr base offset).toNat { s.dset (s.effAddr base offset).toNat with lock := false }).seq := by
  show execCacheIndexUnlockD base offset s = _
  rw [execCacheIndexUnlockD, State.cacheOp_ok ok]

theorem exec_cacheHitWritebackD_dirty (hit : s.dHit (s.effAddr base offset).toNat = some w)
    (dirty : ((s.dset (s.effAddr base offset).toNat).line w).dirty = true) : exec (.cacheHitWritebackD base offset) s =
      .next ((s.writeback (s.effAddr base offset).toNat w).putDset (s.effAddr base offset).toNat
        ((s.dset (s.effAddr base offset).toNat).clean w)).seq := by
  show execCacheHitWritebackD base offset s = _
  rw [execCacheHitWritebackD, State.cacheOp_ok ok]
  simp only [hit, dirty, if_true]

theorem exec_cacheHitWritebackD_clean
    (clean : ∀ w, s.dHit (s.effAddr base offset).toNat = some w →
      ((s.dset (s.effAddr base offset).toNat).line w).dirty = false) :
    exec (.cacheHitWritebackD base offset) s = .next s.seq := by
  show execCacheHitWritebackD base offset s = _
  rw [execCacheHitWritebackD, State.cacheOp_ok ok]
  cases hit : s.dHit (s.effAddr base offset).toNat with
  | none => rfl
  | some w => simp [clean w hit]

theorem exec_cacheHitWritebackInvalidateD_hit (hit : s.dHit (s.effAddr base offset).toNat = some w) :
    exec (.cacheHitWritebackInvalidateD base offset) s =
      .next ((s.writebackIfDirty (s.effAddr base offset).toNat w).putDset (s.effAddr base offset).toNat
        (((s.dset (s.effAddr base offset).toNat).releaseLock w).invalidate w)).seq := by
  show execCacheHitWritebackInvalidateD base offset s = _
  rw [execCacheHitWritebackInvalidateD, State.cacheOp_ok ok, hit]

theorem exec_cacheHitWritebackInvalidateD_miss (miss : s.dHit (s.effAddr base offset).toNat = none) :
    exec (.cacheHitWritebackInvalidateD base offset) s = .next s.seq := by
  show execCacheHitWritebackInvalidateD base offset s = _
  rw [execCacheHitWritebackInvalidateD, State.cacheOp_ok ok, miss]

theorem exec_cacheHitInvalidateD_hit (hit : s.dHit (s.effAddr base offset).toNat = some w) :
    exec (.cacheHitInvalidateD base offset) s = .next (s.putDset (s.effAddr base offset).toNat
      (((s.dset (s.effAddr base offset).toNat).releaseLock w).invalidate w)).seq := by
  show execCacheHitInvalidateD base offset s = _
  rw [execCacheHitInvalidateD, State.cacheOp_ok ok, hit]

theorem exec_cacheHitInvalidateD_miss (miss : s.dHit (s.effAddr base offset).toNat = none) :
    exec (.cacheHitInvalidateD base offset) s = .next s.seq := by
  show execCacheHitInvalidateD base offset s = _
  rw [execCacheHitInvalidateD, State.cacheOp_ok ok, miss]

theorem exec_cacheHitInvalidateI_hit (hit : s.iHit (s.effAddr base offset).toNat = some w) :
    exec (.cacheHitInvalidateI base offset) s = .next (s.putIset (s.effAddr base offset).toNat
      (((s.iset (s.effAddr base offset).toNat).releaseLock w).invalidate w)).seq := by
  show execCacheHitInvalidateI base offset s = _
  rw [execCacheHitInvalidateI, State.cacheOp_ok ok, hit]

theorem exec_cacheHitInvalidateI_miss (miss : s.iHit (s.effAddr base offset).toNat = none) :
    exec (.cacheHitInvalidateI base offset) s = .next s.seq := by
  show execCacheHitInvalidateI base offset s = _
  rw [execCacheHitInvalidateI, State.cacheOp_ok ok, miss]

end

/-! ### The functions that write back or unlock (R297, R298, R301, R302) -/

/-- Settles O51, function by function: what it answers, by what it selects or hits. -/
theorem dataCacheMaintenance : Obligations.DataCacheMaintenance := by
  intro base offset s a c
  refine ⟨?_, fun coh ok => ⟨?_, ?_, ?_, ?_⟩⟩
  · exact .cons (hasRow_of_statement (TableRow.cacheIndexWritebackInvalidateD base offset)) <|
      .cons (hasRow_of_statement (TableRow.cacheIndexUnlockD base offset)) <|
      .cons (hasRow_of_statement (TableRow.cacheHitWritebackD base offset)) <|
      .cons (hasRow_of_statement (TableRow.cacheHitWritebackInvalidateD base offset)) .nil
  · match select : c.indexSelect with
    | (some w, c') =>
      obtain ⟨valid, only⟩ := CacheSet.indexSelect_some select
      refine ⟨_, exec_cacheIndexWritebackInvalidateD_some ok select, State.evict_onlyDset ..,
        State.evict_sameMemory coh (CacheSet.drops_of_indexSelect select), fun v hv last => ?_, fun invalidA invalidB => ?_,
        (State.dset_putDset_same _ a _).trans ?_⟩
      · rw [only v hv last]
        exact State.evict_writtenBack valid _
      · cases w with
        | A => exact nomatch invalidA.symm.trans valid
        | B => exact nomatch invalidB.symm.trans valid
      · rcases CacheSet.indexSelect_cases select with ⟨validA, validB, rfl, rfl⟩ | ⟨validA, validB, rfl, rfl⟩ |
          ⟨validA, validB, rfl, rfl⟩
        all_goals rw [validA, validB] <;> rfl
    | (none, c') =>
      have invalid := CacheSet.indexSelect_none select
      refine ⟨_, exec_cacheIndexWritebackInvalidateD_none ok select, s.seq_onlyDset a, fun _ => ⟨rfl, rfl⟩,
        fun v valid _ => absurd valid (by simp [invalid v]), fun _ _ => rfl, ?_⟩
      rw [show c.wayA.valid = false from invalid .A, show c.wayB.valid = false from invalid .B] <;> rfl
  · exact ⟨_, exec_cacheIndexUnlockD ok, s.putDset_onlyDset a _,
      fun b => ⟨State.sameData_putDset c.view_unlock b, rfl⟩, rfl, s.dset_putDset_same a _⟩
  · rcases s.dirty_hit_or_clean a with ⟨w, hit, dirty⟩ | clean
    · have evicts := State.writeback_eq_writebackIfDirty (State.line_of_dHit hit).1 dirty
      have same : SameMemory s ((s.writeback a w).putDset a (c.clean w)).seq :=
        fun b => ⟨State.sameData_clean coh hit dirty b, rfl⟩
      refine ⟨_, exec_cacheHitWritebackD_dirty ok hit dirty, ?_⟩
      rw [evicts] at same ⊢
      refine ⟨State.evict_onlyDset .., same, fun miss => absurd hit (by simp [miss]), fun v hv => ?_⟩
      obtain rfl : v = w := Option.some.inj (hv.symm.trans hit)
      exact ⟨State.evict_writtenBack_hit hit _, State.dset_putDset_same _ a _⟩
    · refine ⟨_, exec_cacheHitWritebackD_clean ok clean, s.seq_onlyDset a, fun _ => ⟨rfl, rfl⟩, fun _ => ⟨rfl, rfl⟩,
        fun w hit => ⟨?_, (CacheSet.clean_eq_self (clean w hit)).symm⟩⟩
      rw [WrittenBack, clean w hit]
      rfl
  · cases hit : s.dHit a with
    | some w =>
      have drops := c.drops_releaseLock_invalidate w
      refine ⟨_, exec_cacheHitWritebackInvalidateD_hit ok hit, State.evict_onlyDset .., State.evict_sameMemory coh drops,
        State.dHit_drop (s := s.writebackIfDirty a w) (coh.distinctAt a) hit drops, nofun, ?_⟩
      rintro _ ⟨⟩
      rw [State.seq_dset, State.dset_putDset_same]
      exact ⟨State.evict_writtenBack_hit hit _, c.lru_releaseLock_invalidate w, drops.other, c.lock_releaseLock_invalidate w⟩
    | none =>
      exact ⟨_, exec_cacheHitWritebackInvalidateD_miss ok hit, s.seq_onlyDset a, fun _ => ⟨rfl, rfl⟩, hit,
        fun _ => ⟨rfl, rfl⟩, nofun⟩

/-! ### Hit Invalidate (D), R300 -/

/-- A line that is absent reads as what lies beneath the data cache. -/
theorem State.dataByte_miss {s : State} {a b : Nat} (miss : s.dHit a = none) (line : s.platform.lineOf b = s.platform.lineOf a) :
    s.dataByte b = s.busByte b := by
  rw [State.dataByte, State.dHit_congr line, miss]
  exact ite_self _

/-- THE BYTES A LOAD SEES after a line has been dropped without a writeback: beneath the data cache in that line, and every other
byte as before. -/
theorem State.dataByte_drop {s : State} (h : s.Coherent) {a : Nat} {w : Way} {c : CacheSet} (hit : s.dHit a = some w)
    (drops : (s.dset a).Drops w c) (b : Nat) : (s.putDset a c).dataByte b =
      if s.platform.lineOf b = s.platform.lineOf a then s.busByte b else s.dataByte b := by
  split
  next line => exact State.dataByte_miss (State.dHit_drop (h.distinctAt a) hit drops) line
  next line =>
    rw [State.dataByte_replace (h.distinctAt a) drops.dropped drops.other nofun]
    split
    next set =>
      rw [if_neg nofun, if_neg]
      rintro ⟨_, tag⟩
      exact line ((s.platform.lineOf_eq_iff .data b a).mpr ⟨set.2, tag.symm.trans (State.line_of_dHit hit).2⟩)
    next => rfl

/-- Settles O54, by whether the address hits. -/
theorem hitInvalidateDropsLine : Obligations.HitInvalidateDropsLine := by
  intro base offset s a c
  refine ⟨.cons (hasRow_of_statement (TableRow.cacheHitInvalidateD base offset)) .nil, fun coh ok => ?_⟩
  cases hit : s.dHit a with
  | some w =>
    have drops := c.drops_releaseLock_invalidate w
    refine ⟨_, exec_cacheHitInvalidateD_hit ok hit, s.putDset_onlyDset a _, rfl, State.dHit_drop (coh.distinctAt a) hit drops,
      fun _ => rfl, nofun, ?_, State.dataByte_drop coh hit drops⟩
    rintro _ ⟨⟩
    rw [State.seq_dset, State.dset_putDset_same, c.lock_releaseLock_invalidate]
    exact ⟨drops.other, c.lru_releaseLock_invalidate w, fun locked => by simp [locked], fun unlocked => by simp [unlocked]⟩
  | none =>
    refine ⟨_, exec_cacheHitInvalidateD_miss ok hit, s.seq_onlyDset a, rfl, hit, fun _ => rfl, fun _ => rfl, nofun,
      fun b => ?_⟩
    split
    next line => exact State.dataByte_miss hit line
    next => rfl

/-! ### sync (R65, R307) -/

/-- Settles O55, by what emptying both buffers does. -/
theorem syncEmptiesBuffers : Obligations.SyncEmptiesBuffers := by
  refine ⟨hasRow_of_statement TableRow.sync, fun s coh memory => ?_⟩
  obtain ⟨_, same, writebackBuf, nonCacheBuf, beneath, _⟩ := State.drainAll_spec coh memory
  exact ⟨_, rfl, writebackBuf, nonCacheBuf, beneath, same, ⟨rfl, rfl, rfl⟩, rfl⟩

/-! ### Making new code visible (R67, R388) -/

/-- Once the line that an address hits has been written back if dirty, what lies beneath is what a load saw in it. -/
theorem State.busByte_writebackIfDirty_hit {s : State} (h : s.Coherent) {a b : Nat} {w : Way} (hit : s.dHit a = some w)
    (line : s.platform.lineOf b = s.platform.lineOf a) : (s.writebackIfDirty a w).busByte b = s.dataByte b := by
  obtain ⟨_, same, beneath⟩ := State.writebackIfDirty_spec h a w
  obtain ⟨valid, tag⟩ := State.line_of_dHit hit
  obtain ⟨set, tag'⟩ := (s.platform.lineOf_eq_iff .data b a).mp line
  cases cached : s.platform.cacheable b with
  | true => exact beneath b cached set valid (tag.trans tag'.symm)
  | false => exact (State.dataByte_uncached (s := s.writebackIfDirty a w) cached).symm.trans (same b)

/-- After Hit WriteBack (D) what lies beneath the data cache is, in the line of its address, what a load saw. -/
theorem exec_cacheHitWritebackD_beneath {s : State} (coh : s.Coherent) {base : Reg} {offset : BitVec 16}
    (ok : CacheOK s (s.effAddr base offset)) : ∃ u : State, exec (.cacheHitWritebackD base offset) s = .next u.seq ∧
      u.Coherent ∧ SameData s u ∧ u = { s with dcache := u.dcache, writebackBuf := u.writebackBuf } ∧
      ∀ b, s.platform.lineOf b = s.platform.lineOf (s.effAddr base offset).toNat → u.busByte b = s.dataByte b := by
  rcases s.dirty_hit_or_clean (s.effAddr base offset).toNat with ⟨w, hit, dirty⟩ | clean
  · refine ⟨_, exec_cacheHitWritebackD_dirty ok hit dirty, coh.clean hit dirty, State.sameData_clean coh hit dirty, rfl,
      fun b line => ?_⟩
    rw [State.putDset_busByte, State.writeback_eq_writebackIfDirty (State.line_of_dHit hit).1 dirty]
    exact State.busByte_writebackIfDirty_hit coh hit line
  · refine ⟨s, exec_cacheHitWritebackD_clean ok clean, coh, fun _ => rfl, rfl, fun b line => ?_⟩
    cases hit : s.dHit (s.effAddr base offset).toNat with
    | some w =>
      rw [← State.busByte_writebackIfDirty_hit coh hit line, State.writebackIfDirty_of_clean (clean w hit)]
    | none => exact (State.dataByte_miss hit line).symm

/-- A line that is absent from the instruction cache is fetched from main memory. -/
theorem State.fetchByte_miss {s : State} {a b : Nat} (miss : s.iHit a = none)
    (line : s.platform.lineOf b = s.platform.lineOf a) : s.fetchByte b = Memory.read s.mem b := by
  obtain ⟨set, tag⟩ := (s.platform.lineOf_eq_iff .instruction b a).mp line
  have miss' : s.iHit b = none := by rw [State.iHit, State.iset, set, tag]; exact miss
  rw [State.fetchByte, miss']
  exact ite_self _

/-- After Hit Invalidate (I) a fetch sees main memory in the line of its address. -/
theorem exec_cacheHitInvalidateI_absent {s : State} (distinct : s.FetchDistinct) {base : Reg} {offset : BitVec 16}
    (ok : CacheOK s (s.effAddr base offset)) : ∃ u : State, exec (.cacheHitInvalidateI base offset) s = .next u.seq ∧
      u = { s with icache := u.icache } ∧
      ∀ b, s.platform.lineOf b = s.platform.lineOf (s.effAddr base offset).toNat → u.fetchByte b = Memory.read s.mem b := by
  cases hit : s.iHit (s.effAddr base offset).toNat with
  | some w =>
    refine ⟨_, exec_cacheHitInvalidateI_hit ok hit, rfl, fun b line => State.fetchByte_miss ?_ line⟩
    rw [State.iHit, State.iset_putIset_same]
    exact (CacheSet.drops_releaseLock_invalidate _ w).find_none (distinct _) hit
  | none => exact ⟨s, exec_cacheHitInvalidateI_miss ok hit, rfl, fun b line => State.fetchByte_miss hit line⟩

/-- Settles O56: the three one after another, each by what it does to the line. -/
theorem newCodeBecomesVisible : Obligations.NewCodeBecomesVisible := by
  intro base offset s inv coh ok
  obtain ⟨t, writeback, cohT, sameT, frameT, beneath⟩ := exec_cacheHitWritebackD_beneath coh ok
  have memory : Memory.wf t.mem = true := by rw [frameT]; exact inv.memory
  obtain ⟨_, sameU, _, _, synced, _⟩ := State.drainAll_spec (cohT.congr (t := t.seq) rfl rfl rfl rfl rfl) memory
  have sync : exec .sync t.seq = .next t.seq.drainAll.seq := rfl
  obtain ⟨distinct, okU, address, platform⟩ : t.seq.drainAll.seq.FetchDistinct ∧
      CacheOK t.seq.drainAll.seq (t.seq.drainAll.seq.effAddr base offset) ∧
      t.seq.drainAll.seq.effAddr base offset = s.effAddr base offset ∧ t.seq.drainAll.seq.platform = s.platform := by
    rw [State.drainAll_eq, frameT]
    exact ⟨inv.fetchDistinct, ok, rfl, rfl⟩
  generalize t.seq.drainAll = u at *
  obtain ⟨v, invalidate, frameV, absent⟩ := exec_cacheHitInvalidateI_absent distinct okU
  rw [address, platform] at absent
  refine ⟨t.seq, u.seq, v.seq, writeback, sync, invalidate, fun b line => ?_⟩
  have visible : Memory.read u.mem b = s.dataByte b := (synced b).trans (beneath b line)
  refine ⟨?_, (absent b line).trans visible, ?_⟩
  · rw [frameV]
    exact visible
  · rw [frameV]
    exact (sameU b).trans (sameT b)

end Sys2Proof.Machine
end

section
/-! ## Words and instructions (R81 to R100)

A word is read once, through the decoder's tables: `Answers` says what the right answer for a word is, be it the instruction that
the word is written for or the cell that it stands in, and `decode_answers` that the decoder gives it. Both directions of R96 to
R98 and the converse of `decode_encode` are read off there. -/

namespace Sys2Proof

open Machine

/-! ### When a format gives a word (R81, R83) -/

theorem encR_eq_iff {op : BitVec 6} {rs rt rd sa : BitVec 5} {func : BitVec 6} {w : Word} :
    encR op rs rt rd sa func = w ↔
      opF w = op ∧ rsF w = rs ∧ rtF w = rt ∧ rdF w = rd ∧ saF w = sa ∧ funcF w = func := by
  constructor
  · rintro rfl
    simp
  · rintro ⟨rfl, rfl, rfl, rfl, rfl, rfl⟩
    exact encR_fields w

theorem encI_eq_iff {op : BitVec 6} {rs rt : BitVec 5} {imm : BitVec 16} {w : Word} :
    encI op rs rt imm = w ↔ opF w = op ∧ rsF w = rs ∧ rtF w = rt ∧ immF w = imm := by
  constructor
  · rintro rfl
    simp
  · rintro ⟨rfl, rfl, rfl, rfl⟩
    exact encI_fields w

theorem encJ_eq_iff {op : BitVec 6} {target : BitVec 26} {w : Word} :
    encJ op target = w ↔ opF w = op ∧ targetF w = target := by
  constructor
  · rintro rfl
    simp
  · rintro ⟨rfl, rfl⟩
    exact encJ_fields w

theorem encCode_eq_iff {code : BitVec 20} {func : BitVec 6} {w : Word} :
    encCode code func = w ↔ opF w = 0#6 ∧ codeF w = code ∧ funcF w = func := by
  constructor
  · rintro rfl
    simp
  · rintro ⟨op, rfl, rfl⟩
    exact encCode_fields op

theorem codeF_eq_zero_iff {w : Word} : codeF w = 0#20 ↔ rsF w = 0#5 ∧ rtF w = 0#5 ∧ rdF w = 0#5 ∧ saF w = 0#5 := by
  simp only [codeF, rsF, rtF, rdF, saF, ← BitVec.toNat_inj, field_toNat]
  show _ = 0 ↔ _ = 0 ∧ _ = 0 ∧ _ = 0 ∧ _ = 0
  omega

/-! ### The right answer for a word -/

/-- The words that the spec wants rejected for the reason given (R96, R97, R98, R306). -/
def Cell : DecodeReject → Word → Prop
  | .reserved => ReservedCell
  | .namedOnly => NamedOnly
  | .blankCell => BlankCell
  | .nonzeroField => NonzeroField

/-- `d` is what the spec says of the word `w`: the instruction that `w` is written for, or why there is none. -/
structure Answers (w : Word) (d : Decoded) : Prop where
  word : ∀ i, d = .instr i → encode i = w
  cell : ∀ r, d = .reject r ↔ Cell r w

section
variable {w : Word} {i : Instr}

theorem answers_iff {d : Decoded} : Answers w d ↔ (∀ i, d = .instr i → encode i = w) ∧
    (d = .reject .reserved ↔ ReservedCell w) ∧ (d = .reject .namedOnly ↔ NamedOnly w) ∧
    (d = .reject .blankCell ↔ BlankCell w) ∧ (d = .reject .nonzeroField ↔ NonzeroField w) :=
  ⟨fun h => ⟨h.word, h.cell .reserved, h.cell .namedOnly, h.cell .blankCell, h.cell .nonzeroField⟩,
    fun ⟨word, r, n, b, z⟩ => ⟨word, fun | .reserved => r | .namedOnly => n | .blankCell => b | .nonzeroField => z⟩⟩

@[simp] theorem answers_instr : Answers w (.instr i) ↔
    encode i = w ∧ ¬ ReservedCell w ∧ ¬ NamedOnly w ∧ ¬ BlankCell w ∧ ¬ NonzeroField w := by simp [answers_iff]

@[simp] theorem answers_reserved : Answers w (.reject .reserved) ↔
    ReservedCell w ∧ ¬ NamedOnly w ∧ ¬ BlankCell w ∧ ¬ NonzeroField w := by simp [answers_iff]

@[simp] theorem answers_namedOnly : Answers w (.reject .namedOnly) ↔
    ¬ ReservedCell w ∧ NamedOnly w ∧ ¬ BlankCell w ∧ ¬ NonzeroField w := by simp [answers_iff]

@[simp] theorem answers_blankCell : Answers w (.reject .blankCell) ↔
    ¬ ReservedCell w ∧ ¬ NamedOnly w ∧ BlankCell w ∧ ¬ NonzeroField w := by simp [answers_iff]

@[simp] theorem answers_nonzeroField : Answers w (.reject .nonzeroField) ↔
    ¬ ReservedCell w ∧ ¬ NamedOnly w ∧ ¬ BlankCell w ∧ NonzeroField w := by simp [answers_iff]

/-- An instruction some of whose fields must be zero: its word is in no cell but, with one of them not zero, that of R96. -/
@[simp] theorem answers_ifZero {zero : Bool} : Answers w (ifZero zero i) ↔
    (zero = true → encode i = w) ∧ ¬ ReservedCell w ∧ ¬ NamedOnly w ∧ ¬ BlankCell w ∧ (NonzeroField w ↔ (!zero) = true) := by
  cases zero <;> simp [ifZero]

end

/-! ### Table by table (R86 to R92)

In each proof the split follows the cells of the table; the branch that is handled first by its name is the table's last, the
cells that no other branch takes. -/

section
variable {w : Word}

/-- The cells under SPECIAL, the largest table. -/
theorem cells_special (op : opF w = 0x00#6) :
    (ReservedCell w ↔
      funcF w ∈ [0x0e#6, 0x14#6, 0x15#6, 0x1e#6, 0x1f#6, 0x28#6, 0x29#6] ∨ 0x30 ≤ (funcF w).toNat) ∧
    ¬ NamedOnly w ∧
    (BlankCell w ↔ funcF w = 0x01#6 ∨ funcF w = 0x05#6 ∨ (funcF w = 0x02#6 ∧ 1 < (rsF w).toNat) ∨
      (funcF w = 0x06#6 ∧ 1 < (saF w).toNat)) ∧
    (NonzeroField w ↔ NonzeroSpecial w) := by
  simp [ReservedCell, NamedOnly, BlankCell, NonzeroField, op]

theorem one_lt_toNat {x : BitVec 5} (h0 : x ≠ 0#5) (h1 : x ≠ 1#5) : 1 < x.toNat := by bv_omega

theorem decodeSpecial_answers (op : opF w = 0x00#6) : Answers w (decodeSpecial w) := by
  obtain ⟨reserved, named, blank, nonzero⟩ := cells_special op
  unfold decodeSpecial
  split
  case h_42 =>
    simp only [imp_false] at *
    refine answers_reserved.mpr ⟨reserved.mpr ?_, named, ?_, ?_⟩
    · simp only [List.mem_cons, List.not_mem_nil, or_false]
      bv_omega
    · simp [*]
    · simp [NonzeroSpecial, *]
  -- `sll`, whose word with every field zero is `nop`'s (R118)
  case h_1 func =>
    dsimp only
    split_ifs with rs nop
    · simp [encode, encR_eq_iff, op, func, rs, nop, reserved, named, blank, nonzero, NonzeroSpecial]
    · simp [encode, encR_eq_iff, op, func, rs, reserved, named, blank, nonzero, NonzeroSpecial]
    · simp [func, rs, reserved, named, blank, nonzero, NonzeroSpecial]
  -- `rs` tells `srl` from `rotr`, and `sa` `srlv` from `rotrv`; other values are blank cells
  case h_2 func =>
    dsimp only
    split_ifs with srl rotr
    · simp [encode, encR_eq_iff, op, func, srl, reserved, named, blank, nonzero, NonzeroSpecial]
    · simp [encode, encR_eq_iff, op, func, rotr, reserved, named, blank, nonzero, NonzeroSpecial]
    · simp [func, one_lt_toNat srl rotr, reserved, named, blank, nonzero, NonzeroSpecial]
  case h_5 func =>
    dsimp only
    split_ifs with srlv rotrv
    · simp [encode, encR_eq_iff, op, func, srlv, reserved, named, blank, nonzero, NonzeroSpecial]
    · simp [encode, encR_eq_iff, op, func, rotrv, reserved, named, blank, nonzero, NonzeroSpecial]
    · simp [func, one_lt_toNat srlv rotrv, reserved, named, blank, nonzero, NonzeroSpecial]
  all_goals
    rename_i func
    simp +contextual [encode, encR_eq_iff, encCode_eq_iff, codeF_eq_zero_iff, or_assoc, op, func, reserved, named, blank,
      nonzero, NonzeroSpecial]

theorem decodeRegimm_answers (op : opF w = 0x01#6) : Answers w (decodeRegimm w) := by
  unfold decodeRegimm
  split
  case h_9 =>
    simp only [imp_false] at *
    have cell : 4 ≤ (rtF w).toNat ∧ (rtF w).toNat ≤ 15 ∨ 20 ≤ (rtF w).toNat := by bv_omega
    simp [op, cell, ReservedCell, NamedOnly, BlankCell, NonzeroField]
  all_goals
    rename_i rt
    simp [encode, encI_eq_iff, op, rt, ReservedCell, NamedOnly, BlankCell, NonzeroField]

theorem decodeCop0_answers (op : opF w = 0x10#6) : Answers w (decodeCop0 w) := by
  unfold decodeCop0
  dsimp only
  split_ifs with co
  · have co : 16 ≤ (rsF w).toNat := co
    have notMfc0 : rsF w ≠ 0#5 := by bv_omega
    have notMtc0 : rsF w ≠ 4#5 := by bv_omega
    split
    case h_7 =>
      simp only [imp_false] at *
      simp [ReservedCell, NamedOnly, BlankCell, NonzeroField, *]
    all_goals
      rename_i func
      simp +contextual [encode, encR_eq_iff, or_assoc, op, co, notMfc0, notMtc0, func, ReservedCell, NamedOnly, BlankCell,
        NonzeroField]
  · have notCo : (rsF w).toNat < 16 := by bv_omega
    split
    case h_3 =>
      simp only [imp_false] at *
      simp [ReservedCell, NamedOnly, BlankCell, NonzeroField, *]
    all_goals
      rename_i rs
      simp +contextual [encode, encR_eq_iff, op, rs, ReservedCell, NamedOnly, BlankCell, NonzeroField]

theorem decodeCop1_answers (op : opF w = 0x11#6) : Answers w (decodeCop1 w) := by
  unfold decodeCop1
  dsimp only
  split_ifs with fpu
  · have fpu : 16 ≤ (rsF w).toNat := fpu
    have notBlank : (rsF w).toNat ∉ [1, 5, 9, 10, 11, 12, 13, 14, 15] ∧ (rsF w).toNat ≠ 8 := by
      simp only [List.mem_cons, List.not_mem_nil, or_false]
      omega
    have notMove : rsF w ∉ [0#5, 2#5, 4#5, 6#5] := by
      simp only [List.mem_cons, List.not_mem_nil, or_false]
      bv_omega
    simp [op, fpu, notBlank, notMove, ReservedCell, NamedOnly, BlankCell, NonzeroField]
  · split
    case h_8 =>
      simp only [imp_false] at *
      have cell : (rsF w).toNat ∈ [1, 5, 9, 10, 11, 12, 13, 14, 15] := by
        simp only [List.mem_cons, List.not_mem_nil, or_false]
        bv_omega
      have notNamed : ¬ ((rsF w).toNat = 3 ∨ (rsF w).toNat = 7 ∨ 16 ≤ (rsF w).toNat) := by bv_omega
      simp [ReservedCell, NamedOnly, BlankCell, NonzeroField, *]
    case h_7 rs =>
      split
      case h_5 =>
        simp only [imp_false] at *
        have cell : 3 < (rtF w).toNat := by bv_omega
        simp [op, rs, cell, ReservedCell, NamedOnly, BlankCell, NonzeroField]
      all_goals
        rename_i rt
        simp [encode, encI_eq_iff, op, rs, rt, ReservedCell, NamedOnly, BlankCell, NonzeroField]
    all_goals
      rename_i rs
      simp +contextual [encode, encR_eq_iff, op, rs, ReservedCell, NamedOnly, BlankCell, NonzeroField]

theorem decodeSpecial3_answers (op : opF w = 0x1f#6) : Answers w (decodeSpecial3 w) := by
  unfold decodeSpecial3
  split
  case h_4 =>
    simp only [imp_false] at *
    simp [ReservedCell, NamedOnly, BlankCell, NonzeroField, *]
  case h_3 func =>
    split_ifs with rs
    · split
      case h_6 =>
        simp only [imp_false] at *
        have cell : (saF w).toNat ∉ [2, 3, 16, 20, 24] := by
          simp only [List.mem_cons, List.not_mem_nil, or_false]
          bv_omega
        simp [op, func, cell, ReservedCell, NamedOnly, BlankCell, NonzeroField]
      all_goals
        rename_i sa
        simp [encode, encR_eq_iff, op, func, rs, sa, ReservedCell, NamedOnly, BlankCell, NonzeroField]
    · simp [op, func, rs, ReservedCell, NamedOnly, BlankCell, NonzeroField]
  all_goals
    rename_i func
    simp [encode, encR_eq_iff, op, func, ReservedCell, NamedOnly, BlankCell, NonzeroField]

theorem decodeCache_answers (op : opF w = 0x2f#6) : Answers w (decodeCache w) := by
  unfold decodeCache
  split
  case h_15 =>
    simp only [imp_false] at *
    have cell : (rtF w).toNat ∈ [0, 1, 2, 3, 5, 7, 9, 12, 13, 14, 15, 16, 17, 18, 19, 21, 23, 29] := by
      simp only [List.mem_cons, List.not_mem_nil, or_false]
      bv_omega
    simp [op, cell, ReservedCell, NamedOnly, BlankCell, NonzeroField]
  all_goals
    rename_i cfunc
    simp [encode, encI_eq_iff, op, cfunc, ReservedCell, NamedOnly, BlankCell, NonzeroField]

end

/-- The decoder answers every word as the spec has it (R85): by the tables, and opcode by opcode beside them. -/
theorem decode_answers (w : Word) : Answers w (decode w) := by
  unfold decode
  dsimp only
  split
  case h_1 op => exact decodeSpecial_answers op
  case h_2 op => exact decodeRegimm_answers op
  case h_17 op => exact decodeCop0_answers op
  case h_18 op => exact decodeCop1_answers op
  case h_23 op => exact decodeSpecial3_answers op
  case h_36 op => exact decodeCache_answers op
  case h_49 =>
    simp only [imp_false] at *
    have cell : NamedOnly w := by
      left
      simp only [List.mem_cons, List.not_mem_nil, or_false]
      bv_omega
    simp [ReservedCell, BlankCell, NonzeroField, *]
  all_goals
    rename_i op
    simp [encode, encI_eq_iff, encJ_eq_iff, op, ReservedCell, NamedOnly, BlankCell, NonzeroField]

/-! ### The round trips, and what a step does with the other words -/

/-- Settles O1, by the decoder reading back what the encoder writes. -/
theorem decodeOfEncode : Obligations.DecodeOfEncode := decode_encode

/-- Settles O2, by what the right answer for a word is. -/
theorem encodeOfDecode : Obligations.EncodeOfDecode := fun w => (decode_answers w).word

/-- A step whose fetch meets no exception and whose word is no instruction. -/
theorem step_of_reject {s : State} {r : DecodeReject} (ok : FetchOK s.drainSome)
    (word : decode s.drainSome.fetchedWord = .reject r) : step s = s.drainSome.fetched.runRejected r := by
  obtain ⟨running, aligned, m, mode, permitted, noBusError⟩ := ok
  rw [s.drainSome_halted] at running
  rw [step_of_not_halted running, State.fetchChecked_ok aligned mode permitted noBusError, word]
  rfl

theorem step_of_cell {s : State} {r : DecodeReject} (ok : FetchOK s.drainSome) (cell : Cell r s.drainSome.fetchedWord) :
    step s = s.drainSome.fetched.runRejected r :=
  step_of_reject ok (((decode_answers _).cell r).mpr cell)

/-- Settles O4: the decoder's answer names the cell of the word, and the step goes by that answer. -/
theorem rejectedWords : Obligations.RejectedWords := by
  refine ⟨fun w => ?_, fun s ok => ⟨fun cell => ⟨?_, rfl⟩, fun cell => ?_, fun cell => ?_, fun cell => ?_⟩⟩
  · exact (answers_iff.mp (decode_answers w)).2
  · exact step_of_cell (r := .reserved) ok cell
  · exact step_of_cell (r := .namedOnly) ok cell
  · exact step_of_cell (r := .blankCell) ok cell
  · exact step_of_cell (r := .nonzeroField) ok cell

end Sys2Proof
end

section
/-! ## The spec's examples (R93)

A word is decoded to an instruction once the encoder is seen to write it for that instruction. -/

namespace Sys2Proof

theorem decode_of_encode_eq {i : Instr} {w : Word} (word : encode i = w) (notNop : i.isSpelledNop = false) :
    decode w = .instr i :=
  word ▸ decode_encode i notNop

/-- Settles O3: each word is the one that the encoder writes for its instruction. -/
theorem exampleWordsDecode : Obligations.ExampleWordsDecode := by
  refine ⟨?_, ?_, ?_, ?_, ?_, ?_, ?_, ?_, ?_, ?_, ?_⟩ <;> exact decode_of_encode_eq rfl rfl

end Sys2Proof
end

section
/-! ## Arithmetic, logic and comparisons (R111 to R129)

Each of these instructions writes one register (`State.finish_writes`), and the three that can trap write it where their exact
result has 32 bits; what is left is to say what the word written is as a number. -/

namespace Sys2Proof.Machine

open Sys2Proof.Laws

/-! ### Immediates as numbers (R84) -/

theorem toInt_signedImm (imm : BitVec 16) : (signedImm imm).toInt = imm.toInt :=
  BitVec.toInt_signExtend_of_le (by decide)

theorem toNat_signedImm (imm : BitVec 16) :
    (signedImm imm).toNat = if imm.toNat < 32768 then imm.toNat else imm.toNat + 4294901760 := by
  have value := toInt_signedImm imm
  rw [BitVec.toInt_eq_toNat_cond, BitVec.toInt_eq_toNat_cond] at value
  have bound := imm.isLt
  have bound' := (signedImm imm).isLt
  split <;> omega

theorem zeroImm_eq (imm : BitVec 16) : zeroImm imm = BitVec.ofNat 32 imm.toNat := (BitVec.ofNat_toNat ..).symm

theorem upperImm_eq (imm : BitVec 16) : upperImm imm = BitVec.ofNat 32 (imm.toNat * 65536) := by
  have whole : (upperImm imm).toNat = imm.toNat * 65536 := (append_toNat imm 0#16).trans (Nat.add_zero _)
  rw [← whole, BitVec.ofNat_toNat, BitVec.setWidth_eq]

/-! ### Sums and differences -/

theorem add_eq_ofInt (x y : Word) : x + y = BitVec.ofInt 32 (x.toInt + y.toInt) := by
  rw [BitVec.ofInt_add, BitVec.ofInt_toInt, BitVec.ofInt_toInt]

theorem sub_eq_ofInt (x y : Word) : x - y = BitVec.ofInt 32 (x.toInt - y.toInt) := by
  apply BitVec.eq_of_toInt_eq
  rw [BitVec.toInt_sub, BitVec.toInt_ofInt]

/-- 33 bits hold the sum of two words exactly. -/
theorem toInt_sum33 (x y : Word) : (sum33 x y).toInt = x.toInt + y.toInt := by
  have hx := x.le_toInt
  have hy := y.le_toInt
  have hx' := x.toInt_lt
  have hy' := y.toInt_lt
  rw [sum33, BitVec.toInt_add, BitVec.toInt_signExtend_of_le (by decide), BitVec.toInt_signExtend_of_le (by decide)]
  exact Int.bmod_eq_of_le (by omega) (by omega)

theorem toInt_diff33 (x y : Word) : (diff33 x y).toInt = x.toInt - y.toInt := by
  have hx := x.le_toInt
  have hy := y.le_toInt
  have hx' := x.toInt_lt
  have hy' := y.toInt_lt
  rw [diff33, BitVec.toInt_sub, BitVec.toInt_signExtend_of_le (by decide), BitVec.toInt_signExtend_of_le (by decide)]
  exact Int.bmod_eq_of_le (by omega) (by omega)

/-- Bits 32 and 31 agree exactly where the number is one of 32 bits (R331). -/
theorem overflows_iff (t : BitVec 33) : overflows t = true ↔ ¬ (-2147483648 ≤ t.toInt ∧ t.toInt ≤ 2147483647) := by
  have bound := t.isLt
  rw [overflows, bne_iff_ne, BitVec.getLsbD, BitVec.getLsbD, Nat.testBit_eq_decide_div_mod_eq, Nat.testBit_eq_decide_div_mod_eq,
    ne_eq, decide_eq_decide, BitVec.toInt_eq_toNat_cond]
  omega

/-- How `add`, `addi` and `sub` end on their 33-bit result. -/
def State.finishExact (s : State) (r : Reg) (t : BitVec 33) : Result :=
  if overflows t then raise .integerOverflow s else s.finish r (t.setWidth 32)

theorem exec_add (rd rs rt : Reg) (s : State) : exec (.add rd rs rt) s = s.finishExact rd (sum33 (s.x rs) (s.x rt)) := rfl

theorem exec_addi (rt rs : Reg) (imm : BitVec 16) (s : State) :
    exec (.addi rt rs imm) s = s.finishExact rt (sum33 (s.x rs) (signedImm imm)) := rfl

theorem exec_sub (rd rs rt : Reg) (s : State) : exec (.sub rd rs rt) s = s.finishExact rd (diff33 (s.x rs) (s.x rt)) := rfl

/-- The exact result `n` is written where it has 32 bits, and IntegerOverflow is taken where it has not. -/
theorem State.finishExact_spec (s : State) (r : Reg) {t : BitVec 33} {n : Int} (value : t.toInt = n) :
    (-2147483648 ≤ n ∧ n ≤ 2147483647 → ∃ u, s.finishExact r t = .next u ∧ Writes s u r (BitVec.ofInt 32 n)) ∧
    (¬ (-2147483648 ≤ n ∧ n ≤ 2147483647) → ∃ u, s.finishExact r t = .next u ∧ Takes s u .integerOverflow) := by
  subst value
  refine ⟨fun fits => ?_, fun large => ⟨_, if_pos ((overflows_iff t).mpr large), rfl⟩⟩
  have low : t.setWidth 32 = BitVec.ofInt 32 t.toInt := (BitVec.signExtend_eq_setWidth_of_le t (by decide)).symm
  rw [State.finishExact, if_neg (fun h => (overflows_iff t).mp h fits), low]
  exact s.finish_writes r _

/-- Settles O10: each ends on its exact result. -/
theorem addSubTrapOnOverflow : Obligations.AddSubTrapOnOverflow := by
  intro rd rs rt imm s
  refine ⟨?_, ?_, ?_, ?_⟩
  · exact .cons (hasRow_of_statement (TableRow.add rd rs rt)) <| .cons (hasRow_of_statement (TableRow.addi rt rs imm)) <|
      .cons (hasRow_of_statement (TableRow.sub rd rs rt)) .nil
  · rw [exec_add]
    exact s.finishExact_spec rd (toInt_sum33 _ _)
  · rw [exec_addi]
    exact s.finishExact_spec rt ((toInt_sum33 _ _).trans (by rw [toInt_signedImm]))
  · rw [exec_sub]
    exact s.finishExact_spec rd (toInt_diff33 _ _)

/-! ### The instructions that never trap -/

/-- `State.finish_writes`, with the word written under another name. -/
theorem State.finish_writes_of_eq (s : State) (r : Reg) {v v' : Word} (h : v = v') :
    ∃ t, s.finish r v = .next t ∧ Writes s t r v' :=
  h ▸ s.finish_writes r v

/-- Settles O11, instruction by instruction. -/
theorem arithLogic : Obligations.ArithLogic := by
  intro rd rs rt imm s
  refine ⟨⟨hasRow_of_statement (TableRow.addiu rt rs imm), ?addiu⟩, ⟨hasRow_of_statement (TableRow.addu rd rs rt), ?addu⟩,
    ⟨hasRow_of_statement (TableRow.subu rd rs rt), ?subu⟩, ⟨hasRow_of_statement (TableRow.and rd rs rt), ?and⟩,
    ⟨hasRow_of_statement (TableRow.or rd rs rt), ?or⟩, ⟨hasRow_of_statement (TableRow.xor rd rs rt), ?xor⟩,
    ⟨hasRow_of_statement (TableRow.nor rd rs rt), ?nor⟩, ⟨hasRow_of_statement (TableRow.andi rt rs imm), ?andi⟩,
    ⟨hasRow_of_statement (TableRow.ori rt rs imm), ?ori⟩, ⟨hasRow_of_statement (TableRow.xori rt rs imm), ?xori⟩,
    ⟨hasRow_of_statement (TableRow.lui rt imm), ?lui⟩, ⟨hasRow_of_statement TableRow.nop, ?nop⟩⟩
  case addiu => exact s.finish_writes_of_eq rt (by rw [add_eq_ofInt, toInt_signedImm])
  case addu => exact s.finish_writes_of_eq rd (BitVec.add_def ..)
  case subu => exact s.finish_writes_of_eq rd (sub_eq_ofInt ..)
  case and | or | xor | nor => exact s.finish_writes rd _
  case andi | ori | xori => exact s.finish_writes_of_eq rt (by rw [zeroImm_eq])
  case lui => exact s.finish_writes_of_eq rt (upperImm_eq imm)
  case nop => exact ⟨_, rfl, rfl, fun _ => ⟨rfl, rfl⟩, rfl, rfl, rfl⟩

/-! ### Comparisons -/

theorem boolWord_signedLess (x y : Word) : boolWord (signedLess x y) = if x.toInt < y.toInt then 1#32 else 0#32 := by
  simp [boolWord, signedLess]

theorem boolWord_unsignedLess (x y : Word) : boolWord (unsignedLess x y) = if x.toNat < y.toNat then 1#32 else 0#32 := by
  simp [boolWord, unsignedLess]

/-- Settles O12, instruction by instruction. -/
theorem comparisons : Obligations.Comparisons := by
  intro rd rs rt imm s
  refine ⟨⟨hasRow_of_statement (TableRow.slt rd rs rt), ?slt⟩, ⟨hasRow_of_statement (TableRow.slti rt rs imm), ?slti⟩,
    ⟨hasRow_of_statement (TableRow.sltiu rt rs imm), ?sltiu⟩, ⟨hasRow_of_statement (TableRow.sltu rd rs rt), ?sltu⟩⟩
  case slt => exact s.finish_writes_of_eq rd (boolWord_signedLess ..)
  case slti => exact s.finish_writes_of_eq rt (by rw [boolWord_signedLess, toInt_signedImm])
  case sltiu => exact s.finish_writes_of_eq rt (by rw [boolWord_unsignedLess, toNat_signedImm])
  case sltu => exact s.finish_writes_of_eq rd (boolWord_unsignedLess ..)

end Sys2Proof.Machine
end

section
/-! ## Shifts (R141 to R146)

Each shift writes one register (`State.finish_writes_of_eq`); what is left is to say the shifted word as a product or a quotient by a
power of two, and the amount of a variable shift as a remainder. -/

namespace Sys2Proof.Machine

open Sys2Proof.Laws

theorem shiftLeft_eq_ofNat (x : Word) (n : Nat) : x <<< n = BitVec.ofNat 32 (x.toNat * 2 ^ n) :=
  congrArg (BitVec.ofNat 32) (Nat.shiftLeft_eq ..)

theorem ushiftRight_eq_ofNat (x : Word) (n : Nat) : x >>> n = BitVec.ofNat 32 (x.toNat / 2 ^ n) := by
  rw [← Nat.shiftRight_eq_div_pow, ← BitVec.toNat_ushiftRight, BitVec.ofNat_toNat, BitVec.setWidth_eq]

/-- The division of `Int` by a positive number rounds down, as `sra` does. -/
theorem sshiftRight_eq_ofInt (x : Word) (n : Nat) : x.sshiftRight n = BitVec.ofInt 32 (x.toInt / 2 ^ n) := by
  rw [BitVec.sshiftRight_eq, Int.shiftRight_eq_div_pow, Int.natCast_pow, Int.cast_ofNat_Int]

/-- R140: the amount of a variable shift is the low five bits of its register. -/
theorem shiftAmount_eq_mod (v : Word) : shiftAmount v = v.toNat % 32 := BitVec.extractLsb'_toNat ..

/-- Settles O13, instruction by instruction. -/
theorem shifts : Obligations.Shifts := by
  intro rd rs rt sa s
  refine ⟨⟨hasRow_of_statement (TableRow.sll rd rt sa), ?sll⟩, ⟨hasRow_of_statement (TableRow.srl rd rt sa), ?srl⟩,
    ⟨hasRow_of_statement (TableRow.sra rd rt sa), ?sra⟩, ⟨hasRow_of_statement (TableRow.sllv rd rt rs), ?sllv⟩,
    ⟨hasRow_of_statement (TableRow.srlv rd rt rs), ?srlv⟩, ⟨hasRow_of_statement (TableRow.srav rd rt rs), ?srav⟩⟩
  case sll => exact s.finish_writes_of_eq rd (shiftLeft_eq_ofNat ..)
  case srl => exact s.finish_writes_of_eq rd (ushiftRight_eq_ofNat ..)
  case sra => exact s.finish_writes_of_eq rd (sshiftRight_eq_ofInt ..)
  case sllv => exact s.finish_writes_of_eq rd (by rw [shiftLeft_eq_ofNat, shiftAmount_eq_mod])
  case srlv => exact s.finish_writes_of_eq rd (by rw [ushiftRight_eq_ofNat, shiftAmount_eq_mod])
  case srav => exact s.finish_writes_of_eq rd (by rw [sshiftRight_eq_ofInt, shiftAmount_eq_mod])

end Sys2Proof.Machine
end

section
/-! ## Multiply, divide, HI and LO (R151 to R158)

Each instruction that writes HI and LO does so by `State.setHiLo`, `setHi` or `setLo` and goes on to the next instruction. What is
left is arithmetic: HI:LO is one number, the product fits in its 64 bits, and the quotient and the remainder fit in 32 each. -/

namespace Sys2Proof.Machine

open Sys2Proof.Laws

/-! ### HI and LO as one number (R150) -/

theorem toInt_append_words (hi lo : Word) : (hi ++ lo).toInt = hi.toInt * 4294967296 + lo.toNat := by
  rw [BitVec.toInt_append, if_neg (by decide), Int.mul_comm]
  rfl

theorem toNat_append_words (hi lo : Word) : (hi ++ lo).toNat = hi.toNat * 4294967296 + lo.toNat := append_toNat hi lo

/-- The effect of an instruction that writes HI and LO and goes on to the next. -/
theorem State.seq_writesHiLo (s : State) (hi lo : Word) : WritesHiLo s { s with hi := hi, lo := lo }.seq hi lo :=
  ⟨rfl, rfl, rfl, fun _ => ⟨rfl, rfl⟩, rfl, rfl, rfl⟩

theorem State.setHiLo_append (s : State) (hi lo : Word) : s.setHiLo (hi ++ lo) = { s with hi := hi, lo := lo } := by
  rw [State.setHiLo, BitVec.extractLsb'_append_eq_left, BitVec.extractLsb'_append_eq_right]

theorem State.setHiLo_append_writes (s : State) (hi lo : Word) : WritesHiLo s (s.setHiLo (hi ++ lo)).seq hi lo :=
  s.setHiLo_append hi lo ▸ s.seq_writesHiLo hi lo

/-- A 64-bit value goes to HI and LO whole. -/
theorem State.setHiLo_writes (s : State) (v : DWord) : ∃ hi lo, WritesHiLo s (s.setHiLo v).seq hi lo ∧ hi ++ lo = v :=
  ⟨_, _, s.seq_writesHiLo _ _, s.hiLo_setHiLo v⟩

/-! ### Products (R153, R154) -/

/-- 64 bits hold the product of two signed words exactly. -/
theorem toInt_signedProduct (x y : Word) : (signedProduct x y).toInt = x.toInt * y.toInt := by
  have lower : -2 ^ 62 ≤ x.toInt * y.toInt := BitVec.le_toInt_mul_toInt
  have upper : x.toInt * y.toInt ≤ 2 ^ 62 := BitVec.toInt_mul_toInt_le
  rw [signedProduct, BitVec.toInt_ofInt]
  exact Int.bmod_eq_of_le (by omega) (by omega)

theorem toNat_unsignedProduct (x y : Word) : (unsignedProduct x y).toNat = x.toNat * y.toNat := by
  have fits : x.toNat * y.toNat < 2 ^ 32 * 2 ^ 32 := Nat.mul_lt_mul'' x.isLt y.isLt
  exact Nat.mod_eq_of_lt fits

/-- Settles O19: HI:LO is the product. -/
theorem multiply : Obligations.Multiply := by
  intro rs rt s
  refine ⟨⟨hasRow_of_statement (TableRow.mult rs rt), ?mult⟩, ⟨hasRow_of_statement (TableRow.multu rs rt), ?multu⟩⟩
  case mult =>
    obtain ⟨hi, lo, writes, whole⟩ := s.setHiLo_writes (signedProduct (s.x rs) (s.x rt))
    exact ⟨_, hi, lo, rfl, writes, by rw [← toInt_append_words, whole, toInt_signedProduct]⟩
  case multu =>
    obtain ⟨hi, lo, writes, whole⟩ := s.setHiLo_writes (unsignedProduct (s.x rs) (s.x rt))
    exact ⟨_, hi, lo, rfl, writes, by rw [← toNat_append_words, whole, toNat_unsignedProduct]⟩

/-! ### Quotients and remainders (R151, R152) -/

theorem signedQuotRem_eq (x y : Word) : signedQuotRem x y = x.srem y ++ x.sdiv y := by
  have rem : BitVec.ofInt 32 (x.toInt.tmod y.toInt) = x.srem y := by rw [← BitVec.toInt_srem, BitVec.ofInt_toInt]
  have quot : BitVec.ofInt 32 (x.toInt.tdiv y.toInt) = x.sdiv y :=
    BitVec.eq_of_toInt_eq (by rw [BitVec.toInt_ofInt, BitVec.toInt_sdiv])
  rw [signedQuotRem, rem, quot]

theorem unsignedQuotRem_eq (x y : Word) : unsignedQuotRem x y = x % y ++ x / y := by
  rw [unsignedQuotRem, BitVec.umod_def, BitVec.udiv_def]

theorem divUndefined_iff (x y : Word) :
    divUndefined x y = true ↔ y = 0#32 ∨ (x = 0x80000000#32 ∧ y = 0xFFFFFFFF#32) := by
  simp [divUndefined]

theorem exec_div_of_undefined {rs rt : Reg} {s : State} (h : divUndefined (s.x rs) (s.x rt) = true) :
    exec (.div rs rt) s = .next s.freeHiLo.seq := if_pos h

theorem exec_div_of_defined {rs rt : Reg} {s : State} (h : ¬ divUndefined (s.x rs) (s.x rt) = true) :
    exec (.div rs rt) s = .next (s.setHiLo ((s.x rs).srem (s.x rt) ++ (s.x rs).sdiv (s.x rt))).seq := by
  rw [← signedQuotRem_eq]
  exact if_neg h

theorem exec_divu_of_zero {rs rt : Reg} {s : State} (h : s.x rt = 0#32) : exec (.divu rs rt) s = .next s.freeHiLo.seq := if_pos h

theorem exec_divu_of_ne_zero {rs rt : Reg} {s : State} (h : s.x rt ≠ 0#32) :
    exec (.divu rs rt) s = .next (s.setHiLo (s.x rs % s.x rt ++ s.x rs / s.x rt)).seq := by
  rw [← unsignedQuotRem_eq]
  exact if_neg h

/-- Only the most negative number by -1 has a quotient of more than 32 bits. -/
theorem toInt_sdiv_of_defined {x y : Word} (h : ¬ divUndefined x y = true) : (x.sdiv y).toInt = x.toInt.tdiv y.toInt := by
  rw [divUndefined_iff, not_or, not_and_or] at h
  exact BitVec.toInt_sdiv_of_ne_or_ne x y h.2

theorem natAbs_tmod_lt {y : Int} (h : y ≠ 0) (x : Int) : (x.tmod y).natAbs < y.natAbs := by
  rw [Int.natAbs_tmod]
  exact Nat.mod_lt _ (Int.natAbs_pos.mpr h)

/-- Truncation toward zero gives the remainder the sign of the dividend (log entry 26). -/
theorem tmod_eq_zero_or_neg_iff (x y : Int) : x.tmod y = 0 ∨ (x.tmod y < 0 ↔ x < 0) := by
  by_cases divides : y ∣ x
  · exact .inl (Int.tmod_eq_zero_of_dvd divides)
  · refine .inr ?_
    rw [← Int.sign_eq_neg_one_iff_neg, Int.sign_tmod, if_neg divides, Int.sign_eq_neg_one_iff_neg]

/-- Settles O21: HI and LO receive the library's remainder and quotient of words, whose numbers are those of `tmod` and `tdiv`. -/
theorem divide : Obligations.Divide := by
  intro rs rt s
  refine ⟨?_, fun nonzero notOverflow => ?_, fun nonzero => ?_⟩
  · exact .cons (hasRow_of_statement (TableRow.div rs rt)) <| .cons (hasRow_of_statement (TableRow.divu rs rt)) .nil
  · have stated : ¬ divUndefined (s.x rs) (s.x rt) = true := fun h => ((divUndefined_iff _ _).mp h).elim nonzero notOverflow
    refine ⟨_, _, _, exec_div_of_defined stated, s.setHiLo_append_writes _ _, ?_⟩
    rw [toInt_sdiv_of_defined stated, BitVec.toInt_srem]
    exact ⟨(Int.tdiv_mul_add_tmod _ _).symm, natAbs_tmod_lt (BitVec.toInt_ne.mpr nonzero) _, tmod_eq_zero_or_neg_iff _ _⟩
  · refine ⟨_, _, _, exec_divu_of_ne_zero nonzero, s.setHiLo_append_writes _ _, ?_⟩
    rw [BitVec.toNat_udiv, BitVec.toNat_umod]
    exact ⟨(Nat.div_add_mod' _ _).symm, Nat.mod_lt _ (Nat.pos_of_ne_zero (BitVec.toNat_ne.mp nonzero))⟩

/-- The effect of a division without a stated result. -/
theorem State.freeHiLo_spec (s : State) : ∃ t, (.next s.freeHiLo.seq : Result) = .next t ∧
    t = { s with hi := t.hi, lo := t.lo, free := t.free, pc := t.pc, npc := t.npc, inDs := t.inDs } ∧
    SameMemory s t ∧ Advanced s t :=
  ⟨_, rfl, rfl, fun _ => ⟨rfl, rfl⟩, rfl, rfl, rfl⟩

/-- Settles O22: each is `freeHiLo` on the operands without a stated result. -/
theorem divideOpenResult : Obligations.DivideOpenResult := by
  intro rs rt s
  refine ⟨fun undef => ?_, fun zero => ?_⟩
  · rw [exec_div_of_undefined ((divUndefined_iff _ _).mpr undef)]
    exact s.freeHiLo_spec
  · rw [exec_divu_of_zero zero]
    exact s.freeHiLo_spec

/-! ### Moves (R155 to R158) -/

/-- Settles O23, move by move. -/
theorem hiLoMoves : Obligations.HiLoMoves := by
  intro r s
  refine ⟨?_, s.finish_writes r s.hi, s.finish_writes r s.lo, ⟨hasRow_of_statement (TableRow.mthi r), ?mthi⟩,
    ⟨hasRow_of_statement (TableRow.mtlo r), ?mtlo⟩⟩
  · exact .cons (hasRow_of_statement (TableRow.mfhi r)) <| .cons (hasRow_of_statement (TableRow.mflo r)) .nil
  case mthi => exact ⟨_, rfl, s.seq_writesHiLo (s.x r) s.lo⟩
  case mtlo => exact ⟨_, rfl, s.seq_writesHiLo s.hi (s.x r)⟩

end Sys2Proof.Machine
end

section
/-! ## Branches on the general registers that do not nullify, and the link branches (R165 to R181)

A link branch is its branch from the state in which r31 already holds the link: what the branch leaves alone, the link has
written. -/

namespace Sys2Proof.Machine

open Sys2Proof.Laws

/-! ### Conditional branches -/

/-- Settles O24: each is `branch` on its condition. -/
theorem conditionalBranches : Obligations.ConditionalBranches := by
  intro rs rt offset s
  refine ⟨?_, s.branch_branches beq_iff_eq offset, s.branch_branches bne_iff_ne offset,
    s.branch_branches (atLeastZero_iff _) offset, s.branch_branches (aboveZero_iff _) offset,
    s.branch_branches (atMostZero_iff _) offset, s.branch_branches (belowZero_iff _) offset⟩
  exact .cons (hasRow_of_statement (TableRow.beq rs rt offset)) <| .cons (hasRow_of_statement (TableRow.bne rs rt offset)) <|
    .cons (hasRow_of_statement (TableRow.bgez rs offset)) <| .cons (hasRow_of_statement (TableRow.bgtz rs offset)) <|
    .cons (hasRow_of_statement (TableRow.blez rs offset)) <| .cons (hasRow_of_statement (TableRow.bltz rs offset)) .nil

/-! ### Link branches -/

/-- What moves only the program counter after the link is written keeps the link. -/
theorem OnlyPc.links {s t : State} {r : Reg} (h : OnlyPc (s.link r) t) : Links s t r := by
  unfold OnlyPc at h
  rw [h]
  exact ⟨s.x_setX_same r _, fun _ hq => s.x_setX_of_ne _ hq, rfl, fun _ => ⟨rfl, rfl⟩⟩

/-- A branch after the link is written; `taken` is its condition, read before. -/
theorem State.link_branch_links (s : State) (r : Reg) {taken : Bool} {p : Prop} [Decidable p] (h : taken = true ↔ p)
    (offset : BitVec 16) : ∃ t, (s.link r).branch taken offset = .next t ∧ Links s t r ∧ t.pc = s.npc ∧ t.inDs = true ∧
      t.npc = if p then targetOf s offset else s.npc + 4#32 := by
  obtain ⟨t, next, onlyPc, -, pc, inDs, onTaken, onNot⟩ := (s.link r).branch_branches h offset
  refine ⟨t, next, onlyPc.links, pc, inDs, ?_⟩
  split
  next hp => exact onTaken hp
  next hp => exact onNot hp

theorem State.link_branchLikely_links (s : State) (r : Reg) {taken : Bool} {p : Prop} (h : taken = true ↔ p)
    (offset : BitVec 16) :
    ∃ t, (s.link r).branchLikely taken offset = .next t ∧ Links s t r ∧ LikelyPc s t p (targetOf s offset) := by
  obtain ⟨t, next, onlyPc, -, likely⟩ := (s.link r).branchLikely_likely h offset
  exact ⟨t, next, onlyPc.links, likely⟩

/-- The link branches where `rs` is not the link register (R380 c). -/
theorem exec_bgezal {rs : Reg} (h : rs ≠ linkReg) (offset : BitVec 16) (s : State) :
    exec (.bgezal rs offset) s = (s.link linkReg).branch (atLeastZero (s.x rs)) offset := if_neg h

theorem exec_bltzal {rs : Reg} (h : rs ≠ linkReg) (offset : BitVec 16) (s : State) :
    exec (.bltzal rs offset) s = (s.link linkReg).branch (belowZero (s.x rs)) offset := if_neg h

theorem exec_bgezall {rs : Reg} (h : rs ≠ linkReg) (offset : BitVec 16) (s : State) :
    exec (.bgezall rs offset) s = (s.link linkReg).branchLikely (atLeastZero (s.x rs)) offset := if_neg h

theorem exec_bltzall {rs : Reg} (h : rs ≠ linkReg) (offset : BitVec 16) (s : State) :
    exec (.bltzall rs offset) s = (s.link linkReg).branchLikely (belowZero (s.x rs)) offset := if_neg h

/-- Settles O26: each is the branch, likely or not, from the state with the link; `rs` = 31 is the test they begin with. -/
theorem linkBranches : Obligations.LinkBranches := by
  intro rs offset s
  refine ⟨?_, fun h => ?_, fun h => ?_, fun h => ?_, fun h => ?_, fun h => ⟨if_pos h, if_pos h, if_pos h, if_pos h⟩⟩
  · exact .cons (hasRow_of_statement (TableRow.bgezal rs offset)) <| .cons (hasRow_of_statement (TableRow.bltzal rs offset)) <|
      .cons (hasRow_of_statement (TableRow.bgezall rs offset)) <|
      .cons (hasRow_of_statement (TableRow.bltzall rs offset)) .nil
  · rw [exec_bgezal h]
    exact s.link_branch_links linkReg (atLeastZero_iff _) offset
  · rw [exec_bltzal h]
    exact s.link_branch_links linkReg (belowZero_iff _) offset
  · rw [exec_bgezall h]
    exact s.link_branchLikely_links linkReg (atLeastZero_iff _) offset
  · rw [exec_bltzall h]
    exact s.link_branchLikely_links linkReg (belowZero_iff _) offset

end Sys2Proof.Machine
end

section
/-! ## Two unaligned accesses that together are one (R207, R212)

With `d` for how many bytes of the word at A lie below the aligned word that holds its last byte, the access at A reaches at
least the first `d` bytes, and the access at A + 3 is of the others; where they overlap both are of the same bytes. -/

namespace Sys2Proof.Machine

/-! ### From the first access to the second -/

theorem SameMemory.trans {s t u : State} (first : SameMemory s t) (second : SameMemory t u) : SameMemory s u :=
  fun b => ⟨(second b).1.trans (first b).1, (second b).2.trans (first b).2⟩

theorem State.effAddr_congr {s t : State} {base : Reg} (same : t.x base = s.x base) (offset : BitVec 16) :
    t.effAddr base offset = s.effAddr base offset := congrArg (· + signedImm offset) same

theorem toNat_add_three {a : Word} (top : a.toNat + 3 < 4294967296) : (a + 3#32).toNat = a.toNat + 3 :=
  BitVec.toNat_add_of_lt top

theorem Stores.x_eq {s t : State} {a : Nat} {bytes : List Byte} (h : Stores s t a bytes) (r : Reg) : t.x r = s.x r := by
  obtain ⟨-, -, frame, -, -⟩ := h
  rw [frame]
  rfl

/-- A load leaves the caches and memory in agreement, whether it completes or raises. -/
theorem State.Coherent.of_load {s t : State} (coh : s.Coherent) {a : Word} {n : Nat} {rt : Reg} {v : Word}
    (h : s.load a n (fun t => t.setX rt v) = .next t) : t.Coherent := by
  rcases State.load_next h with rfl | ⟨e, rfl⟩
  · exact (State.touchD_spec coh _).1.congr rfl rfl rfl rfl rfl
  · exact coh.congr rfl rfl rfl rfl rfl

/-- A store leaves the caches and memory in agreement, whether it completes or raises. -/
theorem State.Coherent.of_store {s t : State} (coh : s.Coherent) {a first : Word} {n : Nat} {bytes : List Byte}
    (h : s.store a n first bytes = .next t) : t.Coherent := by
  rcases State.store_next h with rfl | ⟨e, rfl⟩
  · exact (State.storeBytes_spec coh _).1.congr rfl rfl rfl rfl rfl
  · exact coh.congr rfl rfl rfl rfl rfl

/-! ### Loads -/

/-- Settles O30: the bytes from `d` up are those that `lwl` loads, which reads memory as it was; the others are kept from `lwr`. -/
theorem unalignedWordLoadPair : Obligations.UnalignedWordLoadPair := by
  intro rt base o1 o2 s t u coh rt_ne_base rt_ne_zero top next okRight okLeft lwr lwl
  obtain ⟨_, right, eRight, ⟨rtRight, othersRight, -, -, memoryRight, -⟩, bytesRight⟩ :=
    ((unalignedLoads rt base o1 s).2 coh okRight).2
  cases eRight.symm.trans lwr
  rw [← State.effAddr_congr (othersRight base rt_ne_base.symm) o2] at next okLeft
  obtain ⟨_, left, eLeft, ⟨rtLeft, othersLeft, -, -, memoryLeft, -⟩, bytesLeft⟩ :=
    ((unalignedLoads rt base o2 t).2 (coh.of_load lwr) okLeft).1
  cases eLeft.symm.trans lwl
  rw [if_neg rt_ne_zero] at rtRight rtLeft
  rw [next, toNat_add_three top, rtRight] at bytesLeft
  refine ⟨fun i hi => ?_, fun q hq => (othersLeft q hq).trans (othersRight q hq), memoryRight.trans memoryLeft⟩
  rw [rtLeft, bytesLeft i hi]
  split
  next loaded =>
    rw [(memoryRight _).1]
    exact congrArg s.dataByte (by omega)
  next kept => rw [bytesRight i hi, if_pos (by omega)]

/-! ### Stores -/

/-- A second store of the bytes `f d`, `f (d + 1)`, .. that begins within the first or just after it, and does not end before it,
makes the two one store. -/
theorem Stored.extend {s t u : State} {a m d n : Nat} {f : Nat → Byte} (first : Stored s t a ((List.range m).map f))
    (second : Stored t u (a + d) ((List.range n).map fun i => f (d + i))) (begins : d ≤ m) (ends : m ≤ d + n) :
    Stored s u a ((List.range (d + n)).map f) := by
  obtain ⟨bytesFirst, othersFirst⟩ := first
  obtain ⟨bytesSecond, othersSecond⟩ := second
  simp only [List.length_map, List.length_range] at bytesFirst othersFirst bytesSecond othersSecond
  refine ⟨fun i hi => ?_, fun b hb => ?_⟩
  · rw [List.length_map, List.length_range] at hi
    rcases Nat.lt_or_ge i d with below | above
    · rw [othersSecond _ (by omega), bytesFirst i (by omega)]
      simp [show i < m by omega, hi]
    · obtain ⟨j, rfl⟩ := Nat.exists_eq_add_of_le above
      rw [← Nat.add_assoc, bytesSecond j (by omega)]
      simp [show j < n by omega]
  · rw [List.length_map, List.length_range] at hb
    rw [othersSecond b (by omega), othersFirst b (by omega)]

/-- Settles O33: `swr` stores at least the first `d` bytes of the register, and `swl` extends them to four. -/
theorem unalignedWordStorePair : Obligations.UnalignedWordStorePair := by
  intro rt base o1 o2 s t u coh top next okRight okLeft swr swl
  obtain ⟨_, eRight, storesRight⟩ := ((unalignedStores rt base o1 s).2 coh okRight).2
  cases eRight.symm.trans swr
  rw [← State.effAddr_congr (storesRight.x_eq base) o2] at next okLeft
  obtain ⟨_, eLeft, ⟨storedLeft, -⟩⟩ := ((unalignedStores rt base o2 t).2 (coh.of_store swr) okLeft).1
  cases eLeft.symm.trans swl
  rw [next, toNat_add_three top, storesRight.x_eq rt] at storedLeft
  obtain ⟨d, hd⟩ : ∃ d, d = 3 - ((s.effAddr base o1).toNat + 3) % 4 := ⟨_, rfl⟩
  obtain ⟨storedRight, -⟩ := storesRight
  have start : (s.effAddr base o1).toNat + 3 - ((s.effAddr base o1).toNat + 3) % 4 = (s.effAddr base o1).toNat + d := by omega
  have count : ((s.effAddr base o1).toNat + 3) % 4 + 1 = 4 - d := by omega
  rw [start, count, ← hd] at storedLeft
  have both := storedRight.extend storedLeft (by omega) (by omega)
  rwa [show d + (4 - d) = 4 by omega] at both

end Sys2Proof.Machine
end

section
/-! ## Exceptions, and what changes the CP0 registers (R225 to R227, R240, R336, R341, R355, R357)

Every coprocessor instruction begins with the check of its coprocessor. Of the effects of instructions only `mtc0`'s writes CP0
registers, and of the sequels only `eret`'s and the entry into a handler; `mtc0` and `eret` have passed that check. -/

namespace Sys2Proof.Machine

open Sys2Proof.Laws

/-! ### What the checks and the entry into a handler look at -/

theorem State.cp0_congr {s u : State} (cp0Regs : u.cp0Regs = s.cp0Regs) : u.cp0 = s.cp0 :=
  funext fun q => congrArg (·.get (regIdx q)) cp0Regs

theorem State.cp0Regs_ext {s u : State} (h : ∀ q, u.cp0 q = s.cp0 q) : u.cp0Regs = s.cp0Regs :=
  Vector.ext fun i hi => h (.ofFin ⟨i, hi⟩)

theorem State.exl_congr {s u : State} (cp0Regs : u.cp0Regs = s.cp0Regs) : u.exl = s.exl := by
  rw [State.exl, State.exl, State.cp0_congr cp0Regs]

theorem State.mode_congr {s u : State} (cp0Regs : u.cp0Regs = s.cp0Regs) : u.mode = s.mode := by
  have erl : u.erl = s.erl := by rw [State.erl, State.erl, State.cp0_congr cp0Regs]
  have ksu : u.ksu = s.ksu := by rw [State.ksu, State.ksu, State.cp0_congr cp0Regs]
  rw [State.mode, State.mode, State.exl_congr cp0Regs, erl, ksu]

theorem State.cop0Usable_congr {s u : State} (cp0Regs : u.cp0Regs = s.cp0Regs) (platform : u.platform = s.platform) :
    u.cop0Usable = s.cop0Usable := by
  have cu0 : u.cu0 = s.cu0 := by rw [State.cu0, State.cu0, State.cp0_congr cp0Regs]
  rw [State.cop0Usable, State.cop0Usable, platform, cu0, State.mode_congr cp0Regs]

/-- The entry into a handler looks at the CP0 registers, the place of the instruction and the handlers, and at nothing else. -/
theorem State.trapCp0_cp0Regs_congr {s u : State} (cp0Regs : u.cp0Regs = s.cp0Regs) (pc : u.pc = s.pc)
    (inDs : u.inDs = s.inDs) (platform : u.platform = s.platform) (e : Exc) :
    (u.trapCp0 e).cp0Regs = (s.trapCp0 e).cp0Regs := by
  have cp0 : u.cp0 = s.cp0 := State.cp0_congr cp0Regs
  have exl : u.exl = s.exl := State.exl_congr cp0Regs
  have cause : u.causeAfter e = s.causeAfter e := by
    unfold State.causeAfter State.excCode
    rw [cp0, exl, inDs, platform]
  have restart : u.restartAddress = s.restartAddress := by rw [State.restartAddress, State.restartAddress, pc, inDs]
  refine State.cp0Regs_ext fun q => ?_
  rw [State.trapCp0_cp0, State.trapCp0_cp0, cp0, exl, cause, restart]

/-! ### The CP0 registers of every instruction -/

section
variable {i : Instr} {s u t : State}

theorem Effect.pc_eq (h : Effect i s u) : u.pc = s.pc := by cases h <;> simp

theorem Effect.inDs_eq (h : Effect i s u) : u.inDs = s.inDs := by cases h <;> simp

theorem Effect.cp0Regs_eq (h : Effect i s u) : u.cp0Regs = s.cp0Regs ∨ ((∃ rt rd, i = .mtc0 rt rd) ∧ Cop0OK s) := by
  cases h with
  | setCp0 rt rd usable => exact .inr ⟨⟨rt, rd, rfl⟩, usable⟩
  | _ => exact .inl (by simp)

theorem Sequel.cp0Regs_eq (h : Sequel i u t) :
    t.cp0Regs = u.cp0Regs ∨ (∃ e, t.cp0Regs = (u.trapCp0 e).cp0Regs) ∨ (i = .eret ∧ Cop0OK u) := by
  cases h with
  | trapEntry e => exact .inr (.inl ⟨e, rfl⟩)
  | eretReturn usable => exact .inr (.inr ⟨rfl, usable⟩)
  | _ => exact .inl rfl

/-- What can have changed the CP0 registers, with the check that `mtc0` and `eret` have passed. -/
theorem exec_cp0Regs (h : exec i s = .next t) :
    (t.cp0Regs = s.cp0Regs ∨ ∃ e, t.cp0Regs = (s.trapCp0 e).cp0Regs) ∨
      (((∃ rt rd, i = .mtc0 rt rd) ∨ i = .eret) ∧ Cop0OK s) := by
  obtain ⟨u, effect, sequel⟩ := exec_next h
  rcases effect.cp0Regs_eq with same | ⟨mtc0, usable⟩
  · rcases sequel.cp0Regs_eq with kept | ⟨e, trapped⟩ | ⟨eret, usable⟩
    · exact .inl (.inl (kept.trans same))
    · exact .inl (.inr ⟨e, trapped.trans (State.trapCp0_cp0Regs_congr same effect.pc_eq effect.inDs_eq effect.platform_eq e)⟩)
    · exact .inr ⟨.inr eret, (State.cop0Usable_congr same effect.platform_eq).symm.trans usable⟩
  · exact .inr ⟨.inl mtc0, usable⟩

end

/-- Settles O43, by which effect and which sequel writes the CP0 registers. -/
theorem cp0ChangesOnlyAsStated : Obligations.Cp0ChangesOnlyAsStated := by
  intro i s t h
  rcases exec_cp0Regs h with (same | trapped) | ⟨writer, usable⟩
  · exact ⟨.inl same, fun _ => .inl same⟩
  · exact ⟨.inr (.inl trapped), fun _ => .inr trapped⟩
  · exact ⟨.inr (.inr writer), fun unusable => absurd usable unusable⟩

/-! ### The coprocessor checks (R225, R240, R355) -/

/-- Each instruction of coprocessor 0 begins with the check of R225. -/
theorem exec_eq_withCop0 {i : Instr} (h : usesCop0 i = true) (s : State) : ∃ k, exec i s = s.withCop0 k := by
  cases i
  case mfc0 | mtc0 | eret => exact ⟨_, rfl⟩
  all_goals cases h

/-- Each instruction of coprocessor 1 begins with the check of R240; `cfc1` and `ctc1` once their fields are permitted (R380). -/
theorem exec_eq_withCop1 {i : Instr} (h : usesCop1 i = true) (fields : i.brokenByFields = none) (s : State) :
    ∃ k, exec i s = s.withCop1 k := by
  cases i
  case bc1f | bc1fl | bc1t | bc1tl | lwc1 | mfc1 | mtc1 | swc1 => exact ⟨_, rfl⟩
  case cfc1 rt fs =>
    obtain rfl | rfl : fs = 0#5 ∨ fs = 31#5 := by
      simpa [Instr.brokenByFields, or_iff_not_imp_left] using fields
    · exact ⟨_, rfl⟩
    · exact ⟨_, rfl⟩
  case ctc1 rt fs =>
    obtain rfl : fs = 31#5 := by simpa [Instr.brokenByFields] using fields
    exact ⟨_, rfl⟩
  all_goals cases h

theorem State.withCop_of_unusable (s : State) (z : BitVec 2) {usable : Option Bool} (h : usable = some false) (k : Result) :
    ∃ t, s.withCop z usable k = .next t ∧ Takes s t (.coprocessorUnusable z) := by
  subst h
  exact ⟨_, rfl, rfl⟩

theorem State.withCop_of_none (s : State) (z : BitVec 2) {usable : Option Bool} (h : usable = none) (k : Result) :
    s.withCop z usable k = .refused .reservedMode := by
  subst h
  rfl

/-! ### The modes, and usability by default (R355) -/

section
variable {s : State}

theorem State.mode_eq_kernel (h : s.exl = true ∨ s.erl = true ∨ s.ksu = 0#2) : s.mode = some .kernel := by
  unfold State.mode
  rcases h with h | h | h <;> simp [h]

theorem State.mode_eq_supervisor (exl : s.exl = false) (erl : s.erl = false) (ksu : s.ksu = 1#2) :
    s.mode = some .supervisor := by
  simp [State.mode, exl, erl, ksu]

theorem State.mode_eq_user (exl : s.exl = false) (erl : s.erl = false) (ksu : s.ksu = 2#2) : s.mode = some .user := by
  simp [State.mode, exl, erl, ksu]

/-- The default of coprocessor 0: every mode with CU0, the kernel's without. -/
theorem CopRule.usable_general0 (cu : Bool) (m : Mode) : CopRule.general0.usable cu (some m) = some (cu || m == .kernel) := by
  cases cu <;> cases m <;> rfl

/-- The default of coprocessor 1: the mode has no part in it. -/
theorem CopRule.usable_general1 (cu : Bool) (mode : Option Mode) : CopRule.general1.usable cu mode = some cu := by
  cases cu <;> rfl

theorem State.cop0Usable_general0 (general : s.platform.cop0 = CopRule.general0) {m : Mode} (mode : s.mode = some m) :
    s.cop0Usable = some (s.cu0 || m == .kernel) := by
  rw [State.cop0Usable, general, mode, CopRule.usable_general0]

end

/-- Settles O42: the check that the instruction begins with, then the modes and the defaults one by one. -/
theorem coprocessorUnusable : Obligations.CoprocessorUnusable := by
  intro i s
  refine ⟨fun fields => ⟨fun cop0 unusable => ?_, fun cop0 unknown => ?_, fun cop1 unusable => ?_, fun cop1 unknown => ?_⟩,
    State.mode_eq_kernel, fun exl erl => ⟨State.mode_eq_supervisor exl erl, State.mode_eq_user exl erl⟩,
    ReservedMode.mode_eq_none, fun general => ⟨fun kernel => ?_, ?_, fun reserved => ?_⟩, fun general => ?_⟩
  · obtain ⟨k, check⟩ := exec_eq_withCop0 cop0 s
    exact check ▸ s.withCop_of_unusable 0#2 unusable k
  · obtain ⟨k, check⟩ := exec_eq_withCop0 cop0 s
    exact check.trans (s.withCop_of_none 0#2 unknown k)
  · obtain ⟨k, check⟩ := exec_eq_withCop1 cop1 fields s
    exact check ▸ s.withCop_of_unusable 1#2 unusable k
  · obtain ⟨k, check⟩ := exec_eq_withCop1 cop1 fields s
    exact check.trans (s.withCop_of_none 1#2 unknown k)
  · rw [State.cop0Usable_general0 general kernel, beq_self_eq_true, Bool.or_true]
  · rintro (user | supervisor)
    · exact (State.cop0Usable_general0 general user).trans (congrArg some (Bool.or_false _))
    · exact (State.cop0Usable_general0 general supervisor).trans (congrArg some (Bool.or_false _))
  · rw [State.cop0Usable, general, ReservedMode.mode_eq_none reserved]
    rfl
  · rw [State.cop1Usable, general, CopRule.usable_general1]

/-! ### break and syscall (R226, R227) -/

/-- Settles O36: each raises its exception, whatever the state. -/
theorem breakAndSyscall : Obligations.BreakAndSyscall := by
  intro code s
  refine ⟨?_, ⟨_, raise_eq (.breakpoint code) s, rfl⟩, ⟨_, raise_eq (.systemCall code) s, rfl⟩⟩
  exact .cons (hasRow_of_statement (TableRow.brk code)) <| .cons (hasRow_of_statement (TableRow.syscall code)) .nil

end Sys2Proof.Machine
end

section
/-! ## The ALLEGREX integer extensions (R261 to R279)

Those that write a register do so by `State.finish`; what is left is each bit or byte of the word written. Those that accumulate
write HI:LO whole (`State.setHiLo_writes`); what is left is that 64-bit addition and subtraction are those of the numbers,
modulo 2^64. -/

namespace Sys2Proof.Machine

open Sys2Proof.Laws

/-- `State.finish_writes`, with what is to be said of the word written. -/
theorem State.finish_writes_with (s : State) (r : Reg) {v : Word} {P : Word → Prop} (h : P v) :
    ∃ t w, s.finish r v = .next t ∧ Writes s t r w ∧ P w := by
  obtain ⟨t, next, writes⟩ := s.finish_writes r v
  exact ⟨t, v, next, writes, h⟩

/-! ### Rotates (R276, R277) -/

theorem getLsbD_rotateRight_eq_mod (x : Word) {n i : Nat} (hn : n < 32) (hi : i < 32) :
    (x.rotateRight n).getLsbD i = x.getLsbD ((i + n) % 32) := by
  rw [BitVec.getLsbD_rotateRight_of_lt hn]
  by_cases stays : i < 32 - n
  · have source : (i + n) % 32 = n + i := by omega
    simp [stays, source]
  · have source : (i + n) % 32 = i - (32 - n) := by omega
    simp [stays, source, hi]

/-- Settles O14: both are the library's rotation. -/
theorem rotates : Obligations.Rotates := by
  intro rd rs rt sa s
  refine ⟨⟨hasRow_of_statement (TableRow.rotr rd rt sa), ?rotr⟩, ⟨hasRow_of_statement (TableRow.rotrv rd rt rs), ?rotrv⟩⟩
  case rotr => exact s.finish_writes_with rd fun i hi => getLsbD_rotateRight_eq_mod _ sa.isLt hi
  case rotrv =>
    refine s.finish_writes_with rd fun i hi => ?_
    rw [shiftAmount_eq_mod]
    exact getLsbD_rotateRight_eq_mod _ (Nat.mod_lt _ (by decide)) hi

/-! ### Leading ones and zeros (R261, R262) -/

theorem leadingOnes_succ_of_one {v : Word} {n : Nat} (h : v.getLsbD n = true) :
    leadingOnes v (n + 1) = leadingOnes v n + 1 := by
  rw [leadingOnes, if_pos h, Nat.add_comm]

theorem leadingOnes_succ_of_zero {v : Word} {n : Nat} (h : v.getLsbD n = false) : leadingOnes v (n + 1) = 0 := by
  rw [leadingOnes, h]
  rfl

/-- `n` is how many of the bits `m - 1, m - 2, ..` of `v` are `b` before the first that is not. -/
def LeadingRun (v : Word) (b : Bool) (m n : Nat) : Prop :=
  n ≤ m ∧ (∀ j, j < n → v.getLsbD (m - 1 - j) = b) ∧ (n < m → v.getLsbD (m - 1 - n) = !b)

theorem leadingRun_leadingOnes (v : Word) (m : Nat) : LeadingRun v true m (leadingOnes v m) := by
  induction m with
  | zero => exact ⟨Nat.le_refl 0, nofun, nofun⟩
  | succ m ih =>
    obtain ⟨le, ones, stop⟩ := ih
    cases top : v.getLsbD m with
    | false =>
      rw [leadingOnes_succ_of_zero top]
      exact ⟨Nat.zero_le _, nofun, fun _ => top⟩
    | true =>
      rw [leadingOnes_succ_of_one top]
      refine ⟨Nat.succ_le_succ le, fun j hj => ?_, fun hlt => ?_⟩
      · cases j with
        | zero => exact top
        | succ j =>
          have bit := ones j (Nat.lt_of_succ_lt_succ hj)
          rwa [Nat.sub_sub, Nat.add_comm 1 j] at bit
      · have bit := stop (Nat.lt_of_succ_lt_succ hlt)
        rwa [Nat.sub_sub, Nat.add_comm 1] at bit

theorem getLsbD_eq_not_getLsbD_not (v : Word) {i : Nat} (hi : i < 32) : v.getLsbD i = !(~~~v).getLsbD i := by
  simp [hi]

/-- The leading zeros of a word are the leading ones of its complement. -/
theorem LeadingRun.of_not {v : Word} {b : Bool} {n : Nat} (h : LeadingRun (~~~v) b 32 n) : LeadingRun v (!b) 32 n := by
  obtain ⟨le, run, stop⟩ := h
  refine ⟨le, fun j hj => ?_, fun hlt => ?_⟩
  · rw [getLsbD_eq_not_getLsbD_not v (by omega), run j hj]
  · rw [getLsbD_eq_not_getLsbD_not v (by omega), stop hlt]

/-- Settles O15: `clz` is `clo` of the complement. -/
theorem countLeading : Obligations.CountLeading := by
  intro rd rs s
  refine ⟨⟨hasRow_of_statement (TableRow.clo rd rs), ?clo⟩, ⟨hasRow_of_statement (TableRow.clz rd rs), ?clz⟩⟩
  case clo =>
    obtain ⟨t, next, writes⟩ := s.finish_writes rd (countLeadingOnes (s.x rs))
    exact ⟨t, _, next, writes, leadingRun_leadingOnes (s.x rs) 32⟩
  case clz =>
    obtain ⟨t, next, writes⟩ := s.finish_writes rd (countLeadingZeros (s.x rs))
    exact ⟨t, _, next, writes, (leadingRun_leadingOnes (~~~(s.x rs)) 32).of_not⟩

/-! ### Sign extension, bit reversal and byte swaps (R273, R274, R275, R278, R279) -/

/-- A field of `n` bits at bit 0, sign-extended: its last bit fills the word. -/
theorem getLsbD_signExtend_low (x : Word) {n i : Nat} (hn : 0 < n) (hi : i < 32) :
    ((x.extractLsb' 0 n).signExtend 32).getLsbD i = x.getLsbD (if i < n then i else n - 1) := by
  rw [BitVec.getLsbD_signExtend, BitVec.msb_eq_getLsbD_last, BitVec.getLsbD_extractLsb', BitVec.getLsbD_extractLsb']
  by_cases low : i < n
  · simp [low, hi]
  · simp [low, hi, hn]

theorem getLsbD_bitReverse (x : Word) {i : Nat} (hi : i < 32) : (bitReverse x).getLsbD i = x.getLsbD (31 - i) := by
  rw [bitReverse, BitVec.getLsbD_reverse, BitVec.getMsbD_eq_getLsbD, decide_eq_true hi, Bool.true_and]

theorem swapBytesInHalves_eq (x : Word) :
    swapBytesInHalves x = wordOfBytes (byteOf x 1) (byteOf x 0) (byteOf x 3) (byteOf x 2) := rfl

theorem swapBytesInWord_eq (x : Word) :
    swapBytesInWord x = wordOfBytes (byteOf x 3) (byteOf x 2) (byteOf x 1) (byteOf x 0) := rfl

/-- Settles O16, instruction by instruction. -/
theorem bitAndByteMoves : Obligations.BitAndByteMoves := by
  intro rd rt s
  refine ⟨⟨hasRow_of_statement (TableRow.seb rd rt), ?seb⟩, ⟨hasRow_of_statement (TableRow.seh rd rt), ?seh⟩,
    ⟨hasRow_of_statement (TableRow.bitrev rd rt), ?bitrev⟩, ⟨hasRow_of_statement (TableRow.wsbh rd rt), ?wsbh⟩,
    ⟨hasRow_of_statement (TableRow.wsbw rd rt), ?wsbw⟩⟩
  case seb | seh => exact s.finish_writes_with rd fun i hi => getLsbD_signExtend_low _ (by decide) hi
  case bitrev => exact s.finish_writes_with rd fun i hi => getLsbD_bitReverse _ hi
  case wsbh =>
    refine s.finish_writes_with rd ?_
    rw [swapBytesInHalves_eq]
    exact byteOf_wordOfBytes _ _ _ _
  case wsbw =>
    refine s.finish_writes_with rd ?_
    rw [swapBytesInWord_eq]
    exact byteOf_wordOfBytes _ _ _ _

/-! ### Bit fields (R271, R272) -/

theorem getLsbD_extractField (v : Word) (pos size : Nat) {i : Nat} (hi : i < 32) :
    (extractField v pos size).getLsbD i = (decide (i < size) && v.getLsbD (pos + i)) := by
  rw [extractField, BitVec.getLsbD_setWidth, BitVec.getLsbD_extractLsb', decide_eq_true hi, Bool.true_and]

theorem getLsbD_insertField (old v : Word) (pos size : Nat) {i : Nat} (hi : i < 32) :
    (insertField old v pos size).getLsbD i =
      if pos ≤ i ∧ i < pos + size then v.getLsbD (i - pos) else old.getLsbD i := by
  rw [insertField, getLsbD_setField _ _ _ _ _ hi]
  refine ite_congr rfl (fun inside => ?_) fun _ => rfl
  have low : i - pos < size := by omega
  rw [BitVec.getLsbD_extractLsb', decide_eq_true low, Bool.true_and, Nat.zero_add]

/-- `ext` and `ins` where their fields are as the source requires (R380 h, i). -/
theorem exec_ext {msb lsb : BitVec 5} (h : ¬ 32 < lsb.toNat + (msb.toNat + 1)) (rt rs : Reg) (s : State) :
    exec (.ext rt rs msb lsb) s = s.finish rt (extractField (s.x rs) lsb.toNat (msb.toNat + 1)) := if_neg h

theorem exec_ins {msb lsb : BitVec 5} (h : ¬ msb.toNat < lsb.toNat) (rt rs : Reg) (s : State) :
    exec (.ins rt rs msb lsb) s =
      s.finish rt (insertField (s.x rt) (s.x rs) lsb.toNat (msb.toNat - lsb.toNat + 1)) := if_neg h

/-- Settles O17: each refusal is the test that the instruction begins with. -/
theorem bitFields : Obligations.BitFields := by
  intro rt rs msb lsb s
  refine ⟨hasRow_of_statement (TableRow.ext rt rs msb lsb), fun fits => ?_, fun past => if_pos past,
    hasRow_of_statement (TableRow.ins rt rs msb lsb), fun ordered => ?_, fun empty => if_pos empty⟩
  · rw [exec_ext (Nat.not_lt.mpr fits)]
    exact s.finish_writes_with rt fun i hi => getLsbD_extractField _ _ _ hi
  · rw [exec_ins (Nat.not_lt.mpr ordered)]
    refine s.finish_writes_with rt fun i hi => ?_
    have field : (lsb.toNat ≤ i ∧ i < lsb.toNat + (msb.toNat - lsb.toNat + 1)) ↔ (lsb.toNat ≤ i ∧ i ≤ msb.toNat) := by omega
    exact (getLsbD_insertField _ _ _ _ hi).trans (if_congr field rfl rfl)

/-! ### Maximum, minimum and conditional moves (R267 to R270) -/

theorem select_signedLess_eq_max (x y : Word) :
    (if signedLess x y then y else x) = BitVec.ofInt 32 (max x.toInt y.toInt) := by
  rw [max_def_lt, apply_ite (BitVec.ofInt 32), BitVec.ofInt_toInt, BitVec.ofInt_toInt]
  exact if_congr decide_eq_true_iff rfl rfl

theorem select_signedLess_eq_min (x y : Word) :
    (if signedLess x y then x else y) = BitVec.ofInt 32 (min x.toInt y.toInt) := by
  rw [min_def_lt, apply_ite (BitVec.ofInt 32), BitVec.ofInt_toInt, BitVec.ofInt_toInt]
  exact if_congr decide_eq_true_iff rfl rfl

/-- How `movn` and `movz` end on their condition. -/
def State.finishIf (s : State) (p : Prop) [Decidable p] (r : Reg) (v : Word) : Result :=
  if p then s.finish r v else .next s.seq

theorem exec_movn (rd rs rt : Reg) (s : State) : exec (.movn rd rs rt) s = s.finishIf (s.x rt ≠ 0#32) rd (s.x rs) :=
  (ite_not ..).symm

theorem exec_movz (rd rs rt : Reg) (s : State) : exec (.movz rd rs rt) s = s.finishIf (s.x rt = 0#32) rd (s.x rs) := rfl

/-- The move where its condition holds, and the advance alone where it does not. -/
theorem State.finishIf_spec (s : State) (p : Prop) [Decidable p] (r : Reg) (v : Word) :
    ∃ t, s.finishIf p r v = .next t ∧ (p → Writes s t r v) ∧ (¬ p → OnlyPc s t ∧ SameMemory s t ∧ Advanced s t) := by
  by_cases moves : p
  · obtain ⟨t, next, writes⟩ := s.finish_writes r v
    exact ⟨t, (if_pos moves).trans next, fun _ => writes, absurd moves⟩
  · exact ⟨s.seq, if_neg moves, fun h => absurd h moves, fun _ => ⟨rfl, fun _ => ⟨rfl, rfl⟩, rfl, rfl, rfl⟩⟩

/-- Settles O18, instruction by instruction. -/
theorem selectAndMove : Obligations.SelectAndMove := by
  intro rd rs rt s
  refine ⟨⟨hasRow_of_statement (TableRow.max rd rs rt), ?max⟩, ⟨hasRow_of_statement (TableRow.min rd rs rt), ?min⟩,
    ⟨hasRow_of_statement (TableRow.movn rd rs rt), ?movn⟩, ⟨hasRow_of_statement (TableRow.movz rd rs rt), ?movz⟩⟩
  case max => exact s.finish_writes_of_eq rd (select_signedLess_eq_max _ _)
  case min => exact s.finish_writes_of_eq rd (select_signedLess_eq_min _ _)
  case movn =>
    obtain ⟨t, next, moved, kept⟩ := s.finishIf_spec (s.x rt ≠ 0#32) rd (s.x rs)
    exact ⟨t, (exec_movn rd rs rt s).trans next, moved, fun zero => kept (not_not_intro zero)⟩
  case movz =>
    rw [exec_movz]
    exact s.finishIf_spec (s.x rt = 0#32) rd (s.x rs)

/-! ### Multiply and accumulate (R263 to R266) -/

theorem signedProduct_eq_ofInt (x y : Word) : signedProduct x y = BitVec.ofInt 64 (x.toInt * y.toInt) := rfl

theorem unsignedProduct_eq_ofInt (x y : Word) : unsignedProduct x y = BitVec.ofInt 64 ((x.toNat : Int) * y.toNat) := by
  rw [← Int.natCast_mul, BitVec.ofInt_natCast, unsignedProduct]

/-- 64-bit addition of a number is addition modulo 2^64. -/
theorem toNat_add_ofInt (a : DWord) (n : Int) :
    ((a + BitVec.ofInt 64 n).toNat : Int) = ((a.toNat : Int) + n) % 18446744073709551616 := by
  have sum : a + BitVec.ofInt 64 n = BitVec.ofInt 64 (a.toNat + n) := by
    rw [BitVec.ofInt_add, BitVec.ofInt_natCast, BitVec.ofNat_toNat, BitVec.setWidth_eq]
  rw [sum, BitVec.toNat_ofInt]
  exact Int.toNat_of_nonneg (Int.emod_nonneg _ (by decide))

/-- The effect of an instruction that adds a product, which is the number `n`, to HI:LO. -/
theorem State.setHiLo_add_spec (s : State) {product : DWord} {n : Int} (value : product = BitVec.ofInt 64 n) :
    ∃ t hi lo, (.next (s.setHiLo (s.hiLo + product)).seq : Result) = .next t ∧ WritesHiLo s t hi lo ∧
      ((hi.toNat * 4294967296 + lo.toNat : Nat) : Int) =
        (((s.hi.toNat * 4294967296 + s.lo.toNat : Nat) : Int) + n) % 18446744073709551616 := by
  obtain ⟨hi, lo, writes, whole⟩ := s.setHiLo_writes (s.hiLo + product)
  refine ⟨_, hi, lo, rfl, writes, ?_⟩
  rw [← toNat_append_words, ← toNat_append_words, whole, value]
  exact toNat_add_ofInt s.hiLo n

/-- To take a product from HI:LO is to add its negation. -/
theorem State.setHiLo_sub_spec (s : State) {product : DWord} {n : Int} (value : product = BitVec.ofInt 64 n) :
    ∃ t hi lo, (.next (s.setHiLo (s.hiLo - product)).seq : Result) = .next t ∧ WritesHiLo s t hi lo ∧
      ((hi.toNat * 4294967296 + lo.toNat : Nat) : Int) =
        (((s.hi.toNat * 4294967296 + s.lo.toNat : Nat) : Int) - n) % 18446744073709551616 := by
  rw [BitVec.sub_eq_add_neg, Int.sub_eq_add_neg]
  exact s.setHiLo_add_spec (by rw [value, BitVec.ofInt_neg])

/-- Settles O20: the four differ in the sign and in the product. -/
theorem multiplyAccumulate : Obligations.MultiplyAccumulate := by
  intro rs rt s
  refine ⟨⟨hasRow_of_statement (TableRow.madd rs rt), ?madd⟩, ⟨hasRow_of_statement (TableRow.maddu rs rt), ?maddu⟩,
    ⟨hasRow_of_statement (TableRow.msub rs rt), ?msub⟩, ⟨hasRow_of_statement (TableRow.msubu rs rt), ?msubu⟩⟩
  case madd => exact s.setHiLo_add_spec (signedProduct_eq_ofInt _ _)
  case maddu => exact s.setHiLo_add_spec (unsignedProduct_eq_ofInt _ _)
  case msub => exact s.setHiLo_sub_spec (signedProduct_eq_ofInt _ _)
  case msubu => exact s.setHiLo_sub_spec (unsignedProduct_eq_ofInt _ _)

end Sys2Proof.Machine
end

section
/-! ## The instruction-cache functions, the fills and Create Dirty Exclusive (R292 to R296, R299, R303 to R305)

A fill places the missing line as `State.fillD_fills` and `State.fillI_fills` say, and does nothing on a hit; Create Dirty Exclusive
places a line too, in the way that it hits or else in the one a fill would take (`State.createWay`). -/

namespace Sys2Proof.Machine

open Sys2Proof.Laws

/-! ### What the functions of the instruction cache leave unchanged -/

theorem State.seq_onlyIset (s : State) (a : Nat) : OnlyIset s s.seq a := ⟨rfl, ⟨rfl, rfl, rfl⟩, fun _ _ => rfl⟩

theorem State.putIset_onlyIset (s : State) (a : Nat) (c : CacheSet) : OnlyIset s (s.putIset a c).seq a :=
  ⟨rfl, ⟨rfl, rfl, rfl⟩, fun b hb => (s.iset_putIset a b c).trans (if_neg hb)⟩

/-! ### Fills (R295, R296, R304, R305) -/

section
variable {s : State} {a : Nat} (side : CacheSide) (filled : State)

theorem State.fillOp_hit {hit : Bool} (h : hit = true) : s.fillOp a side hit filled = .next s.seq := if_pos h

theorem State.fillOp_miss {hit : Option Way} (h : hit = none) (ok : FillOK s a) :
    s.fillOp a side hit.isSome filled = .next filled.seq := by
  subst h
  exact if_neg (Bool.eq_false_iff.mp ok)

theorem State.fillOp_busErr {hit : Option Way} (h : hit = none) (busError : s.busErr (s.platform.lineOf a) .cacheop = true) :
    ∃ t, s.fillOp a side hit.isSome filled = .next t ∧
      Takes s t (.busError (BitVec.ofNat 32 (s.platform.lineOf a)) .cacheop side) := by
  subst h
  exact ⟨_, if_pos busError, rfl⟩

end

/-- The whole effect of a fill that hits. -/
theorem State.seq_advances (s : State) : OnlyPc s s.seq ∧ SameMemory s s.seq ∧ Advanced s s.seq :=
  ⟨rfl, fun _ => ⟨rfl, rfl⟩, rfl, rfl, rfl⟩

/-- The whole effect of a fill (I) that misses. -/
theorem State.fillI_miss {s : State} {a : Nat} (miss : s.iHit a = none) (k : Bool) :
    OnlyIset s (s.fillI a k).seq a ∧ FillsI s (s.fillI a k).seq a k := by
  have fills := State.fillI_fills miss k
  refine ⟨⟨?_, ?_, fills.2.2⟩, fills⟩
  · rw [State.fillI_eq]; rfl
  · rw [State.fillI_eq]; exact ⟨rfl, rfl, rfl⟩

/-- The whole effect of a fill (D) that misses: no byte that a load or a fetch sees changes. -/
theorem State.fillD_miss {s : State} (coh : s.Coherent) {a : Nat} (miss : s.dHit a = none) (k : Bool) :
    OnlyDset s (s.fillD a k).seq a ∧ SameMemory s (s.fillD a k).seq ∧ FillsD s (s.fillD a k).seq a k := by
  have fills := State.fillD_fills coh miss k
  refine ⟨⟨?_, ?_, fills.2.2.2⟩, fun b => ⟨(State.fillD_spec coh a k).2 b, s.fillD_fetchByte a k b⟩, fills⟩
  · rw [State.fillD_eq]; rfl
  · rw [State.fillD_eq]; exact ⟨rfl, rfl, rfl⟩

/-! ### What each function answers where its address is permitted -/

section
variable {s : State} {base : Reg} {offset : BitVec 16} (ok : CacheOK s (s.effAddr base offset))
include ok

theorem exec_cacheIndexInvalidateI_some {w : Way} {c : CacheSet}
    (select : (s.iset (s.effAddr base offset).toNat).indexSelect = (some w, c)) :
    exec (.cacheIndexInvalidateI base offset) s = .next (s.putIset (s.effAddr base offset).toNat (c.invalidate w)).seq := by
  show execCacheIndexInvalidateI base offset s = _
  rw [execCacheIndexInvalidateI, State.cacheOp_ok ok, select]

theorem exec_cacheIndexInvalidateI_none {c : CacheSet}
    (select : (s.iset (s.effAddr base offset).toNat).indexSelect = (none, c)) :
    exec (.cacheIndexInvalidateI base offset) s = .next s.seq := by
  show execCacheIndexInvalidateI base offset s = _
  rw [execCacheIndexInvalidateI, State.cacheOp_ok ok, select]

theorem exec_cacheIndexUnlockI : exec (.cacheIndexUnlockI base offset) s =
    .next (s.putIset (s.effAddr base offset).toNat { s.iset (s.effAddr base offset).toNat with lock := false }).seq := by
  show execCacheIndexUnlockI base offset s = _
  rw [execCacheIndexUnlockI, State.cacheOp_ok ok]

theorem exec_cacheFillI (k : Bool) : exec (if k then .cacheFillLockI base offset else .cacheFillI base offset) s =
    s.fillOp (s.effAddr base offset).toNat .instruction (s.iHit (s.effAddr base offset).toNat).isSome
      (s.fillI (s.effAddr base offset).toNat k) := by
  refine Eq.trans ?_ (State.cacheOp_ok ok fun a => s.fillOp a .instruction (s.iHit a).isSome (s.fillI a k))
  cases k <;> rfl

theorem exec_cacheFillD (k : Bool) : exec (if k then .cacheFillLockD base offset else .cacheFillD base offset) s =
    s.fillOp (s.effAddr base offset).toNat .data (s.dHit (s.effAddr base offset).toNat).isSome
      (s.fillD (s.effAddr base offset).toNat k) := by
  refine Eq.trans ?_ (State.cacheOp_ok ok fun a => s.fillOp a .data (s.dHit a).isSome (s.fillD a k))
  cases k <;> rfl

theorem exec_cacheCreateDirtyD (k : Bool) :
    exec (if k then .cacheCreateDirtyLockD base offset else .cacheCreateDirtyD base offset) s =
      s.createOp (s.effAddr base offset).toNat k := by
  refine Eq.trans ?_ (State.cacheOp_ok ok fun a => s.createOp a k)
  cases k <;> rfl

end

/-- Settles O50, function by function: what it answers, by what it selects or hits. -/
theorem instructionCacheFunctions : Obligations.InstructionCacheFunctions := by
  intro base offset s a c
  refine ⟨?_, fun ok => ⟨?_, ?_, ?_, fun k => ⟨fun hit => ?_, fun miss fillOK => ?_⟩⟩⟩
  · exact .cons (hasRow_of_statement (TableRow.cacheIndexInvalidateI base offset)) <|
      .cons (hasRow_of_statement (TableRow.cacheIndexUnlockI base offset)) <|
      .cons (hasRow_of_statement (TableRow.cacheHitInvalidateI base offset)) <|
      .cons (hasRow_of_statement (TableRow.cacheFillI base offset)) <|
      .cons (hasRow_of_statement (TableRow.cacheFillLockI base offset)) .nil
  · match select : c.indexSelect with
    | (some w, c') =>
      refine ⟨_, exec_cacheIndexInvalidateI_some ok select, s.putIset_onlyIset a _, (State.iset_putIset_same _ a _).trans ?_⟩
      rcases CacheSet.indexSelect_cases select with ⟨validA, validB, rfl, rfl⟩ | ⟨validA, validB, rfl, rfl⟩ |
        ⟨validA, validB, rfl, rfl⟩
      all_goals rw [validA, validB] <;> rfl
    | (none, c') =>
      have invalid := CacheSet.indexSelect_none select
      refine ⟨_, exec_cacheIndexInvalidateI_none ok select, s.seq_onlyIset a, ?_⟩
      rw [show c.wayA.valid = false from invalid .A, show c.wayB.valid = false from invalid .B] <;> rfl
  · exact ⟨_, exec_cacheIndexUnlockI ok, s.putIset_onlyIset a _, s.iset_putIset_same a _⟩
  · cases hit : s.iHit a with
    | some w =>
      have drops := c.drops_releaseLock_invalidate w
      refine ⟨_, exec_cacheHitInvalidateI_hit ok hit, s.putIset_onlyIset a _, nofun, ?_⟩
      rintro _ ⟨⟩
      rw [State.seq_iset, State.iset_putIset_same]
      exact ⟨congrArg Line.valid drops.dropped, drops.other, c.lru_releaseLock_invalidate w, c.lock_releaseLock_invalidate w⟩
    | none => exact ⟨_, exec_cacheHitInvalidateI_miss ok hit, s.seq_onlyIset a, fun _ => rfl, nofun⟩
  · exact ⟨_, (exec_cacheFillI ok k).trans (State.fillOp_hit _ _ hit), s.seq_advances⟩
  · exact ⟨_, (exec_cacheFillI ok k).trans (State.fillOp_miss _ _ miss fillOK), State.fillI_miss miss k⟩

/-- Settles O52, by hit, miss and bus error. -/
theorem dataCacheFills : Obligations.DataCacheFills := by
  intro base offset s a
  refine ⟨?_, fun coh ok k => ⟨fun hit => ?_, fun miss fillOK => ?_, fun busError => ⟨fun miss => ?_, fun miss => ?_⟩⟩⟩
  · exact .cons (hasRow_of_statement (TableRow.cacheFillD base offset)) <|
      .cons (hasRow_of_statement (TableRow.cacheFillLockD base offset)) .nil
  · exact ⟨_, (exec_cacheFillD ok k).trans (State.fillOp_hit _ _ hit), s.seq_advances⟩
  · exact ⟨_, (exec_cacheFillD ok k).trans (State.fillOp_miss _ _ miss fillOK), State.fillD_miss coh miss k⟩
  · rw [exec_cacheFillD ok k]
    exact State.fillOp_busErr .data _ miss busError
  · rw [exec_cacheFillI ok k]
    exact State.fillOp_busErr .instruction _ miss busError

/-! ### Create Dirty Exclusive (R299, R303) -/

/-- The way in which Create Dirty Exclusive puts its line. -/
def State.createWay (s : State) (a : Nat) : Way := (s.dHit a).getD (s.dset a).lru

/-- The line that Create Dirty Exclusive makes. -/
def State.createdLine (s : State) (a : Nat) : Line :=
  { valid := true, dirty := true, tag := s.platform.tagOf .data a, data := s.freeLine }

/-- The sets of the data cache after Create Dirty Exclusive. -/
theorem State.createD_dset (s : State) (a b : Nat) (k : Bool) : (s.createD a k).dset b =
    if s.platform.setOf .data b = s.platform.setOf .data a then (s.dset a).place (s.createWay a) (s.createdLine a) k
    else s.dset b := by
  unfold State.createD State.createWay
  cases s.dHit a with
  | some w => exact s.dset_putDset a b _
  | none => exact (s.writebackIfDirty a (s.dset a).lru).dset_putDset a b _

theorem State.createD_dset_same (s : State) (a : Nat) (k : Bool) :
    (s.createD a k).dset a = (s.dset a).place (s.createWay a) (s.createdLine a) k :=
  (s.createD_dset a a k).trans (if_pos rfl)

theorem State.createD_line (s : State) (a : Nat) (k : Bool) :
    ((s.createD a k).dset a).line (s.createWay a) = s.createdLine a := by
  rw [State.createD_dset_same, CacheSet.line_place, if_pos rfl]

theorem State.createD_writebackBuf_hit {s : State} {a : Nat} {w : Way} (hit : s.dHit a = some w) (k : Bool) :
    (s.createD a k).writebackBuf = s.writebackBuf := by
  unfold State.createD
  rw [hit]
  rfl

theorem State.createD_displaces {s : State} {a : Nat} (miss : s.dHit a = none) (k : Bool) :
    Displaces s (s.createD a k) a (s.dset a).lru := by
  unfold State.createD
  rw [miss]
  exact s.installD_displaces a (s.dset a).lru true s.freeLine k

/-- The line that Create Dirty Exclusive has made is found where it was put. -/
theorem State.createD_dHit {s : State} (coh : s.Coherent) {a : Nat} (cached : s.platform.cacheable a = true) (k : Bool) :
    (s.createD a k).dHit a = some (s.createWay a) := by
  have distinct := (State.createD_spec coh cached k).1.distinctAt a
  have line := s.createD_line a k
  refine CacheSet.find_of_valid distinct (congrArg Line.valid line) ?_
  rw [line, State.createD_platform]
  rfl

/-- A line placed with Lock in a set that was not locked is the locked one (R303). -/
theorem CacheSet.locked_place_lock {c : CacheSet} (unlocked : c.lock = false) (v : Way) (l : Line) :
    (c.place v l true).locked v = true := by
  rw [CacheSet.locked_iff]
  exact ⟨Bool.or_true _, if_neg (by simp [unlocked])⟩

/-- Settles O53, by what Create Dirty Exclusive leaves in the set of its address. -/
theorem createDirtyExclusive : Obligations.CreateDirtyExclusive := by
  intro base offset s a c
  refine ⟨?_, fun coh ok k => ?_⟩
  · exact .cons (hasRow_of_statement (TableRow.cacheCreateDirtyD base offset)) <|
      .cons (hasRow_of_statement (TableRow.cacheCreateDirtyLockD base offset)) .nil
  rw [exec_cacheCreateDirtyD ok k]
  refine ⟨fun cached => ?_, fun uncached => if_neg (Bool.eq_false_iff.mp uncached)⟩
  have same : (s.createD a k).dset a = c.place (s.createWay a) (s.createdLine a) k := s.createD_dset_same a k
  refine ⟨(s.createD a k).seq, s.createWay a, if_pos cached, ?_, ?_, fun v hit => ?_, fun miss => ?_,
    State.createD_dHit coh cached k, congrArg Line.dirty (s.createD_line a k), ?_, fun b hb => ?_, ?_,
    (State.createD_spec coh cached k).2.1, s.createD_fetchByte a k⟩
  · rw [State.createD_eq]; rfl
  · rw [State.createD_eq]; exact ⟨rfl, rfl, rfl⟩
  · exact ⟨congrArg (Option.getD · c.lru) hit, State.createD_writebackBuf_hit hit k⟩
  · have way : s.createWay a = c.lru := congrArg (Option.getD · c.lru) miss
    rw [way]
    exact ⟨rfl, State.createD_displaces miss k⟩
  · rw [State.seq_dset, same]
    exact c.place_placed _ _ k
  · exact (s.createD_dset a b k).trans (if_neg hb)
  · rintro rfl unlocked
    rw [State.seq_dset, same]
    exact CacheSet.locked_place_lock unlocked _ _

end Sys2Proof.Machine
end

section
/-! ## Taking an exception, and returning from it (R339, R341 to R343, R348 to R350, R355)

`State.trapCp0_cp0` says what each CP0 register holds after an exception is taken; what is left of the entry into a handler is the
bits of Cause, and the row of R339 that an exception belongs to. -/

namespace Sys2Proof.Machine

/-! ### The rows of R339 -/

/-- The row that an exception belongs to is the one that the model finds for it. -/
theorem HandledBy.eq_find {p : Handlers} {e : Exc} {h : Handler} (row : HandledBy p e h) : h = p.find e := by
  rcases row with ⟨rfl, rfl⟩ | ⟨v, k, rfl, rfl | rfl | rfl, rfl⟩ | ⟨v, rfl, rfl⟩ | ⟨v, k, rfl, rfl⟩ | ⟨v, k, rfl, rfl⟩ |
    ⟨c, rfl, rfl⟩ | ⟨c, rfl, rfl⟩ | ⟨rfl, rfl⟩ | ⟨z, rfl, rfl⟩ | ⟨rfl, rfl⟩ <;> rfl

/-- The numbers of R339, exception by exception. -/
theorem generalCode_find (e : Exc) : GeneralCode e (Handlers.general.find e).code := by
  refine ⟨?_, ?addressErrorLoad, ?_, ?_, ?_, ?_, ?_, ?_, ?_, ?_⟩
  case addressErrorLoad => rintro v (rfl | rfl | rfl) <;> rfl
  all_goals
    intros
    subst e
    rfl

/-- Every row has the two addresses of R342. -/
theorem vectors_find_general (e : Exc) :
    (Handlers.general.find e).vector = 0x80000180#32 ∧ (Handlers.general.find e).bootVector = 0xBFC00380#32 := by
  cases e with
  | addressError _ kind => cases kind <;> exact ⟨rfl, rfl⟩
  | busError _ _ side => cases side <;> exact ⟨rfl, rfl⟩
  | _ => exact ⟨rfl, rfl⟩

/-! ### Cause (R341) -/

/-- Cause.CE after an exception is taken, from what it was: CoprocessorUnusable alone writes it. -/
def Exc.ceAfter (e : Exc) (old : BitVec 2) : BitVec 2 :=
  match e with
  | .coprocessorUnusable z => z
  | _ => old

theorem Exc.ceAfter_of_ne {e : Exc} (h : ∀ z, e ≠ .coprocessorUnusable z) (old : BitVec 2) : e.ceAfter old = old := by
  cases e with
  | coprocessorUnusable z => exact absurd rfl (h z)
  | _ => rfl

section
variable (s : State) (e : Exc)

/-- Each bit of Cause after an exception is taken: CE, ExcCode, BD where EXL was 0, and the others as before. -/
theorem State.getLsbD_causeAfter {i : Nat} (hi : i < 32) : (s.causeAfter e).getLsbD i =
    if 28 ≤ i ∧ i < 30 then (e.ceAfter ((s.cp0 causeReg).extractLsb' 28 2)).getLsbD (i - 28)
    else if 2 ≤ i ∧ i < 7 then (s.excCode e).getLsbD (i - 2)
    else if i = 31 ∧ s.exl = false then s.inDs
    else (s.cp0 causeReg).getLsbD i := by
  have code : (setField (if s.exl then s.cp0 causeReg else setBit (s.cp0 causeReg) 31 s.inDs) 2 5 (s.excCode e)).getLsbD i =
      if 2 ≤ i ∧ i < 7 then (s.excCode e).getLsbD (i - 2)
      else if i = 31 ∧ s.exl = false then s.inDs
      else (s.cp0 causeReg).getLsbD i := by
    rw [getLsbD_setField _ _ _ _ _ hi]
    cases s.exl with
    | true => simp
    | false => simp [getLsbD_setBit _ _ _ _ hi]
  have kept (ce : 28 ≤ i ∧ i < 30) : ((s.cp0 causeReg).extractLsb' 28 2).getLsbD (i - 28) = (s.cp0 causeReg).getLsbD i := by
    rw [BitVec.getLsbD_extractLsb', decide_eq_true (by omega : i - 28 < 2), Nat.add_sub_cancel' ce.1, Bool.true_and]
  cases e with
  | coprocessorUnusable z => exact (getLsbD_setField _ _ _ _ _ hi).trans (if_congr Iff.rfl rfl code)
  | _ =>
    refine code.trans (Eq.symm ?_)
    split
    next ce => rw [if_neg (by omega), if_neg (by omega)]; exact kept ce
    next => rfl

theorem State.excCode_causeAfter : (s.causeAfter e).extractLsb' 2 5 = s.excCode e := by
  refine BitVec.eq_of_getLsbD_eq fun i hi => ?_
  rw [BitVec.getLsbD_extractLsb', s.getLsbD_causeAfter e (by omega), if_neg (by omega), if_pos (by omega), Nat.add_sub_cancel_left]
  simp [hi]

theorem State.ce_causeAfter : (s.causeAfter e).extractLsb' 28 2 = e.ceAfter ((s.cp0 causeReg).extractLsb' 28 2) := by
  refine BitVec.eq_of_getLsbD_eq fun i hi => ?_
  rw [BitVec.getLsbD_extractLsb', s.getLsbD_causeAfter e (by omega), if_pos (by omega), Nat.add_sub_cancel_left]
  simp [hi]

theorem State.bd_causeAfter : (s.causeAfter e).getLsbD 31 = if s.exl then (s.cp0 causeReg).getLsbD 31 else s.inDs := by
  rw [s.getLsbD_causeAfter e (by decide)]
  cases s.exl <;> rfl

theorem State.getLsbD_causeAfter_other {i : Nat} (hi : i < 31) (notCE : ¬ (28 ≤ i ∧ i < 30)) (notCode : ¬ (2 ≤ i ∧ i < 7)) :
    (s.causeAfter e).getLsbD i = (s.cp0 causeReg).getLsbD i := by
  rw [s.getLsbD_causeAfter e (by omega), if_neg notCE, if_neg notCode, if_neg (by omega)]

/-! ### The entry into a handler (R341, R342) -/

theorem State.trapEntry_status :
    (s.trapEntry e).cp0 statusReg = setBit (s.cp0 statusReg) 1 true := (s.trapCp0_cp0 e statusReg).trans (if_pos rfl)

theorem State.trapEntry_cause : (s.trapEntry e).cp0 causeReg = s.causeAfter e := s.trapCp0_cp0 e causeReg

theorem State.trapEntry_epc : (s.trapEntry e).cp0 epcReg = if s.exl then s.cp0 epcReg else s.restartAddress :=
  s.trapCp0_cp0 e epcReg

theorem State.trapEntry_cp0_other {r : Reg} (status : r ≠ statusReg) (cause : r ≠ causeReg) (epc : r ≠ epcReg)
    (badVAddr : r ≠ badVAddrReg) : (s.trapEntry e).cp0 r = s.cp0 r := by
  rw [State.trapEntry_cp0, State.trapCp0_cp0, if_neg status, if_neg cause, if_neg epc, if_neg badVAddr]

theorem State.trapEntry_badVAddr (v : Word) (k : Access) : (s.trapEntry (.addressError v k)).cp0 badVAddrReg = v :=
  s.trapCp0_cp0 (.addressError v k) badVAddrReg

theorem State.trapEntry_badVAddr_kept {e : Exc} (h : ∀ v k, e ≠ .addressError v k) :
    (s.trapEntry e).cp0 badVAddrReg = s.cp0 badVAddrReg := by
  refine (s.trapCp0_cp0 e badVAddrReg).trans ?_
  cases e with
  | addressError v k => exact absurd rfl (h v k)
  | _ => rfl

/-- Of Status only EXL changes (R341). -/
theorem State.trapEntry_status_bit {i : Nat} (hi : i < 32) :
    ((s.trapEntry e).cp0 statusReg).getLsbD i = if i = 1 then true else (s.cp0 statusReg).getLsbD i := by
  rw [State.trapEntry_status, getLsbD_setBit _ _ _ _ hi]

/-- The code and the vector are those of the exception's row (R339, R342). -/
theorem State.trapEntry_handled {e : Exc} {h : Handler} (row : HandledBy s.platform.handlers e h) :
    (s.trapEntry e).pc = (if s.bev then h.bootVector else h.vector) ∧
      ((s.trapEntry e).cp0 causeReg).extractLsb' 2 5 = h.code := by
  rw [State.trapEntry_cause, State.excCode_causeAfter, row.eq_find]
  exact ⟨rfl, rfl⟩

/-- By the launch's default they are the numbers of R339 and the two addresses of R342. -/
theorem State.trapEntry_general (general : s.platform.handlers = Handlers.general) :
    (s.trapEntry e).pc = (if s.bev then 0xBFC00380#32 else 0x80000180#32) ∧
      GeneralCode e (((s.trapEntry e).cp0 causeReg).extractLsb' 2 5) := by
  obtain ⟨vector, bootVector⟩ := vectors_find_general e
  rw [State.trapEntry_cause, State.excCode_causeAfter, State.excCode, State.trapEntry_pc, State.vectorOf, general, vector,
    bootVector]
  exact ⟨rfl, generalCode_find e⟩

end

/-- To take an exception is the model's entry into its handler. -/
theorem Takes.eq {s t : State} {e : Exc} (takes : Takes s t e) : t = s.trapEntry e := takes

/-- Settles O37, register by register. -/
theorem trapEntry : Obligations.TrapEntry := by
  intro s t e takes
  obtain rfl := takes.eq
  refine ⟨s.trapEntry_mode e, rfl, rfl, fun _ => ⟨rfl, rfl⟩, fun _ => rfl, fun h => s.trapEntry_handled,
    s.trapEntry_general e, fun i => s.trapEntry_status_bit e, fun exl => ?_, ?_, fun kept => ?_, fun i hi notCode => ?_, ?_, ?_,
    s.trapEntry_badVAddr_kept, fun r => s.trapEntry_cp0_other e⟩
  · rw [State.trapEntry_epc, State.trapEntry_cause, State.bd_causeAfter, exl]
    exact ⟨rfl, rfl⟩
  · rintro z rfl
    rw [State.trapEntry_cause, State.ce_causeAfter]
    rfl
  · rw [State.trapEntry_cause, State.ce_causeAfter, Exc.ceAfter_of_ne kept]
  · rw [State.trapEntry_cause, s.getLsbD_causeAfter_other e (by omega) (by omega) notCode]
  · rw [State.trapEntry_cause, s.getLsbD_causeAfter_other e (by decide) (by decide) (by decide)]
  · rintro v k rfl
    exact s.trapEntry_badVAddr v k

/-- Settles O38: with EXL at 1 the entry leaves EPC and BD. -/
theorem nestedException : Obligations.NestedException := by
  intro s t e takes exl
  obtain rfl := takes.eq
  refine ⟨?_, ?_, fun h row => (s.trapEntry_handled row).symm, fun general => (s.trapEntry_general e general).2,
    s.trapEntry_exl e⟩
  · rw [State.trapEntry_epc, exl]
    rfl
  · rw [State.trapEntry_cause, State.bd_causeAfter, exl]
    rfl

/-! ### Returning (R348) -/

/-- The mode is read from Status alone (R355). -/
theorem State.mode_congr_status {s u : State} (status : u.cp0 statusReg = s.cp0 statusReg) : u.mode = s.mode := by
  unfold State.mode State.exl State.erl State.ksu
  rw [status]

/-- A bit that is clear, set and cleared again. -/
theorem setBit_setBit_cancel {w : Word} {k : Nat} (clear : w.getLsbD k = false) : setBit (setBit w k true) k false = w := by
  refine BitVec.eq_of_getLsbD_eq fun i hi => ?_
  rw [getLsbD_setBit _ _ _ _ hi, getLsbD_setBit _ _ _ _ hi]
  split
  next eq => rw [eq, clear]
  next => rfl

section
variable {s : State} (e : Exc)

/-- The entry into a handler leaves ERL as it is. -/
theorem State.trapEntry_erl : (s.trapEntry e).erl = s.erl := s.trapEntry_status_bit e (i := 2) (by decide)

/-- Where `eret` goes from a handler that was entered from outside every exception level. -/
theorem State.trapEntry_eretTarget (exl : s.exl = false) (erl : s.erl = false) :
    (s.trapEntry e).eretTarget = s.restartAddress := by
  rw [State.eretTarget, State.trapEntry_erl, erl, State.trapEntry_epc, exl]
  rfl

theorem State.trapEntry_eretStatus (exl : s.exl = false) (erl : s.erl = false) :
    (s.trapEntry e).eretStatus = s.cp0 statusReg := by
  rw [State.eretStatus, State.trapEntry_erl, erl, State.trapEntry_status]
  exact setBit_setBit_cancel exl

/-- Every CP0 register but EPC, Cause and BadVAddr after an exception and its `eret`. -/
theorem State.trapEntry_eretReturn_cp0 (exl : s.exl = false) (erl : s.erl = false) {r : Reg} (epc : r ≠ epcReg)
    (cause : r ≠ causeReg) (badVAddr : r ≠ badVAddrReg) : (s.trapEntry e).eretReturn.cp0 r = s.cp0 r := by
  rw [State.eretReturn_cp0]
  split
  next status => rw [State.trapEntry_eretStatus e exl erl, status]
  next status => exact s.trapEntry_cp0_other e status cause epc badVAddr

end

/-- Settles O39: `eret` undoes EXL, and goes to the restart address that the entry put into EPC. -/
theorem returnFromException : Obligations.ReturnFromException := by
  intro s t e takes exl erl
  obtain rfl := takes.eq
  refine ⟨fun general => ?_, fun usable => ?_⟩
  · rw [Cop0OK, State.cop0Usable_general0 (s := s.trapEntry e) general (s.trapEntry_mode e), beq_self_eq_true, Bool.or_true]
  · have status : (s.trapEntry e).eretReturn.cp0 statusReg = s.cp0 statusReg :=
      State.trapEntry_eretReturn_cp0 e exl erl (by decide) (by decide) (by decide)
    exact ⟨_, exec_eret usable, State.trapEntry_eretTarget e exl erl, rfl, rfl, status, State.mode_congr_status status, rfl,
      fun r => State.trapEntry_eretReturn_cp0 e exl erl, rfl, fun _ => ⟨rfl, rfl⟩⟩

end Sys2Proof.Machine
end

section
/-! ## The restrictions (R379 to R383)

A restriction on an instruction's own fields is the test that the instruction begins with; one on its neighbours is looked for
before the instruction, by its delay slot and then by the history, and `Violates` splits in the same way. -/

namespace Sys2Proof.Machine

/-! ### The fields of one instruction (R380 c, e, h, i, j, k) -/

/-- An instruction that begins with the test of a restriction is refused where the test says it is broken. -/
theorem refused_of_broken {p : Prop} [Decidable p] {broken r : Restriction} (h : (if p then some broken else none) = some r)
    (k : Result) : (if p then .refused (.restriction broken) else k) = (.refused (.restriction r) : Result) := by
  obtain ⟨hp, ⟨⟩⟩ := Option.ite_none_right_eq_some.mp h
  rw [if_pos hp]

/-- Settles O7: each refusal is the test that the instruction begins with. -/
theorem fieldRestrictionsRefused : Obligations.FieldRestrictionsRefused := by
  intro i r s h
  cases i
  case bgezal | bgezall | bltzal | bltzall | jalr | ext | ins => exact refused_of_broken h _
  case cfc1 rt fs =>
    obtain ⟨other, ⟨⟩⟩ := Option.ite_none_left_eq_some.mp h
    obtain ⟨not0, not31⟩ := not_or.mp other
    exact (if_neg not0).trans (if_neg not31)
  case ctc1 rt fs =>
    obtain ⟨not31, ⟨⟩⟩ := Option.ite_none_left_eq_some.mp h
    exact if_neg not31
  all_goals cases h

/-! ### Looking for the first restriction that is broken -/

theorem ite_some_eq_none_iff {α : Type} {p : Prop} [Decidable p] {a : α} {x : Option α} :
    (if p then some a else x) = none ↔ ¬ p ∧ x = none := by
  split
  next hp => simp [hp]
  next hp => simp [hp]

/-! ### The delay slot it stands in (R380 a, a', b, d, f, l) -/

/-- What the instruction in the slot of `o` does that the slot of `o` may not hold (R380 d, f, l). -/
def ClashesWithOwner (o i : Instr) : Prop :=
  (writesLink o = true ∧ dstReg i = some linkReg) ∨ (isFpuBranch o = true ∧ isCtc1 i = true) ∨
    ∃ rd rs, o = .jalr rd rs ∧ (dstReg i = some rd ∨ dstReg i = some rs)

/-- The instruction may not stand in the delay slot that it stands in. -/
def SlotViolation (s : State) (i : Instr) : Prop :=
  s.inDs = true ∧ ((isCompareBranch i = true ∨ isFpuBranch i = true ∨ isJump i = true ∨ i = .eret) ∨
    ∃ o, s.owner = some o ∧ ClashesWithOwner o i)

theorem slotRestriction_eq_none_iff (s : State) (i : Instr) : slotRestriction i s = none ↔ ¬ SlotViolation s i := by
  cases inDs : s.inDs with
  | false => simp [slotRestriction, SlotViolation, inDs]
  | true =>
    cases owner : s.owner with
    | none => simp [slotRestriction, SlotViolation, inDs, owner, ite_some_eq_none_iff, and_assoc]
    | some o =>
      simp only [slotRestriction, SlotViolation, inDs, owner, ite_some_eq_none_iff, ClashesWithOwner, Option.some.injEq,
        exists_eq_left', Bool.not_true, Bool.false_eq_true, if_false]
      split
      next rd rs =>
        have written : dstReg i = some rd ∨ dstReg i = some rs → dstReg i ≠ none := by
          rintro (h | h) <;> simp [h]
        simp [and_iff_right_of_imp written, and_assoc]
      next notJalr =>
        have unclashing : ¬ ∃ rd rs, o = .jalr rd rs ∧ (dstReg i = some rd ∨ dstReg i = some rs) :=
          fun ⟨rd, rs, h, _⟩ => notJalr rd rs h
        simp [unclashing, and_assoc]

/-! ### The instructions before it (R380 g, R381, R382) -/

/-- What the instruction after `h` does that may not follow it (R381, R382). -/
def ClashesWithLast (s : State) (i h : Instr) : Prop :=
  (∃ rt fs, h = .cfc1 rt fs ∧ rt ≠ 0#5 ∧ (rt ∈ srcRegs i ∨ dstReg i = some rt)) ∨
  (∃ rt fs, h = .ctc1 rt fs ∧ (refersToFcr31 i = true ∨ (isCtc1 i = true ∧ s.h1FpTrap = true)))

/-- The instruction may not follow the one or two executed before it. -/
def HistoryViolation (s : State) (i : Instr) : Prop :=
  (i = .eret ∧ ∃ rt rd, s.h1 = some (.mtc0 rt rd) ∨ s.h2 = some (.mtc0 rt rd)) ∨ ∃ h, s.h1 = some h ∧ ClashesWithLast s i h

theorem isMtc0_iff (i : Instr) : isMtc0 i = true ↔ ∃ rt rd, i = .mtc0 rt rd := by
  cases i <;> simp [isMtc0]

theorem any_isMtc0_iff (h : Option Instr) : h.any isMtc0 = true ↔ ∃ rt rd, h = some (.mtc0 rt rd) := by
  simp [Option.any_eq_true, isMtc0_iff]

theorem historyRestriction_eq_none_iff (s : State) (i : Instr) : historyRestriction i s = none ↔ ¬ HistoryViolation s i := by
  simp only [historyRestriction, HistoryViolation, ite_some_eq_none_iff, Bool.and_eq_true, Bool.or_eq_true, any_isMtc0_iff]
  split
  next rt fs h1 => simp [ClashesWithLast, h1]
  next rt fs h1 => simp [ClashesWithLast, h1, ite_some_eq_none_iff]
  next notCfc1 notCtc1 =>
    have unclashing : ¬ ∃ h, s.h1 = some h ∧ ClashesWithLast s i h := by
      rintro ⟨_, h1, ⟨rt, fs, rfl, _⟩ | ⟨rt, fs, rfl, _⟩⟩
      · exact notCfc1 rt fs h1
      · exact notCtc1 rt fs h1
    simp [unclashing, forall_and]

/-! ### Every restriction on neighbours -/

/-- The five clauses of `Violates`, the two about the delay slot and the three about the history taken together. -/
theorem violates_iff (s : State) (i : Instr) : Violates s i ↔ SlotViolation s i ∨ HistoryViolation s i := by
  unfold Violates SlotViolation HistoryViolation ClashesWithOwner ClashesWithLast
  grind

/-- A restriction is found exactly where one is broken. -/
theorem State.restrictionAt_eq_none_iff (s : State) (i : Instr) : s.restrictionAt i = none ↔ ¬ Violates s i := by
  rw [violates_iff, not_or, ← slotRestriction_eq_none_iff, ← historyRestriction_eq_none_iff, State.restrictionAt]
  cases slotRestriction i s with
  | some r => simp
  | none => simp

/-- A step whose fetch meets no exception goes by the word fetched. -/
theorem step_of_fetchOK {s : State} (ok : FetchOK s.drainSome) :
    step s = s.drainSome.fetched.runDecoded (decode s.drainSome.fetchedWord) := by
  obtain ⟨running, aligned, m, mode, permitted, noBusError⟩ := ok
  rw [s.drainSome_halted] at running
  rw [step_of_not_halted running, State.fetchChecked_ok aligned mode permitted noBusError]

theorem State.runInstr_of_restricted {s : State} {i : Instr} {r : Restriction} (broken : s.restrictionAt i = some r) :
    s.runInstr i = .refused (.restriction r) := by
  unfold State.runInstr
  rw [broken]

/-- Settles O6: the restriction that is looked for is found exactly where one is broken. -/
theorem restrictionsRefused : Obligations.RestrictionsRefused := by
  intro s i ok word
  have found := s.drainSome.fetched.restrictionAt_eq_none_iff i
  refine ⟨fun violates => ?_, found.mpr⟩
  obtain ⟨r, broken⟩ := Option.ne_none_iff_exists'.mp fun free => found.mp free violates
  refine ⟨r, ?_⟩
  rw [step_of_fetchOK ok, word]
  exact State.runInstr_of_restricted broken

end Sys2Proof.Machine
end
